-- ==== Sys2Proof/Word.lean ====
section
/-! DEFINITION. The two word types of the block: a byte of its streams and buffers (00_scope R14, R15) and a
command word of format CMD (30_encoding R106). Every other quantity of the spec is a natural (46_arithmetic R290). -/

namespace Sys2Proof

/-- A byte: bit 0 is its least significant bit (R15). -/
abbrev Byte := BitVec 8

/-- A 32-bit command word (R106). -/
abbrev Word := BitVec 32

end Sys2Proof
end

