-- ==== Sys2Proof/Syntax.lean ====
section
/-! DEFINITION. The instructions: one constructor per row of spec/opcode_table.json, 32 operations of format CMD
(30_encoding R107) and 79 wire elements (R90, R112), and the formats their encodings belong to. -/

namespace Sys2Proof

/-- The format an encoding belongs to: the command word (R106), the fields of BLKHDR, DYNHDR and CLLEN taken one
by one (R92 to R94), the three Huffman-coded formats on their decoded symbol number (R95 to R97, R112), and the
padding bit (R111). -/
inductive Format where
  | cmd
  | bfinal
  | btype
  | hlit
  | hdist
  | hclen
  | cllen
  | clsym
  | litlen
  | dist
  | pad
  deriving DecidableEq, Repr

/-- The instructions. Operands are naturals (R14, R290) that fit their field; single bits are `Bool`. -/
inductive Instr where
  -- system (R340, R316)
  | coreReset
  | coreStatus
  -- bit-stream unit (R130 to R135)
  | bsWbit (b : Bool)
  | bsWbits (n v : Nat)
  | bsWcode (l c : Nat)
  | bsFlush
  | bsRbit
  | bsRbits (n : Nat)
  -- code tables (R153 to R156)
  | tblLensym (len : Nat)
  | tblDistsym (dist : Nat)
  | tblLenval (s e : Nat)
  | tblDistval (d e : Nat)
  -- matcher (R170 to R180)
  | lzReset
  | lzInsert (p : Nat)
  | lzFind (i : Nat)
  | lzEncode (n : Nat)
  | lzDecode
  -- Huffman unit (R200, R206, R210)
  | hufBuild (a : Nat)
  | hufCanon (a : Nat)
  | symDec (a : Nat)
  -- run-length codec and header (R230 to R245)
  | rleEnc
  | rleDec (total : Nat)
  | hdrSize
  | hdrBuild
  | hdrWrite
  | hdrRead
  -- block orchestrator (R260 to R282)
  | blkFreq
  | symEmit (k : Nat)
  | blkEnc (n : Nat) (final : Bool)
  | blkDec
  | strmDec
  | strmClose
  -- wire elements: block header fields (R92 to R94, R103)
  | bfinal (f : Bool)
  | btypeStored
  | btypeFixed
  | btypeDynamic
  | btypeReserved
  | hlit (a : Nat)
  | hdist (d : Nat)
  | hclen (c : Nat)
  | cllen (l : Nat)
  -- wire elements: code-length symbols (R95, R102)
  | clLen (v : Nat)
  | clRep
  | clZ3
  | clZ11
  -- wire elements: literal/length symbols (R96, R100)
  | lit (b : Byte)
  | eob
  | len257
  | len258
  | len259
  | len260
  | len261
  | len262
  | len263
  | len264
  | len265
  | len266
  | len267
  | len268
  | len269
  | len270
  | len271
  | len272
  | len273
  | len274
  | len275
  | len276
  | len277
  | len278
  | len279
  | len280
  | len281
  | len282
  | len283
  | len284
  | len285
  | litlenIllegal286
  | litlenIllegal287
  -- wire elements: distance symbols (R97, R101)
  | dist0
  | dist1
  | dist2
  | dist3
  | dist4
  | dist5
  | dist6
  | dist7
  | dist8
  | dist9
  | dist10
  | dist11
  | dist12
  | dist13
  | dist14
  | dist15
  | dist16
  | dist17
  | dist18
  | dist19
  | dist20
  | dist21
  | dist22
  | dist23
  | dist24
  | dist25
  | dist26
  | dist27
  | dist28
  | dist29
  | distIllegal30
  | distIllegal31
  -- the padding bit (R111)
  | pad
  deriving DecidableEq, Repr

end Sys2Proof
end

