-- ==== Sys2Proof/WellFormed.lean ====
section
/-! DEFINITION. Which instructions are well formed: every operand fits the field its encoding gives it
(30_encoding R107; R93, R94, R102 for the wire elements). -/

namespace Sys2Proof

/-- Every operand fits its field. Operands the spec refuses (R318) are still well formed as long as they can be
encoded. -/
def Instr.wellFormed : Instr → Bool
  | .bsWbits n v => n < 32 && v < 65536
  | .bsWcode l c => l < 16 && c < 32768
  | .bsRbits n => n < 32
  | .tblLensym len => len < 512
  | .tblDistsym dist => dist < 65536
  | .tblLenval s e => s < 512 && e < 32
  | .tblDistval d e => d < 32 && e < 8192
  | .lzInsert p => p < 131072
  | .lzFind i => i < 131072
  | .lzEncode n => n < 131072
  | .hufBuild a => a < 4
  | .hufCanon a => a < 4
  | .symDec a => a < 4
  | .rleDec total => total < 1024
  | .symEmit k => k < 131072
  | .blkEnc n _ => n < 131072
  | .hlit a => a < 32
  | .hdist d => d < 32
  | .hclen c => c < 16
  | .cllen l => l < 8
  | .clLen v => v < 16
  | .coreReset | .coreStatus | .bsWbit _ | .bsFlush | .bsRbit | .lzReset | .lzDecode | .rleEnc | .hdrSize |
  .hdrBuild | .hdrWrite | .hdrRead | .blkFreq | .blkDec | .strmDec | .strmClose | .bfinal _ | .btypeStored |
  .btypeFixed | .btypeDynamic | .btypeReserved | .clRep | .clZ3 | .clZ11 | .lit _ | .eob | .len257 | .len258 |
  .len259 | .len260 | .len261 | .len262 | .len263 | .len264 | .len265 | .len266 | .len267 | .len268 | .len269 |
  .len270 | .len271 | .len272 | .len273 | .len274 | .len275 | .len276 | .len277 | .len278 | .len279 | .len280 |
  .len281 | .len282 | .len283 | .len284 | .len285 | .litlenIllegal286 | .litlenIllegal287 | .dist0 | .dist1 |
  .dist2 | .dist3 | .dist4 | .dist5 | .dist6 | .dist7 | .dist8 | .dist9 | .dist10 | .dist11 | .dist12 | .dist13
  | .dist14 | .dist15 | .dist16 | .dist17 | .dist18 | .dist19 | .dist20 | .dist21 | .dist22 | .dist23 | .dist24
  | .dist25 | .dist26 | .dist27 | .dist28 | .dist29 | .distIllegal30 | .distIllegal31 | .pad => true

end Sys2Proof
end

