-- ==== Sys2Proof/Decode.lean ====
section
/-! DEFINITION. The decoder, total on any bits and rejecting by `none`: command words (30_encoding R106, R107) and
wire elements by format (R92 to R97, R100 to R103, R112). After it the encoder, from the same tables, and the
numbering of spec/opcode_table.json. -/

namespace Sys2Proof

/-- The field of `v` that is `width` bits wide and begins at bit `lo`: `v[lo+width-1 : lo]` (R15). -/
def field (v lo width : Nat) : Nat := v / 2 ^ lo % 2 ^ width

/-- A single bit of `v` (R15). -/
def fieldBit (v lo : Nat) : Bool := field v lo 1 = 1

/-- The operation a command word asks for (R106, R107): the row is selected on bits 7:0 alone, bits outside the
operand fields are not looked at (U17). `none`: the opcode is reserved. -/
def decodeCmd (w : Word) : Option Instr :=
  let v := w.toNat
  match field v 0 8 with
  | 0x00 => some .coreReset
  | 0x01 => some .coreStatus
  | 0x10 => some (.bsWbit (fieldBit v 8))
  | 0x11 => some (.bsWbits (field v 8 5) (field v 13 16))
  | 0x12 => some (.bsWcode (field v 8 4) (field v 12 15))
  | 0x13 => some .bsFlush
  | 0x14 => some .bsRbit
  | 0x15 => some (.bsRbits (field v 8 5))
  | 0x18 => some (.tblLensym (field v 8 9))
  | 0x19 => some (.tblDistsym (field v 8 16))
  | 0x1A => some (.tblLenval (field v 8 9) (field v 17 5))
  | 0x1B => some (.tblDistval (field v 8 5) (field v 13 13))
  | 0x20 => some .lzReset
  | 0x21 => some (.lzInsert (field v 8 17))
  | 0x22 => some (.lzFind (field v 8 17))
  | 0x23 => some (.lzEncode (field v 8 17))
  | 0x24 => some .lzDecode
  | 0x30 => some (.hufBuild (field v 8 2))
  | 0x31 => some (.hufCanon (field v 8 2))
  | 0x32 => some (.symDec (field v 8 2))
  | 0x40 => some .rleEnc
  | 0x41 => some (.rleDec (field v 8 10))
  | 0x42 => some .hdrSize
  | 0x43 => some .hdrBuild
  | 0x44 => some .hdrWrite
  | 0x45 => some .hdrRead
  | 0x50 => some .blkFreq
  | 0x51 => some (.symEmit (field v 8 17))
  | 0x52 => some (.blkEnc (field v 8 17) (fieldBit v 25))
  | 0x53 => some .blkDec
  | 0x54 => some .strmDec
  | 0x55 => some .strmClose
  | _ => none

/-- The BTYPE element of a 2-bit field value (R103). -/
def decodeBtype : Nat → Option Instr
  | 0 => some .btypeStored
  | 1 => some .btypeFixed
  | 2 => some .btypeDynamic
  | 3 => some .btypeReserved
  | _ => none

/-- The CLSYM element of a decoded symbol number (R102): symbols 19 and above cannot occur. -/
def decodeClsym (c : Nat) : Option Instr :=
  if c < 16 then some (.clLen c)
  else match c with
    | 16 => some .clRep
    | 17 => some .clZ3
    | 18 => some .clZ11
    | _ => none

/-- The LITLEN element of a decoded symbol number above 255 (R100). -/
def decodeLenSym : Nat → Option Instr
  | 256 => some .eob
  | 257 => some .len257
  | 258 => some .len258
  | 259 => some .len259
  | 260 => some .len260
  | 261 => some .len261
  | 262 => some .len262
  | 263 => some .len263
  | 264 => some .len264
  | 265 => some .len265
  | 266 => some .len266
  | 267 => some .len267
  | 268 => some .len268
  | 269 => some .len269
  | 270 => some .len270
  | 271 => some .len271
  | 272 => some .len272
  | 273 => some .len273
  | 274 => some .len274
  | 275 => some .len275
  | 276 => some .len276
  | 277 => some .len277
  | 278 => some .len278
  | 279 => some .len279
  | 280 => some .len280
  | 281 => some .len281
  | 282 => some .len282
  | 283 => some .len283
  | 284 => some .len284
  | 285 => some .len285
  | 286 => some .litlenIllegal286
  | 287 => some .litlenIllegal287
  | _ => none

/-- The LITLEN element of a decoded symbol number (R100). -/
def decodeLitlen (s : Nat) : Option Instr :=
  if s < 256 then some (.lit (BitVec.ofNat 8 s)) else decodeLenSym s

/-- The DIST element of a decoded symbol number (R101). -/
def decodeDist : Nat → Option Instr
  | 0 => some .dist0
  | 1 => some .dist1
  | 2 => some .dist2
  | 3 => some .dist3
  | 4 => some .dist4
  | 5 => some .dist5
  | 6 => some .dist6
  | 7 => some .dist7
  | 8 => some .dist8
  | 9 => some .dist9
  | 10 => some .dist10
  | 11 => some .dist11
  | 12 => some .dist12
  | 13 => some .dist13
  | 14 => some .dist14
  | 15 => some .dist15
  | 16 => some .dist16
  | 17 => some .dist17
  | 18 => some .dist18
  | 19 => some .dist19
  | 20 => some .dist20
  | 21 => some .dist21
  | 22 => some .dist22
  | 23 => some .dist23
  | 24 => some .dist24
  | 25 => some .dist25
  | 26 => some .dist26
  | 27 => some .dist27
  | 28 => some .dist28
  | 29 => some .dist29
  | 30 => some .distIllegal30
  | 31 => some .distIllegal31
  | _ => none

/-- The instruction that the bits `v` of an encoding of format `f` stand for. -/
def decode (f : Format) (v : Nat) : Option Instr :=
  match f with
  | .cmd => if v < 2 ^ 32 then decodeCmd (BitVec.ofNat 32 v) else none
  | .bfinal => if v < 2 then some (.bfinal (fieldBit v 0)) else none
  | .btype => decodeBtype v
  | .hlit => if v < 32 then some (.hlit v) else none
  | .hdist => if v < 32 then some (.hdist v) else none
  | .hclen => if v < 16 then some (.hclen v) else none
  | .cllen => if v < 8 then some (.cllen v) else none
  | .clsym => decodeClsym v
  | .litlen => decodeLitlen v
  | .dist => decodeDist v
  | .pad => if v < 2 then some .pad else none

/-- The encoding of an instruction: its format and the bits (R106, R107; R92 to R97, R112). Unused bits of a
command word are 0. -/
def encode : Instr → Format × Nat
  | .coreReset => (.cmd, 0x00)
  | .coreStatus => (.cmd, 0x01)
  | .bsWbit b => (.cmd, 0x10 + b.toNat * 2 ^ 8)
  | .bsWbits n v => (.cmd, 0x11 + n * 2 ^ 8 + v * 2 ^ 13)
  | .bsWcode l c => (.cmd, 0x12 + l * 2 ^ 8 + c * 2 ^ 12)
  | .bsFlush => (.cmd, 0x13)
  | .bsRbit => (.cmd, 0x14)
  | .bsRbits n => (.cmd, 0x15 + n * 2 ^ 8)
  | .tblLensym len => (.cmd, 0x18 + len * 2 ^ 8)
  | .tblDistsym dist => (.cmd, 0x19 + dist * 2 ^ 8)
  | .tblLenval s e => (.cmd, 0x1A + s * 2 ^ 8 + e * 2 ^ 17)
  | .tblDistval d e => (.cmd, 0x1B + d * 2 ^ 8 + e * 2 ^ 13)
  | .lzReset => (.cmd, 0x20)
  | .lzInsert p => (.cmd, 0x21 + p * 2 ^ 8)
  | .lzFind i => (.cmd, 0x22 + i * 2 ^ 8)
  | .lzEncode n => (.cmd, 0x23 + n * 2 ^ 8)
  | .lzDecode => (.cmd, 0x24)
  | .hufBuild a => (.cmd, 0x30 + a * 2 ^ 8)
  | .hufCanon a => (.cmd, 0x31 + a * 2 ^ 8)
  | .symDec a => (.cmd, 0x32 + a * 2 ^ 8)
  | .rleEnc => (.cmd, 0x40)
  | .rleDec total => (.cmd, 0x41 + total * 2 ^ 8)
  | .hdrSize => (.cmd, 0x42)
  | .hdrBuild => (.cmd, 0x43)
  | .hdrWrite => (.cmd, 0x44)
  | .hdrRead => (.cmd, 0x45)
  | .blkFreq => (.cmd, 0x50)
  | .symEmit k => (.cmd, 0x51 + k * 2 ^ 8)
  | .blkEnc n final => (.cmd, 0x52 + n * 2 ^ 8 + final.toNat * 2 ^ 25)
  | .blkDec => (.cmd, 0x53)
  | .strmDec => (.cmd, 0x54)
  | .strmClose => (.cmd, 0x55)
  | .bfinal f => (.bfinal, f.toNat)
  | .btypeStored => (.btype, 0)
  | .btypeFixed => (.btype, 1)
  | .btypeDynamic => (.btype, 2)
  | .btypeReserved => (.btype, 3)
  | .hlit a => (.hlit, a)
  | .hdist d => (.hdist, d)
  | .hclen c => (.hclen, c)
  | .cllen l => (.cllen, l)
  | .clLen v => (.clsym, v)
  | .clRep => (.clsym, 16)
  | .clZ3 => (.clsym, 17)
  | .clZ11 => (.clsym, 18)
  | .lit b => (.litlen, b.toNat)
  | .eob => (.litlen, 256)
  | .len257 => (.litlen, 257)
  | .len258 => (.litlen, 258)
  | .len259 => (.litlen, 259)
  | .len260 => (.litlen, 260)
  | .len261 => (.litlen, 261)
  | .len262 => (.litlen, 262)
  | .len263 => (.litlen, 263)
  | .len264 => (.litlen, 264)
  | .len265 => (.litlen, 265)
  | .len266 => (.litlen, 266)
  | .len267 => (.litlen, 267)
  | .len268 => (.litlen, 268)
  | .len269 => (.litlen, 269)
  | .len270 => (.litlen, 270)
  | .len271 => (.litlen, 271)
  | .len272 => (.litlen, 272)
  | .len273 => (.litlen, 273)
  | .len274 => (.litlen, 274)
  | .len275 => (.litlen, 275)
  | .len276 => (.litlen, 276)
  | .len277 => (.litlen, 277)
  | .len278 => (.litlen, 278)
  | .len279 => (.litlen, 279)
  | .len280 => (.litlen, 280)
  | .len281 => (.litlen, 281)
  | .len282 => (.litlen, 282)
  | .len283 => (.litlen, 283)
  | .len284 => (.litlen, 284)
  | .len285 => (.litlen, 285)
  | .litlenIllegal286 => (.litlen, 286)
  | .litlenIllegal287 => (.litlen, 287)
  | .dist0 => (.dist, 0)
  | .dist1 => (.dist, 1)
  | .dist2 => (.dist, 2)
  | .dist3 => (.dist, 3)
  | .dist4 => (.dist, 4)
  | .dist5 => (.dist, 5)
  | .dist6 => (.dist, 6)
  | .dist7 => (.dist, 7)
  | .dist8 => (.dist, 8)
  | .dist9 => (.dist, 9)
  | .dist10 => (.dist, 10)
  | .dist11 => (.dist, 11)
  | .dist12 => (.dist, 12)
  | .dist13 => (.dist, 13)
  | .dist14 => (.dist, 14)
  | .dist15 => (.dist, 15)
  | .dist16 => (.dist, 16)
  | .dist17 => (.dist, 17)
  | .dist18 => (.dist, 18)
  | .dist19 => (.dist, 19)
  | .dist20 => (.dist, 20)
  | .dist21 => (.dist, 21)
  | .dist22 => (.dist, 22)
  | .dist23 => (.dist, 23)
  | .dist24 => (.dist, 24)
  | .dist25 => (.dist, 25)
  | .dist26 => (.dist, 26)
  | .dist27 => (.dist, 27)
  | .dist28 => (.dist, 28)
  | .dist29 => (.dist, 29)
  | .distIllegal30 => (.dist, 30)
  | .distIllegal31 => (.dist, 31)
  | .pad => (.pad, 0)

/-- May the host issue the operation (R107, column "host")? The sequencer's own steps and the wire elements it may
not. -/
def Instr.hostIssuable : Instr → Bool
  | .coreReset | .coreStatus | .bsWbit _ | .bsWbits _ _ | .bsWcode _ _ | .bsFlush | .bsRbit | .bsRbits _ |
  .tblLensym _ | .tblDistsym _ | .tblLenval _ _ | .tblDistval _ _ | .lzReset | .lzEncode _ | .lzDecode |
  .hufBuild _ | .hufCanon _ | .rleEnc | .rleDec _ | .blkEnc _ _ | .blkDec | .strmDec | .strmClose => true
  | .lzInsert _ | .lzFind _ | .symDec _ | .hdrSize | .hdrBuild | .hdrWrite | .hdrRead | .blkFreq | .symEmit _ |
  .bfinal _ | .btypeStored | .btypeFixed | .btypeDynamic | .btypeReserved | .hlit _ | .hdist _ | .hclen _ |
  .cllen _ | .clLen _ | .clRep | .clZ3 | .clZ11 | .lit _ | .eob | .len257 | .len258 | .len259 | .len260 |
  .len261 | .len262 | .len263 | .len264 | .len265 | .len266 | .len267 | .len268 | .len269 | .len270 | .len271 |
  .len272 | .len273 | .len274 | .len275 | .len276 | .len277 | .len278 | .len279 | .len280 | .len281 | .len282 |
  .len283 | .len284 | .len285 | .litlenIllegal286 | .litlenIllegal287 | .dist0 | .dist1 | .dist2 | .dist3 |
  .dist4 | .dist5 | .dist6 | .dist7 | .dist8 | .dist9 | .dist10 | .dist11 | .dist12 | .dist13 | .dist14 |
  .dist15 | .dist16 | .dist17 | .dist18 | .dist19 | .dist20 | .dist21 | .dist22 | .dist23 | .dist24 | .dist25 |
  .dist26 | .dist27 | .dist28 | .dist29 | .distIllegal30 | .distIllegal31 | .pad => false

/-- The format of a row of spec/opcode_table.json, from how many bits the table gives it and its bits alone. The
table's numbering names no format and its formats overlap (opcode 0x00, BTYPE 0, code-length symbol 0 and distance
symbol 0 are all the bits 0), so this picks one (DESIGN CHOICE, log 6): more than two bytes are a command word; of
two bytes, the distance symbols 18 to 29 (whose rows the table widens to two bytes) come first, then literal/length
symbols; of one byte, an assigned opcode is a command word, then 2 and 3 are BTYPE values, then distance symbols. -/
def tableFormat (nbits w : Nat) : Format :=
  if 16 < nbits then .cmd
  else if 8 < nbits then (if 18 ≤ w ∧ w < 30 then .dist else .litlen)
  else if (decode .cmd w).isSome then .cmd
  else if w < 4 then .btype
  else .dist

/-- The instruction the decoder reads from a row's word, its bits numbered as spec/opcode_table.json numbers them. -/
def decodeTableWord (nbits w : Nat) : Option Instr :=
  decode (tableFormat nbits w) w

end Sys2Proof
end

