-- ==== Sys2Proof/Machine/Types.lean ====
section
/-! DEFINITION. The plain data the state is made of: records, codes, control states, fault causes, the names of
buffers, and the requests the step serves. -/

namespace Sys2Proof.Machine

/-- A MatchRecord (R34): `offset = 0` and `length = 0` in a literal record; `lit` counts only while `hasLit`. -/
structure MatchRecord where
  offset : Nat
  length : Nat
  lit    : Byte
  hasLit : Bool
  deriving DecidableEq, Repr, Inhabited

/-- One pair `(sym, extra)` of the run-length code of code lengths (R39, R231): `len v` is symbol `v` (0 to 15),
`rep`, `z3` and `z11` are symbols 16, 17 and 18 with their extra value. -/
inductive ClPair where
  | len (v : Nat)
  | rep (extra : Nat)
  | z3 (extra : Nat)
  | z11 (extra : Nat)
  deriving DecidableEq, Repr, Inhabited

/-- The three alphabets the operand `a` selects: 0 literal/length, 1 distance, 2 code-length (43_huffman). -/
inductive Alphabet where
  | litlen
  | dist
  | cl
  deriving DecidableEq, Repr

/-- A code array (R38): entry `s` is `(code, len)` of symbol `s`, or absent. -/
abbrev CodeArray := List (Option (Nat × Nat))

/-- A sparse array of positions (R31 to R33): the listed entries, indices strictly rising; an unlisted index
holds NIL. -/
abbrev Memory := List (Nat × Nat)

/-- The decoder's control state (R25). -/
inductive DState where
  | expectHeader
  | stored
  | fixedHuffman
  | dynamicHuffman
  | done
  | failed
  deriving DecidableEq, Repr

/-- The nine fault causes (R300). -/
inductive Cause where
  | noCodeMatch
  | symbolOutOfRange
  | repeatNoPrevious
  | repeatOverrun
  | trailingNotLiteral
  | distanceTooFar
  | fixedHuffman
  | reservedType
  | endOfSource
  deriving DecidableEq, Repr

/-- Where in its block the decoder stands: the wire element that comes next (R91, R99). DESIGN CHOICE (log 3): the
model's own refinement of `dstate`, at rest `bfinal`. `dist` and `trailing` carry the length and the distance
already assembled. -/
inductive Place where
  | bfinal
  | btype
  | hlit
  | hdist
  | hclen
  | cllen (k : Nat)
  | clsym
  | record
  | dist (length : Nat)
  | trailing (length distance : Nat)
  deriving DecidableEq, Repr

/-- The block-scoped buffers that an operation reads and another one, or the host, fills (R40, R342). -/
inductive Buffer where
  | recs
  | litFreq
  | distFreq
  | clFreq
  | litLen
  | distLen
  | clLen
  | litCode
  | distCode
  | clCode
  | seq
  | rle
  deriving DecidableEq, Repr

/-- Which buffers hold values that some operation, or the host, has written since reset (R342; DEDUCED, log 10). -/
structure Filled where
  recs     : Bool := false
  litFreq  : Bool := false
  distFreq : Bool := false
  clFreq   : Bool := false
  litLen   : Bool := false
  distLen  : Bool := false
  clLen    : Bool := false
  litCode  : Bool := false
  distCode : Bool := false
  clCode   : Bool := false
  seq      : Bool := false
  rle      : Bool := false
  deriving DecidableEq, Repr

/-- The result word of an operation (R106, R107), as data (DESIGN CHOICE, log 7). -/
inductive Result where
  /-- the operation has no result word -/
  | none
  /-- BS.RBIT, BS.RBITS: the bits read, as a natural -/
  | bits (v : Nat)
  /-- TBL.LENSYM, TBL.DISTSYM: symbol, extra value, extra-bit count -/
  | code (sym extra nbits : Nat)
  /-- TBL.LENVAL, TBL.DISTVAL: the length or the distance -/
  | value (v : Nat)
  /-- LZ.FIND -/
  | found (bestLen bestDist : Nat)
  /-- SYM.DEC -/
  | symbol (s : Nat)
  /-- CORE.STATUS: STATUS and ERRINFO -/
  | status (status : BitVec 16) (errInfo : BitVec 64)
  /-- the operation raised this fault (R312: "the host learns of the fault from the result of the operation") -/
  | failed (c : Cause)
  deriving DecidableEq, Repr

/-- A bulk operand the host gives a unit operation in its named buffer (R106; DEDUCED, log 16). -/
inductive Bulk where
  | recs (rs : List MatchRecord)
  | freq (a : Alphabet) (fs : List Nat)
  | lens (a : Alphabet) (ls : List Nat)
  | seq (ls : List Nat)
  | rle (ps : List ClPair)
  deriving DecidableEq, Repr

/-- What the step is asked to serve (DESIGN CHOICE, log 1 and log 2). -/
inductive Request where
  /-- a command word the host presents at the command port (R106) -/
  | command (w : Word)
  /-- a command word of the core's own sequencer (R107, "a step of the core's own sequencer") -/
  | sequencer (w : Word)
  /-- the decoder interprets the next wire element at `bitPos` (R90, R105) -/
  | element
  /-- the host attaches a byte source (R62, R344) -/
  | attach (bytes : List Byte)
  /-- the host places a chunk in `data` (R40, R343) -/
  | place (bytes : List Byte)
  /-- the host gives a bulk operand (R106) -/
  | load (b : Bulk)
  deriving DecidableEq, Repr

/-- The block-scoped buffers and the symbol-decode registers: what R312 calls unspecified after a fault. -/
structure Buffers where
  acc      : Nat
  accLen   : Nat
  recs     : List MatchRecord
  litLen   : List Nat
  distLen  : List Nat
  clLen    : List Nat
  litCode  : CodeArray
  distCode : CodeArray
  clCode   : CodeArray
  seq      : List Nat
  rle      : List ClPair
  deriving DecidableEq, Repr, Inhabited

/-- The rest of what R44 calls unspecified after reset: the matcher registers (R23), the header registers (R24),
the frequency arrays (R36) and `prev` (R33). -/
structure Work where
  n        : Nat
  i        : Nat
  h        : Nat
  cand     : Option Nat
  visited  : Nat
  cap      : Nat
  bestLen  : Nat
  bestDist : Nat
  hlit     : Nat
  hdist    : Nat
  hclen    : Nat
  litFreq  : List Nat
  distFreq : List Nat
  clFreq   : List Nat
  prev     : Memory
  deriving DecidableEq, Repr, Inhabited

end Sys2Proof.Machine
end

