-- ==== Sys2Proof/Config.lean ====
section
/-! DEFINITION. The configuration of the block (00_scope R10): its parameters as plain data. And the constants without
a body: the choices 93_implementation_defined U1 and U2 leave to an implementation, and the free values for what the
spec leaves unspecified (10_state R44, 44_rle_header R239, 60_exceptions R312). -/

namespace Sys2Proof.Config

open Sys2Proof.Machine

/-- One row of a code table: the symbol, its base value and its extra-bit count (R151, R152). -/
structure CodeRow where
  sym   : Nat
  base  : Nat
  extra : Nat
  deriving DecidableEq, Repr

/-- BIT_ORDER (R10, R60, U4): which bit of a byte is first in the stream. -/
inductive BitOrder where
  | lsbFirst
  | msbFirst
  deriving DecidableEq, Repr

/-- The 3-byte hash (R10, R172, U1): the spec's formula, or another function, by number. -/
inductive HashChoice where
  | reference
  | other (k : Nat)
  deriving DecidableEq, Repr

/-- The length-limited construction (R201, R203, U2): the spec's package-merge, or another one, by number. -/
inductive BuilderChoice where
  | packageMerge
  | other (k : Nat)
  deriving DecidableEq, Repr

/-- The parameters of the block (R10, U1 to U7). A core has one set of them for good; State carries it unchanged
(log 20). `PREV_SIZE` is `WSIZE` (R11). -/
structure Params where
  /-- WSIZE: the greatest back-reference distance -/
  wsize         : Nat
  /-- MAX_MATCH -/
  maxMatch      : Nat
  /-- MIN_MATCH -/
  minMatch      : Nat
  /-- MAX_CHAIN: chain candidates examined per position -/
  maxChain      : Nat
  /-- HASH_SIZE: entries of `hashHead` -/
  hashSize      : Nat
  /-- CHUNK_MAX: the greatest chunk length -/
  chunkMax      : Nat
  /-- MAXBITS_LD: code-length cap of the literal/length and distance alphabets -/
  maxbitsLd     : Nat
  /-- MAXBITS_CL: code-length cap of the code-length alphabet -/
  maxbitsCl     : Nat
  /-- DECODE_MAXBITS: bits symbol decode accumulates before the stream is declared corrupt -/
  decodeMaxbits : Nat
  /-- NLIT: literal/length symbols -/
  nlit          : Nat
  /-- NDIST: distance symbols -/
  ndist         : Nat
  /-- NCL: code-length symbols -/
  ncl           : Nat
  /-- EOB: the end-of-block symbol -/
  eob           : Nat
  /-- CLPERM: the order in which the code-length alphabet's lengths are sent -/
  clperm        : List Nat
  /-- LBASE and LEXTRA -/
  lenTable      : List CodeRow
  /-- DBASE and DEXTRA -/
  distTable     : List CodeRow
  /-- hash3 -/
  hash          : HashChoice
  /-- buildLengths -/
  builder       : BuilderChoice
  /-- BIT_ORDER -/
  bitOrder      : BitOrder
  /-- PAD_BIT -/
  padBit        : Bool
  /-- NBITS_MAX: the greatest field width of BS.WBITS and BS.RBITS -/
  nbitsMax      : Nat
  deriving DecidableEq, Repr

/-- The hash functions other than the spec's (U1). No body: nothing about them can be proved. -/
opaque otherHash : Nat → Byte → Byte → Byte → Nat

/-- The length constructions other than the spec's (U2), of frequencies and a cap. No body. -/
opaque otherLengths : Nat → List Nat → Nat → List Nat

/-- Free value: what the block-scoped buffers hold after CORE.RESET or after a fault, drawn with the counter
`State.fresh` (R44, R312, U8, U9; log 9). No body: nothing about it can be proved. -/
opaque freeBuffers : Nat → Buffers

/-- Free value: what the working registers, the frequency arrays and `prev` hold after CORE.RESET (R44, U8; log 9).
`rle` of `freeBuffers` is also what reading a header overwrites `rle` with (R349; log 29). -/
opaque freeWork : Nat → Work

/-- Free value: the `hlit` of HDR.SIZE on lengths without a nonzero entry at 256 or above, where R239 states none
(log 27). -/
opaque freeHlit : Nat → Nat

end Sys2Proof.Config
end

