-- ==== Sys2Proof/Machine/Constants.lean ====
section
/-! DEFINITION. The values of the configuration: the constant tables (41_code_tables R150 to R152), the standard
parameters (00_scope R10), and what the parameters mean where a number does not say it: the hash, the bit order, the
padding. -/

namespace Sys2Proof.Config

/-- LBASE and LEXTRA (R151). -/
def lenTable : List CodeRow :=
  [⟨257, 3, 0⟩, ⟨258, 4, 0⟩, ⟨259, 5, 0⟩, ⟨260, 6, 0⟩, ⟨261, 7, 0⟩, ⟨262, 8, 0⟩, ⟨263, 9, 0⟩, ⟨264, 10, 0⟩,
   ⟨265, 11, 1⟩, ⟨266, 13, 1⟩, ⟨267, 15, 1⟩, ⟨268, 17, 1⟩, ⟨269, 19, 2⟩, ⟨270, 23, 2⟩, ⟨271, 27, 2⟩, ⟨272, 31, 2⟩,
   ⟨273, 35, 3⟩, ⟨274, 43, 3⟩, ⟨275, 51, 3⟩, ⟨276, 59, 3⟩, ⟨277, 67, 4⟩, ⟨278, 83, 4⟩, ⟨279, 99, 4⟩, ⟨280, 115, 4⟩,
   ⟨281, 131, 5⟩, ⟨282, 163, 5⟩, ⟨283, 195, 5⟩, ⟨284, 227, 5⟩, ⟨285, 258, 0⟩]

/-- DBASE and DEXTRA (R152). -/
def distTable : List CodeRow :=
  [⟨0, 1, 0⟩, ⟨1, 2, 0⟩, ⟨2, 3, 0⟩, ⟨3, 4, 0⟩, ⟨4, 5, 1⟩, ⟨5, 7, 1⟩, ⟨6, 9, 2⟩, ⟨7, 13, 2⟩, ⟨8, 17, 3⟩, ⟨9, 25, 3⟩,
   ⟨10, 33, 4⟩, ⟨11, 49, 4⟩, ⟨12, 65, 5⟩, ⟨13, 97, 5⟩, ⟨14, 129, 6⟩, ⟨15, 193, 6⟩, ⟨16, 257, 7⟩, ⟨17, 385, 7⟩,
   ⟨18, 513, 8⟩, ⟨19, 769, 8⟩, ⟨20, 1025, 9⟩, ⟨21, 1537, 9⟩, ⟨22, 2049, 10⟩, ⟨23, 3073, 10⟩, ⟨24, 4097, 11⟩,
   ⟨25, 6145, 11⟩, ⟨26, 8193, 12⟩, ⟨27, 12289, 12⟩, ⟨28, 16385, 13⟩, ⟨29, 24577, 13⟩]

/-- CLPERM: the order in which the code-length alphabet's lengths are sent (R150). -/
def CLPERM : List Nat := [16, 17, 18, 0, 8, 7, 9, 6, 10, 5, 11, 4, 12, 3, 13, 2, 14, 1, 15]

/-- The parameters at the values the spec gives or decides (R10; decisions D3, D5, D6, D11, D22, D28). -/
def standard : Params where
  wsize         := 32768
  maxMatch      := 258
  minMatch      := 3
  maxChain      := 256
  hashSize      := 65536
  chunkMax      := 65536
  maxbitsLd     := 15
  maxbitsCl     := 7
  decodeMaxbits := 15
  nlit          := 286
  ndist         := 30
  ncl           := 19
  eob           := 256
  clperm        := CLPERM
  lenTable      := lenTable
  distTable     := distTable
  hash          := .reference
  builder       := .packageMerge
  bitOrder      := .lsbFirst
  padBit        := false
  nbitsMax      := 16

/-- PREV_SIZE: entries of `prev` (R10, R11). -/
def Params.prevSize (c : Params) : Nat := c.wsize

/-- The spec's formula of the 3-byte hash (R172, decision D6). -/
def hash3 (x y z : Byte) : Nat := ((x.toNat <<< 8) ^^^ (y.toNat <<< 4) ^^^ z.toNat) &&& 0xFFFF

/-- The 3-byte hash into `0 .. HASH_SIZE-1` (R172, U1). -/
def Params.hashOf (c : Params) (x y z : Byte) : Nat :=
  match c.hash with
  | .reference => hash3 x y z
  | .other k => otherHash k x y z % c.hashSize

/-- A byte of a stream with its bits in stream order, the first at bit 0 (R21, R60, U4): the byte itself LSB-first, its
bits reversed MSB-first. The same turn leads back. -/
def Params.streamOrder (c : Params) (b : Byte) : Byte :=
  match c.bitOrder with
  | .lsbFirst => b
  | .msbFirst => b.reverse

/-- The padding of BS.FLUSH above `k` pending bits, to be or-ed in (R133, U5): PAD_BIT in every bit. -/
def Params.padding (c : Params) (k : Nat) : Byte := if c.padBit then 0xFF#8 <<< k else 0#8

end Sys2Proof.Config
end

