-- ==== Sys2Proof/Machine/State.lean ====
section
/-! DEFINITION. The state of the core (10_state R20 to R44), the reasons a step can stop, and the state after reset
(R44, 70_reset R340). -/

namespace Sys2Proof.Machine

/-- Faults of the model: an access the rules never make (20_memory R66, "A model should make such an access a fault
of the model, not a value"; log 12). The faults of the core (R300) are no outcome of this kind: `raise` gives a
next state. -/
inductive Fault where
  /-- An array or table is read at an index that is not in it: LZ.FIND at a position with fewer than three bytes
  left, SYM.EMIT past the records, a record outside the code tables, HDR.SIZE or HDR.BUILD on a length array shorter
  than its alphabet, HDR.WRITE on a short `clLen`. Raised by LZ.FIND, SYM.EMIT, BLK.FREQ, HDR.SIZE, HDR.BUILD,
  HDR.WRITE, CLLEN, the element fetch. Safe: the model stops where no rule of the spec goes. -/
  | indexOutOfRange (index : Nat)
  /-- A symbol without a code is to be written, which "cannot appear in the stream" (R38, R132). Raised by
  HDR.WRITE, SYM.EMIT, BLK.ENC. Safe. -/
  | absentCode (a : Alphabet) (sym : Nat)
  deriving DecidableEq, Repr

/-- Refusals (60_exceptions R318): the request has no meaning for these arguments; no state changes. -/
inductive Refusal where
  /-- An instruction whose arm in exec has no meaning yet. None is left. Safe. -/
  | notModelled (mnemonic : String)
  /-- The opcode is not assigned (R107, R318). Raised by the command port. Safe: as the spec says. -/
  | unknownCommand
  /-- The host asks for an operation of the sequencer (R107, R318). Raised by the command port. Safe. -/
  | notHostIssuable
  /-- An error is pending (R314, R318). Raised by every operation but CORE.RESET and CORE.STATUS. Safe. -/
  | errorPending
  /-- BS.WBITS, BS.RBITS, BS.WCODE with a width or a code out of range (R318). Safe. -/
  | badWidth
  /-- TBL.LENSYM, TBL.LENVAL out of range (R318). Safe. -/
  | badLength
  /-- TBL.DISTSYM, TBL.DISTVAL out of range (R318). Safe. -/
  | badDistance
  /-- HUF.BUILD, HUF.CANON with `a = 3` (R318), and SYM.DEC (log 18). Safe. -/
  | badAlphabet
  /-- LZ.ENCODE, BLK.ENC with `n > CHUNK_MAX` (R318). Safe. -/
  | chunkTooLong
  /-- LZ.DECODE on an ill-formed record (R318). Safe. -/
  | badRecord
  /-- RLE.DEC: the pairs end before `total` entries (R234, R318). Safe. -/
  | shortSequence
  /-- RLE.DEC: pairs are left after `total` entries (R234, R318). Safe. -/
  | longSequence
  /-- BLK.DEC, STRM.DEC in `Done` (R272, R318). Safe. -/
  | streamDone
  /-- BLK.DEC, STRM.DEC in `Stored` (R272, R318). Safe. -/
  | storedHandoff
  /-- A block-scoped buffer is read that nothing has filled since reset (R342, "treat it as a refusal"; U10;
  log 10). Raised by the unit operations that read one. Safe: as the spec says. -/
  | unfilled (b : Buffer)
  /-- A byte of the chunk is to be read that the host has not placed (R40, R342, "treat it as a refusal"; log 13).
  Raised by LZ.ENCODE, BLK.ENC, LZ.INSERT, LZ.FIND. Safe. -/
  | chunkNotPlaced
  /-- A wire element where the grammar of R91 and R99 has no place for it (log 4). Raised by the wire elements.
  Safe. -/
  | elementOutOfPlace
  /-- BLK.DEC, STRM.DEC while the sequencer is inside a block (R272; log 25). Safe. -/
  | blockInProgress
  deriving DecidableEq, Repr

/-- The state. The fields of `Buffers` and `Work` are part of it under their own names (`s.recs`, `s.n`). -/
structure State extends Buffers, Work where
  /-- pending bits of the byte being written (R21) -/
  wBuf      : Byte
  /-- how many they are (R21) -/
  wCnt      : Nat
  /-- the byte sink (R63) -/
  sink      : List Byte
  /-- index of the next bit to read (R22, R26) -/
  bitPos    : Nat
  /-- the byte source (R62) -/
  source    : List Byte
  /-- the bytes the host has placed for the chunk (R40, R42) -/
  data      : List Byte
  /-- most recent position per hash (R32) -/
  hashHead  : Memory
  /-- the decoder's control state (R25) -/
  dstate    : DState
  /-- BFINAL (R24, R27) -/
  bfinal    : Bool
  /-- BTYPE (R24) -/
  btype     : Nat
  /-- the pending error: class and cause (R28, R300) -/
  err       : Option Cause
  /-- `ERRINFO.errBitPos` (R29) -/
  errBitPos : Nat
  /-- `ERRINFO.errValue` (R29) -/
  errValue  : Nat
  /-- the decoder's output of this block (R41) -/
  out       : List Byte
  /-- the decoder's output of the stream (R40, R279) -/
  decoded   : List Byte
  /-- the model's: result word of the last operation (log 7) -/
  result    : Result
  /-- the model's: the element that comes next inside a block (log 3) -/
  place     : Place
  /-- the model's: buffers written since reset (log 10) -/
  filled    : Filled
  /-- the model's: counter of the free values (log 9) -/
  fresh     : Nat
  /-- the model's: requests still to be served, the next one first (log 1) -/
  port      : List Request
  /-- the model's place for the configuration (R10, R13): carried, written by nothing (log 20) -/
  cfg       : Config.Params
  deriving DecidableEq, Repr

/-- What an operation answers. -/
abbrev Out := Host.Outcome State Fault Refusal

/-- After reset or power-on (R44, R340). Fields of `Buffers` and `Work`, `source` and `data` have no value in R44:
DESIGN CHOICE, log 8. -/
def State.reset : State where
  -- R44
  wBuf      := 0#8
  wCnt      := 0
  sink      := []
  bitPos    := 0
  hashHead  := []
  dstate    := .expectHeader
  bfinal    := false
  btype     := 0
  err       := none
  errBitPos := 0
  errValue  := 0
  out       := []
  decoded   := []
  -- the host's (log 8)
  source    := []
  data      := []
  -- unspecified in R44 (log 8)
  acc       := 0
  accLen    := 0
  recs      := []
  litLen    := List.replicate Config.standard.nlit 0
  distLen   := List.replicate Config.standard.ndist 0
  clLen     := List.replicate Config.standard.ncl 0
  litCode   := List.replicate Config.standard.nlit none
  distCode  := List.replicate Config.standard.ndist none
  clCode    := List.replicate Config.standard.ncl none
  seq       := []
  rle       := []
  n         := 0
  i         := 0
  h         := 0
  cand      := none
  visited   := 0
  cap       := 0
  bestLen   := 0
  bestDist  := 0
  hlit      := 0
  hdist     := 0
  hclen     := 0
  litFreq   := List.replicate Config.standard.nlit 0
  distFreq  := List.replicate Config.standard.ndist 0
  clFreq    := List.replicate Config.standard.ncl 0
  prev      := []
  -- the model's own
  result    := .none
  place     := .bfinal
  filled    := {}
  fresh     := 0
  port      := []
  cfg       := Config.standard

end Sys2Proof.Machine
end

