-- ==== Sys2Proof/Machine/Flags.lean ====
section
/-! DEFINITION. The flags and the status registers: `err` and `done` (10_state R27), STATUS (R28), ERRINFO (R29), and
the numbers of R25 and R300 they are made of. STATUS and ERRINFO are views: each field is stored once in State. The
block has no arithmetic condition codes (R27). -/

namespace Sys2Proof.Machine

/-- `STATUS.dstate` (R25). -/
def DState.code : DState → Nat
  | .expectHeader => 0
  | .stored => 1
  | .fixedHuffman => 2
  | .dynamicHuffman => 3
  | .done => 4
  | .failed => 5

/-- `STATUS.errClass` of a cause (R300): 1 MalformedBitstream, 2 UnsupportedBlockType, 3 TruncatedInput. -/
def Cause.errClass : Cause → Nat
  | .noCodeMatch | .symbolOutOfRange | .repeatNoPrevious | .repeatOverrun | .trailingNotLiteral
  | .distanceTooFar => 1
  | .fixedHuffman | .reservedType => 2
  | .endOfSource => 3

/-- `STATUS.errCause` of a cause (R300): its number within its class. -/
def Cause.errCause : Cause → Nat
  | .noCodeMatch => 1
  | .symbolOutOfRange => 2
  | .repeatNoPrevious => 3
  | .repeatOverrun => 4
  | .trailingNotLiteral => 5
  | .distanceTooFar => 6
  | .fixedHuffman => 1
  | .reservedType => 2
  | .endOfSource => 1

/-- `errClass`, 0 when no error is pending (R28). -/
def State.errClass (s : State) : Nat := s.err.elim 0 Cause.errClass

/-- `errCause`, 0 when no error is pending (R28). -/
def State.errCause (s : State) : Nat := s.err.elim 0 Cause.errCause

/-- The flag `err`: `STATUS.errClass != 0` (R27). -/
def State.errFlag (s : State) : Bool := s.errClass != 0

/-- The flag `done`: `dstate = Done` (R27). -/
def State.doneFlag (s : State) : Bool := s.dstate = .done

/-- STATUS (R28): dstate 3:0, errClass 7:4, errCause 11:8, bfinal 12, btype 14:13, bit 15 reads 0. -/
def State.status (s : State) : BitVec 16 :=
  BitVec.ofNat 16 (s.dstate.code + s.errClass * 2 ^ 4 + s.errCause * 2 ^ 8 + s.bfinal.toNat * 2 ^ 12
    + s.btype % 4 * 2 ^ 13)

/-- ERRINFO (R29): errBitPos 31:0, errValue 63:32. The naturals are cut to their 32-bit fields (log 15). -/
def State.errInfo (s : State) : BitVec 64 :=
  BitVec.ofNat 64 (s.errBitPos % 2 ^ 32 + s.errValue % 2 ^ 32 * 2 ^ 32)

/-- The reader's partial-byte view `rCnt` (R22): unread bits of the current source byte. -/
def State.rCnt (s : State) : Nat := (8 - s.bitPos % 8) % 8

/-- The reader's partial-byte view `rBuf` (R22): those bits, the next one at bit 0; 0 on a byte boundary. -/
def State.rBuf (s : State) : Byte :=
  if s.bitPos % 8 = 0 then 0#8
  else s.cfg.streamOrder (s.source[s.bitPos / 8]?.getD 0#8) >>> (s.bitPos % 8)

end Sys2Proof.Machine
end

