-- ==== Sys2Proof/Machine/Ops.lean ====
section
/-! DEFINITION. The named operations every meaning is made of: sparse arrays (10_state R31 to R33), raising a fault
(60_exceptions R312) and leaving it (R315, R340), the guards of R314 and R342, and the bit-stream primitives
(40_bitstream R130 to R135). -/

namespace Sys2Proof.Machine

/-! ## Sparse arrays -/

/-- The entry at index `i`; `none` is NIL (R31). -/
def Memory.read : Memory → Nat → Option Nat
  | [], _ => none
  | (j, x) :: m, i => if i = j then some x else Memory.read m i

/-- Write the entry at index `i`, keeping the canonical form: indices strictly rising, NIL not listed. -/
def Memory.write : Memory → Nat → Option Nat → Memory
  | [], _, none => []
  | [], i, some v => [(i, v)]
  | (j, x) :: m, i, v =>
    if i < j then
      match v with
      | none => (j, x) :: m
      | some p => (i, p) :: (j, x) :: m
    else if i = j then
      match v with
      | none => m
      | some p => (i, p) :: m
    else (j, x) :: Memory.write m i v

/-- The canonical form: indices strictly rising. No entry can be NIL, which is what an unlisted index reads. -/
def Memory.wf : Memory → Bool
  | [] => true
  | [_] => true
  | (i, _) :: (j, y) :: m => i < j && Memory.wf ((j, y) :: m)

/-- A canonical array from any listing of entries, those at the bound and above left out. -/
def Memory.ofList (bound : Nat) (es : List (Nat × Nat)) : Memory :=
  es.foldl (fun m e => if e.1 < bound then Memory.write m e.1 (some e.2) else m) []

/-! ## What a step of an operation answers -/

/-- A step inside an operation: it goes on with a value, it has raised a fault of the core (R312: the state after
it; every invoking operation stops), or it is a fault of the model (R66). -/
inductive Act (α : Type) where
  | ok (a : α) (s : State)
  | raised (s : State)
  | fault (f : Fault)
  deriving Repr

/-- Go on with the value, unless the step stopped ("`raise` unwinds all of them", R295). -/
def Act.bind {α β : Type} (x : Act α) (f : α → State → Act β) : Act β :=
  match x with
  | .ok a s => f a s
  | .raised s => .raised s
  | .fault e => .fault e

/-- The outcome of a whole operation, its result word made from the value. -/
def Act.outcome {α : Type} (x : Act α) (r : α → Result) : Out :=
  match x with
  | .ok a s => .next { s with result := r a }
  | .raised s => .next s
  | .fault e => .fault e

/-- An operation that cannot stop completes with this result word. -/
def complete (r : Result) (s : State) : Out := .next { s with result := r }

/-! ## Faults of the core -/

/-- The control state after a fault: `Failed` (R16, R25, R312, D18). DEDUCED (log 21): `Stored` stays, which D20 and R275
say only CORE.RESET leaves; `Done` does not, although R271 and R340 list no way out of it but CORE.RESET. -/
def DState.afterFault : DState → DState
  | .stored => .stored
  | .expectHeader | .fixedHuffman | .dynamicHuffman | .done | .failed => .failed

/-- A pair within the ranges of R231. -/
def ClPair.cut : ClPair → ClPair
  | .len v => .len (v % 16)
  | .rep x => .rep (x % 2 ^ 2)
  | .z3 x => .z3 (x % 2 ^ 3)
  | .z11 x => .z11 (x % 2 ^ 7)

/-- An array of `n` entries from 0 to `bound` (R36). -/
def sizedTo (n bound : Nat) (xs : List Nat) : List Nat := (List.range n).map fun k => xs[k]?.getD 0 % (bound + 1)

/-- The free value of the block-scoped buffers, `acc` and `accLen` cut to their widths (R24), the pairs to the ranges of
R231 (log 9). -/
def drawBuffers (k : Nat) : Buffers :=
  let b := Config.freeBuffers k
  { b with acc := b.acc % 2 ^ 15, accLen := b.accLen % 2 ^ 4, rle := b.rle.map ClPair.cut }

/-- The free value of the working registers, each cut to its width (R23, R24), of the frequency arrays, cut to their sizes
and to entries of at most CHUNK_MAX + 1 and NLIT + NDIST (R36, R293; their sums are not cut), and of `prev`, in canonical
form within its size (R33; log 9). -/
def drawWork (c : Config.Params) (k : Nat) : Work :=
  let w := Config.freeWork k
  { w with
    n        := w.n % 2 ^ 17
    i        := w.i % 2 ^ 17
    h        := w.h % 2 ^ 16
    visited  := w.visited % 2 ^ 9
    cap      := w.cap % 2 ^ 9
    bestLen  := w.bestLen % 2 ^ 9
    bestDist := w.bestDist % 2 ^ 16
    hlit     := w.hlit % 2 ^ 5
    hdist    := w.hdist % 2 ^ 5
    hclen    := w.hclen % 2 ^ 4
    litFreq  := sizedTo c.nlit (c.chunkMax + 1) w.litFreq
    distFreq := sizedTo c.ndist (c.chunkMax + 1) w.distFreq
    clFreq   := sizedTo c.ncl (c.nlit + c.ndist) w.clFreq
    prev     := Memory.ofList c.prevSize w.prev }

/-- `raise` (R312): record class, cause, position and value, enter `Failed` (`afterFault`), deliver no output. The block-scoped
buffers are unspecified afterwards: free values (log 9), none of them filled. -/
def takeFault (c : Cause) (v : Nat) (s : State) : State :=
  { s with
    toBuffers := drawBuffers s.fresh
    fresh     := s.fresh + 1
    filled    := { s.filled with
      recs := false, litLen := false, distLen := false, clLen := false, litCode := false, distCode := false,
      clCode := false, seq := false, rle := false }
    err       := some c
    errBitPos := s.bitPos
    errValue  := v
    dstate    := s.dstate.afterFault
    out       := []
    decoded   := []
    place     := .bfinal
    result    := .failed c }

/-- A step that raises (R16, R312). -/
def raise {α : Type} (c : Cause) (v : Nat) (s : State) : Act α := .raised (takeFault c v s)

/-- The way out of `Failed`, and of `Done` and `Stored` (R315, R340): CORE.RESET. The source, the chunk and the
requests are the host's and stay. What R44 calls unspecified becomes a free value (log 9). -/
def coreReset (s : State) : State :=
  { State.reset with
    toBuffers := drawBuffers s.fresh
    toWork    := drawWork s.cfg s.fresh
    fresh     := s.fresh + 1
    source    := s.source
    data      := s.data
    port      := s.port
    cfg       := s.cfg }

/-- R314: while an error is pending an operation is refused. -/
def unlessPending (s : State) (k : Out) : Out :=
  if s.err.isSome then .refused .errorPending else k

/-! ## Buffers filled since reset -/

/-- The mark of a buffer. -/
def Filled.has (f : Filled) : Buffer → Bool
  | .recs => f.recs
  | .litFreq => f.litFreq
  | .distFreq => f.distFreq
  | .clFreq => f.clFreq
  | .litLen => f.litLen
  | .distLen => f.distLen
  | .clLen => f.clLen
  | .litCode => f.litCode
  | .distCode => f.distCode
  | .clCode => f.clCode
  | .seq => f.seq
  | .rle => f.rle

/-- R342, U10: an operation that reads a buffer nothing has filled is refused, before it starts (R313). `bs` are the
buffers it reads on its operands. -/
def needs (bs : List Buffer) (s : State) (k : Out) : Out :=
  match bs.find? (fun b => !s.filled.has b) with
  | some b => .refused (.unfilled b)
  | none => k

/-! ## Bit-stream writer -/

/-- BS.WBIT (R130): the bit joins the pending ones; the eighth completes the byte. The pending bits stand in stream
order (R21); the sink's byte has them in the core's bit order (R60). -/
def writeBit (b : Bool) (s : State) : State :=
  let w := s.wBuf ||| ((if b then 1#8 else 0#8) <<< s.wCnt)
  if s.wCnt = 7 then { s with sink := s.sink ++ [s.cfg.streamOrder w], wBuf := 0#8, wCnt := 0 }
  else { s with wBuf := w, wCnt := s.wCnt + 1 }

/-- Write bits in order, the first one first. -/
def writeList (bits : List Bool) (s : State) : State := bits.foldl (fun t b => writeBit b t) s

/-- The bits of an `n`-bit field, least significant first (R61, R131). -/
def fieldBits (n v : Nat) : List Bool := (List.range n).map (fun k => v.testBit k)

/-- The bits of an `l`-bit Huffman code, most significant first (R61, R132). -/
def codeBits (c l : Nat) : List Bool := (List.range l).reverse.map (fun k => c.testBit k)

/-- BS.WBITS (R131). -/
def writeBits (n v : Nat) (s : State) : State := writeList (fieldBits n v) s

/-- BS.WCODE (R132). -/
def writeCode (c l : Nat) (s : State) : State := writeList (codeBits c l) s

/-- BS.FLUSH (R133): a partial byte is padded and appended. -/
def flush (s : State) : State :=
  if 0 < s.wCnt then
    { s with
      sink := s.sink ++ [s.cfg.streamOrder (s.wBuf ||| s.cfg.padding s.wCnt)], wBuf := 0#8, wCnt := 0 }
  else s

/-! ## Bit-stream reader -/

/-- BS.RBIT (R134): the bit at `bitPos`, or TruncatedInput at the end of the source. -/
def readBit (s : State) : Act Bool :=
  match s.source[s.bitPos / 8]? with
  | none => raise .endOfSource 0 s
  | some b => .ok ((s.cfg.streamOrder b).getLsbD (s.bitPos % 8)) { s with bitPos := s.bitPos + 1 }

/-- BS.RBITS (R135): `n` bits, the first one least significant. -/
def readBits : Nat → State → Act Nat
  | 0, s => .ok 0 s
  | n + 1, s => (readBit s).bind fun b t => (readBits n t).bind fun v u => .ok (b.toNat + 2 * v) u

/-- Source bits not yet read: the measure of the decode loops (R351). -/
def State.bitsLeft (s : State) : Nat := 8 * s.source.length - s.bitPos

end Sys2Proof.Machine
end

