-- ==== Sys2Proof/Machine/Operands.lean ====
section
/-! DEFINITION. The operand forms: the alphabet operand `a` and the three buffers it selects (43_huffman, table before
R200), the chunk operand `n` (42_lz77 R177), the table operands (41_code_tables R153 to R156) and the well-formed
record (10_state R34). -/

namespace Sys2Proof.Machine

/-! ## The alphabet operand -/

/-- The operand `a`: 0, 1, 2; there is no alphabet 3 (R200). -/
def Alphabet.ofOperand : Nat → Option Alphabet
  | 0 => some .litlen
  | 1 => some .dist
  | 2 => some .cl
  | _ => none

/-- The code-length cap of an alphabet (R205). -/
def Alphabet.maxBits (a : Alphabet) (c : Config.Params) : Nat :=
  match a with
  | .litlen => c.maxbitsLd
  | .dist => c.maxbitsLd
  | .cl => c.maxbitsCl

/-- The buffers an alphabet selects. -/
def Alphabet.freqBuffer : Alphabet → Buffer
  | .litlen => .litFreq
  | .dist => .distFreq
  | .cl => .clFreq

def Alphabet.lenBuffer : Alphabet → Buffer
  | .litlen => .litLen
  | .dist => .distLen
  | .cl => .clLen

def Alphabet.codeBuffer : Alphabet → Buffer
  | .litlen => .litCode
  | .dist => .distCode
  | .cl => .clCode

/-- The frequency array of an alphabet (R36). -/
def State.freqs (s : State) : Alphabet → List Nat
  | .litlen => s.litFreq
  | .dist => s.distFreq
  | .cl => s.clFreq

/-- The length array of an alphabet (R37). -/
def State.lens (s : State) : Alphabet → List Nat
  | .litlen => s.litLen
  | .dist => s.distLen
  | .cl => s.clLen

/-- The code array of an alphabet (R38). -/
def State.codes (s : State) : Alphabet → CodeArray
  | .litlen => s.litCode
  | .dist => s.distCode
  | .cl => s.clCode

def setFreqs (a : Alphabet) (fs : List Nat) (s : State) : State :=
  match a with
  | .litlen => { s with litFreq := fs, filled := { s.filled with litFreq := true } }
  | .dist => { s with distFreq := fs, filled := { s.filled with distFreq := true } }
  | .cl => { s with clFreq := fs, filled := { s.filled with clFreq := true } }

def setLens (a : Alphabet) (ls : List Nat) (s : State) : State :=
  match a with
  | .litlen => { s with litLen := ls, filled := { s.filled with litLen := true } }
  | .dist => { s with distLen := ls, filled := { s.filled with distLen := true } }
  | .cl => { s with clLen := ls, filled := { s.filled with clLen := true } }

def setCodes (a : Alphabet) (cs : CodeArray) (s : State) : State :=
  match a with
  | .litlen => { s with litCode := cs, filled := { s.filled with litCode := true } }
  | .dist => { s with distCode := cs, filled := { s.filled with distCode := true } }
  | .cl => { s with clCode := cs, filled := { s.filled with clCode := true } }

def setRecs (rs : List MatchRecord) (s : State) : State :=
  { s with recs := rs, filled := { s.filled with recs := true } }

def setSeq (ls : List Nat) (s : State) : State :=
  { s with seq := ls, filled := { s.filled with seq := true } }

def setRle (ps : List ClPair) (s : State) : State :=
  { s with rle := ps, filled := { s.filled with rle := true } }

/-- An operation on the alphabet `a` selects: refused for `a = 3` (R200, R318). -/
def onAlphabet (a : Nat) (k : Alphabet → Out) : Out :=
  match Alphabet.ofOperand a with
  | none => .refused .badAlphabet
  | some x => k x

/-! ## The chunk operand -/

/-- The chunk: the first `n` bytes the host has placed (R23, R40). -/
def State.chunk (s : State) : List Byte := s.data.take s.n

/-- The checks of LZ.ENCODE and BLK.ENC on `n`, before any state changes (R177, R262): the greatest chunk, and
that the host has placed that many bytes (R342; log 13). -/
def withChunk (n : Nat) (s : State) (k : Out) : Out :=
  if s.cfg.chunkMax < n then .refused .chunkTooLong
  else if s.data.length < n then .refused .chunkNotPlaced
  else k

/-- The check of LZ.INSERT and LZ.FIND: the bytes of the chunk below `m`, which the operation may read, have been placed
by the host (R42, R342; log 13). -/
def withBytes (m : Nat) (s : State) (k : Out) : Out :=
  if s.data.length < m then .refused .chunkNotPlaced else k

/-! ## Table operands -/

/-- The row of a symbol in a code table. -/
def rowOf (table : List Config.CodeRow) (sym : Nat) : Option Config.CodeRow := table.find? (fun r => r.sym = sym)

/-- Reverse search (R153, R154): the row of the greatest symbol whose base is at most the value. -/
def rowFor (table : List Config.CodeRow) (v : Nat) : Option Config.CodeRow :=
  (table.filter (fun r => r.base ≤ v)).getLast?

/-- TBL.LENSYM's lookup: `none` outside `MIN_MATCH` to `MAX_MATCH` (R153). -/
def lenRow (c : Config.Params) (len : Nat) : Option Config.CodeRow :=
  if c.minMatch ≤ len ∧ len ≤ c.maxMatch then rowFor c.lenTable len else none

/-- TBL.DISTSYM's lookup: `none` outside 1 to `WSIZE` (R154). -/
def distRow (c : Config.Params) (dist : Nat) : Option Config.CodeRow :=
  if 1 ≤ dist ∧ dist ≤ c.wsize then rowFor c.distTable dist else none

/-! ## Records -/

/-- A well-formed record (R34). -/
def MatchRecord.wellFormed (r : MatchRecord) (c : Config.Params) : Bool :=
  (r.offset = 0 && r.length = 0 && r.hasLit)
  || (1 ≤ r.offset && r.offset ≤ c.wsize && c.minMatch ≤ r.length && r.length ≤ c.maxMatch
      && (r.hasLit || r.lit = 0#8))

/-- A literal record (R34). -/
def MatchRecord.literal (b : Byte) : MatchRecord := ⟨0, 0, b, true⟩

/-- A match record with the byte that follows its copy, or without one (R34). -/
def MatchRecord.ofMatch (dist len : Nat) (lit : Option Byte) : MatchRecord :=
  ⟨dist, len, lit.getD 0#8, lit.isSome⟩

end Sys2Proof.Machine
end

