-- ==== Sys2Proof/Machine/BitStream.lean ====
section
/-! DEFINITION. The bit-stream operations (40_bitstream R130 to R135). -/

namespace Sys2Proof.Machine

/-- BS.WBIT b (R130). -/
def execBsWbit (b : Bool) (s : State) : Out :=
  unlessPending s <| complete .none (writeBit b s)

/-- BS.WBITS n, v (R131): `n > NBITS_MAX` is refused; bits of `v` at `n` and above are ignored. -/
def execBsWbits (n v : Nat) (s : State) : Out :=
  unlessPending s <|
    if s.cfg.nbitsMax < n then .refused .badWidth else complete .none (writeBits n v s)

/-- BS.WCODE c, l (R132, R318). -/
def execBsWcode (l c : Nat) (s : State) : Out :=
  unlessPending s <|
    if l = 0 ∨ 15 < l ∨ 2 ^ l ≤ c then .refused .badWidth else complete .none (writeCode c l s)

/-- BS.FLUSH (R133). -/
def execBsFlush (s : State) : Out :=
  unlessPending s <| complete .none (flush s)

/-- BS.RBIT (R134). -/
def execBsRbit (s : State) : Out :=
  unlessPending s <| (readBit s).outcome fun b => .bits b.toNat

/-- BS.RBITS n (R135). -/
def execBsRbits (n : Nat) (s : State) : Out :=
  unlessPending s <|
    if s.cfg.nbitsMax < n then .refused .badWidth else (readBits n s).outcome .bits

end Sys2Proof.Machine
end

