-- ==== Sys2Proof/Machine/Control.lean ====
section
/-! DEFINITION. The system operations: CORE.RESET (70_reset R340) and CORE.STATUS (60_exceptions R316). Neither is
ever refused. -/

namespace Sys2Proof.Machine

/-- CORE.RESET (R340). -/
def execCoreReset (s : State) : Out := .next (coreReset s)

/-- CORE.STATUS (R316): STATUS and ERRINFO are the result; nothing else changes. -/
def execCoreStatus (s : State) : Out := complete (.status s.status s.errInfo) s

end Sys2Proof.Machine
end

