-- ==== Sys2Proof/Machine/Tables.lean ====
section
/-! DEFINITION. The code-table operations (41_code_tables R153 to R156). -/

namespace Sys2Proof.Machine

/-- TBL.LENSYM L (R153). -/
def execTblLensym (len : Nat) (s : State) : Out :=
  unlessPending s <|
    match lenRow s.cfg len with
    | none => .refused .badLength
    | some r => complete (.code r.sym (len - r.base) r.extra) s

/-- TBL.DISTSYM D (R154). -/
def execTblDistsym (dist : Nat) (s : State) : Out :=
  unlessPending s <|
    match distRow s.cfg dist with
    | none => .refused .badDistance
    | some r => complete (.code r.sym (dist - r.base) r.extra) s

/-- TBL.LENVAL s, e (R155). -/
def execTblLenval (sym e : Nat) (s : State) : Out :=
  unlessPending s <|
    match rowOf s.cfg.lenTable sym with
    | none => .refused .badLength
    | some r => if 2 ^ r.extra ≤ e then .refused .badLength else complete (.value (r.base + e)) s

/-- TBL.DISTVAL d, e (R156). -/
def execTblDistval (d e : Nat) (s : State) : Out :=
  unlessPending s <|
    match rowOf s.cfg.distTable d with
    | none => .refused .badDistance
    | some r => if 2 ^ r.extra ≤ e then .refused .badDistance else complete (.value (r.base + e)) s

end Sys2Proof.Machine
end

