-- ==== Sys2Proof/Machine/Huffman.lean ====
section
/-! DEFINITION. The Huffman unit: length-limited code lengths by package-merge (43_huffman R200 to R205), canonical
codes (R206) and symbol decode (R210). -/

namespace Sys2Proof.Machine

/-! ## Building lengths -/

/-- An item of package-merge (R203): a weight and a multiset of symbols, listed with its repetitions. -/
structure Item where
  weight : Nat
  syms   : List Nat
  deriving DecidableEq, Repr

/-- The present symbols (R202: `S`), ascending, as leaves, numbered from `sym` on. -/
def presentFrom : Nat → List Nat → List Item
  | _, [] => []
  | sym, f :: fs => if 0 < f then ⟨f, [sym]⟩ :: presentFrom (sym + 1) fs else presentFrom (sym + 1) fs

/-- Insert into a list in ascending weight, before the items of equal weight. -/
def insertItem (x : Item) : List Item → List Item
  | [] => [x]
  | y :: ys => if x.weight ≤ y.weight then x :: y :: ys else y :: insertItem x ys

/-- The leaves sorted by (frequency, symbol): an insertion sort that keeps the order of equal weights (R203). -/
def sortItems : List Item → List Item
  | [] => []
  | x :: xs => insertItem x (sortItems xs)

/-- The packages: neighbours in pairs, an odd last item dropped (R203: `pk`). -/
def packages : List Item → List Item
  | x :: y :: rest => ⟨x.weight + y.weight, x.syms ++ y.syms⟩ :: packages rest
  | _ => []

/-- The leaf `a` and, after it, the merge `rest` of the further leaves, merged with a list in ascending weight: `a` stands
before the first item of at least its weight. -/
def mergeFrom (a : Item) (rest : List Item → List Item) : List Item → List Item
  | [] => a :: rest []
  | b :: bs => if a.weight ≤ b.weight then a :: rest (b :: bs) else b :: mergeFrom a rest bs

/-- The ascending merge by weight of leaves and packages: of two next items of equal weight the leaf is taken first;
the order inside either list is kept (R203: `merge`). -/
def mergeItems : List Item → List Item → List Item
  | [], bs => bs
  | a :: as, bs => mergeFrom a (mergeItems as) bs

/-- `k` rounds of packaging and merging (R203). -/
def packageRounds (leaves : List Item) : Nat → List Item → List Item
  | 0, cur => cur
  | k + 1, cur => packageRounds leaves k (mergeItems leaves (packages cur))

/-- The number of occurrences of each symbol `0 .. n-1` in a listing of symbols. -/
def occurrences (n : Nat) (syms : List Nat) : List Nat := (List.range n).map (fun s => syms.count s)

/-- `buildLengths(freq, L)` (R202, R203). -/
def buildLengths (freq : List Nat) (cap : Nat) : List Nat :=
  let leaves := sortItems (presentFrom 0 freq)
  match leaves with
  | [] => List.replicate freq.length 0
  | [x] => occurrences freq.length x.syms
  | _ =>
    let cur := packageRounds leaves (cap - 1) leaves
    occurrences freq.length ((cur.take (2 * leaves.length - 2)).flatMap Item.syms)

/-- The Kraft sum of a length array over the present symbols, in units of `2 ^ -cap` (R201, R204). -/
def kraft (cap : Nat) (ls : List Nat) : Nat := ((ls.filter fun l => 0 < l).map fun l => 2 ^ (cap - l)).sum

/-- How many symbols are present (R202: `m`). -/
def present (freq : List Nat) : Nat := (freq.filter fun f => 0 < f).length

/-- The bits all the symbols take together (R201, 4). -/
def cost (freq ls : List Nat) : Nat := ((freq.zip ls).map fun e => e.1 * e.2).sum

/-- The properties R201 requires of a length array whatever algorithm computes it: presence, cap, the Kraft sum, the
least cost (that of package-merge, R204), the degenerate alphabets (R202). -/
def lengthsOk (freq : List Nat) (cap : Nat) (ls : List Nat) : Bool :=
  ls.length = freq.length
  && (freq.zip ls).all (fun e => if e.1 = 0 then e.2 = 0 else 1 ≤ e.2 && e.2 ≤ cap)
  && (if 2 ≤ present freq then kraft cap ls = 2 ^ cap else ls.all (fun l => l ≤ 1))
  && cost freq ls ≤ cost freq (buildLengths freq cap)

/-- `buildLengths` of the core (R201, U2): package-merge, or a construction of its own, which R201 binds. One that does
not meet R201 is none, so package-merge stands in for it (log 20). -/
def coreLengths (c : Config.Params) (freq : List Nat) (cap : Nat) : List Nat :=
  match c.builder with
  | .packageMerge => buildLengths freq cap
  | .other k =>
    let ls := Config.otherLengths k freq cap
    if lengthsOk freq cap ls then ls else buildLengths freq cap

/-- HUF.BUILD (R200): the length array of an alphabet from its frequencies, with its cap (R205). -/
def hufBuild (a : Alphabet) (s : State) : State :=
  setLens a (coreLengths s.cfg (s.freqs a) (a.maxBits s.cfg)) s

/-! ## Canonical codes -/

/-- The symbols of length `l`, ascending, numbered from `sym` on. -/
def symsOfLen (l : Nat) : Nat → List Nat → List Nat
  | _, [] => []
  | sym, x :: xs => if x = l then sym :: symsOfLen l (sym + 1) xs else symsOfLen l (sym + 1) xs

/-- The present symbols in the order R206 visits them: by length 1 to 15, then by symbol; each with its length. -/
def canonOrder (ls : List Nat) : List (Nat × Nat) :=
  (List.range 15).flatMap fun k => (symsOfLen (k + 1) 0 ls).map fun s => (s, k + 1)

/-- The codes along that order (R206): the first is 0, the next `(c + 1) << (l - lastLen)`. `last` is the code and
length given last. -/
def canonAssign : Option (Nat × Nat) → List (Nat × Nat) → List (Nat × (Nat × Nat))
  | _, [] => []
  | last, (s, l) :: rest =>
    let c := match last with
      | none => 0
      | some (c, lastLen) => (c + 1) <<< (l - lastLen)
    (s, (c, l)) :: canonAssign (some (c, l)) rest

/-- The canonical code array of a length array (R206). -/
def canonCodes (ls : List Nat) : CodeArray :=
  let assigned := canonAssign none (canonOrder ls)
  (List.range ls.length).map fun s => assigned.lookup s

/-- HUF.CANON (R206). -/
def hufCanon (a : Alphabet) (s : State) : State := setCodes a (canonCodes (s.lens a)) s

/-! ## Symbol decode -/

/-- The symbol whose code is `c` of `l` bits (R210). -/
def findCode (codes : CodeArray) (c l : Nat) : Option Nat := codes.findIdx? (fun e => e = some (c, l))

/-- The loop of SYM.DEC (R210), `fuel` being the bits still allowed. -/
def symDecLoop (codes : CodeArray) : Nat → State → Act Nat
  | 0, s => raise .noCodeMatch s.acc s
  | fuel + 1, s => (readBit s).bind fun b t =>
    let u := { t with acc := 2 * t.acc + b.toNat, accLen := t.accLen + 1 }
    match findCode codes u.acc u.accLen with
    | some sym => .ok sym u
    | none => symDecLoop codes fuel u

/-- SYM.DEC (R210): the limit is `DECODE_MAXBITS` for every alphabet. -/
def symDec (a : Alphabet) (s : State) : Act Nat :=
  symDecLoop (s.codes a) s.cfg.decodeMaxbits { s with acc := 0, accLen := 0 }

/-! ## Meanings -/

/-- HUF.BUILD a (R200). -/
def execHufBuild (a : Nat) (s : State) : Out :=
  unlessPending s <| onAlphabet a fun x => needs [x.freqBuffer] s <| complete .none (hufBuild x s)

/-- HUF.CANON a (R206). -/
def execHufCanon (a : Nat) (s : State) : Out :=
  unlessPending s <| onAlphabet a fun x => needs [x.lenBuffer] s <| complete .none (hufCanon x s)

/-- SYM.DEC a (R210): a step of the sequencer. -/
def execSymDec (a : Nat) (s : State) : Out :=
  unlessPending s <| onAlphabet a fun x => needs [x.codeBuffer] s <| (symDec x s).outcome .symbol

end Sys2Proof.Machine
end

