-- ==== Sys2Proof/Machine/Header.lean ====
section
/-! DEFINITION. The run-length codec of code lengths (44_rle_header R230 to R236) and the block header (R238 to
R245). -/

namespace Sys2Proof.Machine

/-! ## Run-length encoding -/

/-- The symbol of a pair (R231). -/
def ClPair.sym : ClPair → Nat
  | .len v => v
  | .rep _ => 16
  | .z3 _ => 17
  | .z11 _ => 18

/-- The maximal runs of a sequence, each a value and how often it stands (R230). -/
def runs : List Nat → List (Nat × Nat)
  | [] => []
  | v :: vs =>
    match runs vs with
    | [] => [(v, 1)]
    | (w, r) :: rest => if v = w then (v, r + 1) :: rest else (v, 1) :: (w, r) :: rest

/-- A run of `r` zeros (R230): symbol 18 while 11 or more remain, then 17, then literal zeros. -/
def zeroRun : Nat → Nat → List ClPair
  | 0, _ => []
  | fuel + 1, r =>
    if 11 ≤ r then .z11 (min r 138 - 11) :: zeroRun fuel (r - min r 138)
    else if 3 ≤ r then [.z3 (r - 3)]
    else List.replicate r (.len 0)

/-- `r` further entries equal to the nonzero `v` just sent (R230): symbol 16 while 3 or more remain, then literals. -/
def repeatRun (v : Nat) : Nat → Nat → List ClPair
  | 0, _ => []
  | fuel + 1, r =>
    if 3 ≤ r then .rep (min r 6 - 3) :: repeatRun v fuel (r - min r 6)
    else List.replicate r (.len v)

/-- The pairs of one run of `r` entries equal to `v` (R230). -/
def runPairs (v r : Nat) : List ClPair :=
  if v = 0 then zeroRun (r + 1) r else .len v :: repeatRun v (r + 1) (r - 1)

/-- The run-length code of a sequence of code lengths (R230). -/
def rlePairs (ls : List Nat) : List ClPair := (runs ls).flatMap fun e => runPairs e.1 e.2

/-- RLE.ENC (R230). -/
def rleEnc (s : State) : State := setRle (rlePairs s.seq) s

/-! ## Run-length decoding -/

/-- `r` more entries `v`, or RepeatOverrun past `total` (R234). -/
def appendRun (total sym r v : Nat) (s : State) : Act Unit :=
  if total < s.seq.length + r then raise .repeatOverrun sym s
  else .ok () { s with seq := s.seq ++ List.replicate r v }

/-- `rleStep` (R234): one pair expanded onto `seq`. -/
def rleStep (total : Nat) (p : ClPair) (s : State) : Act Unit :=
  match p with
  | .len v => .ok () { s with seq := s.seq ++ [v] }
  | .rep extra =>
    match s.seq.getLast? with
    | none => raise .repeatNoPrevious 16 s
    | some v => appendRun total 16 (3 + extra) v s
  | .z3 extra => appendRun total 17 (3 + extra) 0 s
  | .z11 extra => appendRun total 18 (11 + extra) 0 s

/-- The fold of stand-alone RLE.DEC (R234): refused when pairs are left at `total`, or when they end before. -/
def rleDecLoop (total : Nat) : List ClPair → State → Out
  | [], s => if s.seq.length < total then .refused .shortSequence else complete .none s
  | p :: ps, s =>
    if total ≤ s.seq.length then .refused .longSequence
    else
      match rleStep total p s with
      | .ok _ t => rleDecLoop total ps t
      | .raised t => .next t
      | .fault e => .fault e

/-! ## Header sizing and building -/

/-- The greatest index with a nonzero entry. -/
def lastNonzero (xs : List Nat) : Option Nat :=
  ((List.range xs.length).filter fun k => xs[k]?.getD 0 != 0).getLast?

/-- The sizing fields, and the sequence of the two trimmed arrays (R238). -/
def sizeTo (hlit hdist : Nat) (s : State) : State :=
  setSeq (s.litLen.take (hlit + 257) ++ s.distLen.take (hdist + 1)) { s with hlit := hlit, hdist := hdist }

/-- `hlit` (R238, R239): by the last symbol with a length; where that is below 256 or there is none, R239 states no
value and it is a free one within its bounds (log 27). The second component is the advance of the counter `fresh`. -/
def sizeLit (s : State) : Nat × Nat :=
  match lastNonzero (s.litLen.take s.cfg.nlit) with
  | some lastLit => if 256 ≤ lastLit then (lastLit + 1 - 257, 0) else (Config.freeHlit s.fresh % 30, 1)
  | none => (Config.freeHlit s.fresh % 30, 1)

/-- HDR.SIZE (R238, R239). An array shorter than its alphabet is read past its end (R66; log 12); entries past the
alphabet are not looked at. -/
def hdrSize (s : State) : Act Unit :=
  if s.litLen.length < s.cfg.nlit then .fault (.indexOutOfRange s.litLen.length)
  else if s.distLen.length < s.cfg.ndist then .fault (.indexOutOfRange s.distLen.length)
  else
    let lit := sizeLit s
    let hdist := (lastNonzero (s.distLen.take s.cfg.ndist)).getD 0
    .ok () (sizeTo lit.1 hdist { s with fresh := s.fresh + lit.2 })

/-- How often each code-length symbol stands in a sequence of pairs (R241). -/
def clCounts (c : Config.Params) (ps : List ClPair) : List Nat := occurrences c.ncl (ps.map ClPair.sym)

/-- `hclen` (R240): entries in the order they are sent (R150) up to the last nonzero one, minus 4, not below 0. -/
def hclenOf (c : Config.Params) (ls : List Nat) : Nat :=
  (lastNonzero (c.clperm.map fun k => ls[k]?.getD 0)).getD 0 + 1 - 4

/-- HDR.BUILD (R241). -/
def hdrBuild (s : State) : Act Unit :=
  (hdrSize { s with btype := 2 }).bind fun _ t =>
    let t := rleEnc t
    let t := setFreqs .cl (clCounts t.cfg t.rle) t
    let t := hufCanon .cl (hufBuild .cl t)
    .ok () { t with hclen := hclenOf t.cfg t.clLen }

/-! ## Header on the wire -/

/-- Write the code of a symbol (R132); a symbol without one is a fault of the model (log 12). DESIGN CHOICE (log 28):
code and width are the pair of the code array (R38), also where the length array the pseudocode of R243 and R264 takes
the width from holds another; of a code of 2^l or more (R208) the low l bits go out, as the loop of R132 does. -/
def emitCode (a : Alphabet) (sym : Nat) (s : State) : Act Unit :=
  match (s.codes a)[sym]? with
  | some (some (c, l)) => .ok () (writeCode c l s)
  | _ => .fault (.absentCode a sym)

/-- The repeat field of a pair (R95, R243). -/
def ClPair.repeatBits : ClPair → List Bool
  | .len _ => []
  | .rep extra => fieldBits 2 extra
  | .z3 extra => fieldBits 3 extra
  | .z11 extra => fieldBits 7 extra

/-- The CLSYM elements of a sequence of pairs (R95, R243). -/
def writePairs : List ClPair → State → Act Unit
  | [], s => .ok () s
  | p :: ps, s => (emitCode .cl p.sym s).bind fun _ t => writePairs ps (writeList p.repeatBits t)

/-- The CLLEN fields of the symbols `cs` (R94, R243); `clLen` is read at each of them (R66). -/
def writeClLens : List Nat → State → Act Unit
  | [], s => .ok () s
  | c :: cs, s =>
    match s.clLen[c]? with
    | none => .fault (.indexOutOfRange c)
    | some l => writeClLens cs (writeBits 3 l s)

/-- HDR.WRITE (R243). -/
def hdrWrite (s : State) : Act Unit :=
  let t := writeBits 1 s.bfinal.toNat s
  let t := writeBits 2 2 t
  let t := writeBits 5 s.hlit t
  let t := writeBits 5 s.hdist t
  let t := writeBits 4 s.hclen t
  (writeClLens (s.cfg.clperm.take (s.hclen + 4)) t).bind fun _ t => writePairs s.rle t

/-- The header registers as the stream gives them (R245). -/
def setHlit (v : Nat) (s : State) : State := { s with hlit := v }

def setHdist (v : Nat) (s : State) : State := { s with hdist := v }

/-- HCLEN read: `clLen` starts from zeros (R245). -/
def setHclen (v : Nat) (s : State) : State :=
  { s with hclen := v, clLen := List.replicate s.cfg.ncl 0 }

/-- The `k`-th CLLEN field (R94, R245): written at its place of `CLPERM`, which `CLPERM` and `clLen` have (R66). -/
def setClLen (k v : Nat) (s : State) : Act Unit :=
  match s.cfg.clperm[k]? with
  | none => .fault (.indexOutOfRange k)
  | some c => if c < s.clLen.length then .ok () { s with clLen := s.clLen.set c v } else .fault (.indexOutOfRange c)

/-- What reading a header does to the buffers of the block before that no line of R245 writes (R349; DESIGN CHOICE, log
29): `rle`, the part of the Header (R242) that R107 and R40 have HDR.READ write, becomes a free value; the frequency
arrays, which are no result of HDR.READ (R75), are dead, and count as unfilled. -/
def overwriteShared (s : State) : State :=
  { s with
    rle    := (drawBuffers s.fresh).rle
    fresh  := s.fresh + 1
    filled := { s.filled with litFreq := false, distFreq := false, clFreq := false } }

/-- The code-length alphabet is complete: its codes, and an empty sequence (R245). -/
def beginSeq (s : State) : State :=
  setSeq [] (hufCanon .cl (overwriteShared { s with filled := { s.filled with clLen := true } }))

/-- `total = hlit + 257 + hdist + 1` (R98, R245). -/
def State.total (s : State) : Nat := s.hlit + 257 + s.hdist + 1

/-- The CLLEN fields `k, k+1, ...`, `count` of them (R245). -/
def readClLens : Nat → Nat → State → Act Unit
  | _, 0, s => .ok () s
  | k, count + 1, s =>
    (readBits 3 s).bind fun v t => (setClLen k v t).bind fun _ u => readClLens (k + 1) count u

/-- One CLSYM element after its code was decoded (R245): the check R306 puts before the extra bits, the extra bits,
then `rleStep`. -/
def clSymbol (c : Nat) (s : State) : Act Unit :=
  if c ≤ 15 then rleStep s.total (.len c) s
  else if c = 16 then
    if s.seq = [] then raise .repeatNoPrevious 16 s
    else (readBits 2 s).bind fun x t => rleStep t.total (.rep x) t
  else if c = 17 then (readBits 3 s).bind fun x t => rleStep t.total (.z3 x) t
  else (readBits 7 s).bind fun x t => rleStep t.total (.z11 x) t

/-- The CLSYM loop (R245): until `|seq| = total`. Every pass adds at least one entry, so `total` passes suffice
(R351). -/
def readSeq : Nat → State → Act Unit
  | 0, s => .ok () s
  | fuel + 1, s =>
    if s.seq.length < s.total then
      (symDec .cl s).bind fun c t => (clSymbol c t).bind fun _ u => readSeq fuel u
    else .ok () s

/-- The sequence split into the two length arrays (R236, R245). -/
def splitSeq (s : State) : State :=
  setLens .dist ((s.seq.take s.total).drop (s.hlit + 257)) (setLens .litlen (s.seq.take (s.hlit + 257)) s)

/-- HDR.READ (R245). What else it overwrites is `overwriteShared`'s (log 29). -/
def hdrRead (s : State) : Act Unit :=
  (readBits 5 s).bind fun v s => (readBits 5 (setHlit v s)).bind fun v s =>
  (readBits 4 (setHdist v s)).bind fun v s => (readClLens 0 (v + 4) (setHclen v s)).bind fun _ s =>
  (readSeq s.total (beginSeq s)).bind fun _ s => .ok () (splitSeq s)

/-! ## Meanings -/

/-- RLE.ENC (R230). An entry above 15, which only a load can put into `seq`, is encoded as it is (log 16). -/
def execRleEnc (s : State) : Out :=
  unlessPending s <| needs [.seq] s <| complete .none (rleEnc s)

/-- RLE.DEC total (R234). A pair outside the ranges of R231, which only a load can put into `rle`, is expanded as it is
(log 16). -/
def execRleDec (total : Nat) (s : State) : Out :=
  unlessPending s <| needs [.rle] s <| rleDecLoop total s.rle (setSeq [] s)

/-- HDR.SIZE (R238): a step of the sequencer. -/
def execHdrSize (s : State) : Out :=
  unlessPending s <| needs [.litLen, .distLen] s <| (hdrSize s).outcome fun _ => .none

/-- HDR.BUILD (R241): a step of the sequencer. -/
def execHdrBuild (s : State) : Out :=
  unlessPending s <| needs [.litLen, .distLen] s <| (hdrBuild s).outcome fun _ => .none

/-- HDR.WRITE (R243): a step of the sequencer. The code array is read for the pairs only. -/
def execHdrWrite (s : State) : Out :=
  unlessPending s <| needs [.clLen, .rle] s <| needs (if s.rle = [] then [] else [.clCode]) s <|
    (hdrWrite s).outcome fun _ => .none

/-- HDR.READ (R245): a step of the sequencer. -/
def execHdrRead (s : State) : Out :=
  unlessPending s <| (hdrRead s).outcome fun _ => .none

end Sys2Proof.Machine
end

