-- ==== Sys2Proof/Machine/Matcher.lean ====
section
/-! DEFINITION. The LZ77 matcher (42_lz77 R170 to R182). The chunk is a parameter of an operation (R13). Every read
of the chunk goes through `drop` or an optional read, so no byte outside `0 .. n-1` has a value (R42, R66). -/

namespace Sys2Proof.Machine

/-- LZ.RESET (R170): every hash chain is empty; `prev` is not written. -/
def lzReset (s : State) : State := { s with hashHead := [] }

/-- `hash3(data, p)` (R172): `none` where fewer than three bytes are left. -/
def hashAt (c : Config.Params) (chunk : List Byte) (p : Nat) : Option Nat :=
  match chunk.drop p with
  | x :: y :: z :: _ => some (c.hashOf x y z)
  | _ => none

/-- LZ.INSERT p (R173): position `p` heads the chain of its hash; a position without a hash is not inserted. -/
def lzInsert (chunk : List Byte) (p : Nat) (s : State) : State :=
  match hashAt s.cfg chunk p with
  | none => s
  | some v =>
    { s with
      prev := Memory.write s.prev (p % s.cfg.prevSize) (Memory.read s.hashHead v)
      hashHead := Memory.write s.hashHead v (some p) }

/-- The number of leading bytes two ranges share, at most `cap`: the greatest `L` of R175. -/
def commonLen : Nat → List Byte → List Byte → Nat
  | k + 1, a :: as, b :: bs => if a = b then commonLen k as bs + 1 else 0
  | _, _, _ => 0

/-- `matchlen(c, i, cap)` (R175). -/
def matchLen (chunk : List Byte) (c i cap : Nat) : Nat := commonLen cap (chunk.drop c) (chunk.drop i)

/-- One candidate of the chain walk (R174): viable when `1 <= i - c <= WSIZE`; the cheap reject compares one byte;
a strictly longer match replaces the best. -/
def examine (chunk : List Byte) (i c : Nat) (s : State) : State :=
  if c < i ∧ i - c ≤ s.cfg.wsize then
    if s.bestLen < s.cap ∧ chunk[c + s.bestLen]? = chunk[i + s.bestLen]? then
      let len := matchLen chunk c i s.cap
      if s.bestLen < len then { s with bestLen := len, bestDist := i - c } else s
    else s
  else s

/-- The chain walk (R174), `fuel` being the candidates still allowed: `MAX_CHAIN - visited`. The best reaches
`MAX_MATCH` only by an update, and the walk then breaks with `cand` where it is. -/
def walk (chunk : List Byte) (i : Nat) : Nat → State → State
  | 0, s => s
  | fuel + 1, s =>
    match s.cand with
    | none => s
    | some c =>
      let t := examine chunk i c { s with visited := s.visited + 1 }
      if s.cfg.maxMatch ≤ t.bestLen then t
      else walk chunk i fuel { t with cand := Memory.read t.prev (c % s.cfg.prevSize) }

/-- LZ.FIND i (R174) at a position whose hash is `h`. The result is in `bestLen` and `bestDist`. -/
def lzFind (chunk : List Byte) (i h : Nat) (s : State) : State :=
  walk chunk i s.cfg.maxChain
    { s with
      cap := min s.cfg.maxMatch (s.n - i)
      bestLen := 0
      bestDist := 0
      h := h
      cand := Memory.read s.hashHead h
      visited := 0 }

/-- The search of one pass of LZ.ENCODE (R177): no search where fewer than three bytes are left. `bestDist` is 0 while
`bestLen` is (R23). -/
def searchAt (chunk : List Byte) (s : State) : State :=
  match hashAt s.cfg chunk s.i with
  | some h => lzFind chunk s.i h s
  | none => { s with bestLen := 0, bestDist := 0 }

/-- Insert the positions `p, p+1, ..., p+k-1` in ascending order (R177, step 5). -/
def insertFrom (chunk : List Byte) : Nat → Nat → State → State
  | _, 0, s => s
  | p, k + 1, s => insertFrom chunk (p + 1) k (lzInsert chunk p s)

/-- Step 4 of R177: a literal record for the byte at `i`. -/
def encodeLiteral (chunk : List Byte) (b : Byte) (s : State) : State :=
  let t := lzInsert chunk s.i { s with recs := s.recs ++ [MatchRecord.literal b] }
  { t with i := s.i + 1 }

/-- Step 5 of R177: a match record with the byte that follows it, or none at the exact end of the chunk; every
position from `i` to `i + bestLen` is inserted. -/
def encodeMatch (chunk : List Byte) (s : State) : State :=
  let r := MatchRecord.ofMatch s.bestDist s.bestLen chunk[s.i + s.bestLen]?
  let t := insertFrom chunk s.i (s.bestLen + 1) { s with recs := s.recs ++ [r] }
  { t with i := s.i + s.bestLen + 1 }

/-- The loop of LZ.ENCODE (R177): every pass advances `i`, so `n` passes suffice (R351). -/
def encodeLoop (chunk : List Byte) : Nat → State → State
  | 0, s => s
  | fuel + 1, s =>
    match chunk[s.i]? with
    | none => s
    | some b =>
      let t := searchAt chunk s
      encodeLoop chunk fuel (if t.bestLen < s.cfg.minMatch then encodeLiteral chunk b t else encodeMatch chunk t)

/-- LZ.ENCODE n (R177). -/
def lzEncode (n : Nat) (s : State) : State :=
  encodeLoop (s.data.take n) n { setRecs [] (lzReset s) with n := n, i := 0 }

/-- The overlapping copy (R181): `len` bytes from `start` on, one at a time, each read after the earlier ones were
appended. -/
def copyFrom : Nat → Nat → List Byte → List Byte
  | _, 0, out => out
  | start, len + 1, out => copyFrom (start + 1) len (out ++ out[start]?.toList)

/-- The copy of a match: `len` bytes from `dist` behind the cursor (R180, R181). -/
def copyMatch (dist len : Nat) (s : State) : State :=
  { s with out := copyFrom (s.out.length - dist) len s.out }

/-- `lzStep` (R180): the copy, guarded by DistanceTooFar, then the literal when there is one (R182). -/
def lzStep (r : MatchRecord) (s : State) : Act Unit :=
  if 0 < r.length then
    if r.offset < 1 ∨ s.out.length < r.offset then raise .distanceTooFar r.offset s
    else
      let t := copyMatch r.offset r.length s
      .ok () (if r.hasLit then { t with out := t.out ++ [r.lit] } else t)
  else .ok () (if r.hasLit then { s with out := s.out ++ [r.lit] } else s)

/-- `lzStep` for every record in order (R180). -/
def lzSteps : List MatchRecord → State → Act Unit
  | [], s => .ok () s
  | r :: rs, s => (lzStep r s).bind fun _ t => lzSteps rs t

/-- LZ.DECODE (R180). -/
def lzDecode (s : State) : Act Unit := lzSteps s.recs { s with out := [] }

/-! ## Meanings -/

/-- LZ.RESET (R170). -/
def execLzReset (s : State) : Out :=
  unlessPending s <| complete .none (lzReset s)

/-- LZ.INSERT p (R173): a step of the sequencer on the chunk, `data[0 .. n-1]`. A position with fewer than three bytes
left is not inserted and nothing is read; else its three bytes must have been placed (log 13). -/
def execLzInsert (p : Nat) (s : State) : Out :=
  unlessPending s <|
    if p + 2 < s.n then withBytes (p + 3) s <| complete .none (lzInsert s.chunk p s)
    else complete .none s

/-- LZ.FIND i (R174): `i + 2 < n` is the operand's range; outside it the hash would read past the chunk (R66). The bytes
that may be compared, `cap` of them from `i` on, must have been placed (log 13). -/
def execLzFind (i : Nat) (s : State) : Out :=
  unlessPending s <|
    if i + 2 < s.n then
      withBytes (i + min s.cfg.maxMatch (s.n - i)) s <|
        match hashAt s.cfg s.chunk i with
        | none => .fault (.indexOutOfRange (i + 2))
        | some h =>
          let t := lzFind s.chunk i h s
          complete (.found t.bestLen t.bestDist) t
    else .fault (.indexOutOfRange (i + 2))

/-- LZ.ENCODE n (R177). -/
def execLzEncode (n : Nat) (s : State) : Out :=
  unlessPending s <| withChunk n s <| complete .none (lzEncode n s)

/-- LZ.DECODE (R180): an ill-formed record is refused before anything is done. -/
def execLzDecode (s : State) : Out :=
  unlessPending s <| needs [.recs] s <|
    if s.recs.all (fun r => r.wellFormed s.cfg) then (lzDecode s).outcome fun _ => .none
    else .refused .badRecord

end Sys2Proof.Machine
end

