-- ==== Sys2Proof/Machine/Block.lean ====
section
/-! DEFINITION. The block orchestrator: symbol counts, block encode, the decoder's symbol loop and stream operations
(45_block R260 to R282). -/

namespace Sys2Proof.Machine

/-! ## Encode -/

/-- One more occurrence of a symbol. -/
def bump (fs : List Nat) (sym : Nat) : List Nat := fs.set sym ((fs[sym]?.getD 0) + 1)

/-- One record's symbols counted (R260, R158): the pair is the literal/length and the distance frequencies.
`none`: the record is outside the code tables. -/
def countRecord (c : Config.Params) (r : MatchRecord) (fs : List Nat × List Nat) : Option (List Nat × List Nat) :=
  let lit (f : List Nat) : List Nat := if r.hasLit then bump f r.lit.toNat else f
  if 0 < r.length then
    match lenRow c r.length, distRow c r.offset with
    | some l, some d => some (lit (bump fs.1 l.sym), bump fs.2 d.sym)
    | _, _ => none
  else some (lit fs.1, fs.2)

/-- The symbols of the records counted in order (R260). -/
def countRecords (c : Config.Params) : List MatchRecord → List Nat × List Nat → Option (List Nat × List Nat)
  | [], fs => some fs
  | r :: rs, fs => (countRecord c r fs).bind (countRecords c rs)

/-- BLK.FREQ (R260): from all zeros, the records, then the one end-of-block symbol. -/
def blkFreq (s : State) : Act Unit :=
  match countRecords s.cfg s.recs (List.replicate s.cfg.nlit 0, List.replicate s.cfg.ndist 0) with
  | none => .fault (.indexOutOfRange s.recs.length)
  | some (lf, df) => .ok () (setFreqs .dist df (setFreqs .litlen (bump lf s.cfg.eob) s))

/-- SYM.EMIT on a record (R264): LEN and DIST elements of a match, then the LIT element of its byte. -/
def emitRecord (r : MatchRecord) (s : State) : Act Unit :=
  let lit (t : State) : Act Unit := if r.hasLit then emitCode .litlen r.lit.toNat t else .ok () t
  if 0 < r.length then
    match lenRow s.cfg r.length, distRow s.cfg r.offset with
    | some l, some d =>
      (emitCode .litlen l.sym s).bind fun _ t =>
      (emitCode .dist d.sym (writeBits l.extra (r.length - l.base) t)).bind fun _ u =>
      lit (writeBits d.extra (r.offset - d.base) u)
    | _, _ => .fault (.indexOutOfRange r.length)
  else lit s

/-- SYM.EMIT for every record in order (R262). -/
def emitRecords : List MatchRecord → State → Act Unit
  | [], s => .ok () s
  | r :: rs, s => (emitRecord r s).bind fun _ t => emitRecords rs t

/-- BLK.ENC n, final (R262, R109). -/
def blkEnc (n : Nat) (final : Bool) (s : State) : Act Unit :=
  (blkFreq (lzEncode n { s with bfinal := final })).bind fun _ t =>
  let t := hufBuild .dist (hufBuild .litlen t)
  let t := hufCanon .dist (hufCanon .litlen t)
  (hdrBuild t).bind fun _ t => (hdrWrite t).bind fun _ t =>
  (emitRecords t.recs t).bind fun _ t => emitCode .litlen t.cfg.eob t

/-! ## Decode -/

/-- A literal record decoded (R277). -/
def pushLiteral (b : Byte) (s : State) : State :=
  { s with recs := s.recs ++ [MatchRecord.literal b], out := s.out ++ [b] }

/-- A match record decoded, its copy already done, with its trailing literal or without one (R277). -/
def pushMatch (dist len : Nat) (lit : Option Byte) (s : State) : State :=
  { s with recs := s.recs ++ [MatchRecord.ofMatch dist len lit], out := s.out ++ lit.toList }

/-- A base value plus the extra bits read from the stream (R98, R155, R156). -/
def readExtra (table : List Config.CodeRow) (sym : Nat) (s : State) : Act Nat :=
  match rowOf table sym with
  | none => .fault (.indexOutOfRange sym)
  | some r => (readBits r.extra s).bind fun e t => .ok (r.base + e) t

/-- The header of a dynamic block and its code sets; an empty record sequence and output (R273, R276). -/
def beginData (s : State) : State :=
  { setRecs [] (hufCanon .dist (hufCanon .litlen s)) with out := [] }

/-- The symbol loop (R277). Every pass consumes at least one bit, so the bits left bound the passes: with none left
the next read is TruncatedInput (R351). -/
def symbolLoop : Nat → State → Act Unit
  | 0, s => raise .endOfSource 0 s
  | fuel + 1, s => (symDec .litlen s).bind fun sym s =>
    if sym ≤ 255 then symbolLoop fuel (pushLiteral (BitVec.ofNat 8 sym) s)
    else if sym = s.cfg.eob then .ok () s
    else if s.cfg.nlit ≤ sym then raise .symbolOutOfRange sym s
    else
      (readExtra s.cfg.lenTable sym s).bind fun len s => (symDec .dist s).bind fun d s =>
      if s.cfg.ndist ≤ d then raise .symbolOutOfRange d s
      else
        (readExtra s.cfg.distTable d s).bind fun dist s =>
        if s.out.length < dist then raise .distanceTooFar dist s
        else
          (symDec .litlen (copyMatch dist len s)).bind fun t s =>
          if t ≤ 255 then symbolLoop fuel (pushMatch dist len (some (BitVec.ofNat 8 t)) s)
          else if t = s.cfg.eob then .ok () (pushMatch dist len none s)
          else raise .trailingNotLiteral t s

/-- The end of a block (R279, R280). -/
def endBlock (s : State) : State :=
  { s with decoded := s.decoded ++ s.out, dstate := if s.bfinal then .done else .expectHeader, place := .bfinal }

/-- A dynamic block after its BTYPE (R273, R276, R277). -/
def dynamicBlock (s : State) : Act Unit :=
  (hdrRead { s with btype := 2, dstate := .dynamicHuffman }).bind fun _ t =>
  (symbolLoop (beginData t).bitsLeft (beginData t)).bind fun _ u => .ok () (endBlock u)

/-- BLK.DEC (R273 to R280). -/
def blkDec (s : State) : Act Unit :=
  (readBits 1 s).bind fun f s => (readBits 2 { s with bfinal := f = 1 }).bind fun t s =>
  if t = 0 then .ok () { s with btype := 0, dstate := .stored }
  else if t = 1 then raise .fixedHuffman 1 { s with btype := 1, dstate := .fixedHuffman }
  else if t = 3 then raise .reservedType 3 { s with btype := 3 }
  else dynamicBlock s

/-- STRM.DEC (R282): blocks until the decoder leaves `ExpectHeader`. Every block consumes at least three bits
(R351). -/
def strmDec : Nat → State → Act Unit
  | 0, s => raise .endOfSource 0 s
  | fuel + 1, s => (blkDec s).bind fun _ t =>
    if t.dstate = .expectHeader then strmDec fuel t else .ok () t

/-- R272: the decode operations start in `ExpectHeader`, between two blocks. -/
def atBlockStart (s : State) (k : Out) : Out :=
  match s.dstate with
  | .done => .refused .streamDone
  | .stored => .refused .storedHandoff
  | .failed => .refused .errorPending
  | .fixedHuffman | .dynamicHuffman => .refused .blockInProgress
  | .expectHeader => if s.place = .bfinal then k else .refused .blockInProgress

/-! ## Meanings -/

/-- BLK.FREQ (R260): a step of the sequencer. -/
def execBlkFreq (s : State) : Out :=
  unlessPending s <| needs [.recs] s <| (blkFreq s).outcome fun _ => .none

/-- SYM.EMIT k (R264): a step of the sequencer; `k` is an index into `recs` (R66). The code arrays are needed
that the record's elements read: both for a match, the literal/length one for a literal, none for neither (log 10). -/
def execSymEmit (k : Nat) (s : State) : Out :=
  unlessPending s <| needs [.recs] s <|
    match s.recs[k]? with
    | none => .fault (.indexOutOfRange k)
    | some r =>
      needs (if 0 < r.length then [.litCode, .distCode] else if r.hasLit then [.litCode] else []) s <|
        (emitRecord r s).outcome fun _ => .none

/-- BLK.ENC n, final (R262). -/
def execBlkEnc (n : Nat) (final : Bool) (s : State) : Out :=
  unlessPending s <| withChunk n s <| (blkEnc n final s).outcome fun _ => .none

/-- BLK.DEC (R273). -/
def execBlkDec (s : State) : Out :=
  unlessPending s <| atBlockStart s <| (blkDec s).outcome fun _ => .none

/-- STRM.DEC (R282). -/
def execStrmDec (s : State) : Out :=
  unlessPending s <| atBlockStart s <| (strmDec s.bitsLeft s).outcome fun _ => .none

/-- STRM.CLOSE (R268): BS.FLUSH. -/
def execStrmClose (s : State) : Out :=
  unlessPending s <| complete .none (flush s)

end Sys2Proof.Machine
end

