-- ==== Sys2Proof/Machine/Wire.lean ====
section
/-! DEFINITION. The wire elements one by one (30_encoding R90 to R105): what the decoder does with the element that
stands at its place, in the words of 44_rle_header R245 and 45_block R273 to R280. The element's own field or code has
been read when its meaning runs; a symbol's extra bits are read by the meaning, after the checks R313 puts before
them. -/

namespace Sys2Proof.Machine

/-! ## Places -/

/-- An element where the grammar of R91 and R99 has no place for it (log 4). -/
def outOfPlace : Out := .refused .elementOutOfPlace

/-- The element is done and the next one is at `p`. -/
def goTo (p : Place) (s : State) : Act Unit := .ok () { s with place := p }

/-- The outcome of an element: it has no result word. -/
def element (x : Act Unit) : Out := x.outcome fun _ => .none

/-! ## Block header -/

/-- BTYPE, its value in hand (R273 to R276). -/
def btypeElement (t : Nat) (s : State) : Out :=
  unlessPending s <|
    if s.place = .btype then
      element <|
        if t = 0 then goTo .bfinal { s with btype := 0, dstate := .stored }
        else if t = 1 then raise .fixedHuffman 1 { s with btype := 1, dstate := .fixedHuffman }
        else if t = 3 then raise .reservedType 3 { s with btype := 3 }
        else goTo .hlit { s with btype := 2, dstate := .dynamicHuffman }
    else outOfPlace

/-- After a CLLEN field (R245): the next one, or the code-length codes and the length sequence. -/
def afterClLen (k : Nat) (s : State) : Act Unit :=
  if k + 1 < s.hclen + 4 then goTo (.cllen (k + 1)) s else goTo .clsym (beginSeq s)

/-! ## Code-length symbols -/

/-- After a CLSYM element (R245): the next one while `|seq| < total`, else the two code sets and the data part. -/
def afterClSymbol (s : State) : Act Unit :=
  if s.seq.length < s.total then goTo .clsym s else goTo .record (beginData (splitSeq s))

/-- A CLSYM element, its symbol in hand. -/
def clElement (c : Nat) (s : State) : Out :=
  unlessPending s <|
    if s.place = .clsym then element ((clSymbol c s).bind fun _ t => afterClSymbol t) else outOfPlace

/-! ## Literal/length and distance symbols -/

/-- LIT (R277): a literal record, or the trailing literal of a match. -/
def litElement (b : Byte) (s : State) : Out :=
  unlessPending s <|
    match s.place with
    | .record => element (goTo .record (pushLiteral b s))
    | .trailing len dist => element (goTo .record (pushMatch dist len (some b) s))
    | _ => outOfPlace

/-- EOB (R277, R279, R280): the end of the block, also in the trailing place. -/
def eobElement (s : State) : Out :=
  unlessPending s <|
    match s.place with
    | .record => element (.ok () (endBlock s))
    | .trailing len dist => element (.ok () (endBlock (pushMatch dist len none s)))
    | _ => outOfPlace

/-- LEN (R277): the match length from its extra bits; in the trailing place a fault (R309). -/
def lenElement (sym : Nat) (s : State) : Out :=
  unlessPending s <|
    match s.place with
    | .record => element ((readExtra s.cfg.lenTable sym s).bind fun len t => goTo (.dist len) t)
    | .trailing _ _ => element (raise .trailingNotLiteral sym s)
    | _ => outOfPlace

/-- A literal/length symbol outside the alphabet (R305); in the trailing place TrailingNotLiteral (R309). -/
def litlenIllegalElement (sym : Nat) (s : State) : Out :=
  unlessPending s <|
    match s.place with
    | .record => element (raise .symbolOutOfRange sym s)
    | .trailing _ _ => element (raise .trailingNotLiteral sym s)
    | _ => outOfPlace

/-- DIST (R277, R278): the distance from its extra bits, the check, the copy. -/
def distElement (sym : Nat) (s : State) : Out :=
  unlessPending s <|
    match s.place with
    | .dist len =>
      element ((readExtra s.cfg.distTable sym s).bind fun dist t =>
        if t.out.length < dist then raise .distanceTooFar dist t
        else goTo (.trailing len dist) (copyMatch dist len t))
    | _ => outOfPlace

/-- A distance symbol outside the alphabet (R305). -/
def distIllegalElement (sym : Nat) (s : State) : Out :=
  unlessPending s <|
    match s.place with
    | .dist _ => element (raise .symbolOutOfRange sym s)
    | _ => outOfPlace

/-! ## Meanings -/

/-- BFINAL (R91, R273): the first element of a block, in `ExpectHeader` only (R272). -/
def execBfinal (f : Bool) (s : State) : Out :=
  unlessPending s <| atBlockStart s <| element (goTo .btype { s with bfinal := f })

/-- BTYPE 0 (R275): the stored hand-off; the core stops without a fault. -/
def execBtypeStored (s : State) : Out := btypeElement 0 s

/-- BTYPE 1 (R274): UnsupportedBlockType.FixedHuffman. -/
def execBtypeFixed (s : State) : Out := btypeElement 1 s

/-- BTYPE 2 (R276): a dynamic block begins. -/
def execBtypeDynamic (s : State) : Out := btypeElement 2 s

/-- BTYPE 3 (R274): UnsupportedBlockType.ReservedType. -/
def execBtypeReserved (s : State) : Out := btypeElement 3 s

/-- HLIT (R93, R245). -/
def execHlit (a : Nat) (s : State) : Out :=
  unlessPending s <| if s.place = .hlit then element (goTo .hdist (setHlit a s)) else outOfPlace

/-- HDIST (R93, R245). -/
def execHdist (d : Nat) (s : State) : Out :=
  unlessPending s <| if s.place = .hdist then element (goTo .hclen (setHdist d s)) else outOfPlace

/-- HCLEN (R93, R245). -/
def execHclen (c : Nat) (s : State) : Out :=
  unlessPending s <| if s.place = .hclen then element (goTo (.cllen 0) (setHclen c s)) else outOfPlace

/-- CLLEN (R94, R245). -/
def execCllen (l : Nat) (s : State) : Out :=
  unlessPending s <|
    match s.place with
    | .cllen k => element ((setClLen k l s).bind fun _ t => afterClLen k t)
    | _ => outOfPlace

/-- CL.LEN (R102, R234): one code length. -/
def execClLen (v : Nat) (s : State) : Out := clElement v s

/-- CL.REP (R102, R234): the previous length again. -/
def execClRep (s : State) : Out := clElement 16 s

/-- CL.Z3 (R102, R234): 3 to 10 zeros. -/
def execClZ3 (s : State) : Out := clElement 17 s

/-- CL.Z11 (R102, R234): 11 to 138 zeros. -/
def execClZ11 (s : State) : Out := clElement 18 s

/-- LIT (R100, R277). -/
def execLit (b : Byte) (s : State) : Out := litElement b s

/-- EOB (R100, R277). -/
def execEob (s : State) : Out := eobElement s

/-- LEN.257 (R151, R277). -/
def execLen257 (s : State) : Out := lenElement 257 s

/-- LEN.258 (R151, R277). -/
def execLen258 (s : State) : Out := lenElement 258 s

/-- LEN.259 (R151, R277). -/
def execLen259 (s : State) : Out := lenElement 259 s

/-- LEN.260 (R151, R277). -/
def execLen260 (s : State) : Out := lenElement 260 s

/-- LEN.261 (R151, R277). -/
def execLen261 (s : State) : Out := lenElement 261 s

/-- LEN.262 (R151, R277). -/
def execLen262 (s : State) : Out := lenElement 262 s

/-- LEN.263 (R151, R277). -/
def execLen263 (s : State) : Out := lenElement 263 s

/-- LEN.264 (R151, R277). -/
def execLen264 (s : State) : Out := lenElement 264 s

/-- LEN.265 (R151, R277). -/
def execLen265 (s : State) : Out := lenElement 265 s

/-- LEN.266 (R151, R277). -/
def execLen266 (s : State) : Out := lenElement 266 s

/-- LEN.267 (R151, R277). -/
def execLen267 (s : State) : Out := lenElement 267 s

/-- LEN.268 (R151, R277). -/
def execLen268 (s : State) : Out := lenElement 268 s

/-- LEN.269 (R151, R277). -/
def execLen269 (s : State) : Out := lenElement 269 s

/-- LEN.270 (R151, R277). -/
def execLen270 (s : State) : Out := lenElement 270 s

/-- LEN.271 (R151, R277). -/
def execLen271 (s : State) : Out := lenElement 271 s

/-- LEN.272 (R151, R277). -/
def execLen272 (s : State) : Out := lenElement 272 s

/-- LEN.273 (R151, R277). -/
def execLen273 (s : State) : Out := lenElement 273 s

/-- LEN.274 (R151, R277). -/
def execLen274 (s : State) : Out := lenElement 274 s

/-- LEN.275 (R151, R277). -/
def execLen275 (s : State) : Out := lenElement 275 s

/-- LEN.276 (R151, R277). -/
def execLen276 (s : State) : Out := lenElement 276 s

/-- LEN.277 (R151, R277). -/
def execLen277 (s : State) : Out := lenElement 277 s

/-- LEN.278 (R151, R277). -/
def execLen278 (s : State) : Out := lenElement 278 s

/-- LEN.279 (R151, R277). -/
def execLen279 (s : State) : Out := lenElement 279 s

/-- LEN.280 (R151, R277). -/
def execLen280 (s : State) : Out := lenElement 280 s

/-- LEN.281 (R151, R277). -/
def execLen281 (s : State) : Out := lenElement 281 s

/-- LEN.282 (R151, R277). -/
def execLen282 (s : State) : Out := lenElement 282 s

/-- LEN.283 (R151, R277). -/
def execLen283 (s : State) : Out := lenElement 283 s

/-- LEN.284 (R151, R277). -/
def execLen284 (s : State) : Out := lenElement 284 s

/-- LEN.285 (R151, R277). -/
def execLen285 (s : State) : Out := lenElement 285 s

/-- LITLEN.ILLEGAL.286 (R100, R305, R309). -/
def execLitlenIllegal286 (s : State) : Out := litlenIllegalElement 286 s

/-- LITLEN.ILLEGAL.287 (R100, R305, R309). -/
def execLitlenIllegal287 (s : State) : Out := litlenIllegalElement 287 s

/-- DIST.0 (R152, R277, R278). -/
def execDist0 (s : State) : Out := distElement 0 s

/-- DIST.1 (R152, R277, R278). -/
def execDist1 (s : State) : Out := distElement 1 s

/-- DIST.2 (R152, R277, R278). -/
def execDist2 (s : State) : Out := distElement 2 s

/-- DIST.3 (R152, R277, R278). -/
def execDist3 (s : State) : Out := distElement 3 s

/-- DIST.4 (R152, R277, R278). -/
def execDist4 (s : State) : Out := distElement 4 s

/-- DIST.5 (R152, R277, R278). -/
def execDist5 (s : State) : Out := distElement 5 s

/-- DIST.6 (R152, R277, R278). -/
def execDist6 (s : State) : Out := distElement 6 s

/-- DIST.7 (R152, R277, R278). -/
def execDist7 (s : State) : Out := distElement 7 s

/-- DIST.8 (R152, R277, R278). -/
def execDist8 (s : State) : Out := distElement 8 s

/-- DIST.9 (R152, R277, R278). -/
def execDist9 (s : State) : Out := distElement 9 s

/-- DIST.10 (R152, R277, R278). -/
def execDist10 (s : State) : Out := distElement 10 s

/-- DIST.11 (R152, R277, R278). -/
def execDist11 (s : State) : Out := distElement 11 s

/-- DIST.12 (R152, R277, R278). -/
def execDist12 (s : State) : Out := distElement 12 s

/-- DIST.13 (R152, R277, R278). -/
def execDist13 (s : State) : Out := distElement 13 s

/-- DIST.14 (R152, R277, R278). -/
def execDist14 (s : State) : Out := distElement 14 s

/-- DIST.15 (R152, R277, R278). -/
def execDist15 (s : State) : Out := distElement 15 s

/-- DIST.16 (R152, R277, R278). -/
def execDist16 (s : State) : Out := distElement 16 s

/-- DIST.17 (R152, R277, R278). -/
def execDist17 (s : State) : Out := distElement 17 s

/-- DIST.18 (R152, R277, R278). -/
def execDist18 (s : State) : Out := distElement 18 s

/-- DIST.19 (R152, R277, R278). -/
def execDist19 (s : State) : Out := distElement 19 s

/-- DIST.20 (R152, R277, R278). -/
def execDist20 (s : State) : Out := distElement 20 s

/-- DIST.21 (R152, R277, R278). -/
def execDist21 (s : State) : Out := distElement 21 s

/-- DIST.22 (R152, R277, R278). -/
def execDist22 (s : State) : Out := distElement 22 s

/-- DIST.23 (R152, R277, R278). -/
def execDist23 (s : State) : Out := distElement 23 s

/-- DIST.24 (R152, R277, R278). -/
def execDist24 (s : State) : Out := distElement 24 s

/-- DIST.25 (R152, R277, R278). -/
def execDist25 (s : State) : Out := distElement 25 s

/-- DIST.26 (R152, R277, R278). -/
def execDist26 (s : State) : Out := distElement 26 s

/-- DIST.27 (R152, R277, R278). -/
def execDist27 (s : State) : Out := distElement 27 s

/-- DIST.28 (R152, R277, R278). -/
def execDist28 (s : State) : Out := distElement 28 s

/-- DIST.29 (R152, R277, R278). -/
def execDist29 (s : State) : Out := distElement 29 s

/-- DIST.ILLEGAL.30 (R101, R305). -/
def execDistIllegal30 (s : State) : Out := distIllegalElement 30 s

/-- DIST.ILLEGAL.31 (R101, R305). -/
def execDistIllegal31 (s : State) : Out := distIllegalElement 31 s

/-- PAD (R111, R281): a padding bit after the final block is not read and not checked; nothing changes. -/
def execPad (s : State) : Out :=
  unlessPending s <| if s.dstate = .done then complete .none s else outOfPlace

end Sys2Proof.Machine
end

