-- ==== Sys2Proof/Machine/Dispatch.lean ====
section
/-! DEFINITION. The meaning of every instruction, one arm each. -/

namespace Sys2Proof.Machine

def exec (i : Instr) (s : State) : Host.Outcome State Fault Refusal :=
  match i with
  | .coreReset => Sys2Proof.Machine.execCoreReset s
  | .coreStatus => Sys2Proof.Machine.execCoreStatus s
  | .bsWbit b => Sys2Proof.Machine.execBsWbit b s
  | .bsWbits n v => Sys2Proof.Machine.execBsWbits n v s
  | .bsWcode l c => Sys2Proof.Machine.execBsWcode l c s
  | .bsFlush => Sys2Proof.Machine.execBsFlush s
  | .bsRbit => Sys2Proof.Machine.execBsRbit s
  | .bsRbits n => Sys2Proof.Machine.execBsRbits n s
  | .tblLensym len => Sys2Proof.Machine.execTblLensym len s
  | .tblDistsym dist => Sys2Proof.Machine.execTblDistsym dist s
  | .tblLenval sym x => Sys2Proof.Machine.execTblLenval sym x s
  | .tblDistval d x => Sys2Proof.Machine.execTblDistval d x s
  | .lzReset => Sys2Proof.Machine.execLzReset s
  | .lzInsert p => Sys2Proof.Machine.execLzInsert p s
  | .lzFind p => Sys2Proof.Machine.execLzFind p s
  | .lzEncode n => Sys2Proof.Machine.execLzEncode n s
  | .lzDecode => Sys2Proof.Machine.execLzDecode s
  | .hufBuild a => Sys2Proof.Machine.execHufBuild a s
  | .hufCanon a => Sys2Proof.Machine.execHufCanon a s
  | .symDec a => Sys2Proof.Machine.execSymDec a s
  | .rleEnc => Sys2Proof.Machine.execRleEnc s
  | .rleDec total => Sys2Proof.Machine.execRleDec total s
  | .hdrSize => Sys2Proof.Machine.execHdrSize s
  | .hdrBuild => Sys2Proof.Machine.execHdrBuild s
  | .hdrWrite => Sys2Proof.Machine.execHdrWrite s
  | .hdrRead => Sys2Proof.Machine.execHdrRead s
  | .blkFreq => Sys2Proof.Machine.execBlkFreq s
  | .symEmit k => Sys2Proof.Machine.execSymEmit k s
  | .blkEnc n final => Sys2Proof.Machine.execBlkEnc n final s
  | .blkDec => Sys2Proof.Machine.execBlkDec s
  | .strmDec => Sys2Proof.Machine.execStrmDec s
  | .strmClose => Sys2Proof.Machine.execStrmClose s
  | .bfinal f => Sys2Proof.Machine.execBfinal f s
  | .btypeStored => Sys2Proof.Machine.execBtypeStored s
  | .btypeFixed => Sys2Proof.Machine.execBtypeFixed s
  | .btypeDynamic => Sys2Proof.Machine.execBtypeDynamic s
  | .btypeReserved => Sys2Proof.Machine.execBtypeReserved s
  | .hlit a => Sys2Proof.Machine.execHlit a s
  | .hdist d => Sys2Proof.Machine.execHdist d s
  | .hclen c => Sys2Proof.Machine.execHclen c s
  | .cllen l => Sys2Proof.Machine.execCllen l s
  | .clLen v => Sys2Proof.Machine.execClLen v s
  | .clRep => Sys2Proof.Machine.execClRep s
  | .clZ3 => Sys2Proof.Machine.execClZ3 s
  | .clZ11 => Sys2Proof.Machine.execClZ11 s
  | .lit b => Sys2Proof.Machine.execLit b s
  | .eob => Sys2Proof.Machine.execEob s
  | .len257 => Sys2Proof.Machine.execLen257 s
  | .len258 => Sys2Proof.Machine.execLen258 s
  | .len259 => Sys2Proof.Machine.execLen259 s
  | .len260 => Sys2Proof.Machine.execLen260 s
  | .len261 => Sys2Proof.Machine.execLen261 s
  | .len262 => Sys2Proof.Machine.execLen262 s
  | .len263 => Sys2Proof.Machine.execLen263 s
  | .len264 => Sys2Proof.Machine.execLen264 s
  | .len265 => Sys2Proof.Machine.execLen265 s
  | .len266 => Sys2Proof.Machine.execLen266 s
  | .len267 => Sys2Proof.Machine.execLen267 s
  | .len268 => Sys2Proof.Machine.execLen268 s
  | .len269 => Sys2Proof.Machine.execLen269 s
  | .len270 => Sys2Proof.Machine.execLen270 s
  | .len271 => Sys2Proof.Machine.execLen271 s
  | .len272 => Sys2Proof.Machine.execLen272 s
  | .len273 => Sys2Proof.Machine.execLen273 s
  | .len274 => Sys2Proof.Machine.execLen274 s
  | .len275 => Sys2Proof.Machine.execLen275 s
  | .len276 => Sys2Proof.Machine.execLen276 s
  | .len277 => Sys2Proof.Machine.execLen277 s
  | .len278 => Sys2Proof.Machine.execLen278 s
  | .len279 => Sys2Proof.Machine.execLen279 s
  | .len280 => Sys2Proof.Machine.execLen280 s
  | .len281 => Sys2Proof.Machine.execLen281 s
  | .len282 => Sys2Proof.Machine.execLen282 s
  | .len283 => Sys2Proof.Machine.execLen283 s
  | .len284 => Sys2Proof.Machine.execLen284 s
  | .len285 => Sys2Proof.Machine.execLen285 s
  | .litlenIllegal286 => Sys2Proof.Machine.execLitlenIllegal286 s
  | .litlenIllegal287 => Sys2Proof.Machine.execLitlenIllegal287 s
  | .dist0 => Sys2Proof.Machine.execDist0 s
  | .dist1 => Sys2Proof.Machine.execDist1 s
  | .dist2 => Sys2Proof.Machine.execDist2 s
  | .dist3 => Sys2Proof.Machine.execDist3 s
  | .dist4 => Sys2Proof.Machine.execDist4 s
  | .dist5 => Sys2Proof.Machine.execDist5 s
  | .dist6 => Sys2Proof.Machine.execDist6 s
  | .dist7 => Sys2Proof.Machine.execDist7 s
  | .dist8 => Sys2Proof.Machine.execDist8 s
  | .dist9 => Sys2Proof.Machine.execDist9 s
  | .dist10 => Sys2Proof.Machine.execDist10 s
  | .dist11 => Sys2Proof.Machine.execDist11 s
  | .dist12 => Sys2Proof.Machine.execDist12 s
  | .dist13 => Sys2Proof.Machine.execDist13 s
  | .dist14 => Sys2Proof.Machine.execDist14 s
  | .dist15 => Sys2Proof.Machine.execDist15 s
  | .dist16 => Sys2Proof.Machine.execDist16 s
  | .dist17 => Sys2Proof.Machine.execDist17 s
  | .dist18 => Sys2Proof.Machine.execDist18 s
  | .dist19 => Sys2Proof.Machine.execDist19 s
  | .dist20 => Sys2Proof.Machine.execDist20 s
  | .dist21 => Sys2Proof.Machine.execDist21 s
  | .dist22 => Sys2Proof.Machine.execDist22 s
  | .dist23 => Sys2Proof.Machine.execDist23 s
  | .dist24 => Sys2Proof.Machine.execDist24 s
  | .dist25 => Sys2Proof.Machine.execDist25 s
  | .dist26 => Sys2Proof.Machine.execDist26 s
  | .dist27 => Sys2Proof.Machine.execDist27 s
  | .dist28 => Sys2Proof.Machine.execDist28 s
  | .dist29 => Sys2Proof.Machine.execDist29 s
  | .distIllegal30 => Sys2Proof.Machine.execDistIllegal30 s
  | .distIllegal31 => Sys2Proof.Machine.execDistIllegal31 s
  | .pad => Sys2Proof.Machine.execPad s

end Sys2Proof.Machine
end

