-- ==== Sys2Proof/Machine/Fetch.lean ====
section
/-! DEFINITION. What the step serves next: a command word at the command port or from the sequencer (30_encoding R106,
R107), the wire element at the decoder's place (R90, R105, R210), or what the host places (10_state R40, R106). Step.lean
only calls this. -/

namespace Sys2Proof.Machine

/-- What the fetch answers: an instruction to run in a state, or the outcome of the step itself. -/
inductive Fetched where
  | run (i : Instr) (s : State)
  | settled (o : Out)
  deriving Repr

/-- A host command (R107, R318): an unassigned opcode and a sequencer-internal operation are refused. -/
def fetchCommand (w : Word) (s : State) : Fetched :=
  match decodeCmd w with
  | none => .settled (.refused .unknownCommand)
  | some i => if i.hostIssuable then .run i s else .settled (.refused .notHostIssuable)

/-- A command word of the core's own sequencer: any operation of R107 (log 2). -/
def fetchSequencer (w : Word) (s : State) : Fetched :=
  match decodeCmd w with
  | none => .settled (.refused .unknownCommand)
  | some i => .run i s

/-- The element that the bits read stand for; the read may have raised a fault of the core. -/
def elementOf (f : Format) (x : Act Nat) : Fetched :=
  match x with
  | .ok v t =>
    match decode f v with
    | some i => .run i t
    | none => .settled (.fault (.indexOutOfRange v))
  | .raised t => .settled (.next t)
  | .fault e => .settled (.fault e)

/-- A Huffman-coded element: its symbol is decoded with SYM.DEC (R112, R210), from codes that are there (R342). -/
def symbolOf (f : Format) (a : Alphabet) (s : State) : Fetched :=
  if s.filled.has a.codeBuffer then elementOf f (symDec a s)
  else .settled (.refused (.unfilled a.codeBuffer))

/-- The element at the decoder's place (R91, R99): its field is read, or its symbol decoded. -/
def elementAt (p : Place) (s : State) : Fetched :=
  match p with
  | .bfinal => elementOf .bfinal (readBits 1 s)
  | .btype => elementOf .btype (readBits 2 s)
  | .hlit => elementOf .hlit (readBits 5 s)
  | .hdist => elementOf .hdist (readBits 5 s)
  | .hclen => elementOf .hclen (readBits 4 s)
  | .cllen _ => elementOf .cllen (readBits 3 s)
  | .clsym => symbolOf .clsym .cl s
  | .record => symbolOf .litlen .litlen s
  | .dist _ => symbolOf .dist .dist s
  | .trailing _ _ => symbolOf .litlen .litlen s

/-- The next wire element (R90, R105). After `Done` what stands there is padding and no bit of it is read (R281); in
`Stored` the rest is the collaborator's (R275). -/
def fetchElement (s : State) : Fetched :=
  if s.err.isSome then .settled (.refused .errorPending)
  else
    match s.dstate with
    | .done => .run .pad s
    | .stored => .settled (.refused .storedHandoff)
    | _ => elementAt s.place s

/-- A bulk operand the host gives in its named buffer (R106). DESIGN CHOICE (log 16): the spec names no check and no
refusal of one outside its buffer's range or size (a length or `seq` entry above 15, an extra value above its field, an
array of another length than its alphabet), so it is taken as it is, and the operations use it as it is. -/
def loadBulk (b : Bulk) (s : State) : State :=
  match b with
  | .recs rs => setRecs rs s
  | .freq a fs => setFreqs a fs s
  | .lens a ls => setLens a ls s
  | .seq ls => setSeq ls s
  | .rle ps => setRle ps s

/-- One request served, the others still in `port`. What the host attaches, places or loads it may also give while an
error is pending: R314 refuses operations (DESIGN CHOICE, log 16). -/
def serve (r : Request) (s : State) : Fetched :=
  match r with
  | .command w => fetchCommand w s
  | .sequencer w => fetchSequencer w s
  | .element => fetchElement s
  | .attach bytes => .settled (.next { s with source := bytes })
  | .place bytes => .settled (.next { s with data := bytes })
  | .load b => .settled (.next (loadBulk b s))

/-- The next request; with none the core holds its state (R327). -/
def fetch (s : State) : Fetched :=
  match s.port with
  | [] => .settled (.next s)
  | r :: rest => serve r { s with port := rest }

/-! ## Laying a word out where the step fetches it -/

/-- The request that makes the step run a command word: the host's own, or the sequencer's for the operations the
host may not issue. -/
def commandRequest (w : Nat) : Request :=
  let word : Word := BitVec.ofNat 32 w
  if (decodeCmd word).any Instr.hostIssuable then .command word else .sequencer word

/-- A field element laid out: the source holds its bits from stream bit 0 on, and the decoder stands at it. -/
def layField (p : Place) (d : DState) (v : Nat) (s : State) : State :=
  { s with
    port := .element :: s.port, source := [BitVec.ofNat 8 v], bitPos := 0, place := p, dstate := d }

/-- A Huffman-coded element laid out: a code set in which symbol `v` alone has a code, the 1-bit code 0, a source of
zeros (code and extra bits), and the decoder at the element's place inside a dynamic block. -/
def laySymbol (a : Alphabet) (p : Place) (v : Nat) (s : State) : State :=
  setCodes a (List.replicate v none ++ [some (0, 1)])
    { s with
      port := .element :: s.port, source := [0#8, 0#8, 0#8], bitPos := 0, place := p, dstate := .dynamicHuffman }

/-- The encoding `v` of format `f` laid out so that the next step runs exactly the instruction it stands for (log 5). -/
def layEncoding (f : Format) (v : Nat) (s : State) : State :=
  match f with
  | .cmd => { s with port := commandRequest v :: s.port }
  | .bfinal => layField .bfinal .expectHeader v s
  | .btype => layField .btype .expectHeader v s
  | .hlit => layField .hlit .dynamicHuffman v s
  | .hdist => layField .hdist .dynamicHuffman v s
  | .hclen => layField .hclen .dynamicHuffman v s
  | .cllen => layField (.cllen 0) .dynamicHuffman v s
  | .clsym => laySymbol .cl .clsym v s
  | .litlen => laySymbol .litlen .record v s
  | .dist => laySymbol .dist (.dist s.cfg.minMatch) v s
  | .pad => { s with port := .element :: s.port, dstate := .done }

end Sys2Proof.Machine
end

