-- ==== Sys2Proof/Machine/Step.lean ====
section
/-! DEFINITION. One step: the next request is fetched and its instruction run (log 1). And the host's way to put a
row's word where the step fetches it (log 5, log 6). -/

namespace Sys2Proof.Machine

/-- One step of the core. -/
def step (s : State) : Host.Outcome State Fault Refusal :=
  match fetch s with
  | .run i t => exec i t
  | .settled o => o

/-- `s` with the row's word, its bits numbered as spec/opcode_table.json numbers them, laid out as the next thing
the step fetches. -/
def State.withFetchWord (s : State) (nbits w : Nat) : State := layEncoding (tableFormat nbits w) w s

end Sys2Proof.Machine
end

