-- ==== Sys2Proof/Safety.lean ====
section
/-! DEFINITION. The terms the claims are stated in: runs of instructions and of steps, the streams as sequences of
bits (20_memory R60, R61), what records and run-length pairs stand for (10_state R34, 44_rle_header R231), the sets of
instructions the rules speak of, and the invariant of a safe state. -/

namespace Sys2Proof.Config

/-- Along a table the ranges `base .. base + 2 ^ extra - 1` leave no gap up to the bound. -/
def Gapless (bound : Nat) : List CodeRow → Bool
  | [] => true
  | [r] => bound < r.base + 2 ^ r.extra
  | r :: q :: rest => r.base < q.base && q.base ≤ r.base + 2 ^ r.extra && Gapless bound (q :: rest)

/-- The constraints the rules put on the parameters (R11, R100 to R102, R150 to R152, U7): what the claims hold
under. -/
structure Params.Ok (c : Params) : Prop where
  /-- the symbol numbers of R100 to R102 -/
  symbols : c.nlit = 286 ∧ c.ndist = 30 ∧ c.ncl = 19 ∧ c.eob = 256
  /-- HASH_SIZE = 2^16 (R11) -/
  hashSize : c.hashSize = 2 ^ 16
  /-- the ranges of U7 -/
  ranges : 3 ≤ c.minMatch ∧ c.maxMatch ≤ 258 ∧ c.wsize ≤ 32768
  /-- the length caps: every alphabet fits its cap (R11, R203), the widths of R24, R37 and R94, and no code is longer
  than decoding tries (R210) -/
  caps : c.nlit ≤ 2 ^ c.maxbitsLd ∧ c.ndist ≤ 2 ^ c.maxbitsLd ∧ c.ncl ≤ 2 ^ c.maxbitsCl ∧ c.maxbitsCl ≤ 7 ∧
    c.maxbitsLd ≤ c.decodeMaxbits ∧ c.maxbitsCl ≤ c.decodeMaxbits ∧ c.decodeMaxbits ≤ 15
  /-- CLPERM is a permutation of the code-length symbols (R150) -/
  clperm : c.clperm.length = c.ncl ∧ ∀ k < c.ncl, k ∈ c.clperm
  /-- LBASE and LEXTRA: one row per length symbol (R151), from MIN_MATCH to MAX_MATCH (R11), without gaps (R157) -/
  lenTable : c.lenTable.map CodeRow.sym = List.range' 257 29 ∧
    c.lenTable.head?.map CodeRow.base = some c.minMatch ∧ c.lenTable.getLast?.map CodeRow.base = some c.maxMatch ∧
    Gapless c.maxMatch c.lenTable = true ∧ ∀ r ∈ c.lenTable, r.base + 2 ^ r.extra ≤ c.maxMatch + 1
  /-- DBASE and DEXTRA: one row per distance symbol (R152), from 1 to WSIZE (R11), without gaps (R157) -/
  distTable : c.distTable.map CodeRow.sym = List.range 30 ∧ c.distTable.head?.map CodeRow.base = some 1 ∧
    c.distTable.getLast?.map (fun r => r.base + 2 ^ r.extra) = some (c.wsize + 1) ∧
    Gapless c.wsize c.distTable = true ∧ ∀ r ∈ c.distTable, r.base + 2 ^ r.extra ≤ c.wsize + 1

end Sys2Proof.Config

namespace Sys2Proof.Machine

/-! ## Runs -/

/-- Instructions run one after another, stopping at the first fault or refusal. -/
def runAll : List Instr → State → Out
  | [], s => .next s
  | i :: is, s =>
    match exec i s with
    | .next t => runAll is t
    | .fault f => .fault f
    | .refused r => .refused r

/-- `k` steps lead from `s` to `t`, none of them a fault or a refusal. -/
def StepsTo : Nat → State → State → Prop
  | 0, s, t => s = t
  | k + 1, s, t => ∃ u, step s = .next u ∧ StepsTo k u t

/-- The chunks of a stream encoded in order: each is placed and given to BLK.ENC, `final` on the last one (R343). -/
def encodeChunks : List (List Byte) → State → Out
  | [], s => .next s
  | c :: cs, s =>
    match exec (.blkEnc c.length cs.isEmpty) { s with data := c } with
    | .next t => encodeChunks cs t
    | .fault f => .fault f
    | .refused r => .refused r

/-- The format and width of the fixed-width field at an element place (R91). -/
def Place.fieldFormat : Place → Option (Format × Nat)
  | .bfinal => some (.bfinal, 1)
  | .btype => some (.btype, 2)
  | .hlit => some (.hlit, 5)
  | .hdist => some (.hdist, 5)
  | .hclen => some (.hclen, 4)
  | .cllen _ => some (.cllen, 3)
  | .clsym | .record | .dist _ | .trailing _ _ => none

/-- The format and alphabet of the Huffman-coded symbol at an element place (R91, R99). -/
def Place.symbolFormat : Place → Option (Format × Alphabet)
  | .clsym => some (.clsym, .cl)
  | .record => some (.litlen, .litlen)
  | .dist _ => some (.dist, .dist)
  | .trailing _ _ => some (.litlen, .litlen)
  | .bfinal | .btype | .hlit | .hdist | .hclen | .cllen _ => none

/-! ## Streams of bits -/

/-- The first `n` bits of a byte whose bits stand in stream order, bit 0 first (R21). -/
def byteBits (n : Nat) (b : Byte) : List Bool := (List.range n).map fun k => b.getLsbD k

/-- The bits of a sequence of bytes in stream order (R60): of each byte bit 0 first LSB-first, bit 7 first MSB-first
(U4). -/
def bytesBits (order : Config.BitOrder) (bytes : List Byte) : List Bool :=
  bytes.flatMap fun b => (List.range 8).map fun k =>
    match order with
    | .lsbFirst => b.getLsbD k
    | .msbFirst => b.getMsbD k

/-- Every bit written since reset: those in the sink, then the pending ones (R26, R63). -/
def State.written (s : State) : List Bool := bytesBits s.cfg.bitOrder s.sink ++ byteBits s.wCnt s.wBuf

/-- Every bit of the source (R62). -/
def State.sourceBits (s : State) : List Bool := bytesBits s.cfg.bitOrder s.source

/-- The bits not yet read (R26). -/
def State.unread (s : State) : List Bool := s.sourceBits.drop s.bitPos

/-- The value of a field from its bits, least significant first (R61). -/
def fieldValue : List Bool → Nat
  | [] => 0
  | b :: bs => b.toNat + 2 * fieldValue bs

/-- The value of a code from its bits, most significant first (R61). -/
def codeValue (bits : List Bool) : Nat := bits.foldl (fun v b => 2 * v + b.toNat) 0

/-- The writer between operations (R21). -/
def WriterOk (s : State) : Prop := s.wCnt < 8 ∧ s.wBuf.toNat < 2 ^ s.wCnt

/-- `t` is `s` after a writing operation that appended `bits` to the stream and changed nothing but the writer and
the result word, which is empty. -/
def Wrote (bits : List Bool) (s t : State) : Prop :=
  WriterOk t ∧ t.written = s.written ++ bits ∧
    t = { s with wBuf := t.wBuf, wCnt := t.wCnt, sink := t.sink, result := .none }

/-! ## Faults of the core -/

/-- The control state a fault met in `d` leaves: `Failed` (R312), but `Stored` stays, which only CORE.RESET leaves (R275,
D20; DEDUCED, log 21). -/
def DState.FaultsTo (d d' : DState) : Prop :=
  d' = if d = .stored then .stored else .failed

/-- What `raise c(v)` leaves (R312), `u` being the state in which the condition was met: the block-scoped buffers
are not spoken of. From `Stored` the control state stays (R275, D20; log 21). -/
def Raised (c : Cause) (v : Nat) (u t : State) : Prop :=
  t.err = some c ∧ t.errBitPos = u.bitPos ∧ t.errValue = v ∧
  u.dstate.FaultsTo t.dstate ∧ t.out = [] ∧ t.decoded = [] ∧
  t.result = .failed c ∧ t.place = .bfinal ∧
  -- kept
  t.bitPos = u.bitPos ∧ t.bfinal = u.bfinal ∧ t.btype = u.btype ∧ t.wBuf = u.wBuf ∧ t.wCnt = u.wCnt ∧
  t.sink = u.sink ∧ t.source = u.source ∧ t.data = u.data ∧ t.hashHead = u.hashHead ∧ t.toWork = u.toWork ∧
  t.port = u.port ∧ t.cfg = u.cfg

/-! ## Records -/

/-- `copy` is what a match of this distance appends to `before` (R180, R181): each byte is the one `offset` places
before it, bytes of the copy itself included. -/
def IsCopy (offset : Nat) (before copy : List Byte) : Prop :=
  ∀ k, k < copy.length → copy[k]? = (before ++ copy)[before.length - offset + k]?

/-- The records, decoded onto `before`, give `result` (R34, R180 to R182), no distance reaching too far. -/
def Expands : List MatchRecord → List Byte → List Byte → Prop
  | [], before, result => result = before
  | r :: rs, before, result =>
    (0 < r.length → 1 ≤ r.offset ∧ r.offset ≤ before.length) ∧
    ∃ copy, copy.length = r.length ∧ IsCopy r.offset before copy ∧
      Expands rs (before ++ copy ++ (if r.hasLit then [r.lit] else [])) result

/-- The bytes of the chunk a record stands for (R179). -/
def MatchRecord.span (r : MatchRecord) : Nat := r.length + r.hasLit.toNat

/-- The records from position `i` of a chunk of `n` bytes on are valid and cover it to its end (R178, R179). -/
def CoverFrom (c : Config.Params) (n : Nat) : Nat → List MatchRecord → Prop
  | i, [] => i = n
  | i, r :: rs =>
    r.wellFormed c = true ∧
    (0 < r.length → 1 ≤ r.offset ∧ r.offset ≤ min c.wsize i ∧ c.minMatch ≤ r.length ∧
      r.length ≤ min c.maxMatch (n - i)) ∧
    (r.hasLit = false → rs = []) ∧ CoverFrom c n (i + r.span) rs

/-! ## The search -/

/-- The candidates a chain holds from `cand` on, in the order they are visited, at most `k` of them (R174). -/
def chainFrom (prev : Memory) (size : Nat) : Nat → Option Nat → List Nat
  | 0, _ => []
  | _, none => []
  | k + 1, some c => c :: chainFrom prev size k (prev.read (c % size))

/-- The candidates LZ.FIND may visit for a position with hash `h` (R174): the chain of `hashHead[h]`, at most MAX_CHAIN
of them. -/
def State.candidates (s : State) (h : Nat) : List Nat :=
  chainFrom s.prev s.cfg.wsize s.cfg.maxChain (s.hashHead.read h)

/-- `c` matches position `i` on `len` bytes at a distance the window allows (R174, R175). -/
def State.Matches (s : State) (i c len : Nat) : Prop :=
  c < i ∧ i - c ≤ s.cfg.wsize ∧ ∀ k, k < len → s.data[c + k]? = s.data[i + k]?

/-- The loop of LZ.ENCODE (R177) by the operations R109 names, `fuel` passes of it: LZ.FIND where three bytes are left,
then a literal record and one LZ.INSERT, or a match record and LZ.INSERT of every position it covers. -/
def encodePasses : Nat → State → Out
  | 0, s => .next s
  | fuel + 1, s =>
    if s.n ≤ s.i then .next s
    else
      match (if s.i + 2 < s.n then exec (.lzFind s.i) s else .next { s with bestLen := 0, bestDist := 0 } : Out) with
      | .fault f => .fault f
      | .refused r => .refused r
      | .next t =>
        let next := t.data[t.i + t.bestLen]?.filter fun _ => t.i + t.bestLen < t.n
        let short := t.bestLen < t.cfg.minMatch
        let record := if short then ⟨0, 0, t.data[t.i]?.getD 0#8, true⟩
          else ⟨t.bestDist, t.bestLen, next.getD 0#8, next.isSome⟩
        let covered := if short then 1 else t.bestLen + 1
        match runAll ((List.range' t.i covered).map .lzInsert) { t with recs := t.recs ++ [record] } with
        | .fault f => .fault f
        | .refused r => .refused r
        | .next u => encodePasses fuel { u with i := u.i + covered }

/-! ## Codes -/

/-- The lengths `ls` give every symbol present in `freq`, and no other, a code of 1 to `cap` bits (R201). -/
def Covers (cap : Nat) (freq ls : List Nat) : Prop :=
  ls.length = freq.length ∧
    ∀ (sym : Nat) (f : Nat), freq[sym]? = some f →
      ∃ l, ls[sym]? = some l ∧ (f = 0 → l = 0) ∧ (0 < f → 1 ≤ l ∧ l ≤ cap)

/-- The symbols below `s` that have length `l`. -/
def rankBelow (ls : List Nat) (l s : Nat) : Nat := (ls.take s).count l

/-- The first code of length `l` in the counting formulation (R209). -/
def firstCode (ls : List Nat) : Nat → Nat
  | 0 => 0
  | l + 1 => (firstCode ls l + if l = 0 then 0 else ls.count l) * 2

/-! ## Run-length pairs -/

/-- The extra value of a pair is in the range of its symbol, a literal length below 16 (R231). -/
def ClPair.inRange : ClPair → Bool
  | .len v => v ≤ 15
  | .rep x => x ≤ 3
  | .z3 x => x ≤ 7
  | .z11 x => x ≤ 127

/-- The pairs expanded onto a sequence (R231); `none` where symbol 16 has no previous entry. -/
def expandPairs : List ClPair → List Nat → Option (List Nat)
  | [], ls => some ls
  | .len v :: ps, ls => expandPairs ps (ls ++ [v])
  | .rep x :: ps, ls =>
    match ls.getLast? with
    | none => none
    | some v => expandPairs ps (ls ++ List.replicate (3 + x) v)
  | .z3 x :: ps, ls => expandPairs ps (ls ++ List.replicate (3 + x) 0)
  | .z11 x :: ps, ls => expandPairs ps (ls ++ List.replicate (11 + x) 0)

/-- The state after a code-length element whose sequence is now `ls` (R245): the next CLSYM, or, the sequence being
complete, the two length arrays, their codes, and the data part with no records and no output. -/
def afterLengths (ls : List Nat) (s : State) : State :=
  if ls.length < s.total then { s with seq := ls, place := .clsym, result := .none }
  else
    let lit := (ls.take s.total).take (s.hlit + 257)
    let dist := (ls.take s.total).drop (s.hlit + 257)
    { s with
      seq := ls, litLen := lit, distLen := dist, litCode := canonCodes lit, distCode := canonCodes dist, recs := []
      out := [], place := .record, result := .none
      filled := { s.filled with
        litLen := true, distLen := true, litCode := true, distCode := true, recs := true } }

/-! ## Bits of elements -/

/-- The code and length of a symbol in a code array, as stream bits (R61); no bits where it has none. -/
def symbolBits (codes : CodeArray) (sym : Nat) : List Bool :=
  match codes[sym]? with
  | some (some (c, l)) => codeBits c l
  | _ => []

/-- The symbol has a code (R38). -/
def hasCode (codes : CodeArray) (sym : Nat) : Prop := ∃ c l, codes[sym]? = some (some (c, l))

/-- The stream bits of a dynamic block's header (R91, R243). -/
def headerBits (s : State) : List Bool :=
  fieldBits 1 s.bfinal.toNat ++ fieldBits 2 2 ++ fieldBits 5 s.hlit ++ fieldBits 5 s.hdist ++ fieldBits 4 s.hclen
    ++ (s.cfg.clperm.take (s.hclen + 4)).flatMap (fun c => fieldBits 3 (s.clLen[c]?.getD 0))
    ++ s.rle.flatMap (fun p => symbolBits s.clCode p.sym ++
        match p with
        | .len _ => []
        | .rep x => fieldBits 2 x
        | .z3 x => fieldBits 3 x
        | .z11 x => fieldBits 7 x)

/-- The stream bits of a record (R264), by the rows of the two code tables. -/
def recordBits (s : State) (r : MatchRecord) : List Bool :=
  (if 0 < r.length then
    match lenRow s.cfg r.length, distRow s.cfg r.offset with
    | some l, some d =>
      symbolBits s.litCode l.sym ++ fieldBits l.extra (r.length - l.base) ++
        symbolBits s.distCode d.sym ++ fieldBits d.extra (r.offset - d.base)
    | _, _ => []
  else []) ++ (if r.hasLit then symbolBits s.litCode r.lit.toNat else [])

/-- Every symbol a record needs has a code (R264). -/
def RecordCoded (s : State) (r : MatchRecord) : Prop :=
  (0 < r.length → ∃ l d, lenRow s.cfg r.length = some l ∧ distRow s.cfg r.offset = some d ∧ hasCode s.litCode l.sym ∧
    hasCode s.distCode d.sym) ∧
  (r.hasLit = true → hasCode s.litCode r.lit.toNat)

/-! ## Sets of instructions -/

/-- Opcodes of the operations the host may issue (R107). -/
def hostOpcodes : List Nat :=
  [0x00, 0x01, 0x10, 0x11, 0x12, 0x13, 0x14, 0x15, 0x18, 0x19, 0x1A, 0x1B, 0x20, 0x23, 0x24, 0x30, 0x31, 0x40, 0x41,
   0x52, 0x53, 0x54, 0x55]

/-- Opcodes of the sequencer's own operations (R107). -/
def sequencerOpcodes : List Nat := [0x21, 0x22, 0x32, 0x42, 0x43, 0x44, 0x45, 0x50, 0x51]

end Sys2Proof.Machine

namespace Sys2Proof

/-- The operations that write to the byte sink (R137): the writer's own, and those that write through it. -/
def Instr.writesSink : Instr → Bool
  | .coreReset | .bsWbit _ | .bsWbits _ _ | .bsWcode _ _ | .bsFlush | .hdrWrite | .symEmit _ | .blkEnc _ _
  | .strmClose => true
  | _ => false

/-- The operations of R302 that no fault of the core can come from. -/
def Instr.faultFree : Instr → Bool
  | .coreReset | .coreStatus | .bsWbit _ | .bsWbits _ _ | .bsWcode _ _ | .bsFlush | .tblLensym _ | .tblDistsym _
  | .tblLenval _ _ | .tblDistval _ _ | .lzReset | .lzInsert _ | .lzFind _ | .lzEncode _ | .hufBuild _ | .hufCanon _
  | .rleEnc | .hdrSize | .hdrBuild | .hdrWrite | .blkFreq | .symEmit _ | .blkEnc _ _ | .strmClose => true
  | _ => false

/-- The operations that write the hash chains (R40). -/
def Instr.writesChains : Instr → Bool
  | .coreReset | .lzReset | .lzInsert _ | .lzEncode _ | .blkEnc _ _ => true
  | _ => false

/-- The operations that neither move the read cursor nor change the decoder's control state or output (R137,
R349), a fault aside. -/
def Instr.leavesDecoder : Instr → Bool
  | .coreStatus | .bsWbit _ | .bsWbits _ _ | .bsWcode _ _ | .bsFlush | .tblLensym _ | .tblDistsym _
  | .tblLenval _ _ | .tblDistval _ _ | .lzReset | .lzInsert _ | .lzFind _ | .lzEncode _ | .hufBuild _ | .hufCanon _
  | .rleEnc | .hdrSize | .hdrBuild | .hdrWrite | .blkFreq | .symEmit _ | .blkEnc _ _ | .strmClose => true
  | _ => false

end Sys2Proof

namespace Sys2Proof.Machine

/-- The length elements in the order of their symbols (R112). -/
def lengthElements : List Instr :=
  [.len257, .len258, .len259, .len260, .len261, .len262, .len263, .len264, .len265, .len266, .len267, .len268,
   .len269, .len270, .len271, .len272, .len273, .len274, .len275, .len276, .len277, .len278, .len279, .len280,
   .len281, .len282, .len283, .len284, .len285]

/-- The distance elements in the order of their symbols (R112). -/
def distanceElements : List Instr :=
  [.dist0, .dist1, .dist2, .dist3, .dist4, .dist5, .dist6, .dist7, .dist8, .dist9, .dist10, .dist11, .dist12,
   .dist13, .dist14, .dist15, .dist16, .dist17, .dist18, .dist19, .dist20, .dist21, .dist22, .dist23, .dist24,
   .dist25, .dist26, .dist27, .dist28, .dist29]

/-! ## Host runs -/

/-- A request of the host's own, not a step of the sequencer (R12, R107). -/
def Request.fromHost : Request → Bool
  | .command _ | .attach _ | .place _ | .load _ => true
  | .sequencer _ | .element => false

/-! ## The invariant -/

/-- The element place is inside a dynamic block. -/
def Place.inBlock : Place → Bool
  | .bfinal | .btype => false
  | _ => true

/-- Every listed index of a sparse array is below the bound. -/
def Memory.below (bound : Nat) (m : Memory) : Prop := ∀ e ∈ m, e.1 < bound

/-- A safe state: what holds between any two steps. -/
structure Inv (s : State) : Prop where
  /-- the writer never rests on a full byte and its free bits are 0 (R21) -/
  writer : WriterOk s
  /-- the configuration keeps its constraints (R11) -/
  cfg : s.cfg.Ok
  /-- `Failed` only with an error (R25, R312) -/
  failed : s.dstate = .failed → s.err.isSome = true
  /-- an error rests in `Failed` (R312), or in `Stored` where it met that (R275, D20; log 21) -/
  pending : s.err.isSome = true → s.dstate = .failed ∨ s.dstate = .stored
  /-- without an error ERRINFO is 0 (R29) -/
  noInfo : s.err = none → s.errBitPos = 0 ∧ s.errValue = 0
  /-- no output after a fault (R312) -/
  noOutput : s.err.isSome = true → s.out = [] ∧ s.decoded = []
  /-- BTYPE is a 2-bit field (R24) -/
  btype : s.btype < 4
  /-- `FixedHuffman` is never observable at rest (R274) -/
  notFixed : s.dstate ≠ .fixedHuffman
  /-- the element place is inside a block exactly in `DynamicHuffman` -/
  inBlock : s.place.inBlock = true ↔ s.dstate = .dynamicHuffman
  /-- BTYPE comes next only in `ExpectHeader` -/
  btypePlace : s.place = .btype → s.dstate = .expectHeader
  /-- the CLLEN field that comes next has a place in CLPERM (R94, R245) -/
  cllenPlace : ∀ k, s.place = .cllen k → k < s.cfg.ncl ∧ s.hclen < 16
  /-- `hashHead` is canonical and within its index range (R32, R40) -/
  hashHead : s.hashHead.wf = true ∧ s.hashHead.below s.cfg.hashSize
  /-- `prev` is canonical and within its index range (R33, R40) -/
  prev : s.prev.wf = true ∧ s.prev.below s.cfg.prevSize

end Sys2Proof.Machine
end

