-- ==== Sys2Proof/Certificates/Slice0/Obligations.lean ====
section
/-! DEFINITION. The statements for the provers, from the numbered rules of spec/. A statement of an instruction's result
is written as an equality with the next state, so that it says at once that the instruction completes, what it
writes, and that nothing else changes. -/

open Sys2Proof Sys2Proof.Machine

/-! ## Encodings and the step -/

/-- The encoding of every well-formed instruction decodes to it again, with every operand (R106, R107; R92 to R97,
R100 to R103, R112). -/
def Obligations.DecodeEncode : Prop :=
  ∀ i : Instr, i.wellFormed = true → decode (encode i).1 (encode i).2 = some i

/-- What a word or an element decodes to is well formed; its encoding has the same opcode (bits 7:0 alone select the
row, U17) and decodes to it again; a wire element's bits are its encoding (R112). -/
def Obligations.EncodeDecode : Prop :=
  (∀ (w : Word) (i : Instr), decodeCmd w = some i →
    i.wellFormed = true ∧
    ∃ v, encode i = (.cmd, v) ∧ v < 2 ^ 32 ∧ v % 2 ^ 8 = w.toNat % 2 ^ 8 ∧ decodeCmd (BitVec.ofNat 32 v) = some i) ∧
  (∀ (f : Format) (v : Nat) (i : Instr), f ≠ .cmd → f ≠ .pad → decode f v = some i →
    i.wellFormed = true ∧ encode i = (f, v))

/-- The command port (R107, R318): an unassigned opcode is refused as unknown, an operation of the sequencer as not
issuable, and any other word is an instruction that is run. That the first two come before ErrorPending (R314) is the
model's order of refusals (DESIGN CHOICE, log 11); the port itself is the model's (log 1). -/
def Obligations.CommandPort : Prop :=
  ∀ (s : State) (w : Word) (rest : List Request), s.port = .command w :: rest →
    (w.toNat % 2 ^ 8 ∉ hostOpcodes → w.toNat % 2 ^ 8 ∉ sequencerOpcodes → step s = .refused .unknownCommand) ∧
    (w.toNat % 2 ^ 8 ∈ sequencerOpcodes → step s = .refused .notHostIssuable) ∧
    (w.toNat % 2 ^ 8 ∈ hostOpcodes →
      ∃ i, decodeCmd w = some i ∧ step s = exec i { s with port := rest })

/-- A few words and elements of the spec (R106, R107, R108; 95_test_vectors section 1) decode to what they stand
for. -/
def Obligations.SpecWordsDecode : Prop :=
  decodeCmd 0x02000A52#32 = some (.blkEnc 10 true) ∧
  decodeCmd 0x00006511#32 = some (.bsWbits 5 3) ∧
  decodeCmd 0x00000054#32 = some .strmDec ∧
  decodeCmd 0x00561019#32 = some (.tblDistsym 0x5610) ∧
  decodeCmd 0x003F1C1A#32 = some (.tblLenval 0x11C 31) ∧
  decode .btype 2 = some .btypeDynamic ∧
  decode .clsym 16 = some .clRep ∧
  decode .litlen 0x61 = some (.lit 0x61#8) ∧
  decode .litlen 263 = some .len263 ∧
  decode .dist 29 = some .dist29

/-- The step runs the instruction that stands where it fetches: a host command, a command word of the sequencer, the
element at the decoder's place, its field or its symbol read first, and PAD after `Done`. With no request the core
holds its state (R327). What the host attaches, places or loads (R40, R62, R106) changes that buffer alone, in every
control state (log 16); an element is refused while an error is pending (R314) and in `Stored` (R272). The port is the
model's (log 1, log 2). -/
def Obligations.StepRunsTheDecodedInstruction : Prop :=
  ∀ (s : State) (rest : List Request),
    (s.port = [] → step s = .next s) ∧
    (∀ w i, s.port = .command w :: rest → decodeCmd w = some i → i.hostIssuable = true →
      step s = exec i { s with port := rest }) ∧
    (∀ w i, s.port = .sequencer w :: rest → decodeCmd w = some i → step s = exec i { s with port := rest }) ∧
    (s.port = .element :: rest → s.err = none → s.dstate = .done → step s = exec .pad { s with port := rest }) ∧
    (∀ f n i, s.port = .element :: rest → s.err = none → s.dstate ≠ .done → s.dstate ≠ .stored →
      s.place.fieldFormat = some (f, n) → n ≤ s.unread.length → decode f (fieldValue (s.unread.take n)) = some i →
      step s = exec i { s with port := rest, bitPos := s.bitPos + n }) ∧
    (∀ f a v i t, s.port = .element :: rest → s.err = none → s.dstate ≠ .done → s.dstate ≠ .stored →
      s.place.symbolFormat = some (f, a) → s.filled.has a.codeBuffer = true →
      symDec a { s with port := rest } = .ok v t → decode f v = some i → step s = exec i t) ∧
    (s.port = .element :: rest → s.err.isSome = true → step s = .refused .errorPending) ∧
    (s.port = .element :: rest → s.err = none → s.dstate = .stored → step s = .refused .storedHandoff) ∧
    (∀ bytes, s.port = .attach bytes :: rest → step s = .next { s with port := rest, source := bytes }) ∧
    (∀ bytes, s.port = .place bytes :: rest → step s = .next { s with port := rest, data := bytes }) ∧
    (∀ rs, s.port = .load (.recs rs) :: rest →
      step s = .next { s with port := rest, recs := rs, filled := { s.filled with recs := true } }) ∧
    (∀ a fs, s.port = .load (.freq a fs) :: rest → step s = .next (setFreqs a fs { s with port := rest })) ∧
    (∀ a ls, s.port = .load (.lens a ls) :: rest → step s = .next (setLens a ls { s with port := rest })) ∧
    (∀ ls, s.port = .load (.seq ls) :: rest →
      step s = .next { s with port := rest, seq := ls, filled := { s.filled with seq := true } }) ∧
    (∀ ps, s.port = .load (.rle ps) :: rest →
      step s = .next { s with port := rest, rle := ps, filled := { s.filled with rle := true } })

/-! ## Reset, status and faults -/

/-- After power-on (R44, R340): the values the spec gives, and the invariant. -/
def Obligations.ResetState : Prop :=
  State.reset.wBuf = 0#8 ∧ State.reset.wCnt = 0 ∧ State.reset.sink = [] ∧ State.reset.bitPos = 0 ∧
  State.reset.dstate = .expectHeader ∧ State.reset.status = 0#16 ∧ State.reset.errInfo = 0#64 ∧
  State.reset.out = [] ∧ State.reset.decoded = [] ∧ (∀ v, State.reset.hashHead.read v = none) ∧ Inv State.reset

/-- CORE.RESET (R340), from any state, also while an error is pending. The last clauses are the model's: the host's
buffers and requests stay (log 1), no buffer counts as filled (log 10), the configuration stays (log 20), the registers
R44 leaves unspecified are within their widths (log 9), and the invariant holds. -/
def Obligations.CoreReset : Prop :=
  ∀ s : State, ∃ t, exec .coreReset s = .next t ∧
    t.wBuf = 0#8 ∧ t.wCnt = 0 ∧ t.sink = [] ∧ t.bitPos = 0 ∧ t.dstate = .expectHeader ∧
    t.status = 0#16 ∧ t.errInfo = 0#64 ∧ t.err = none ∧ t.errBitPos = 0 ∧ t.errValue = 0 ∧ t.bfinal = false ∧
    t.btype = 0 ∧ t.out = [] ∧ t.decoded = [] ∧ (∀ v, t.hashHead.read v = none) ∧
    t.source = s.source ∧ t.data = s.data ∧ t.port = s.port ∧ t.filled = {} ∧ t.cfg = s.cfg ∧
    t.n < 2 ^ 17 ∧ t.i < 2 ^ 17 ∧ t.h < 2 ^ 16 ∧ t.visited < 2 ^ 9 ∧ t.cap < 2 ^ 9 ∧ t.bestLen < 2 ^ 9 ∧
    t.bestDist < 2 ^ 16 ∧ t.hlit < 2 ^ 5 ∧ t.hdist < 2 ^ 5 ∧ t.hclen < 2 ^ 4 ∧ t.acc < 2 ^ 15 ∧ t.accLen < 2 ^ 4 ∧
    (s.cfg.Ok → Inv t)

/-- The decoder's transitions (R271): no other than these, and only CORE.RESET leaves `Failed`, `Done` and `Stored`
(R275, R340). Not spoken of is a fault met in `Done`, which R312 sends to `Failed` (FaultEntry; log 21). That a fault
leaves `Stored` as it is is DEDUCED from R275 and D20 (log 21), the element places in a block are the model's (log 3). -/
def Obligations.ControlTransitions : Prop :=
  ∀ (i : Instr) (s t : State), Inv s → exec i s = .next t → (s.dstate = .done → s.err = none → t.err = none) →
    t.dstate = s.dstate ∨
    (i = .coreReset ∧ t.dstate = .expectHeader) ∨
    (s.dstate ∈ [.expectHeader, .dynamicHuffman] ∧ t.dstate = .failed ∧ t.err.isSome = true) ∨
    (s.dstate = .expectHeader ∧ t.dstate = .stored ∧ t.btype = 0 ∧ i ∈ [.btypeStored, .blkDec, .strmDec]) ∨
    (s.dstate = .expectHeader ∧ t.dstate = .dynamicHuffman ∧ t.btype = 2 ∧ i = .btypeDynamic) ∨
    (s.dstate = .dynamicHuffman ∧ i = .eob ∧ t.dstate = if t.bfinal then .done else .expectHeader) ∨
    (s.dstate = .expectHeader ∧ t.dstate = .done ∧ t.bfinal = true ∧ i ∈ [.blkDec, .strmDec])

/-- STATUS and ERRINFO (R25, R28, R29, R300), and CORE.STATUS, which returns them from any state and changes nothing
else (R316). The naturals of ERRINFO are cut to their fields (log 15). -/
def Obligations.StatusRegisters : Prop :=
  ∀ s : State, s.btype < 4 →
    (∀ d k, (d, k) ∈ [(DState.expectHeader, 0), (.stored, 1), (.fixedHuffman, 2), (.dynamicHuffman, 3), (.done, 4),
        (.failed, 5)] → s.dstate = d → s.status.toNat % 2 ^ 4 = k) ∧
    (s.err = none → s.status.toNat / 2 ^ 4 % 2 ^ 8 = 0) ∧
    (∀ c k l, (c, k, l) ∈ [(Cause.noCodeMatch, 1, 1), (.symbolOutOfRange, 1, 2), (.repeatNoPrevious, 1, 3),
        (.repeatOverrun, 1, 4), (.trailingNotLiteral, 1, 5), (.distanceTooFar, 1, 6), (.fixedHuffman, 2, 1),
        (.reservedType, 2, 2), (.endOfSource, 3, 1)] → s.err = some c →
      s.status.toNat / 2 ^ 4 % 2 ^ 4 = k ∧ s.status.toNat / 2 ^ 8 % 2 ^ 4 = l) ∧
    s.status.toNat / 2 ^ 12 % 2 = s.bfinal.toNat ∧
    s.status.toNat / 2 ^ 13 % 2 ^ 2 = s.btype ∧
    s.status.toNat / 2 ^ 15 = 0 ∧
    s.errInfo.toNat % 2 ^ 32 = s.errBitPos % 2 ^ 32 ∧
    s.errInfo.toNat / 2 ^ 32 = s.errValue % 2 ^ 32 ∧
    exec .coreStatus s = .next { s with result := .status s.status s.errInfo }

/-- While an error is pending every operation and element but CORE.RESET and CORE.STATUS is refused (R314). -/
def Obligations.PendingErrorRefusesEverything : Prop :=
  ∀ (i : Instr) (s : State), s.errClass ≠ 0 → i ≠ .coreReset → i ≠ .coreStatus →
    exec i s = .refused .errorPending

/-- Entering a fault (R312): whatever raises, the error is recorded with the position of the first bit not consumed,
`Failed` is entered, no output is left, the encoder's half, the matcher and the host's buffers are kept. That
`Stored` stays follows R275 and D20, that `Done` does not R312 and D18 against R271 and R340 (DEDUCED, log 21). -/
def Obligations.FaultEntry : Prop :=
  ∀ (i : Instr) (s t : State) (c : Cause), Inv s → s.err = none → exec i s = .next t → t.err = some c →
    s.dstate.FaultsTo t.dstate ∧
    t.errBitPos = t.bitPos ∧ s.bitPos ≤ t.bitPos ∧ t.out = [] ∧ t.decoded = [] ∧
    t.result = .failed c ∧ t.wBuf = s.wBuf ∧ t.wCnt = s.wCnt ∧ t.sink = s.sink ∧ t.source = s.source ∧
    t.data = s.data ∧ t.port = s.port ∧ t.hashHead = s.hashHead ∧ t.prev = s.prev ∧ t.cfg = s.cfg

/-- `errValue` of every cause (R300, R303 to R311), and where the source has ended. -/
def Obligations.FaultValues : Prop :=
  ∀ (i : Instr) (s t : State) (c : Cause), s.cfg.Ok → s.err = none → exec i s = .next t → t.err = some c →
    (c = .noCodeMatch → t.errValue < 2 ^ s.cfg.decodeMaxbits) ∧
    (c = .symbolOutOfRange → t.errValue ∈ [286, 287, 30, 31]) ∧
    (c = .repeatNoPrevious → t.errValue = 16) ∧
    (c = .repeatOverrun → t.errValue ∈ [16, 17, 18]) ∧
    (c = .trailingNotLiteral → 257 ≤ t.errValue ∧ t.errValue ≤ 287) ∧
    (c = .distanceTooFar → 1 ≤ t.errValue ∧ t.errValue ≤ s.cfg.wsize) ∧
    (c = .fixedHuffman → t.errValue = 1 ∧ t.btype = 1) ∧
    (c = .reservedType → t.errValue = 3 ∧ t.btype = 3) ∧
    (c = .endOfSource → t.errValue = 0 ∧ 8 * t.source.length ≤ t.errBitPos)

/-- Only reading operations fault (R302): none of the listed operations raises, and each of the others can. -/
def Obligations.OnlyReadingOperationsFault : Prop :=
  (∀ (i : Instr) (s t : State), i.faultFree = true → s.err = none → exec i s = .next t → t.err = none) ∧
  (∀ i ∈ [Instr.bsRbit, .bsRbits 1, .symDec 0, .rleDec 1, .hdrRead, .lzDecode, .blkDec, .strmDec],
    ∃ s t, s.err = none ∧ exec i s = .next t ∧ t.err.isSome = true)

/-! ## Bit-stream unit -/

/-- BS.WBIT (R130): the bit joins the pending ones; the eighth completes the byte, which is appended, its bits in the
core's bit order (R60; `streamOrder` is the identity LSB-first). -/
def Obligations.WriteBit : Prop :=
  ∀ (s : State) (b : Bool), s.err = none →
    (s.wCnt < 7 →
      exec (.bsWbit b) s =
        .next { s with
          wBuf := s.wBuf ||| ((if b then 1#8 else 0#8) <<< s.wCnt), wCnt := s.wCnt + 1, result := .none }) ∧
    (s.wCnt = 7 →
      exec (.bsWbit b) s =
        .next { s with
          sink := s.sink ++ [s.cfg.streamOrder (s.wBuf ||| ((if b then 1#8 else 0#8) <<< 7))], wBuf := 0#8
          wCnt := 0, result := .none }) ∧
    (WriterOk s → ∃ t, exec (.bsWbit b) s = .next t ∧ Wrote [b] s t)

/-- BS.WBITS and BS.WCODE (R131, R132): the bits of a field least significant first, those of a code most significant
first; widths and codes out of range are refused (R318). -/
def Obligations.WriteFieldsAndCodes : Prop :=
  ∀ s : State, s.err = none → WriterOk s →
    (∀ n v, n ≤ s.cfg.nbitsMax →
      ∃ t, exec (.bsWbits n v) s = .next t ∧ Wrote ((List.range n).map fun k => v.testBit k) s t) ∧
    (∀ n v, s.cfg.nbitsMax < n → exec (.bsWbits n v) s = .refused .badWidth) ∧
    (∀ l c, 1 ≤ l → l ≤ 15 → c < 2 ^ l →
      ∃ t, exec (.bsWcode l c) s = .next t ∧
        Wrote ((List.range l).map fun k => c.testBit (l - 1 - k)) s t) ∧
    (∀ l c, l = 0 ∨ 15 < l ∨ 2 ^ l ≤ c → exec (.bsWcode l c) s = .refused .badWidth)

/-- BS.FLUSH and STRM.CLOSE (R133, R268): PAD_BIT, by default zeros, up to the byte boundary; nothing when there are no
pending bits. -/
def Obligations.FlushAndClose : Prop :=
  ∀ s : State, s.err = none → WriterOk s → ∀ i ∈ [Instr.bsFlush, .strmClose],
    ∃ t, exec i s = .next t ∧ Wrote (List.replicate ((8 - s.wCnt) % 8) s.cfg.padBit) s t ∧ t.wBuf = 0#8 ∧ t.wCnt = 0 ∧
      (s.wCnt = 0 → t = { s with result := .none })

/-- BS.RBIT and BS.RBITS (R134, R135): the bits at the cursor, a field least significant bit first; TruncatedInput at
the end of the source, the bits before it consumed (R68, R311); the control state is then
`Failed`, from `Stored` it stays (`Raised`; DEDUCED, log 21). -/
def Obligations.ReadBitsAndFields : Prop :=
  ∀ s : State, s.err = none →
    (∀ b bs, s.unread = b :: bs →
      exec .bsRbit s = .next { s with bitPos := s.bitPos + 1, result := .bits b.toNat }) ∧
    (s.unread = [] → ∃ t, exec .bsRbit s = .next t ∧ Raised .endOfSource 0 s t) ∧
    (∀ n, n ≤ s.cfg.nbitsMax → n ≤ s.unread.length →
      exec (.bsRbits n) s =
        .next { s with bitPos := s.bitPos + n, result := .bits (fieldValue (s.unread.take n)) }) ∧
    (∀ n, n ≤ s.cfg.nbitsMax → s.unread.length < n →
      ∃ t, exec (.bsRbits n) s = .next t ∧
        Raised .endOfSource 0 { s with bitPos := s.bitPos + s.unread.length } t) ∧
    (∀ n, s.cfg.nbitsMax < n → exec (.bsRbits n) s = .refused .badWidth)

/-- Write-then-read (R136): the writes `ops` from a reset writer, then BS.FLUSH; the sink's bytes, stream bit `k` of a
byte at bit `k` LSB-first and at bit `7 - k` MSB-first (R60, U4); the bits they read back as, the padding after them, the
fault at the end; and a field read where BS.WBITS wrote it. -/
def Obligations.WriteThenRead : Prop :=
  ∀ (s t r : State) (ops : List (Instr × List Bool)),
    s.err = none → s.wBuf = 0#8 → s.wCnt = 0 → s.sink = [] →
    (∀ o ∈ ops, (∃ b, o = (.bsWbit b, [b])) ∨
      (∃ n v, n ≤ s.cfg.nbitsMax ∧ o = (.bsWbits n v, (List.range n).map fun k => v.testBit k)) ∨
      (∃ l c, 1 ≤ l ∧ l ≤ 15 ∧ c < 2 ^ l ∧ o = (.bsWcode l c, (List.range l).map fun k => c.testBit (l - 1 - k)))) →
    runAll (ops.map Prod.fst ++ [.bsFlush]) s = .next t →
    r.err = none → r.bitPos = 0 → r.source = t.sink → r.cfg = s.cfg →
    let bits := ops.flatMap Prod.snd
    t.sink.length = (bits.length + 7) / 8 ∧
    (∀ j, j < t.sink.length → ∃ b, t.sink[j]? = some b ∧
      b.toNat = ((List.range 8).map fun k =>
        (bits[8 * j + k]?.getD s.cfg.padBit).toNat * 2 ^ (if s.cfg.bitOrder = .lsbFirst then k else 7 - k)).sum) ∧
    (∀ k, k < 8 * t.sink.length →
      ∃ q, runAll (List.replicate (k + 1) .bsRbit) r = .next q ∧ q.bitPos = k + 1 ∧
        q.result = .bits (bits[k]?.getD s.cfg.padBit).toNat) ∧
    (∃ q, runAll (List.replicate (8 * t.sink.length + 1) .bsRbit) r = .next q ∧ q.err = some .endOfSource) ∧
    (∀ before after n v, ops = before ++ (.bsWbits n v, (List.range n).map fun k => v.testBit k) :: after →
      exec (.bsRbits n) { r with bitPos := (before.flatMap Prod.snd).length } =
        .next { r with
          bitPos := (before.flatMap Prod.snd).length + n, result := .bits (v % 2 ^ n) })

/-! ## Code tables -/

/-- TBL.LENSYM, TBL.DISTSYM (R153, R154): the greatest symbol whose base is at most the value; TBL.LENVAL,
TBL.DISTVAL (R155, R156): base plus extra; refused outside the tables (R318). -/
def Obligations.TableLookups : Prop :=
  ∀ s : State, s.cfg.Ok → s.err = none →
    (∀ len, s.cfg.minMatch ≤ len → len ≤ s.cfg.maxMatch →
      ∃ r ∈ s.cfg.lenTable, r.base ≤ len ∧ (∀ q ∈ s.cfg.lenTable, q.base ≤ len → q.sym ≤ r.sym) ∧
        exec (.tblLensym len) s = .next { s with result := .code r.sym (len - r.base) r.extra }) ∧
    (∀ len, len < s.cfg.minMatch ∨ s.cfg.maxMatch < len → exec (.tblLensym len) s = .refused .badLength) ∧
    (∀ dist, 1 ≤ dist → dist ≤ s.cfg.wsize →
      ∃ r ∈ s.cfg.distTable, r.base ≤ dist ∧ (∀ q ∈ s.cfg.distTable, q.base ≤ dist → q.sym ≤ r.sym) ∧
        exec (.tblDistsym dist) s = .next { s with result := .code r.sym (dist - r.base) r.extra }) ∧
    (∀ dist, dist < 1 ∨ s.cfg.wsize < dist → exec (.tblDistsym dist) s = .refused .badDistance) ∧
    (∀ r ∈ s.cfg.lenTable, ∀ x,
      exec (.tblLenval r.sym x) s =
        if x < 2 ^ r.extra then .next { s with result := .value (r.base + x) } else .refused .badLength) ∧
    (∀ sym x, sym < 257 ∨ 285 < sym → exec (.tblLenval sym x) s = .refused .badLength) ∧
    (∀ r ∈ s.cfg.distTable, ∀ x,
      exec (.tblDistval r.sym x) s =
        if x < 2 ^ r.extra then .next { s with result := .value (r.base + x) } else .refused .badDistance) ∧
    (∀ d x, 29 < d → exec (.tblDistval d x) s = .refused .badDistance)

/-- The laws of the tables (R157): forward lookup undoes reverse search; and, with the tables of R151 and R152, the
other way round for both, except that the pair (284, 31) maps to (285, 0, 0). -/
def Obligations.TableLaws : Prop :=
  ∀ s : State, s.cfg.Ok → s.err = none →
    (∀ len, s.cfg.minMatch ≤ len → len ≤ s.cfg.maxMatch →
      ∃ sym x k, exec (.tblLensym len) s = .next { s with result := .code sym x k } ∧
        exec (.tblLenval sym x) s = .next { s with result := .value len }) ∧
    (∀ dist, 1 ≤ dist → dist ≤ s.cfg.wsize →
      ∃ d x k, exec (.tblDistsym dist) s = .next { s with result := .code d x k } ∧
        exec (.tblDistval d x) s = .next { s with result := .value dist }) ∧
    (s.cfg.lenTable = Config.lenTable →
      (∀ sym x v, exec (.tblLenval sym x) s = .next { s with result := .value v } → (sym, x) ≠ (284, 31) →
        ∃ r ∈ Config.lenTable, r.sym = sym ∧
          exec (.tblLensym v) s = .next { s with result := .code sym x r.extra }) ∧
      ∃ v, exec (.tblLenval 284 31) s = .next { s with result := .value v } ∧
        exec (.tblLensym v) s = .next { s with result := .code 285 0 0 }) ∧
    (s.cfg.distTable = Config.distTable →
      ∀ d x v, exec (.tblDistval d x) s = .next { s with result := .value v } →
        ∃ r ∈ Config.distTable, r.sym = d ∧
          exec (.tblDistsym v) s = .next { s with result := .code d x r.extra })

/-! ## Matcher -/

/-- LZ.RESET (R170) empties every chain and writes nothing else; LZ.INSERT (R173) puts a position at the head of the
chain of its hash (R172), and does nothing for a position with fewer than three bytes left. Where one of its three
bytes has not been placed it is refused (the model's, log 13). -/
def Obligations.ChainResetAndInsert : Prop :=
  ∀ s : State, s.err = none →
    (∃ t, exec .lzReset s = .next t ∧ (∀ v, t.hashHead.read v = none) ∧
      t = { s with hashHead := t.hashHead, result := .none }) ∧
    (s.hashHead.wf = true → s.prev.wf = true →
      (∀ (p : Nat) (a b c : Byte), p + 2 < s.n → s.data[p]? = some a → s.data[p + 1]? = some b →
        s.data[p + 2]? = some c →
        ∃ t, exec (.lzInsert p) s = .next t ∧
          (∀ k, t.hashHead.read k = if k = s.cfg.hashOf a b c then some p else s.hashHead.read k) ∧
          (∀ k, t.prev.read k =
            if k = p % s.cfg.wsize then s.hashHead.read (s.cfg.hashOf a b c) else s.prev.read k) ∧
          t = { s with hashHead := t.hashHead, prev := t.prev, result := .none }) ∧
      (∀ p, s.n ≤ p + 2 → exec (.lzInsert p) s = .next { s with result := .none }) ∧
      (∀ p, p + 2 < s.n → s.data.length ≤ p + 2 → exec (.lzInsert p) s = .refused .chunkNotPlaced))

/-- LZ.FIND (R174 to R176): it completes at every position with three bytes left whose comparison window is placed, and
finds the best match of the chain: no candidate of the chain matches on more bytes, and of equals the first one visited
wins. Outside its operand's range it is a fault of the model (R66, log 12); a window not placed is a refusal
(log 13). -/
def Obligations.FindReturnsMatch : Prop :=
  ∀ (s : State) (i : Nat), s.err = none →
    (∀ a b c : Byte, i + 2 < s.n → i + min s.cfg.maxMatch (s.n - i) ≤ s.data.length →
      s.data[i]? = some a → s.data[i + 1]? = some b → s.data[i + 2]? = some c →
      let cap := min s.cfg.maxMatch (s.n - i)
      let chain := s.candidates (s.cfg.hashOf a b c)
      ∃ t, exec (.lzFind i) s = .next t ∧
        t = { s with
          h := s.cfg.hashOf a b c, cand := t.cand, visited := t.visited, cap := cap, bestLen := t.bestLen
          bestDist := t.bestDist, result := .found t.bestLen t.bestDist } ∧
        t.visited ≤ chain.length ∧ chain.length ≤ s.cfg.maxChain ∧ t.bestLen ≤ cap ∧
        (t.bestLen = 0 → t.bestDist = 0) ∧
        (0 < t.bestLen → 1 ≤ t.bestDist ∧ t.bestDist ≤ min s.cfg.wsize i ∧
          ∀ k, k < t.bestLen → s.data[i - t.bestDist + k]? = s.data[i + k]?) ∧
        (∀ c ∈ chain, ∀ len, len ≤ cap → s.Matches i c len → len ≤ t.bestLen) ∧
        (0 < t.bestLen → ∃ before c after, chain = before ++ c :: after ∧ c < i ∧ t.bestDist = i - c ∧
          ∀ d ∈ before, ¬ s.Matches i d t.bestLen)) ∧
    (s.n ≤ i + 2 → exec (.lzFind i) s = .fault (.indexOutOfRange (i + 2))) ∧
    (i + 2 < s.n → s.data.length < i + min s.cfg.maxMatch (s.n - i) →
      exec (.lzFind i) s = .refused .chunkNotPlaced)

/-- LZ.ENCODE (R177): it completes on every chunk; every record is valid at its position and the records cover the
chunk (R178, R179). A chunk not placed is refused under a name of the model's (log 13). -/
def Obligations.EncodeCoversChunk : Prop :=
  ∀ (s : State) (n : Nat), s.cfg.Ok → s.err = none →
    (n ≤ s.cfg.chunkMax → n ≤ s.data.length →
      ∃ t, exec (.lzEncode n) s = .next t ∧ CoverFrom s.cfg n 0 t.recs ∧ (t.recs.map MatchRecord.span).sum = n ∧
        t.recs.length ≤ n ∧
        t = { s with
          recs := t.recs, hashHead := t.hashHead, prev := t.prev, n := n, i := t.i, h := t.h, cand := t.cand
          visited := t.visited, cap := t.cap, bestLen := t.bestLen, bestDist := t.bestDist
          filled := { s.filled with recs := true }, result := .none }) ∧
    (s.cfg.chunkMax < n → exec (.lzEncode n) s = .refused .chunkTooLong) ∧
    (n ≤ s.cfg.chunkMax → s.data.length < n → exec (.lzEncode n) s = .refused .chunkNotPlaced)

/-- LZ.DECODE (R180 to R182): records whose distances stay in the block's output are expanded; the first distance
that reaches too far is the fault DistanceTooFar (R310), into `Failed`, but `Stored` stays (`Raised`; DEDUCED,
log 21); an ill-formed record is refused. -/
def Obligations.DecodeExpandsRecords : Prop :=
  ∀ s : State, s.err = none → s.filled.recs = true →
    (∀ bytes, (∀ r ∈ s.recs, r.wellFormed s.cfg = true) → Expands s.recs [] bytes →
      exec .lzDecode s = .next { s with out := bytes, result := .none }) ∧
    (∀ good r bad bytes, (∀ q ∈ s.recs, q.wellFormed s.cfg = true) → s.recs = good ++ r :: bad → Expands good [] bytes →
      0 < r.length → bytes.length < r.offset →
      ∃ t, exec .lzDecode s = .next t ∧ Raised .distanceTooFar r.offset s t) ∧
    (∀ r ∈ s.recs, r.wellFormed s.cfg = false → exec .lzDecode s = .refused .badRecord)

/-- Round-trip of the matcher (R183). -/
def Obligations.MatcherRoundTrip : Prop :=
  ∀ (s : State) (n : Nat), s.cfg.Ok → s.err = none → n ≤ s.cfg.chunkMax → n ≤ s.data.length →
    ∃ t u, exec (.lzEncode n) s = .next t ∧ exec .lzDecode t = .next u ∧ u.err = none ∧ u.out = s.data.take n

/-! ## Huffman unit -/

/-- HUF.BUILD (R200): the lengths it writes cover exactly the present symbols within the alphabet's cap (R201, 1 and
2), a lone symbol gets one bit (R202); refused for `a = 3` (R318). -/
def Obligations.BuildCoversPresentSymbols : Prop :=
  ∀ s : State, s.cfg.Ok → s.err = none →
    (∀ a x, Alphabet.ofOperand a = some x → s.filled.has x.freqBuffer = true →
      present (s.freqs x) ≤ 2 ^ x.maxBits s.cfg →
      ∃ ls, exec (.hufBuild a) s = .next { setLens x ls s with result := .none } ∧
        Covers (x.maxBits s.cfg) (s.freqs x) ls ∧ (present (s.freqs x) = 1 → ∀ l ∈ ls, l ≤ 1)) ∧
    exec (.hufBuild 3) s = .refused .badAlphabet

/-- The lengths HUF.BUILD gives two or more symbols saturate the Kraft inequality (R201 (3), R204), and with the spec's
package-merge, of two symbols of equal frequency the smaller never gets the shorter length (R203). -/
def Obligations.BuildSaturatesKraft : Prop :=
  ∀ (s t : State) (a : Nat) (x : Alphabet), Alphabet.ofOperand a = some x → exec (.hufBuild a) s = .next t →
    2 ≤ present (s.freqs x) → present (s.freqs x) ≤ 2 ^ x.maxBits s.cfg →
    kraft (x.maxBits s.cfg) (t.lens x) = 2 ^ x.maxBits s.cfg ∧
    ∀ j k f lj lk : Nat, s.cfg.builder = .packageMerge → j < k → (s.freqs x)[j]? = some f → (s.freqs x)[k]? = some f →
      (t.lens x)[j]? = some lj → (t.lens x)[k]? = some lk → lk ≤ lj

/-- HUF.CANON (R206) gives the codes of the counting formulation (R209): a symbol of length `l` gets the first code of
its length plus its rank among the symbols of that length; absent symbols get none. -/
def Obligations.CanonCountsCodes : Prop :=
  ∀ s : State, s.err = none →
    (∀ a x, Alphabet.ofOperand a = some x → s.filled.has x.lenBuffer = true → (∀ l ∈ s.lens x, l ≤ 15) →
      ∃ codes, exec (.hufCanon a) s = .next { setCodes x codes s with result := .none } ∧
        codes.length = (s.lens x).length ∧
        ∀ sym l, (s.lens x)[sym]? = some l →
          codes[sym]? =
            some (if l = 0 then none else some (firstCode (s.lens x) l + rankBelow (s.lens x) l sym, l))) ∧
    exec (.hufCanon 3) s = .refused .badAlphabet

/-- Properties of the canonical codes of lengths that satisfy the Kraft inequality (R207). -/
def Obligations.CanonCodesArePrefixFree : Prop :=
  ∀ (s t : State) (a : Nat) (x : Alphabet), s.cfg.Ok → Alphabet.ofOperand a = some x →
    exec (.hufCanon a) s = .next t →
    (∀ l ∈ s.lens x, l ≤ x.maxBits s.cfg) → kraft (x.maxBits s.cfg) (s.lens x) ≤ 2 ^ x.maxBits s.cfg →
    (∀ j c l : Nat, (t.codes x)[j]? = some (some (c, l)) → c < 2 ^ l ∧ l ≤ x.maxBits s.cfg) ∧
    (∀ j k c d l : Nat, j < k → (t.codes x)[j]? = some (some (c, l)) → (t.codes x)[k]? = some (some (d, l)) →
      (∀ m, j < m → m < k → (s.lens x)[m]? ≠ some l) → d = c + 1) ∧
    (∀ j k c d l m : Nat, (t.codes x)[j]? = some (some (c, l)) → (t.codes x)[k]? = some (some (d, m)) → l < m →
      c < d / 2 ^ (m - l)) ∧
    (∀ j k c d l m : Nat, j ≠ k → (t.codes x)[j]? = some (some (c, l)) → (t.codes x)[k]? = some (some (d, m)) → l ≤ m →
      c ≠ d / 2 ^ (m - l)) ∧
    (kraft (x.maxBits s.cfg) (s.lens x) = 2 ^ x.maxBits s.cfg →
      ∃ j l : Nat, (t.codes x)[j]? = some (some (2 ^ l - 1, l)) ∧ ∀ m ∈ s.lens x, m ≤ l)

/-- SYM.DEC inverts BS.WCODE (R211): codes of HUF.CANON on lengths that satisfy the Kraft inequality, and a code next
in the stream. -/
def Obligations.SymbolDecodeInvertsCode : Prop :=
  ∀ (s t r : State) (a : Nat) (x : Alphabet) (sym c l : Nat), Alphabet.ofOperand a = some x →
    exec (.hufCanon a) s = .next t → (∀ m ∈ s.lens x, m ≤ 15) → kraft 15 (s.lens x) ≤ 2 ^ 15 →
    (t.codes x)[sym]? = some (some (c, l)) →
    r.err = none → r.filled.has x.codeBuffer = true → r.codes x = t.codes x → l ≤ r.cfg.decodeMaxbits →
    ((List.range l).map fun k => c.testBit (l - 1 - k)) <+: r.unread →
    exec (.symDec a) r =
      .next { r with bitPos := r.bitPos + l, acc := c, accLen := l, result := .symbol sym }

/-- SYM.DEC on any code array (R208, R210): the first length at which the bits read are a code; NoCodeMatch after
DECODE_MAXBITS, fifteen, bits without one (R304); TruncatedInput where the source ends before (R311). A fault goes to
`Failed`, but `Stored` stays (`Raised`; DEDUCED, log 21); that operand 3 is refused is the model's (log 18). -/
def Obligations.SymbolDecodeFirstMatch : Prop :=
  ∀ (s : State) (a : Nat) (x : Alphabet), Alphabet.ofOperand a = some x → s.err = none →
    s.filled.has x.codeBuffer = true →
    let matched (l sym : Nat) : Prop :=
      l ≤ s.unread.length ∧ (s.codes x)[sym]? = some (some (codeValue (s.unread.take l), l))
    (∀ l sym, 1 ≤ l → l ≤ s.cfg.decodeMaxbits → matched l sym → (∀ m q, 1 ≤ m → m < l → ¬ matched m q) →
      (∀ q, q < sym → ¬ matched l q) →
      exec (.symDec a) s =
        .next { s with
          bitPos := s.bitPos + l, acc := codeValue (s.unread.take l), accLen := l, result := .symbol sym }) ∧
    (s.cfg.decodeMaxbits ≤ s.unread.length → (∀ m q, 1 ≤ m → m ≤ s.cfg.decodeMaxbits → ¬ matched m q) →
      ∃ t, exec (.symDec a) s = .next t ∧
        Raised .noCodeMatch (codeValue (s.unread.take s.cfg.decodeMaxbits))
          { s with bitPos := s.bitPos + s.cfg.decodeMaxbits } t) ∧
    (s.unread.length < s.cfg.decodeMaxbits → (∀ m q, 1 ≤ m → ¬ matched m q) →
      ∃ t, exec (.symDec a) s = .next t ∧
        Raised .endOfSource 0 { s with bitPos := s.bitPos + s.unread.length } t) ∧
    exec (.symDec 3) s = .refused .badAlphabet

/-! ## Run-length codec -/

/-- RLE.ENC (R230), run by run: the empty sequence gives no pairs; a sequence that begins with a maximal run of `r`
entries `v` gives the pairs of that run, then those of the rest. A nonzero `v` is one literal, then 16 in sixes, then 16
with 3 to 5 or literals; a run of zeros is 18 in 138s, then one 18, one 17, or literals. And the properties of the
output (R232). -/
def Obligations.RunLengthEncode : Prop :=
  ∀ s : State, s.err = none → s.filled.seq = true →
    ∃ ps, exec .rleEnc s =
        .next { s with rle := ps, filled := { s.filled with rle := true }, result := .none } ∧
      expandPairs ps [] = some s.seq ∧
      (∀ x, ps.head? ≠ some (.rep x)) ∧
      (∀ p ∈ ps, match p with
        | .len v => v ∈ s.seq
        | .rep x => x ≤ 3
        | .z3 x => x ≤ 7
        | .z11 x => x ≤ 127) ∧
      (s.seq = [] → ps = []) ∧
      ∀ v r rest, s.seq = List.replicate r v ++ rest → 1 ≤ r → rest.head? ≠ some v →
        ∃ qs, exec .rleEnc { s with seq := rest } =
            .next { s with seq := rest, rle := qs, filled := { s.filled with rle := true }, result := .none } ∧
          ps = (if v = 0 then
              let m := r % 138
              List.replicate (r / 138) (.z11 127) ++
                (if 11 ≤ m then [.z11 (m - 11)] else if 3 ≤ m then [.z3 (m - 3)] else List.replicate m (.len 0))
            else
              let m := (r - 1) % 6
              .len v :: List.replicate ((r - 1) / 6) (.rep 3) ++
                (if 3 ≤ m then [.rep (m - 3)] else List.replicate m (.len v))) ++ qs

/-- RLE.DEC (R234): pairs that stand for exactly `total` lengths are expanded; a leading symbol 16 and a repeat past
`total` are faults (R306, R307); too short and too long a sequence are refused. With `total = 0` any pair is left over,
a leading symbol 16 too, so that is LongSequence (DEDUCED, log 17, against vector RLE-4). A repeat fault
goes to `Failed`, but `Stored` stays (`Raised`; DEDUCED, log 21). -/
def Obligations.RunLengthDecode : Prop :=
  ∀ (s : State) (total : Nat), s.err = none → s.filled.rle = true →
    (∀ ls, expandPairs s.rle [] = some ls → ls.length = total →
      exec (.rleDec total) s =
        .next { s with seq := ls, filled := { s.filled with seq := true }, result := .none }) ∧
    (∀ x ps, s.rle = .rep x :: ps → 0 < total →
      ∃ t, exec (.rleDec total) s = .next t ∧ Raised .repeatNoPrevious 16 s t) ∧
    (∀ ps p qs ls more, s.rle = ps ++ p :: qs → expandPairs ps [] = some ls → ls.length < total →
      expandPairs [p] ls = some more → total < more.length →
      ∃ t, exec (.rleDec total) s = .next t ∧ Raised .repeatOverrun p.sym s t) ∧
    (∀ ls, expandPairs s.rle [] = some ls → ls.length < total →
      exec (.rleDec total) s = .refused .shortSequence) ∧
    (∀ ps p qs ls, s.rle = ps ++ p :: qs → expandPairs ps [] = some ls → ls.length = total →
      exec (.rleDec total) s = .refused .longSequence)

/-- RLE round-trip (R235). -/
def Obligations.RunLengthRoundTrip : Prop :=
  ∀ s : State, s.err = none → s.filled.seq = true → (∀ l ∈ s.seq, l ≤ 15) →
    ∃ t u, exec .rleEnc s = .next t ∧ exec (.rleDec s.seq.length) t = .next u ∧ u.err = none ∧ u.seq = s.seq

/-! ## Block header -/

/-- HDR.SIZE (R238, R239): the last literal/length symbol with a length is `lastLit`, the last distance symbol with
one is `lastDist`, or none has and `lastDist` is 0. Where no literal/length symbol at 256 or above has a length, R239
states no `hlit`: it is some value within its bounds and all else is as the rule says (DESIGN CHOICE, log 27). An array
shorter than its alphabet is read past its end, a fault of the model (R66, log 12). -/
def Obligations.HeaderSize : Prop :=
  ∀ s : State, s.cfg.Ok → s.err = none → s.filled.litLen = true → s.filled.distLen = true →
    (s.cfg.nlit ≤ s.litLen.length → s.cfg.ndist ≤ s.distLen.length → ∀ lastDist, lastDist < s.cfg.ndist →
      (lastDist = 0 ∨ s.distLen[lastDist]? ≠ some 0) →
      (∀ k, lastDist < k → k < s.cfg.ndist → s.distLen[k]? = some 0) →
      (∀ lastLit, 256 ≤ lastLit → lastLit < s.cfg.nlit → s.litLen[lastLit]? ≠ some 0 →
        (∀ k, lastLit < k → k < s.cfg.nlit → s.litLen[k]? = some 0) →
        exec .hdrSize s =
          .next { s with
            hlit := lastLit + 1 - 257, hdist := lastDist
            seq := s.litLen.take (lastLit + 1) ++ s.distLen.take (lastDist + 1)
            filled := { s.filled with seq := true }, result := .none }) ∧
      ((∀ k, 256 ≤ k → k < s.cfg.nlit → s.litLen[k]? = some 0) →
        ∃ h, h ≤ 29 ∧ exec .hdrSize s =
          .next { s with
            hlit := h, hdist := lastDist, seq := s.litLen.take (h + 257) ++ s.distLen.take (lastDist + 1)
            fresh := s.fresh + 1, filled := { s.filled with seq := true }, result := .none })) ∧
    (s.litLen.length < s.cfg.nlit → exec .hdrSize s = .fault (.indexOutOfRange s.litLen.length)) ∧
    (s.cfg.nlit ≤ s.litLen.length → s.distLen.length < s.cfg.ndist →
      exec .hdrSize s = .fault (.indexOutOfRange s.distLen.length))

/-- HDR.BUILD (R241) is HDR.SIZE, RLE.ENC, the count of the pairs' symbols, HUF.BUILD and HUF.CANON of the code-length
alphabet, and `hclen` by R240. -/
def Obligations.HeaderBuild : Prop :=
  ∀ s : State, s.cfg.Ok → s.err = none → s.filled.litLen = true → s.filled.distLen = true →
    s.cfg.nlit ≤ s.litLen.length → s.cfg.ndist ≤ s.distLen.length →
    ∃ u v t, runAll [.hdrSize, .rleEnc] { s with btype := 2 } = .next u ∧
      runAll [.hufBuild 2, .hufCanon 2]
        { u with
          clFreq := (List.range s.cfg.ncl).map fun c => (u.rle.filter fun p => p.sym = c).length
          filled := { u.filled with clFreq := true } } = .next v ∧
      exec .hdrBuild s = .next t ∧
      t = { v with hclen := t.hclen, result := .none } ∧
      (∀ lastK sym, s.cfg.clperm[lastK]? = some sym → v.clLen[sym]?.getD 0 ≠ 0 →
        (∀ k q, lastK < k → s.cfg.clperm[k]? = some q → v.clLen[q]?.getD 0 = 0) →
        t.hclen = max (lastK + 1) 4 - 4) ∧
      t.hclen ≤ 15

/-- HDR.WRITE (R243) appends the header's bits, code and width by the code array's entry (log 28). -/
def Obligations.HeaderWrite : Prop :=
  ∀ s : State, s.err = none → WriterOk s → s.filled.clLen = true → s.filled.rle = true →
    (s.rle ≠ [] → s.filled.clCode = true) → (∀ c ∈ s.cfg.clperm.take (s.hclen + 4), c < s.clLen.length) →
    (∀ p ∈ s.rle, hasCode s.clCode p.sym) →
    ∃ t, exec .hdrWrite s = .next t ∧ Wrote (headerBits s) s t

/-- HDR.READ inverts HDR.WRITE (R247): a header that HDR.BUILD built from full length arrays, its bits after BFINAL and
BTYPE next in the stream. The codes of the trimmed arrays are those of the full ones. What becomes of `rle` and of
the frequency arrays is log 29's. -/
def Obligations.HeaderReadInvertsWrite : Prop :=
  ∀ s t r : State, s.cfg.Ok → r.cfg = s.cfg → exec .hdrBuild s = .next t →
    s.litLen.length = s.cfg.nlit → s.distLen.length = s.cfg.ndist →
    (∀ l ∈ s.litLen, l ≤ 15) → (∀ l ∈ s.distLen, l ≤ 15) →
    r.err = none → (headerBits t).drop 3 <+: r.unread →
    ∃ q, exec .hdrRead r = .next q ∧
      q = { r with
        bitPos := r.bitPos + ((headerBits t).length - 3), hlit := t.hlit, hdist := t.hdist, hclen := t.hclen
        clLen := t.clLen, clCode := t.clCode, seq := t.seq, litLen := s.litLen.take (t.hlit + 257)
        distLen := s.distLen.take (t.hdist + 1), acc := q.acc, accLen := q.accLen
        rle := q.rle, fresh := r.fresh + 1
        filled := { r.filled with
          clLen := true, clCode := true, seq := true, litLen := true, distLen := true
          litFreq := false, distFreq := false, clFreq := false }
        result := .none } ∧
      (∀ k, k < t.hlit + 257 → (canonCodes q.litLen)[k]? = (canonCodes s.litLen)[k]?) ∧
      (∀ k, k < t.hdist + 1 → (canonCodes q.distLen)[k]? = (canonCodes s.distLen)[k]?)

/-! ## Block encode -/

/-- BLK.FREQ (R260) and what holds after it (R261), `n` being the bytes the records stand for. -/
def Obligations.FrequencyCount : Prop :=
  ∀ s : State, s.cfg.Ok → s.err = none → s.filled.recs = true → (∀ r ∈ s.recs, r.wellFormed s.cfg = true) →
    ∃ lf df, exec .blkFreq s =
        .next { s with
          litFreq := lf, distFreq := df, filled := { s.filled with litFreq := true, distFreq := true }
          result := .none } ∧
      lf.length = s.cfg.nlit ∧ df.length = s.cfg.ndist ∧
      (∀ k, k < s.cfg.nlit → lf[k]? = some (
        (s.recs.filter fun r => 0 < r.length ∧ (lenRow s.cfg r.length).map (·.sym) = some k).length
          + (s.recs.filter fun r => r.hasLit = true ∧ r.lit.toNat = k).length + if k = 256 then 1 else 0)) ∧
      (∀ k, k < s.cfg.ndist → df[k]? = some
        (s.recs.filter fun r => 0 < r.length ∧ (distRow s.cfg r.offset).map (·.sym) = some k).length) ∧
      lf[256]? = some 1 ∧
      lf.sum = s.recs.length + (s.recs.filter fun r => 0 < r.length ∧ r.hasLit = true).length + 1 ∧
      df.sum = (s.recs.filter fun r => 0 < r.length).length ∧
      (∀ f ∈ lf ++ df, f ≤ (s.recs.map MatchRecord.span).sum + 1)

/-- SYM.EMIT (R264) appends the bits of the record's elements, code and width by the code array's entry (log 28). -/
def Obligations.SymbolEmit : Prop :=
  ∀ (s : State) (k : Nat) (r : MatchRecord), s.err = none → WriterOk s → s.filled.recs = true →
    (0 < r.length ∨ r.hasLit = true → s.filled.litCode = true) → (0 < r.length → s.filled.distCode = true) →
    s.recs[k]? = some r → RecordCoded s r →
    ∃ t, exec (.symEmit k) s = .next t ∧ Wrote (recordBits s r) s t

/-- BLK.ENC expands exactly as R109 and R262 say. -/
def Obligations.BlockEncodeExpands : Prop :=
  ∀ (s t : State) (n : Nat) (final : Bool), exec (.blkEnc n final) s = .next t →
    ∃ u v c l,
      runAll [.lzEncode n, .blkFreq, .hufBuild 0, .hufBuild 1, .hufCanon 0, .hufCanon 1, .hdrBuild, .hdrWrite]
        { s with bfinal := final } = .next u ∧
      runAll ((List.range u.recs.length).map .symEmit) u = .next v ∧
      v.litCode[s.cfg.eob]? = some (some (c, l)) ∧
      t = { writeCode c l v with result := .none }

/-- BLK.ENC has no error path (R262, R302): it completes on every chunk, appends the header, the records' elements and
the end-of-block code, and touches nothing of the decoder. -/
def Obligations.BlockEncodeCompletes : Prop :=
  ∀ (s : State) (n : Nat) (final : Bool), s.cfg.Ok → s.err = none → WriterOk s →
    (n ≤ s.cfg.chunkMax → n ≤ s.data.length →
      ∃ t, exec (.blkEnc n final) s = .next t ∧ WriterOk t ∧ CoverFrom s.cfg n 0 t.recs ∧
        t.written = s.written ++ headerBits t ++ t.recs.flatMap (recordBits t) ++ symbolBits t.litCode s.cfg.eob ∧
        hasCode t.litCode s.cfg.eob ∧ t.bfinal = final ∧ t.btype = 2 ∧ t.result = .none ∧
        t.err = none ∧ t.errBitPos = s.errBitPos ∧ t.errValue = s.errValue ∧ t.dstate = s.dstate ∧
        t.bitPos = s.bitPos ∧ t.source = s.source ∧ t.data = s.data ∧ t.out = s.out ∧ t.decoded = s.decoded ∧
        t.acc = s.acc ∧ t.accLen = s.accLen ∧ t.place = s.place ∧ t.port = s.port ∧ t.fresh = s.fresh ∧
        t.cfg = s.cfg) ∧
    (s.cfg.chunkMax < n → exec (.blkEnc n final) s = .refused .chunkTooLong)

/-! ## Block decode -/

/-- BLK.DEC and STRM.DEC require `ExpectHeader` (R272) and no pending error (R314); inside a block they are refused
under a name of the model's (log 25). -/
def Obligations.DecodeGuards : Prop :=
  ∀ (i : Instr) (s : State), i ∈ [Instr.blkDec, .strmDec] → Inv s →
    (s.err = none → s.dstate = .done → exec i s = .refused .streamDone) ∧
    (s.err = none → s.dstate = .stored → exec i s = .refused .storedHandoff) ∧
    (s.err.isSome = true ∨ s.dstate = .failed → exec i s = .refused .errorPending) ∧
    (s.dstate = .dynamicHuffman → exec i s = .refused .blockInProgress)

/-- The three block types that end the operation at its third bit: the stored hand-off (R275), and the two
unsupported types (R274, R303). -/
def Obligations.OtherBlockTypes : Prop :=
  ∀ (i : Instr) (s : State) (f : Bool) (rest : List Bool), i ∈ [Instr.blkDec, .strmDec] → s.err = none →
    s.dstate = .expectHeader → s.place = .bfinal →
    (s.unread = f :: false :: false :: rest →
      exec i s =
        .next { s with
          bitPos := s.bitPos + 3, bfinal := f, btype := 0, dstate := .stored, result := .none }) ∧
    (s.unread = f :: true :: false :: rest →
      ∃ t, exec i s = .next t ∧
        Raised .fixedHuffman 1 { s with bitPos := s.bitPos + 3, bfinal := f, btype := 1 } t) ∧
    (s.unread = f :: true :: true :: rest →
      ∃ t, exec i s = .next t ∧
        Raised .reservedType 3 { s with bitPos := s.bitPos + 3, bfinal := f, btype := 3 } t)

/-- BLK.DEC is the run of its wire elements (R90, R105, R273 to R280): whatever it answers, element by element the
decoder reaches the same state, faults included. The single elements as steps are the model's (log 2, log 3). -/
def Obligations.BlockDecodeIsElementRun : Prop :=
  ∀ (s t : State), s.cfg.Ok → s.err = none → s.dstate = .expectHeader → s.place = .bfinal →
    exec .blkDec s = .next t →
    ∃ k, StepsTo k { s with port := List.replicate k .element ++ s.port } t

/-- STRM.DEC is BLK.DEC until the decoder leaves `ExpectHeader` (R282). Both always complete there, with a block or
with a fault of the core (R351). -/
def Obligations.StreamDecodeRepeatsBlocks : Prop :=
  ∀ s : State, s.cfg.Ok → s.err = none → s.dstate = .expectHeader → s.place = .bfinal →
    ∃ t, exec .blkDec s = .next t ∧
      (t.dstate ≠ .expectHeader → exec .strmDec s = .next t) ∧
      (t.dstate = .expectHeader → exec .strmDec s = exec .strmDec t) ∧
      ∃ u, exec .strmDec s = .next u ∧ u.dstate ∈ [DState.done, .stored, .failed] ∧
        ∀ q ∈ [t, u], q =
          { s with
            toBuffers := q.toBuffers, hlit := q.hlit, hdist := q.hdist, hclen := q.hclen, bitPos := q.bitPos
            dstate := q.dstate, bfinal := q.bfinal, btype := q.btype, err := q.err, errBitPos := q.errBitPos
            errValue := q.errValue, out := q.out, decoded := q.decoded, result := q.result, place := .bfinal
            filled := q.filled, fresh := q.fresh }

/-- A block decodes the same whatever was before it (R284): only the source and the cursor count, and the core's
configuration. No block-scoped buffer outlives the block (R349): `rle` is a free value of the model, by its counter and
nothing that stood in it, and the frequency arrays can no longer be read (log 29). -/
def Obligations.BlockIndependence : Prop :=
  ∀ s r t : State, s.err = none → s.dstate = .expectHeader → s.place = .bfinal →
    r.err = none → r.dstate = .expectHeader → r.place = .bfinal →
    r.source = s.source → r.bitPos = s.bitPos → r.cfg = s.cfg → exec .blkDec s = .next t →
    ∃ q, exec .blkDec r = .next q ∧ q.bitPos = t.bitPos ∧ q.dstate = t.dstate ∧ q.err = t.err ∧
      (s.bitPos + 3 ≤ 8 * s.source.length → q.bfinal = t.bfinal ∧ q.btype = t.btype) ∧
      (t.err.isSome = true → q.errBitPos = t.errBitPos ∧ q.errValue = t.errValue) ∧
      (t.err = none → t.btype = 2 →
        q.recs = t.recs ∧ q.out = t.out ∧ q.litCode = t.litCode ∧ q.distCode = t.distCode ∧ q.clCode = t.clCode ∧
        q.seq = t.seq ∧ q.clLen = t.clLen ∧ q.litLen = t.litLen ∧ q.distLen = t.distLen ∧
        t.decoded = s.decoded ++ t.out ∧ q.decoded = r.decoded ++ t.out ∧
        (∀ u ∈ [t, q], u.filled.litFreq = false ∧ u.filled.distFreq = false ∧ u.filled.clFreq = false) ∧
        (r.fresh = s.fresh → q.rle = t.rle))

/-- Block round-trip (R283, the block): from a reset core a chunk is encoded and closed, and the sink attached as the
source decodes to the chunk. -/
def Obligations.BlockRoundTrip : Prop :=
  ∀ (s₀ s : State) (n : Nat) (final : Bool), s₀.cfg.Ok → exec .coreReset s₀ = .next s → n ≤ s.cfg.chunkMax →
    n ≤ s.data.length →
    ∃ t u q, exec (.blkEnc n final) s = .next t ∧ exec .strmClose t = .next u ∧
      exec .blkDec { u with source := u.sink } = .next q ∧ q.err = none ∧ q.recs = t.recs ∧
      q.out = s.data.take n ∧ q.decoded = s.data.take n ∧ q.bfinal = final ∧
      q.dstate = (if final then .done else .expectHeader) ∧ q.bitPos = t.written.length

/-- Stream round-trip (R283, the stream): chunks encoded in order decode to their concatenation. -/
def Obligations.StreamRoundTrip : Prop :=
  ∀ (s₀ s : State) (chunks : List (List Byte)), s₀.cfg.Ok → exec .coreReset s₀ = .next s → chunks ≠ [] →
    (∀ c ∈ chunks, c.length ≤ s.cfg.chunkMax) →
    ∃ t u q, encodeChunks chunks s = .next t ∧ exec .strmClose t = .next u ∧
      exec .strmDec { u with source := u.sink } = .next q ∧ q.dstate = .done ∧ q.err = none ∧
      q.decoded = chunks.flatten

/-! ## Wire elements -/

/-- The block header's elements (R92 to R94, R103, R245, R273 to R276), each at its place. The last CLLEN
makes `rle` a free value in the ranges of R39 and R231, and the frequency arrays unfilled (log 29). -/
def Obligations.HeaderElements : Prop :=
  ∀ s : State, s.err = none →
    (∀ f, s.dstate = .expectHeader → s.place = .bfinal →
      exec (.bfinal f) s = .next { s with bfinal := f, place := .btype, result := .none }) ∧
    (s.dstate = .expectHeader → s.place = .btype →
      exec .btypeStored s = .next { s with btype := 0, dstate := .stored, place := .bfinal, result := .none } ∧
      exec .btypeDynamic s =
        .next { s with btype := 2, dstate := .dynamicHuffman, place := .hlit, result := .none } ∧
      (∃ t, exec .btypeFixed s = .next t ∧ Raised .fixedHuffman 1 { s with btype := 1 } t) ∧
      ∃ t, exec .btypeReserved s = .next t ∧ Raised .reservedType 3 { s with btype := 3 } t) ∧
    (∀ v, s.place = .hlit → exec (.hlit v) s = .next { s with hlit := v, place := .hdist, result := .none }) ∧
    (∀ v, s.place = .hdist → exec (.hdist v) s = .next { s with hdist := v, place := .hclen, result := .none }) ∧
    (∀ v, s.place = .hclen →
      exec (.hclen v) s =
        .next { s with
          hclen := v, clLen := List.replicate s.cfg.ncl 0, place := .cllen 0, result := .none }) ∧
    (∀ k c l, s.place = .cllen k → s.cfg.clperm[k]? = some c → c < s.clLen.length →
      (k + 1 < s.hclen + 4 →
        exec (.cllen l) s =
          .next { s with clLen := s.clLen.set c l, place := .cllen (k + 1), result := .none }) ∧
      (s.hclen + 4 ≤ k + 1 →
        ∃ t, exec (.cllen l) s = .next t ∧
          t = { s with
            clLen := s.clLen.set c l, clCode := canonCodes (s.clLen.set c l), seq := [], place := .clsym
            filled := { s.filled with
              clLen := true, clCode := true, seq := true, litFreq := false, distFreq := false, clFreq := false }
            result := .none, rle := t.rle, fresh := s.fresh + 1 } ∧
          ∀ p ∈ t.rle, p.inRange = true))

/-- The code-length elements (R98, R102, R231, R234, R245): what they add to the sequence, and the faults of a repeat
(R306, R307, R311). -/
def Obligations.CodeLengthElements : Prop :=
  ∀ s : State, s.err = none → s.place = .clsym →
    (∀ v, v ≤ 15 → exec (.clLen v) s = .next (afterLengths (s.seq ++ [v]) s)) ∧
    (s.seq = [] → ∃ t, exec .clRep s = .next t ∧ Raised .repeatNoPrevious 16 s t) ∧
    (∀ i sym width base value, (i, sym, width, base, value) ∈
        [(Instr.clRep, 16, 2, 3, s.seq.getLast?), (.clZ3, 17, 3, 3, some 0), (.clZ11, 18, 7, 11, some 0)] →
      ∀ v, value = some v →
        (width ≤ s.unread.length →
          let r := base + fieldValue (s.unread.take width)
          let after := { s with bitPos := s.bitPos + width }
          (s.seq.length + r ≤ s.total →
            exec i s = .next (afterLengths (s.seq ++ List.replicate r v) after)) ∧
          (s.total < s.seq.length + r →
            ∃ t, exec i s = .next t ∧ Raised .repeatOverrun sym after t)) ∧
        (s.unread.length < width →
          ∃ t, exec i s = .next t ∧
            Raised .endOfSource 0 { s with bitPos := s.bitPos + s.unread.length } t))

/-- LIT and EOB (R99, R277, R279, R280), where a record begins and in the trailing place. -/
def Obligations.LiteralAndEndOfBlock : Prop :=
  ∀ s : State, s.err = none →
    (∀ b, s.place = .record →
      exec (.lit b) s =
        .next { s with recs := s.recs ++ [⟨0, 0, b, true⟩], out := s.out ++ [b], result := .none }) ∧
    (∀ b len dist, s.place = .trailing len dist →
      exec (.lit b) s =
        .next { s with
          recs := s.recs ++ [⟨dist, len, b, true⟩], out := s.out ++ [b], place := .record, result := .none }) ∧
    (s.place = .record →
      exec .eob s =
        .next { s with
          decoded := s.decoded ++ s.out, dstate := if s.bfinal then .done else .expectHeader, place := .bfinal
          result := .none }) ∧
    (∀ len dist, s.place = .trailing len dist →
      exec .eob s =
        .next { s with
          recs := s.recs ++ [⟨dist, len, 0#8, false⟩], decoded := s.decoded ++ s.out
          dstate := if s.bfinal then .done else .expectHeader, place := .bfinal, result := .none })

/-- The length elements (R96, R98, R151, R277), one for each row of the table: the length from its extra bits;
TruncatedInput inside them; TrailingNotLiteral in the trailing place (R309). -/
def Obligations.LengthElements : Prop :=
  ∀ (s : State) (i : Instr) (row : Config.CodeRow), s.cfg.Ok → (i, row) ∈ lengthElements.zip s.cfg.lenTable →
    s.err = none →
    (s.place = .record → row.extra ≤ s.unread.length →
      exec i s =
        .next { s with
          bitPos := s.bitPos + row.extra, place := .dist (row.base + fieldValue (s.unread.take row.extra))
          result := .none }) ∧
    (s.place = .record → s.unread.length < row.extra →
      ∃ t, exec i s = .next t ∧
        Raised .endOfSource 0 { s with bitPos := s.bitPos + s.unread.length } t) ∧
    (∀ len dist, s.place = .trailing len dist →
      ∃ t, exec i s = .next t ∧ Raised .trailingNotLiteral row.sym s t)

/-- The distance elements (R97, R98, R152, R277, R278), one for each row of the table: the distance from its extra
bits and the copy, byte by byte (R181); DistanceTooFar when it reaches before the block's output (R310). -/
def Obligations.DistanceElements : Prop :=
  ∀ (s : State) (i : Instr) (row : Config.CodeRow) (len : Nat), s.cfg.Ok →
    (i, row) ∈ distanceElements.zip s.cfg.distTable → s.err = none → s.place = .dist len →
    (row.extra ≤ s.unread.length →
      let dist := row.base + fieldValue (s.unread.take row.extra)
      let after := { s with bitPos := s.bitPos + row.extra }
      (dist ≤ s.out.length →
        ∃ copy, copy.length = len ∧ IsCopy dist s.out copy ∧
          exec i s =
            .next { after with out := s.out ++ copy, place := .trailing len dist, result := .none }) ∧
      (s.out.length < dist → ∃ t, exec i s = .next t ∧ Raised .distanceTooFar dist after t)) ∧
    (s.unread.length < row.extra →
      ∃ t, exec i s = .next t ∧
        Raised .endOfSource 0 { s with bitPos := s.bitPos + s.unread.length } t)

/-- The symbols outside their alphabets (R100, R101, R305, R309), whose effect is the fault, and PAD, which is not
examined (R111, R281). -/
def Obligations.IllegalSymbolsAndPad : Prop :=
  ∀ s : State, s.err = none →
    (∀ i sym, (i, sym) ∈ [(Instr.litlenIllegal286, 286), (.litlenIllegal287, 287)] →
      (s.place = .record → ∃ t, exec i s = .next t ∧ Raised .symbolOutOfRange sym s t) ∧
      (∀ len dist, s.place = .trailing len dist →
        ∃ t, exec i s = .next t ∧ Raised .trailingNotLiteral sym s t)) ∧
    (∀ i sym len, (i, sym) ∈ [(Instr.distIllegal30, 30), (.distIllegal31, 31)] → s.place = .dist len →
      ∃ t, exec i s = .next t ∧ Raised .symbolOutOfRange sym s t) ∧
    (s.dstate = .done → exec .pad s = .next { s with result := .none })

/-! ## Whole-machine rules -/

/-- The units are separate (R62, R63, R75, R137): no instruction changes the source, the chunk or the requests; only the
writer's operations touch the writer, only the matcher's the hash chains; and the writing operations leave the
reader and the decoder alone. -/
def Obligations.UnitsAreSeparate : Prop :=
  ∀ (i : Instr) (s t : State), exec i s = .next t →
    t.source = s.source ∧ t.data = s.data ∧ t.port = s.port ∧ t.cfg = s.cfg ∧
    (i ≠ .coreReset → ∃ bytes, t.sink = s.sink ++ bytes) ∧
    (i.writesSink = false → t.sink = s.sink ∧ t.wBuf = s.wBuf ∧ t.wCnt = s.wCnt) ∧
    (i.writesChains = false → t.hashHead = s.hashHead ∧ t.prev = s.prev) ∧
    (i.leavesDecoder = true →
      t.bitPos = s.bitPos ∧ t.dstate = s.dstate ∧ t.place = s.place ∧ t.out = s.out ∧ t.decoded = s.decoded ∧
      t.err = s.err ∧ t.errBitPos = s.errBitPos ∧ t.errValue = s.errValue)

/-- No operation the host may issue, and nothing the host places, ever leads to a fault of the model (R66): every index
is in range and every symbol written has a code. -/
def Obligations.HostRequestsNeverFault : Prop :=
  ∀ (s : State) (r : Request) (rest : List Request) (f : Fault), s.cfg.Ok → s.port = r :: rest → r.fromHost = true →
    step s ≠ .fault f

/-- Every step keeps the invariant, from every state that has it. -/
def Obligations.StepKeepsInvariant : Prop :=
  ∀ s t : State, Inv s → step s = .next t → Inv t

/-! ## Further results of single operations -/

/-- HDR.READ (R245) completes on every header the stream holds: `t` gives the header's fields, lengths and pairs, `ls`
the lengths the pairs stand for. The bits are those of the wire format (R91, R243) after BFINAL and BTYPE. What it
writes is what the header says, split into the two arrays (R236); what becomes of `rle` and of the frequency arrays is
log 29's. -/
def Obligations.HeaderRead : Prop :=
  ∀ (r t : State) (ls : List Nat), r.cfg.Ok → t.cfg = r.cfg → r.err = none →
    t.hlit < 32 → t.hdist < 32 → t.hclen < 16 →
    t.clLen.length = t.cfg.ncl → (∀ l ∈ t.clLen, l < 8) →
    (∀ k c, t.hclen + 4 ≤ k → t.cfg.clperm[k]? = some c → t.clLen[c]? = some 0) →
    kraft 7 t.clLen ≤ 2 ^ 7 → t.clCode = canonCodes t.clLen → (∀ l ∈ t.clLen, l ≤ t.cfg.decodeMaxbits) →
    (∀ p ∈ t.rle, p.inRange = true ∧ hasCode t.clCode p.sym) →
    expandPairs t.rle [] = some ls → ls.length = t.total →
    (headerBits t).drop 3 <+: r.unread →
    ∃ q, exec .hdrRead r = .next q ∧
      q = { r with
        bitPos := r.bitPos + ((headerBits t).length - 3), hlit := t.hlit, hdist := t.hdist, hclen := t.hclen
        clLen := t.clLen, clCode := t.clCode, seq := ls, litLen := ls.take (t.hlit + 257)
        distLen := ls.drop (t.hlit + 257), acc := q.acc, accLen := q.accLen
        rle := q.rle, fresh := r.fresh + 1
        filled := { r.filled with
          clLen := true, clCode := true, seq := true, litLen := true, distLen := true
          litFreq := false, distFreq := false, clFreq := false }
        result := .none }

/-- LZ.ENCODE is its expansion (R109, R177): LZ.RESET, then pass by pass LZ.FIND, a literal record where the match is
shorter than MIN_MATCH and a match record otherwise, and LZ.INSERT of every position covered. -/
def Obligations.EncodeExpands : Prop :=
  ∀ (s : State) (n : Nat), s.err = none → n ≤ s.cfg.chunkMax → n ≤ s.data.length →
    ∃ u v, exec .lzReset s = .next u ∧ encodePasses n { setRecs [] u with n := n, i := 0 } = .next v ∧
      exec (.lzEncode n) s = .next { v with result := .none }
end

