-- ==== Sys2Proof/Laws/State.lean ====
section
/-! SUPPORT. One lemma for each field of State under each named update: what the update writes, or that it leaves the
field alone. Every one is true by unfolding the update. -/

namespace Sys2Proof.Machine

/-! ### setRecs -/

@[simp] theorem setRecs_acc (rs : List MatchRecord) (s : State) : (setRecs rs s).acc = s.acc := rfl
@[simp] theorem setRecs_accLen (rs : List MatchRecord) (s : State) : (setRecs rs s).accLen = s.accLen := rfl
@[simp] theorem setRecs_recs (rs : List MatchRecord) (s : State) : (setRecs rs s).recs = rs := rfl
@[simp] theorem setRecs_litLen (rs : List MatchRecord) (s : State) : (setRecs rs s).litLen = s.litLen := rfl
@[simp] theorem setRecs_distLen (rs : List MatchRecord) (s : State) : (setRecs rs s).distLen = s.distLen := rfl
@[simp] theorem setRecs_clLen (rs : List MatchRecord) (s : State) : (setRecs rs s).clLen = s.clLen := rfl
@[simp] theorem setRecs_litCode (rs : List MatchRecord) (s : State) : (setRecs rs s).litCode = s.litCode := rfl
@[simp] theorem setRecs_distCode (rs : List MatchRecord) (s : State) : (setRecs rs s).distCode = s.distCode := rfl
@[simp] theorem setRecs_clCode (rs : List MatchRecord) (s : State) : (setRecs rs s).clCode = s.clCode := rfl
@[simp] theorem setRecs_seq (rs : List MatchRecord) (s : State) : (setRecs rs s).seq = s.seq := rfl
@[simp] theorem setRecs_rle (rs : List MatchRecord) (s : State) : (setRecs rs s).rle = s.rle := rfl
@[simp] theorem setRecs_n (rs : List MatchRecord) (s : State) : (setRecs rs s).n = s.n := rfl
@[simp] theorem setRecs_i (rs : List MatchRecord) (s : State) : (setRecs rs s).i = s.i := rfl
@[simp] theorem setRecs_h (rs : List MatchRecord) (s : State) : (setRecs rs s).h = s.h := rfl
@[simp] theorem setRecs_cand (rs : List MatchRecord) (s : State) : (setRecs rs s).cand = s.cand := rfl
@[simp] theorem setRecs_visited (rs : List MatchRecord) (s : State) : (setRecs rs s).visited = s.visited := rfl
@[simp] theorem setRecs_cap (rs : List MatchRecord) (s : State) : (setRecs rs s).cap = s.cap := rfl
@[simp] theorem setRecs_bestLen (rs : List MatchRecord) (s : State) : (setRecs rs s).bestLen = s.bestLen := rfl
@[simp] theorem setRecs_bestDist (rs : List MatchRecord) (s : State) : (setRecs rs s).bestDist = s.bestDist := rfl
@[simp] theorem setRecs_hlit (rs : List MatchRecord) (s : State) : (setRecs rs s).hlit = s.hlit := rfl
@[simp] theorem setRecs_hdist (rs : List MatchRecord) (s : State) : (setRecs rs s).hdist = s.hdist := rfl
@[simp] theorem setRecs_hclen (rs : List MatchRecord) (s : State) : (setRecs rs s).hclen = s.hclen := rfl
@[simp] theorem setRecs_litFreq (rs : List MatchRecord) (s : State) : (setRecs rs s).litFreq = s.litFreq := rfl
@[simp] theorem setRecs_distFreq (rs : List MatchRecord) (s : State) : (setRecs rs s).distFreq = s.distFreq := rfl
@[simp] theorem setRecs_clFreq (rs : List MatchRecord) (s : State) : (setRecs rs s).clFreq = s.clFreq := rfl
@[simp] theorem setRecs_prev (rs : List MatchRecord) (s : State) : (setRecs rs s).prev = s.prev := rfl
@[simp] theorem setRecs_wBuf (rs : List MatchRecord) (s : State) : (setRecs rs s).wBuf = s.wBuf := rfl
@[simp] theorem setRecs_wCnt (rs : List MatchRecord) (s : State) : (setRecs rs s).wCnt = s.wCnt := rfl
@[simp] theorem setRecs_sink (rs : List MatchRecord) (s : State) : (setRecs rs s).sink = s.sink := rfl
@[simp] theorem setRecs_bitPos (rs : List MatchRecord) (s : State) : (setRecs rs s).bitPos = s.bitPos := rfl
@[simp] theorem setRecs_source (rs : List MatchRecord) (s : State) : (setRecs rs s).source = s.source := rfl
@[simp] theorem setRecs_data (rs : List MatchRecord) (s : State) : (setRecs rs s).data = s.data := rfl
@[simp] theorem setRecs_hashHead (rs : List MatchRecord) (s : State) : (setRecs rs s).hashHead = s.hashHead := rfl
@[simp] theorem setRecs_dstate (rs : List MatchRecord) (s : State) : (setRecs rs s).dstate = s.dstate := rfl
@[simp] theorem setRecs_bfinal (rs : List MatchRecord) (s : State) : (setRecs rs s).bfinal = s.bfinal := rfl
@[simp] theorem setRecs_btype (rs : List MatchRecord) (s : State) : (setRecs rs s).btype = s.btype := rfl
@[simp] theorem setRecs_err (rs : List MatchRecord) (s : State) : (setRecs rs s).err = s.err := rfl
@[simp] theorem setRecs_errBitPos (rs : List MatchRecord) (s : State) : (setRecs rs s).errBitPos = s.errBitPos := rfl
@[simp] theorem setRecs_errValue (rs : List MatchRecord) (s : State) : (setRecs rs s).errValue = s.errValue := rfl
@[simp] theorem setRecs_out (rs : List MatchRecord) (s : State) : (setRecs rs s).out = s.out := rfl
@[simp] theorem setRecs_decoded (rs : List MatchRecord) (s : State) : (setRecs rs s).decoded = s.decoded := rfl
@[simp] theorem setRecs_result (rs : List MatchRecord) (s : State) : (setRecs rs s).result = s.result := rfl
@[simp] theorem setRecs_place (rs : List MatchRecord) (s : State) : (setRecs rs s).place = s.place := rfl
@[simp] theorem setRecs_filled (rs : List MatchRecord) (s : State) : (setRecs rs s).filled = { s.filled with recs := true } := rfl
@[simp] theorem setRecs_fresh (rs : List MatchRecord) (s : State) : (setRecs rs s).fresh = s.fresh := rfl
@[simp] theorem setRecs_port (rs : List MatchRecord) (s : State) : (setRecs rs s).port = s.port := rfl
@[simp] theorem setRecs_cfg (rs : List MatchRecord) (s : State) : (setRecs rs s).cfg = s.cfg := rfl

/-! ### setSeq -/

@[simp] theorem setSeq_acc (ls : List Nat) (s : State) : (setSeq ls s).acc = s.acc := rfl
@[simp] theorem setSeq_accLen (ls : List Nat) (s : State) : (setSeq ls s).accLen = s.accLen := rfl
@[simp] theorem setSeq_recs (ls : List Nat) (s : State) : (setSeq ls s).recs = s.recs := rfl
@[simp] theorem setSeq_litLen (ls : List Nat) (s : State) : (setSeq ls s).litLen = s.litLen := rfl
@[simp] theorem setSeq_distLen (ls : List Nat) (s : State) : (setSeq ls s).distLen = s.distLen := rfl
@[simp] theorem setSeq_clLen (ls : List Nat) (s : State) : (setSeq ls s).clLen = s.clLen := rfl
@[simp] theorem setSeq_litCode (ls : List Nat) (s : State) : (setSeq ls s).litCode = s.litCode := rfl
@[simp] theorem setSeq_distCode (ls : List Nat) (s : State) : (setSeq ls s).distCode = s.distCode := rfl
@[simp] theorem setSeq_clCode (ls : List Nat) (s : State) : (setSeq ls s).clCode = s.clCode := rfl
@[simp] theorem setSeq_seq (ls : List Nat) (s : State) : (setSeq ls s).seq = ls := rfl
@[simp] theorem setSeq_rle (ls : List Nat) (s : State) : (setSeq ls s).rle = s.rle := rfl
@[simp] theorem setSeq_n (ls : List Nat) (s : State) : (setSeq ls s).n = s.n := rfl
@[simp] theorem setSeq_i (ls : List Nat) (s : State) : (setSeq ls s).i = s.i := rfl
@[simp] theorem setSeq_h (ls : List Nat) (s : State) : (setSeq ls s).h = s.h := rfl
@[simp] theorem setSeq_cand (ls : List Nat) (s : State) : (setSeq ls s).cand = s.cand := rfl
@[simp] theorem setSeq_visited (ls : List Nat) (s : State) : (setSeq ls s).visited = s.visited := rfl
@[simp] theorem setSeq_cap (ls : List Nat) (s : State) : (setSeq ls s).cap = s.cap := rfl
@[simp] theorem setSeq_bestLen (ls : List Nat) (s : State) : (setSeq ls s).bestLen = s.bestLen := rfl
@[simp] theorem setSeq_bestDist (ls : List Nat) (s : State) : (setSeq ls s).bestDist = s.bestDist := rfl
@[simp] theorem setSeq_hlit (ls : List Nat) (s : State) : (setSeq ls s).hlit = s.hlit := rfl
@[simp] theorem setSeq_hdist (ls : List Nat) (s : State) : (setSeq ls s).hdist = s.hdist := rfl
@[simp] theorem setSeq_hclen (ls : List Nat) (s : State) : (setSeq ls s).hclen = s.hclen := rfl
@[simp] theorem setSeq_litFreq (ls : List Nat) (s : State) : (setSeq ls s).litFreq = s.litFreq := rfl
@[simp] theorem setSeq_distFreq (ls : List Nat) (s : State) : (setSeq ls s).distFreq = s.distFreq := rfl
@[simp] theorem setSeq_clFreq (ls : List Nat) (s : State) : (setSeq ls s).clFreq = s.clFreq := rfl
@[simp] theorem setSeq_prev (ls : List Nat) (s : State) : (setSeq ls s).prev = s.prev := rfl
@[simp] theorem setSeq_wBuf (ls : List Nat) (s : State) : (setSeq ls s).wBuf = s.wBuf := rfl
@[simp] theorem setSeq_wCnt (ls : List Nat) (s : State) : (setSeq ls s).wCnt = s.wCnt := rfl
@[simp] theorem setSeq_sink (ls : List Nat) (s : State) : (setSeq ls s).sink = s.sink := rfl
@[simp] theorem setSeq_bitPos (ls : List Nat) (s : State) : (setSeq ls s).bitPos = s.bitPos := rfl
@[simp] theorem setSeq_source (ls : List Nat) (s : State) : (setSeq ls s).source = s.source := rfl
@[simp] theorem setSeq_data (ls : List Nat) (s : State) : (setSeq ls s).data = s.data := rfl
@[simp] theorem setSeq_hashHead (ls : List Nat) (s : State) : (setSeq ls s).hashHead = s.hashHead := rfl
@[simp] theorem setSeq_dstate (ls : List Nat) (s : State) : (setSeq ls s).dstate = s.dstate := rfl
@[simp] theorem setSeq_bfinal (ls : List Nat) (s : State) : (setSeq ls s).bfinal = s.bfinal := rfl
@[simp] theorem setSeq_btype (ls : List Nat) (s : State) : (setSeq ls s).btype = s.btype := rfl
@[simp] theorem setSeq_err (ls : List Nat) (s : State) : (setSeq ls s).err = s.err := rfl
@[simp] theorem setSeq_errBitPos (ls : List Nat) (s : State) : (setSeq ls s).errBitPos = s.errBitPos := rfl
@[simp] theorem setSeq_errValue (ls : List Nat) (s : State) : (setSeq ls s).errValue = s.errValue := rfl
@[simp] theorem setSeq_out (ls : List Nat) (s : State) : (setSeq ls s).out = s.out := rfl
@[simp] theorem setSeq_decoded (ls : List Nat) (s : State) : (setSeq ls s).decoded = s.decoded := rfl
@[simp] theorem setSeq_result (ls : List Nat) (s : State) : (setSeq ls s).result = s.result := rfl
@[simp] theorem setSeq_place (ls : List Nat) (s : State) : (setSeq ls s).place = s.place := rfl
@[simp] theorem setSeq_filled (ls : List Nat) (s : State) : (setSeq ls s).filled = { s.filled with seq := true } := rfl
@[simp] theorem setSeq_fresh (ls : List Nat) (s : State) : (setSeq ls s).fresh = s.fresh := rfl
@[simp] theorem setSeq_port (ls : List Nat) (s : State) : (setSeq ls s).port = s.port := rfl
@[simp] theorem setSeq_cfg (ls : List Nat) (s : State) : (setSeq ls s).cfg = s.cfg := rfl

/-! ### setRle -/

@[simp] theorem setRle_acc (ps : List ClPair) (s : State) : (setRle ps s).acc = s.acc := rfl
@[simp] theorem setRle_accLen (ps : List ClPair) (s : State) : (setRle ps s).accLen = s.accLen := rfl
@[simp] theorem setRle_recs (ps : List ClPair) (s : State) : (setRle ps s).recs = s.recs := rfl
@[simp] theorem setRle_litLen (ps : List ClPair) (s : State) : (setRle ps s).litLen = s.litLen := rfl
@[simp] theorem setRle_distLen (ps : List ClPair) (s : State) : (setRle ps s).distLen = s.distLen := rfl
@[simp] theorem setRle_clLen (ps : List ClPair) (s : State) : (setRle ps s).clLen = s.clLen := rfl
@[simp] theorem setRle_litCode (ps : List ClPair) (s : State) : (setRle ps s).litCode = s.litCode := rfl
@[simp] theorem setRle_distCode (ps : List ClPair) (s : State) : (setRle ps s).distCode = s.distCode := rfl
@[simp] theorem setRle_clCode (ps : List ClPair) (s : State) : (setRle ps s).clCode = s.clCode := rfl
@[simp] theorem setRle_seq (ps : List ClPair) (s : State) : (setRle ps s).seq = s.seq := rfl
@[simp] theorem setRle_rle (ps : List ClPair) (s : State) : (setRle ps s).rle = ps := rfl
@[simp] theorem setRle_n (ps : List ClPair) (s : State) : (setRle ps s).n = s.n := rfl
@[simp] theorem setRle_i (ps : List ClPair) (s : State) : (setRle ps s).i = s.i := rfl
@[simp] theorem setRle_h (ps : List ClPair) (s : State) : (setRle ps s).h = s.h := rfl
@[simp] theorem setRle_cand (ps : List ClPair) (s : State) : (setRle ps s).cand = s.cand := rfl
@[simp] theorem setRle_visited (ps : List ClPair) (s : State) : (setRle ps s).visited = s.visited := rfl
@[simp] theorem setRle_cap (ps : List ClPair) (s : State) : (setRle ps s).cap = s.cap := rfl
@[simp] theorem setRle_bestLen (ps : List ClPair) (s : State) : (setRle ps s).bestLen = s.bestLen := rfl
@[simp] theorem setRle_bestDist (ps : List ClPair) (s : State) : (setRle ps s).bestDist = s.bestDist := rfl
@[simp] theorem setRle_hlit (ps : List ClPair) (s : State) : (setRle ps s).hlit = s.hlit := rfl
@[simp] theorem setRle_hdist (ps : List ClPair) (s : State) : (setRle ps s).hdist = s.hdist := rfl
@[simp] theorem setRle_hclen (ps : List ClPair) (s : State) : (setRle ps s).hclen = s.hclen := rfl
@[simp] theorem setRle_litFreq (ps : List ClPair) (s : State) : (setRle ps s).litFreq = s.litFreq := rfl
@[simp] theorem setRle_distFreq (ps : List ClPair) (s : State) : (setRle ps s).distFreq = s.distFreq := rfl
@[simp] theorem setRle_clFreq (ps : List ClPair) (s : State) : (setRle ps s).clFreq = s.clFreq := rfl
@[simp] theorem setRle_prev (ps : List ClPair) (s : State) : (setRle ps s).prev = s.prev := rfl
@[simp] theorem setRle_wBuf (ps : List ClPair) (s : State) : (setRle ps s).wBuf = s.wBuf := rfl
@[simp] theorem setRle_wCnt (ps : List ClPair) (s : State) : (setRle ps s).wCnt = s.wCnt := rfl
@[simp] theorem setRle_sink (ps : List ClPair) (s : State) : (setRle ps s).sink = s.sink := rfl
@[simp] theorem setRle_bitPos (ps : List ClPair) (s : State) : (setRle ps s).bitPos = s.bitPos := rfl
@[simp] theorem setRle_source (ps : List ClPair) (s : State) : (setRle ps s).source = s.source := rfl
@[simp] theorem setRle_data (ps : List ClPair) (s : State) : (setRle ps s).data = s.data := rfl
@[simp] theorem setRle_hashHead (ps : List ClPair) (s : State) : (setRle ps s).hashHead = s.hashHead := rfl
@[simp] theorem setRle_dstate (ps : List ClPair) (s : State) : (setRle ps s).dstate = s.dstate := rfl
@[simp] theorem setRle_bfinal (ps : List ClPair) (s : State) : (setRle ps s).bfinal = s.bfinal := rfl
@[simp] theorem setRle_btype (ps : List ClPair) (s : State) : (setRle ps s).btype = s.btype := rfl
@[simp] theorem setRle_err (ps : List ClPair) (s : State) : (setRle ps s).err = s.err := rfl
@[simp] theorem setRle_errBitPos (ps : List ClPair) (s : State) : (setRle ps s).errBitPos = s.errBitPos := rfl
@[simp] theorem setRle_errValue (ps : List ClPair) (s : State) : (setRle ps s).errValue = s.errValue := rfl
@[simp] theorem setRle_out (ps : List ClPair) (s : State) : (setRle ps s).out = s.out := rfl
@[simp] theorem setRle_decoded (ps : List ClPair) (s : State) : (setRle ps s).decoded = s.decoded := rfl
@[simp] theorem setRle_result (ps : List ClPair) (s : State) : (setRle ps s).result = s.result := rfl
@[simp] theorem setRle_place (ps : List ClPair) (s : State) : (setRle ps s).place = s.place := rfl
@[simp] theorem setRle_filled (ps : List ClPair) (s : State) : (setRle ps s).filled = { s.filled with rle := true } := rfl
@[simp] theorem setRle_fresh (ps : List ClPair) (s : State) : (setRle ps s).fresh = s.fresh := rfl
@[simp] theorem setRle_port (ps : List ClPair) (s : State) : (setRle ps s).port = s.port := rfl
@[simp] theorem setRle_cfg (ps : List ClPair) (s : State) : (setRle ps s).cfg = s.cfg := rfl

/-! ### setHlit -/

@[simp] theorem setHlit_acc (v : Nat) (s : State) : (setHlit v s).acc = s.acc := rfl
@[simp] theorem setHlit_accLen (v : Nat) (s : State) : (setHlit v s).accLen = s.accLen := rfl
@[simp] theorem setHlit_recs (v : Nat) (s : State) : (setHlit v s).recs = s.recs := rfl
@[simp] theorem setHlit_litLen (v : Nat) (s : State) : (setHlit v s).litLen = s.litLen := rfl
@[simp] theorem setHlit_distLen (v : Nat) (s : State) : (setHlit v s).distLen = s.distLen := rfl
@[simp] theorem setHlit_clLen (v : Nat) (s : State) : (setHlit v s).clLen = s.clLen := rfl
@[simp] theorem setHlit_litCode (v : Nat) (s : State) : (setHlit v s).litCode = s.litCode := rfl
@[simp] theorem setHlit_distCode (v : Nat) (s : State) : (setHlit v s).distCode = s.distCode := rfl
@[simp] theorem setHlit_clCode (v : Nat) (s : State) : (setHlit v s).clCode = s.clCode := rfl
@[simp] theorem setHlit_seq (v : Nat) (s : State) : (setHlit v s).seq = s.seq := rfl
@[simp] theorem setHlit_rle (v : Nat) (s : State) : (setHlit v s).rle = s.rle := rfl
@[simp] theorem setHlit_n (v : Nat) (s : State) : (setHlit v s).n = s.n := rfl
@[simp] theorem setHlit_i (v : Nat) (s : State) : (setHlit v s).i = s.i := rfl
@[simp] theorem setHlit_h (v : Nat) (s : State) : (setHlit v s).h = s.h := rfl
@[simp] theorem setHlit_cand (v : Nat) (s : State) : (setHlit v s).cand = s.cand := rfl
@[simp] theorem setHlit_visited (v : Nat) (s : State) : (setHlit v s).visited = s.visited := rfl
@[simp] theorem setHlit_cap (v : Nat) (s : State) : (setHlit v s).cap = s.cap := rfl
@[simp] theorem setHlit_bestLen (v : Nat) (s : State) : (setHlit v s).bestLen = s.bestLen := rfl
@[simp] theorem setHlit_bestDist (v : Nat) (s : State) : (setHlit v s).bestDist = s.bestDist := rfl
@[simp] theorem setHlit_hlit (v : Nat) (s : State) : (setHlit v s).hlit = v := rfl
@[simp] theorem setHlit_hdist (v : Nat) (s : State) : (setHlit v s).hdist = s.hdist := rfl
@[simp] theorem setHlit_hclen (v : Nat) (s : State) : (setHlit v s).hclen = s.hclen := rfl
@[simp] theorem setHlit_litFreq (v : Nat) (s : State) : (setHlit v s).litFreq = s.litFreq := rfl
@[simp] theorem setHlit_distFreq (v : Nat) (s : State) : (setHlit v s).distFreq = s.distFreq := rfl
@[simp] theorem setHlit_clFreq (v : Nat) (s : State) : (setHlit v s).clFreq = s.clFreq := rfl
@[simp] theorem setHlit_prev (v : Nat) (s : State) : (setHlit v s).prev = s.prev := rfl
@[simp] theorem setHlit_wBuf (v : Nat) (s : State) : (setHlit v s).wBuf = s.wBuf := rfl
@[simp] theorem setHlit_wCnt (v : Nat) (s : State) : (setHlit v s).wCnt = s.wCnt := rfl
@[simp] theorem setHlit_sink (v : Nat) (s : State) : (setHlit v s).sink = s.sink := rfl
@[simp] theorem setHlit_bitPos (v : Nat) (s : State) : (setHlit v s).bitPos = s.bitPos := rfl
@[simp] theorem setHlit_source (v : Nat) (s : State) : (setHlit v s).source = s.source := rfl
@[simp] theorem setHlit_data (v : Nat) (s : State) : (setHlit v s).data = s.data := rfl
@[simp] theorem setHlit_hashHead (v : Nat) (s : State) : (setHlit v s).hashHead = s.hashHead := rfl
@[simp] theorem setHlit_dstate (v : Nat) (s : State) : (setHlit v s).dstate = s.dstate := rfl
@[simp] theorem setHlit_bfinal (v : Nat) (s : State) : (setHlit v s).bfinal = s.bfinal := rfl
@[simp] theorem setHlit_btype (v : Nat) (s : State) : (setHlit v s).btype = s.btype := rfl
@[simp] theorem setHlit_err (v : Nat) (s : State) : (setHlit v s).err = s.err := rfl
@[simp] theorem setHlit_errBitPos (v : Nat) (s : State) : (setHlit v s).errBitPos = s.errBitPos := rfl
@[simp] theorem setHlit_errValue (v : Nat) (s : State) : (setHlit v s).errValue = s.errValue := rfl
@[simp] theorem setHlit_out (v : Nat) (s : State) : (setHlit v s).out = s.out := rfl
@[simp] theorem setHlit_decoded (v : Nat) (s : State) : (setHlit v s).decoded = s.decoded := rfl
@[simp] theorem setHlit_result (v : Nat) (s : State) : (setHlit v s).result = s.result := rfl
@[simp] theorem setHlit_place (v : Nat) (s : State) : (setHlit v s).place = s.place := rfl
@[simp] theorem setHlit_filled (v : Nat) (s : State) : (setHlit v s).filled = s.filled := rfl
@[simp] theorem setHlit_fresh (v : Nat) (s : State) : (setHlit v s).fresh = s.fresh := rfl
@[simp] theorem setHlit_port (v : Nat) (s : State) : (setHlit v s).port = s.port := rfl
@[simp] theorem setHlit_cfg (v : Nat) (s : State) : (setHlit v s).cfg = s.cfg := rfl

/-! ### setHdist -/

@[simp] theorem setHdist_acc (v : Nat) (s : State) : (setHdist v s).acc = s.acc := rfl
@[simp] theorem setHdist_accLen (v : Nat) (s : State) : (setHdist v s).accLen = s.accLen := rfl
@[simp] theorem setHdist_recs (v : Nat) (s : State) : (setHdist v s).recs = s.recs := rfl
@[simp] theorem setHdist_litLen (v : Nat) (s : State) : (setHdist v s).litLen = s.litLen := rfl
@[simp] theorem setHdist_distLen (v : Nat) (s : State) : (setHdist v s).distLen = s.distLen := rfl
@[simp] theorem setHdist_clLen (v : Nat) (s : State) : (setHdist v s).clLen = s.clLen := rfl
@[simp] theorem setHdist_litCode (v : Nat) (s : State) : (setHdist v s).litCode = s.litCode := rfl
@[simp] theorem setHdist_distCode (v : Nat) (s : State) : (setHdist v s).distCode = s.distCode := rfl
@[simp] theorem setHdist_clCode (v : Nat) (s : State) : (setHdist v s).clCode = s.clCode := rfl
@[simp] theorem setHdist_seq (v : Nat) (s : State) : (setHdist v s).seq = s.seq := rfl
@[simp] theorem setHdist_rle (v : Nat) (s : State) : (setHdist v s).rle = s.rle := rfl
@[simp] theorem setHdist_n (v : Nat) (s : State) : (setHdist v s).n = s.n := rfl
@[simp] theorem setHdist_i (v : Nat) (s : State) : (setHdist v s).i = s.i := rfl
@[simp] theorem setHdist_h (v : Nat) (s : State) : (setHdist v s).h = s.h := rfl
@[simp] theorem setHdist_cand (v : Nat) (s : State) : (setHdist v s).cand = s.cand := rfl
@[simp] theorem setHdist_visited (v : Nat) (s : State) : (setHdist v s).visited = s.visited := rfl
@[simp] theorem setHdist_cap (v : Nat) (s : State) : (setHdist v s).cap = s.cap := rfl
@[simp] theorem setHdist_bestLen (v : Nat) (s : State) : (setHdist v s).bestLen = s.bestLen := rfl
@[simp] theorem setHdist_bestDist (v : Nat) (s : State) : (setHdist v s).bestDist = s.bestDist := rfl
@[simp] theorem setHdist_hlit (v : Nat) (s : State) : (setHdist v s).hlit = s.hlit := rfl
@[simp] theorem setHdist_hdist (v : Nat) (s : State) : (setHdist v s).hdist = v := rfl
@[simp] theorem setHdist_hclen (v : Nat) (s : State) : (setHdist v s).hclen = s.hclen := rfl
@[simp] theorem setHdist_litFreq (v : Nat) (s : State) : (setHdist v s).litFreq = s.litFreq := rfl
@[simp] theorem setHdist_distFreq (v : Nat) (s : State) : (setHdist v s).distFreq = s.distFreq := rfl
@[simp] theorem setHdist_clFreq (v : Nat) (s : State) : (setHdist v s).clFreq = s.clFreq := rfl
@[simp] theorem setHdist_prev (v : Nat) (s : State) : (setHdist v s).prev = s.prev := rfl
@[simp] theorem setHdist_wBuf (v : Nat) (s : State) : (setHdist v s).wBuf = s.wBuf := rfl
@[simp] theorem setHdist_wCnt (v : Nat) (s : State) : (setHdist v s).wCnt = s.wCnt := rfl
@[simp] theorem setHdist_sink (v : Nat) (s : State) : (setHdist v s).sink = s.sink := rfl
@[simp] theorem setHdist_bitPos (v : Nat) (s : State) : (setHdist v s).bitPos = s.bitPos := rfl
@[simp] theorem setHdist_source (v : Nat) (s : State) : (setHdist v s).source = s.source := rfl
@[simp] theorem setHdist_data (v : Nat) (s : State) : (setHdist v s).data = s.data := rfl
@[simp] theorem setHdist_hashHead (v : Nat) (s : State) : (setHdist v s).hashHead = s.hashHead := rfl
@[simp] theorem setHdist_dstate (v : Nat) (s : State) : (setHdist v s).dstate = s.dstate := rfl
@[simp] theorem setHdist_bfinal (v : Nat) (s : State) : (setHdist v s).bfinal = s.bfinal := rfl
@[simp] theorem setHdist_btype (v : Nat) (s : State) : (setHdist v s).btype = s.btype := rfl
@[simp] theorem setHdist_err (v : Nat) (s : State) : (setHdist v s).err = s.err := rfl
@[simp] theorem setHdist_errBitPos (v : Nat) (s : State) : (setHdist v s).errBitPos = s.errBitPos := rfl
@[simp] theorem setHdist_errValue (v : Nat) (s : State) : (setHdist v s).errValue = s.errValue := rfl
@[simp] theorem setHdist_out (v : Nat) (s : State) : (setHdist v s).out = s.out := rfl
@[simp] theorem setHdist_decoded (v : Nat) (s : State) : (setHdist v s).decoded = s.decoded := rfl
@[simp] theorem setHdist_result (v : Nat) (s : State) : (setHdist v s).result = s.result := rfl
@[simp] theorem setHdist_place (v : Nat) (s : State) : (setHdist v s).place = s.place := rfl
@[simp] theorem setHdist_filled (v : Nat) (s : State) : (setHdist v s).filled = s.filled := rfl
@[simp] theorem setHdist_fresh (v : Nat) (s : State) : (setHdist v s).fresh = s.fresh := rfl
@[simp] theorem setHdist_port (v : Nat) (s : State) : (setHdist v s).port = s.port := rfl
@[simp] theorem setHdist_cfg (v : Nat) (s : State) : (setHdist v s).cfg = s.cfg := rfl

/-! ### setHclen -/

@[simp] theorem setHclen_acc (v : Nat) (s : State) : (setHclen v s).acc = s.acc := rfl
@[simp] theorem setHclen_accLen (v : Nat) (s : State) : (setHclen v s).accLen = s.accLen := rfl
@[simp] theorem setHclen_recs (v : Nat) (s : State) : (setHclen v s).recs = s.recs := rfl
@[simp] theorem setHclen_litLen (v : Nat) (s : State) : (setHclen v s).litLen = s.litLen := rfl
@[simp] theorem setHclen_distLen (v : Nat) (s : State) : (setHclen v s).distLen = s.distLen := rfl
@[simp] theorem setHclen_clLen (v : Nat) (s : State) : (setHclen v s).clLen = List.replicate s.cfg.ncl 0 := rfl
@[simp] theorem setHclen_litCode (v : Nat) (s : State) : (setHclen v s).litCode = s.litCode := rfl
@[simp] theorem setHclen_distCode (v : Nat) (s : State) : (setHclen v s).distCode = s.distCode := rfl
@[simp] theorem setHclen_clCode (v : Nat) (s : State) : (setHclen v s).clCode = s.clCode := rfl
@[simp] theorem setHclen_seq (v : Nat) (s : State) : (setHclen v s).seq = s.seq := rfl
@[simp] theorem setHclen_rle (v : Nat) (s : State) : (setHclen v s).rle = s.rle := rfl
@[simp] theorem setHclen_n (v : Nat) (s : State) : (setHclen v s).n = s.n := rfl
@[simp] theorem setHclen_i (v : Nat) (s : State) : (setHclen v s).i = s.i := rfl
@[simp] theorem setHclen_h (v : Nat) (s : State) : (setHclen v s).h = s.h := rfl
@[simp] theorem setHclen_cand (v : Nat) (s : State) : (setHclen v s).cand = s.cand := rfl
@[simp] theorem setHclen_visited (v : Nat) (s : State) : (setHclen v s).visited = s.visited := rfl
@[simp] theorem setHclen_cap (v : Nat) (s : State) : (setHclen v s).cap = s.cap := rfl
@[simp] theorem setHclen_bestLen (v : Nat) (s : State) : (setHclen v s).bestLen = s.bestLen := rfl
@[simp] theorem setHclen_bestDist (v : Nat) (s : State) : (setHclen v s).bestDist = s.bestDist := rfl
@[simp] theorem setHclen_hlit (v : Nat) (s : State) : (setHclen v s).hlit = s.hlit := rfl
@[simp] theorem setHclen_hdist (v : Nat) (s : State) : (setHclen v s).hdist = s.hdist := rfl
@[simp] theorem setHclen_hclen (v : Nat) (s : State) : (setHclen v s).hclen = v := rfl
@[simp] theorem setHclen_litFreq (v : Nat) (s : State) : (setHclen v s).litFreq = s.litFreq := rfl
@[simp] theorem setHclen_distFreq (v : Nat) (s : State) : (setHclen v s).distFreq = s.distFreq := rfl
@[simp] theorem setHclen_clFreq (v : Nat) (s : State) : (setHclen v s).clFreq = s.clFreq := rfl
@[simp] theorem setHclen_prev (v : Nat) (s : State) : (setHclen v s).prev = s.prev := rfl
@[simp] theorem setHclen_wBuf (v : Nat) (s : State) : (setHclen v s).wBuf = s.wBuf := rfl
@[simp] theorem setHclen_wCnt (v : Nat) (s : State) : (setHclen v s).wCnt = s.wCnt := rfl
@[simp] theorem setHclen_sink (v : Nat) (s : State) : (setHclen v s).sink = s.sink := rfl
@[simp] theorem setHclen_bitPos (v : Nat) (s : State) : (setHclen v s).bitPos = s.bitPos := rfl
@[simp] theorem setHclen_source (v : Nat) (s : State) : (setHclen v s).source = s.source := rfl
@[simp] theorem setHclen_data (v : Nat) (s : State) : (setHclen v s).data = s.data := rfl
@[simp] theorem setHclen_hashHead (v : Nat) (s : State) : (setHclen v s).hashHead = s.hashHead := rfl
@[simp] theorem setHclen_dstate (v : Nat) (s : State) : (setHclen v s).dstate = s.dstate := rfl
@[simp] theorem setHclen_bfinal (v : Nat) (s : State) : (setHclen v s).bfinal = s.bfinal := rfl
@[simp] theorem setHclen_btype (v : Nat) (s : State) : (setHclen v s).btype = s.btype := rfl
@[simp] theorem setHclen_err (v : Nat) (s : State) : (setHclen v s).err = s.err := rfl
@[simp] theorem setHclen_errBitPos (v : Nat) (s : State) : (setHclen v s).errBitPos = s.errBitPos := rfl
@[simp] theorem setHclen_errValue (v : Nat) (s : State) : (setHclen v s).errValue = s.errValue := rfl
@[simp] theorem setHclen_out (v : Nat) (s : State) : (setHclen v s).out = s.out := rfl
@[simp] theorem setHclen_decoded (v : Nat) (s : State) : (setHclen v s).decoded = s.decoded := rfl
@[simp] theorem setHclen_result (v : Nat) (s : State) : (setHclen v s).result = s.result := rfl
@[simp] theorem setHclen_place (v : Nat) (s : State) : (setHclen v s).place = s.place := rfl
@[simp] theorem setHclen_filled (v : Nat) (s : State) : (setHclen v s).filled = s.filled := rfl
@[simp] theorem setHclen_fresh (v : Nat) (s : State) : (setHclen v s).fresh = s.fresh := rfl
@[simp] theorem setHclen_port (v : Nat) (s : State) : (setHclen v s).port = s.port := rfl
@[simp] theorem setHclen_cfg (v : Nat) (s : State) : (setHclen v s).cfg = s.cfg := rfl

/-! ### lzReset -/

@[simp] theorem lzReset_acc (s : State) : (lzReset s).acc = s.acc := rfl
@[simp] theorem lzReset_accLen (s : State) : (lzReset s).accLen = s.accLen := rfl
@[simp] theorem lzReset_recs (s : State) : (lzReset s).recs = s.recs := rfl
@[simp] theorem lzReset_litLen (s : State) : (lzReset s).litLen = s.litLen := rfl
@[simp] theorem lzReset_distLen (s : State) : (lzReset s).distLen = s.distLen := rfl
@[simp] theorem lzReset_clLen (s : State) : (lzReset s).clLen = s.clLen := rfl
@[simp] theorem lzReset_litCode (s : State) : (lzReset s).litCode = s.litCode := rfl
@[simp] theorem lzReset_distCode (s : State) : (lzReset s).distCode = s.distCode := rfl
@[simp] theorem lzReset_clCode (s : State) : (lzReset s).clCode = s.clCode := rfl
@[simp] theorem lzReset_seq (s : State) : (lzReset s).seq = s.seq := rfl
@[simp] theorem lzReset_rle (s : State) : (lzReset s).rle = s.rle := rfl
@[simp] theorem lzReset_n (s : State) : (lzReset s).n = s.n := rfl
@[simp] theorem lzReset_i (s : State) : (lzReset s).i = s.i := rfl
@[simp] theorem lzReset_h (s : State) : (lzReset s).h = s.h := rfl
@[simp] theorem lzReset_cand (s : State) : (lzReset s).cand = s.cand := rfl
@[simp] theorem lzReset_visited (s : State) : (lzReset s).visited = s.visited := rfl
@[simp] theorem lzReset_cap (s : State) : (lzReset s).cap = s.cap := rfl
@[simp] theorem lzReset_bestLen (s : State) : (lzReset s).bestLen = s.bestLen := rfl
@[simp] theorem lzReset_bestDist (s : State) : (lzReset s).bestDist = s.bestDist := rfl
@[simp] theorem lzReset_hlit (s : State) : (lzReset s).hlit = s.hlit := rfl
@[simp] theorem lzReset_hdist (s : State) : (lzReset s).hdist = s.hdist := rfl
@[simp] theorem lzReset_hclen (s : State) : (lzReset s).hclen = s.hclen := rfl
@[simp] theorem lzReset_litFreq (s : State) : (lzReset s).litFreq = s.litFreq := rfl
@[simp] theorem lzReset_distFreq (s : State) : (lzReset s).distFreq = s.distFreq := rfl
@[simp] theorem lzReset_clFreq (s : State) : (lzReset s).clFreq = s.clFreq := rfl
@[simp] theorem lzReset_prev (s : State) : (lzReset s).prev = s.prev := rfl
@[simp] theorem lzReset_wBuf (s : State) : (lzReset s).wBuf = s.wBuf := rfl
@[simp] theorem lzReset_wCnt (s : State) : (lzReset s).wCnt = s.wCnt := rfl
@[simp] theorem lzReset_sink (s : State) : (lzReset s).sink = s.sink := rfl
@[simp] theorem lzReset_bitPos (s : State) : (lzReset s).bitPos = s.bitPos := rfl
@[simp] theorem lzReset_source (s : State) : (lzReset s).source = s.source := rfl
@[simp] theorem lzReset_data (s : State) : (lzReset s).data = s.data := rfl
@[simp] theorem lzReset_hashHead (s : State) : (lzReset s).hashHead = [] := rfl
@[simp] theorem lzReset_dstate (s : State) : (lzReset s).dstate = s.dstate := rfl
@[simp] theorem lzReset_bfinal (s : State) : (lzReset s).bfinal = s.bfinal := rfl
@[simp] theorem lzReset_btype (s : State) : (lzReset s).btype = s.btype := rfl
@[simp] theorem lzReset_err (s : State) : (lzReset s).err = s.err := rfl
@[simp] theorem lzReset_errBitPos (s : State) : (lzReset s).errBitPos = s.errBitPos := rfl
@[simp] theorem lzReset_errValue (s : State) : (lzReset s).errValue = s.errValue := rfl
@[simp] theorem lzReset_out (s : State) : (lzReset s).out = s.out := rfl
@[simp] theorem lzReset_decoded (s : State) : (lzReset s).decoded = s.decoded := rfl
@[simp] theorem lzReset_result (s : State) : (lzReset s).result = s.result := rfl
@[simp] theorem lzReset_place (s : State) : (lzReset s).place = s.place := rfl
@[simp] theorem lzReset_filled (s : State) : (lzReset s).filled = s.filled := rfl
@[simp] theorem lzReset_fresh (s : State) : (lzReset s).fresh = s.fresh := rfl
@[simp] theorem lzReset_port (s : State) : (lzReset s).port = s.port := rfl
@[simp] theorem lzReset_cfg (s : State) : (lzReset s).cfg = s.cfg := rfl

/-! ### pushLiteral -/

@[simp] theorem pushLiteral_acc (b : Byte) (s : State) : (pushLiteral b s).acc = s.acc := rfl
@[simp] theorem pushLiteral_accLen (b : Byte) (s : State) : (pushLiteral b s).accLen = s.accLen := rfl
@[simp] theorem pushLiteral_recs (b : Byte) (s : State) : (pushLiteral b s).recs = s.recs ++ [MatchRecord.literal b] := rfl
@[simp] theorem pushLiteral_litLen (b : Byte) (s : State) : (pushLiteral b s).litLen = s.litLen := rfl
@[simp] theorem pushLiteral_distLen (b : Byte) (s : State) : (pushLiteral b s).distLen = s.distLen := rfl
@[simp] theorem pushLiteral_clLen (b : Byte) (s : State) : (pushLiteral b s).clLen = s.clLen := rfl
@[simp] theorem pushLiteral_litCode (b : Byte) (s : State) : (pushLiteral b s).litCode = s.litCode := rfl
@[simp] theorem pushLiteral_distCode (b : Byte) (s : State) : (pushLiteral b s).distCode = s.distCode := rfl
@[simp] theorem pushLiteral_clCode (b : Byte) (s : State) : (pushLiteral b s).clCode = s.clCode := rfl
@[simp] theorem pushLiteral_seq (b : Byte) (s : State) : (pushLiteral b s).seq = s.seq := rfl
@[simp] theorem pushLiteral_rle (b : Byte) (s : State) : (pushLiteral b s).rle = s.rle := rfl
@[simp] theorem pushLiteral_n (b : Byte) (s : State) : (pushLiteral b s).n = s.n := rfl
@[simp] theorem pushLiteral_i (b : Byte) (s : State) : (pushLiteral b s).i = s.i := rfl
@[simp] theorem pushLiteral_h (b : Byte) (s : State) : (pushLiteral b s).h = s.h := rfl
@[simp] theorem pushLiteral_cand (b : Byte) (s : State) : (pushLiteral b s).cand = s.cand := rfl
@[simp] theorem pushLiteral_visited (b : Byte) (s : State) : (pushLiteral b s).visited = s.visited := rfl
@[simp] theorem pushLiteral_cap (b : Byte) (s : State) : (pushLiteral b s).cap = s.cap := rfl
@[simp] theorem pushLiteral_bestLen (b : Byte) (s : State) : (pushLiteral b s).bestLen = s.bestLen := rfl
@[simp] theorem pushLiteral_bestDist (b : Byte) (s : State) : (pushLiteral b s).bestDist = s.bestDist := rfl
@[simp] theorem pushLiteral_hlit (b : Byte) (s : State) : (pushLiteral b s).hlit = s.hlit := rfl
@[simp] theorem pushLiteral_hdist (b : Byte) (s : State) : (pushLiteral b s).hdist = s.hdist := rfl
@[simp] theorem pushLiteral_hclen (b : Byte) (s : State) : (pushLiteral b s).hclen = s.hclen := rfl
@[simp] theorem pushLiteral_litFreq (b : Byte) (s : State) : (pushLiteral b s).litFreq = s.litFreq := rfl
@[simp] theorem pushLiteral_distFreq (b : Byte) (s : State) : (pushLiteral b s).distFreq = s.distFreq := rfl
@[simp] theorem pushLiteral_clFreq (b : Byte) (s : State) : (pushLiteral b s).clFreq = s.clFreq := rfl
@[simp] theorem pushLiteral_prev (b : Byte) (s : State) : (pushLiteral b s).prev = s.prev := rfl
@[simp] theorem pushLiteral_wBuf (b : Byte) (s : State) : (pushLiteral b s).wBuf = s.wBuf := rfl
@[simp] theorem pushLiteral_wCnt (b : Byte) (s : State) : (pushLiteral b s).wCnt = s.wCnt := rfl
@[simp] theorem pushLiteral_sink (b : Byte) (s : State) : (pushLiteral b s).sink = s.sink := rfl
@[simp] theorem pushLiteral_bitPos (b : Byte) (s : State) : (pushLiteral b s).bitPos = s.bitPos := rfl
@[simp] theorem pushLiteral_source (b : Byte) (s : State) : (pushLiteral b s).source = s.source := rfl
@[simp] theorem pushLiteral_data (b : Byte) (s : State) : (pushLiteral b s).data = s.data := rfl
@[simp] theorem pushLiteral_hashHead (b : Byte) (s : State) : (pushLiteral b s).hashHead = s.hashHead := rfl
@[simp] theorem pushLiteral_dstate (b : Byte) (s : State) : (pushLiteral b s).dstate = s.dstate := rfl
@[simp] theorem pushLiteral_bfinal (b : Byte) (s : State) : (pushLiteral b s).bfinal = s.bfinal := rfl
@[simp] theorem pushLiteral_btype (b : Byte) (s : State) : (pushLiteral b s).btype = s.btype := rfl
@[simp] theorem pushLiteral_err (b : Byte) (s : State) : (pushLiteral b s).err = s.err := rfl
@[simp] theorem pushLiteral_errBitPos (b : Byte) (s : State) : (pushLiteral b s).errBitPos = s.errBitPos := rfl
@[simp] theorem pushLiteral_errValue (b : Byte) (s : State) : (pushLiteral b s).errValue = s.errValue := rfl
@[simp] theorem pushLiteral_out (b : Byte) (s : State) : (pushLiteral b s).out = s.out ++ [b] := rfl
@[simp] theorem pushLiteral_decoded (b : Byte) (s : State) : (pushLiteral b s).decoded = s.decoded := rfl
@[simp] theorem pushLiteral_result (b : Byte) (s : State) : (pushLiteral b s).result = s.result := rfl
@[simp] theorem pushLiteral_place (b : Byte) (s : State) : (pushLiteral b s).place = s.place := rfl
@[simp] theorem pushLiteral_filled (b : Byte) (s : State) : (pushLiteral b s).filled = s.filled := rfl
@[simp] theorem pushLiteral_fresh (b : Byte) (s : State) : (pushLiteral b s).fresh = s.fresh := rfl
@[simp] theorem pushLiteral_port (b : Byte) (s : State) : (pushLiteral b s).port = s.port := rfl
@[simp] theorem pushLiteral_cfg (b : Byte) (s : State) : (pushLiteral b s).cfg = s.cfg := rfl

/-! ### pushMatch -/

@[simp] theorem pushMatch_acc (dist len : Nat) (lit : Option Byte) (s : State) : (pushMatch dist len lit s).acc = s.acc := rfl
@[simp] theorem pushMatch_accLen (dist len : Nat) (lit : Option Byte) (s : State) : (pushMatch dist len lit s).accLen = s.accLen := rfl
@[simp] theorem pushMatch_recs (dist len : Nat) (lit : Option Byte) (s : State) : (pushMatch dist len lit s).recs = s.recs ++ [MatchRecord.ofMatch dist len lit] := rfl
@[simp] theorem pushMatch_litLen (dist len : Nat) (lit : Option Byte) (s : State) : (pushMatch dist len lit s).litLen = s.litLen := rfl
@[simp] theorem pushMatch_distLen (dist len : Nat) (lit : Option Byte) (s : State) : (pushMatch dist len lit s).distLen = s.distLen := rfl
@[simp] theorem pushMatch_clLen (dist len : Nat) (lit : Option Byte) (s : State) : (pushMatch dist len lit s).clLen = s.clLen := rfl
@[simp] theorem pushMatch_litCode (dist len : Nat) (lit : Option Byte) (s : State) : (pushMatch dist len lit s).litCode = s.litCode := rfl
@[simp] theorem pushMatch_distCode (dist len : Nat) (lit : Option Byte) (s : State) : (pushMatch dist len lit s).distCode = s.distCode := rfl
@[simp] theorem pushMatch_clCode (dist len : Nat) (lit : Option Byte) (s : State) : (pushMatch dist len lit s).clCode = s.clCode := rfl
@[simp] theorem pushMatch_seq (dist len : Nat) (lit : Option Byte) (s : State) : (pushMatch dist len lit s).seq = s.seq := rfl
@[simp] theorem pushMatch_rle (dist len : Nat) (lit : Option Byte) (s : State) : (pushMatch dist len lit s).rle = s.rle := rfl
@[simp] theorem pushMatch_n (dist len : Nat) (lit : Option Byte) (s : State) : (pushMatch dist len lit s).n = s.n := rfl
@[simp] theorem pushMatch_i (dist len : Nat) (lit : Option Byte) (s : State) : (pushMatch dist len lit s).i = s.i := rfl
@[simp] theorem pushMatch_h (dist len : Nat) (lit : Option Byte) (s : State) : (pushMatch dist len lit s).h = s.h := rfl
@[simp] theorem pushMatch_cand (dist len : Nat) (lit : Option Byte) (s : State) : (pushMatch dist len lit s).cand = s.cand := rfl
@[simp] theorem pushMatch_visited (dist len : Nat) (lit : Option Byte) (s : State) : (pushMatch dist len lit s).visited = s.visited := rfl
@[simp] theorem pushMatch_cap (dist len : Nat) (lit : Option Byte) (s : State) : (pushMatch dist len lit s).cap = s.cap := rfl
@[simp] theorem pushMatch_bestLen (dist len : Nat) (lit : Option Byte) (s : State) : (pushMatch dist len lit s).bestLen = s.bestLen := rfl
@[simp] theorem pushMatch_bestDist (dist len : Nat) (lit : Option Byte) (s : State) : (pushMatch dist len lit s).bestDist = s.bestDist := rfl
@[simp] theorem pushMatch_hlit (dist len : Nat) (lit : Option Byte) (s : State) : (pushMatch dist len lit s).hlit = s.hlit := rfl
@[simp] theorem pushMatch_hdist (dist len : Nat) (lit : Option Byte) (s : State) : (pushMatch dist len lit s).hdist = s.hdist := rfl
@[simp] theorem pushMatch_hclen (dist len : Nat) (lit : Option Byte) (s : State) : (pushMatch dist len lit s).hclen = s.hclen := rfl
@[simp] theorem pushMatch_litFreq (dist len : Nat) (lit : Option Byte) (s : State) : (pushMatch dist len lit s).litFreq = s.litFreq := rfl
@[simp] theorem pushMatch_distFreq (dist len : Nat) (lit : Option Byte) (s : State) : (pushMatch dist len lit s).distFreq = s.distFreq := rfl
@[simp] theorem pushMatch_clFreq (dist len : Nat) (lit : Option Byte) (s : State) : (pushMatch dist len lit s).clFreq = s.clFreq := rfl
@[simp] theorem pushMatch_prev (dist len : Nat) (lit : Option Byte) (s : State) : (pushMatch dist len lit s).prev = s.prev := rfl
@[simp] theorem pushMatch_wBuf (dist len : Nat) (lit : Option Byte) (s : State) : (pushMatch dist len lit s).wBuf = s.wBuf := rfl
@[simp] theorem pushMatch_wCnt (dist len : Nat) (lit : Option Byte) (s : State) : (pushMatch dist len lit s).wCnt = s.wCnt := rfl
@[simp] theorem pushMatch_sink (dist len : Nat) (lit : Option Byte) (s : State) : (pushMatch dist len lit s).sink = s.sink := rfl
@[simp] theorem pushMatch_bitPos (dist len : Nat) (lit : Option Byte) (s : State) : (pushMatch dist len lit s).bitPos = s.bitPos := rfl
@[simp] theorem pushMatch_source (dist len : Nat) (lit : Option Byte) (s : State) : (pushMatch dist len lit s).source = s.source := rfl
@[simp] theorem pushMatch_data (dist len : Nat) (lit : Option Byte) (s : State) : (pushMatch dist len lit s).data = s.data := rfl
@[simp] theorem pushMatch_hashHead (dist len : Nat) (lit : Option Byte) (s : State) : (pushMatch dist len lit s).hashHead = s.hashHead := rfl
@[simp] theorem pushMatch_dstate (dist len : Nat) (lit : Option Byte) (s : State) : (pushMatch dist len lit s).dstate = s.dstate := rfl
@[simp] theorem pushMatch_bfinal (dist len : Nat) (lit : Option Byte) (s : State) : (pushMatch dist len lit s).bfinal = s.bfinal := rfl
@[simp] theorem pushMatch_btype (dist len : Nat) (lit : Option Byte) (s : State) : (pushMatch dist len lit s).btype = s.btype := rfl
@[simp] theorem pushMatch_err (dist len : Nat) (lit : Option Byte) (s : State) : (pushMatch dist len lit s).err = s.err := rfl
@[simp] theorem pushMatch_errBitPos (dist len : Nat) (lit : Option Byte) (s : State) : (pushMatch dist len lit s).errBitPos = s.errBitPos := rfl
@[simp] theorem pushMatch_errValue (dist len : Nat) (lit : Option Byte) (s : State) : (pushMatch dist len lit s).errValue = s.errValue := rfl
@[simp] theorem pushMatch_out (dist len : Nat) (lit : Option Byte) (s : State) : (pushMatch dist len lit s).out = s.out ++ lit.toList := rfl
@[simp] theorem pushMatch_decoded (dist len : Nat) (lit : Option Byte) (s : State) : (pushMatch dist len lit s).decoded = s.decoded := rfl
@[simp] theorem pushMatch_result (dist len : Nat) (lit : Option Byte) (s : State) : (pushMatch dist len lit s).result = s.result := rfl
@[simp] theorem pushMatch_place (dist len : Nat) (lit : Option Byte) (s : State) : (pushMatch dist len lit s).place = s.place := rfl
@[simp] theorem pushMatch_filled (dist len : Nat) (lit : Option Byte) (s : State) : (pushMatch dist len lit s).filled = s.filled := rfl
@[simp] theorem pushMatch_fresh (dist len : Nat) (lit : Option Byte) (s : State) : (pushMatch dist len lit s).fresh = s.fresh := rfl
@[simp] theorem pushMatch_port (dist len : Nat) (lit : Option Byte) (s : State) : (pushMatch dist len lit s).port = s.port := rfl
@[simp] theorem pushMatch_cfg (dist len : Nat) (lit : Option Byte) (s : State) : (pushMatch dist len lit s).cfg = s.cfg := rfl

/-! ### copyMatch -/

@[simp] theorem copyMatch_acc (dist len : Nat) (s : State) : (copyMatch dist len s).acc = s.acc := rfl
@[simp] theorem copyMatch_accLen (dist len : Nat) (s : State) : (copyMatch dist len s).accLen = s.accLen := rfl
@[simp] theorem copyMatch_recs (dist len : Nat) (s : State) : (copyMatch dist len s).recs = s.recs := rfl
@[simp] theorem copyMatch_litLen (dist len : Nat) (s : State) : (copyMatch dist len s).litLen = s.litLen := rfl
@[simp] theorem copyMatch_distLen (dist len : Nat) (s : State) : (copyMatch dist len s).distLen = s.distLen := rfl
@[simp] theorem copyMatch_clLen (dist len : Nat) (s : State) : (copyMatch dist len s).clLen = s.clLen := rfl
@[simp] theorem copyMatch_litCode (dist len : Nat) (s : State) : (copyMatch dist len s).litCode = s.litCode := rfl
@[simp] theorem copyMatch_distCode (dist len : Nat) (s : State) : (copyMatch dist len s).distCode = s.distCode := rfl
@[simp] theorem copyMatch_clCode (dist len : Nat) (s : State) : (copyMatch dist len s).clCode = s.clCode := rfl
@[simp] theorem copyMatch_seq (dist len : Nat) (s : State) : (copyMatch dist len s).seq = s.seq := rfl
@[simp] theorem copyMatch_rle (dist len : Nat) (s : State) : (copyMatch dist len s).rle = s.rle := rfl
@[simp] theorem copyMatch_n (dist len : Nat) (s : State) : (copyMatch dist len s).n = s.n := rfl
@[simp] theorem copyMatch_i (dist len : Nat) (s : State) : (copyMatch dist len s).i = s.i := rfl
@[simp] theorem copyMatch_h (dist len : Nat) (s : State) : (copyMatch dist len s).h = s.h := rfl
@[simp] theorem copyMatch_cand (dist len : Nat) (s : State) : (copyMatch dist len s).cand = s.cand := rfl
@[simp] theorem copyMatch_visited (dist len : Nat) (s : State) : (copyMatch dist len s).visited = s.visited := rfl
@[simp] theorem copyMatch_cap (dist len : Nat) (s : State) : (copyMatch dist len s).cap = s.cap := rfl
@[simp] theorem copyMatch_bestLen (dist len : Nat) (s : State) : (copyMatch dist len s).bestLen = s.bestLen := rfl
@[simp] theorem copyMatch_bestDist (dist len : Nat) (s : State) : (copyMatch dist len s).bestDist = s.bestDist := rfl
@[simp] theorem copyMatch_hlit (dist len : Nat) (s : State) : (copyMatch dist len s).hlit = s.hlit := rfl
@[simp] theorem copyMatch_hdist (dist len : Nat) (s : State) : (copyMatch dist len s).hdist = s.hdist := rfl
@[simp] theorem copyMatch_hclen (dist len : Nat) (s : State) : (copyMatch dist len s).hclen = s.hclen := rfl
@[simp] theorem copyMatch_litFreq (dist len : Nat) (s : State) : (copyMatch dist len s).litFreq = s.litFreq := rfl
@[simp] theorem copyMatch_distFreq (dist len : Nat) (s : State) : (copyMatch dist len s).distFreq = s.distFreq := rfl
@[simp] theorem copyMatch_clFreq (dist len : Nat) (s : State) : (copyMatch dist len s).clFreq = s.clFreq := rfl
@[simp] theorem copyMatch_prev (dist len : Nat) (s : State) : (copyMatch dist len s).prev = s.prev := rfl
@[simp] theorem copyMatch_wBuf (dist len : Nat) (s : State) : (copyMatch dist len s).wBuf = s.wBuf := rfl
@[simp] theorem copyMatch_wCnt (dist len : Nat) (s : State) : (copyMatch dist len s).wCnt = s.wCnt := rfl
@[simp] theorem copyMatch_sink (dist len : Nat) (s : State) : (copyMatch dist len s).sink = s.sink := rfl
@[simp] theorem copyMatch_bitPos (dist len : Nat) (s : State) : (copyMatch dist len s).bitPos = s.bitPos := rfl
@[simp] theorem copyMatch_source (dist len : Nat) (s : State) : (copyMatch dist len s).source = s.source := rfl
@[simp] theorem copyMatch_data (dist len : Nat) (s : State) : (copyMatch dist len s).data = s.data := rfl
@[simp] theorem copyMatch_hashHead (dist len : Nat) (s : State) : (copyMatch dist len s).hashHead = s.hashHead := rfl
@[simp] theorem copyMatch_dstate (dist len : Nat) (s : State) : (copyMatch dist len s).dstate = s.dstate := rfl
@[simp] theorem copyMatch_bfinal (dist len : Nat) (s : State) : (copyMatch dist len s).bfinal = s.bfinal := rfl
@[simp] theorem copyMatch_btype (dist len : Nat) (s : State) : (copyMatch dist len s).btype = s.btype := rfl
@[simp] theorem copyMatch_err (dist len : Nat) (s : State) : (copyMatch dist len s).err = s.err := rfl
@[simp] theorem copyMatch_errBitPos (dist len : Nat) (s : State) : (copyMatch dist len s).errBitPos = s.errBitPos := rfl
@[simp] theorem copyMatch_errValue (dist len : Nat) (s : State) : (copyMatch dist len s).errValue = s.errValue := rfl
@[simp] theorem copyMatch_out (dist len : Nat) (s : State) : (copyMatch dist len s).out = copyFrom (s.out.length - dist) len s.out := rfl
@[simp] theorem copyMatch_decoded (dist len : Nat) (s : State) : (copyMatch dist len s).decoded = s.decoded := rfl
@[simp] theorem copyMatch_result (dist len : Nat) (s : State) : (copyMatch dist len s).result = s.result := rfl
@[simp] theorem copyMatch_place (dist len : Nat) (s : State) : (copyMatch dist len s).place = s.place := rfl
@[simp] theorem copyMatch_filled (dist len : Nat) (s : State) : (copyMatch dist len s).filled = s.filled := rfl
@[simp] theorem copyMatch_fresh (dist len : Nat) (s : State) : (copyMatch dist len s).fresh = s.fresh := rfl
@[simp] theorem copyMatch_port (dist len : Nat) (s : State) : (copyMatch dist len s).port = s.port := rfl
@[simp] theorem copyMatch_cfg (dist len : Nat) (s : State) : (copyMatch dist len s).cfg = s.cfg := rfl

/-! ### endBlock -/

@[simp] theorem endBlock_acc (s : State) : (endBlock s).acc = s.acc := rfl
@[simp] theorem endBlock_accLen (s : State) : (endBlock s).accLen = s.accLen := rfl
@[simp] theorem endBlock_recs (s : State) : (endBlock s).recs = s.recs := rfl
@[simp] theorem endBlock_litLen (s : State) : (endBlock s).litLen = s.litLen := rfl
@[simp] theorem endBlock_distLen (s : State) : (endBlock s).distLen = s.distLen := rfl
@[simp] theorem endBlock_clLen (s : State) : (endBlock s).clLen = s.clLen := rfl
@[simp] theorem endBlock_litCode (s : State) : (endBlock s).litCode = s.litCode := rfl
@[simp] theorem endBlock_distCode (s : State) : (endBlock s).distCode = s.distCode := rfl
@[simp] theorem endBlock_clCode (s : State) : (endBlock s).clCode = s.clCode := rfl
@[simp] theorem endBlock_seq (s : State) : (endBlock s).seq = s.seq := rfl
@[simp] theorem endBlock_rle (s : State) : (endBlock s).rle = s.rle := rfl
@[simp] theorem endBlock_n (s : State) : (endBlock s).n = s.n := rfl
@[simp] theorem endBlock_i (s : State) : (endBlock s).i = s.i := rfl
@[simp] theorem endBlock_h (s : State) : (endBlock s).h = s.h := rfl
@[simp] theorem endBlock_cand (s : State) : (endBlock s).cand = s.cand := rfl
@[simp] theorem endBlock_visited (s : State) : (endBlock s).visited = s.visited := rfl
@[simp] theorem endBlock_cap (s : State) : (endBlock s).cap = s.cap := rfl
@[simp] theorem endBlock_bestLen (s : State) : (endBlock s).bestLen = s.bestLen := rfl
@[simp] theorem endBlock_bestDist (s : State) : (endBlock s).bestDist = s.bestDist := rfl
@[simp] theorem endBlock_hlit (s : State) : (endBlock s).hlit = s.hlit := rfl
@[simp] theorem endBlock_hdist (s : State) : (endBlock s).hdist = s.hdist := rfl
@[simp] theorem endBlock_hclen (s : State) : (endBlock s).hclen = s.hclen := rfl
@[simp] theorem endBlock_litFreq (s : State) : (endBlock s).litFreq = s.litFreq := rfl
@[simp] theorem endBlock_distFreq (s : State) : (endBlock s).distFreq = s.distFreq := rfl
@[simp] theorem endBlock_clFreq (s : State) : (endBlock s).clFreq = s.clFreq := rfl
@[simp] theorem endBlock_prev (s : State) : (endBlock s).prev = s.prev := rfl
@[simp] theorem endBlock_wBuf (s : State) : (endBlock s).wBuf = s.wBuf := rfl
@[simp] theorem endBlock_wCnt (s : State) : (endBlock s).wCnt = s.wCnt := rfl
@[simp] theorem endBlock_sink (s : State) : (endBlock s).sink = s.sink := rfl
@[simp] theorem endBlock_bitPos (s : State) : (endBlock s).bitPos = s.bitPos := rfl
@[simp] theorem endBlock_source (s : State) : (endBlock s).source = s.source := rfl
@[simp] theorem endBlock_data (s : State) : (endBlock s).data = s.data := rfl
@[simp] theorem endBlock_hashHead (s : State) : (endBlock s).hashHead = s.hashHead := rfl
@[simp] theorem endBlock_dstate (s : State) : (endBlock s).dstate = (if s.bfinal then .done else .expectHeader) := rfl
@[simp] theorem endBlock_bfinal (s : State) : (endBlock s).bfinal = s.bfinal := rfl
@[simp] theorem endBlock_btype (s : State) : (endBlock s).btype = s.btype := rfl
@[simp] theorem endBlock_err (s : State) : (endBlock s).err = s.err := rfl
@[simp] theorem endBlock_errBitPos (s : State) : (endBlock s).errBitPos = s.errBitPos := rfl
@[simp] theorem endBlock_errValue (s : State) : (endBlock s).errValue = s.errValue := rfl
@[simp] theorem endBlock_out (s : State) : (endBlock s).out = s.out := rfl
@[simp] theorem endBlock_decoded (s : State) : (endBlock s).decoded = s.decoded ++ s.out := rfl
@[simp] theorem endBlock_result (s : State) : (endBlock s).result = s.result := rfl
@[simp] theorem endBlock_place (s : State) : (endBlock s).place = .bfinal := rfl
@[simp] theorem endBlock_filled (s : State) : (endBlock s).filled = s.filled := rfl
@[simp] theorem endBlock_fresh (s : State) : (endBlock s).fresh = s.fresh := rfl
@[simp] theorem endBlock_port (s : State) : (endBlock s).port = s.port := rfl
@[simp] theorem endBlock_cfg (s : State) : (endBlock s).cfg = s.cfg := rfl

/-! ### takeFault -/

@[simp] theorem takeFault_acc (c : Cause) (v : Nat) (s : State) : (takeFault c v s).acc = (drawBuffers s.fresh).acc := rfl
@[simp] theorem takeFault_accLen (c : Cause) (v : Nat) (s : State) : (takeFault c v s).accLen = (drawBuffers s.fresh).accLen := rfl
@[simp] theorem takeFault_recs (c : Cause) (v : Nat) (s : State) : (takeFault c v s).recs = (drawBuffers s.fresh).recs := rfl
@[simp] theorem takeFault_litLen (c : Cause) (v : Nat) (s : State) : (takeFault c v s).litLen = (drawBuffers s.fresh).litLen := rfl
@[simp] theorem takeFault_distLen (c : Cause) (v : Nat) (s : State) : (takeFault c v s).distLen = (drawBuffers s.fresh).distLen := rfl
@[simp] theorem takeFault_clLen (c : Cause) (v : Nat) (s : State) : (takeFault c v s).clLen = (drawBuffers s.fresh).clLen := rfl
@[simp] theorem takeFault_litCode (c : Cause) (v : Nat) (s : State) : (takeFault c v s).litCode = (drawBuffers s.fresh).litCode := rfl
@[simp] theorem takeFault_distCode (c : Cause) (v : Nat) (s : State) : (takeFault c v s).distCode = (drawBuffers s.fresh).distCode := rfl
@[simp] theorem takeFault_clCode (c : Cause) (v : Nat) (s : State) : (takeFault c v s).clCode = (drawBuffers s.fresh).clCode := rfl
@[simp] theorem takeFault_seq (c : Cause) (v : Nat) (s : State) : (takeFault c v s).seq = (drawBuffers s.fresh).seq := rfl
@[simp] theorem takeFault_rle (c : Cause) (v : Nat) (s : State) : (takeFault c v s).rle = (drawBuffers s.fresh).rle := rfl
@[simp] theorem takeFault_n (c : Cause) (v : Nat) (s : State) : (takeFault c v s).n = s.n := rfl
@[simp] theorem takeFault_i (c : Cause) (v : Nat) (s : State) : (takeFault c v s).i = s.i := rfl
@[simp] theorem takeFault_h (c : Cause) (v : Nat) (s : State) : (takeFault c v s).h = s.h := rfl
@[simp] theorem takeFault_cand (c : Cause) (v : Nat) (s : State) : (takeFault c v s).cand = s.cand := rfl
@[simp] theorem takeFault_visited (c : Cause) (v : Nat) (s : State) : (takeFault c v s).visited = s.visited := rfl
@[simp] theorem takeFault_cap (c : Cause) (v : Nat) (s : State) : (takeFault c v s).cap = s.cap := rfl
@[simp] theorem takeFault_bestLen (c : Cause) (v : Nat) (s : State) : (takeFault c v s).bestLen = s.bestLen := rfl
@[simp] theorem takeFault_bestDist (c : Cause) (v : Nat) (s : State) : (takeFault c v s).bestDist = s.bestDist := rfl
@[simp] theorem takeFault_hlit (c : Cause) (v : Nat) (s : State) : (takeFault c v s).hlit = s.hlit := rfl
@[simp] theorem takeFault_hdist (c : Cause) (v : Nat) (s : State) : (takeFault c v s).hdist = s.hdist := rfl
@[simp] theorem takeFault_hclen (c : Cause) (v : Nat) (s : State) : (takeFault c v s).hclen = s.hclen := rfl
@[simp] theorem takeFault_litFreq (c : Cause) (v : Nat) (s : State) : (takeFault c v s).litFreq = s.litFreq := rfl
@[simp] theorem takeFault_distFreq (c : Cause) (v : Nat) (s : State) : (takeFault c v s).distFreq = s.distFreq := rfl
@[simp] theorem takeFault_clFreq (c : Cause) (v : Nat) (s : State) : (takeFault c v s).clFreq = s.clFreq := rfl
@[simp] theorem takeFault_prev (c : Cause) (v : Nat) (s : State) : (takeFault c v s).prev = s.prev := rfl
@[simp] theorem takeFault_wBuf (c : Cause) (v : Nat) (s : State) : (takeFault c v s).wBuf = s.wBuf := rfl
@[simp] theorem takeFault_wCnt (c : Cause) (v : Nat) (s : State) : (takeFault c v s).wCnt = s.wCnt := rfl
@[simp] theorem takeFault_sink (c : Cause) (v : Nat) (s : State) : (takeFault c v s).sink = s.sink := rfl
@[simp] theorem takeFault_bitPos (c : Cause) (v : Nat) (s : State) : (takeFault c v s).bitPos = s.bitPos := rfl
@[simp] theorem takeFault_source (c : Cause) (v : Nat) (s : State) : (takeFault c v s).source = s.source := rfl
@[simp] theorem takeFault_data (c : Cause) (v : Nat) (s : State) : (takeFault c v s).data = s.data := rfl
@[simp] theorem takeFault_hashHead (c : Cause) (v : Nat) (s : State) : (takeFault c v s).hashHead = s.hashHead := rfl
@[simp] theorem takeFault_dstate (c : Cause) (v : Nat) (s : State) : (takeFault c v s).dstate = s.dstate.afterFault := rfl
@[simp] theorem takeFault_bfinal (c : Cause) (v : Nat) (s : State) : (takeFault c v s).bfinal = s.bfinal := rfl
@[simp] theorem takeFault_btype (c : Cause) (v : Nat) (s : State) : (takeFault c v s).btype = s.btype := rfl
@[simp] theorem takeFault_err (c : Cause) (v : Nat) (s : State) : (takeFault c v s).err = some c := rfl
@[simp] theorem takeFault_errBitPos (c : Cause) (v : Nat) (s : State) : (takeFault c v s).errBitPos = s.bitPos := rfl
@[simp] theorem takeFault_errValue (c : Cause) (v : Nat) (s : State) : (takeFault c v s).errValue = v := rfl
@[simp] theorem takeFault_out (c : Cause) (v : Nat) (s : State) : (takeFault c v s).out = [] := rfl
@[simp] theorem takeFault_decoded (c : Cause) (v : Nat) (s : State) : (takeFault c v s).decoded = [] := rfl
@[simp] theorem takeFault_result (c : Cause) (v : Nat) (s : State) : (takeFault c v s).result = .failed c := rfl
@[simp] theorem takeFault_place (c : Cause) (v : Nat) (s : State) : (takeFault c v s).place = .bfinal := rfl
@[simp] theorem takeFault_fresh (c : Cause) (v : Nat) (s : State) : (takeFault c v s).fresh = s.fresh + 1 := rfl
@[simp] theorem takeFault_port (c : Cause) (v : Nat) (s : State) : (takeFault c v s).port = s.port := rfl
@[simp] theorem takeFault_cfg (c : Cause) (v : Nat) (s : State) : (takeFault c v s).cfg = s.cfg := rfl
@[simp] theorem takeFault_filled (c : Cause) (v : Nat) (s : State) : (takeFault c v s).filled =
    { s.filled with
      recs := false, litLen := false, distLen := false, clLen := false, litCode := false, distCode := false
      clCode := false, seq := false, rle := false } := rfl

/-! ### coreReset -/

@[simp] theorem coreReset_acc (s : State) : (coreReset s).acc = (drawBuffers s.fresh).acc := rfl
@[simp] theorem coreReset_accLen (s : State) : (coreReset s).accLen = (drawBuffers s.fresh).accLen := rfl
@[simp] theorem coreReset_recs (s : State) : (coreReset s).recs = (drawBuffers s.fresh).recs := rfl
@[simp] theorem coreReset_litLen (s : State) : (coreReset s).litLen = (drawBuffers s.fresh).litLen := rfl
@[simp] theorem coreReset_distLen (s : State) : (coreReset s).distLen = (drawBuffers s.fresh).distLen := rfl
@[simp] theorem coreReset_clLen (s : State) : (coreReset s).clLen = (drawBuffers s.fresh).clLen := rfl
@[simp] theorem coreReset_litCode (s : State) : (coreReset s).litCode = (drawBuffers s.fresh).litCode := rfl
@[simp] theorem coreReset_distCode (s : State) : (coreReset s).distCode = (drawBuffers s.fresh).distCode := rfl
@[simp] theorem coreReset_clCode (s : State) : (coreReset s).clCode = (drawBuffers s.fresh).clCode := rfl
@[simp] theorem coreReset_seq (s : State) : (coreReset s).seq = (drawBuffers s.fresh).seq := rfl
@[simp] theorem coreReset_rle (s : State) : (coreReset s).rle = (drawBuffers s.fresh).rle := rfl
@[simp] theorem coreReset_n (s : State) : (coreReset s).n = (drawWork s.cfg s.fresh).n := rfl
@[simp] theorem coreReset_i (s : State) : (coreReset s).i = (drawWork s.cfg s.fresh).i := rfl
@[simp] theorem coreReset_h (s : State) : (coreReset s).h = (drawWork s.cfg s.fresh).h := rfl
@[simp] theorem coreReset_cand (s : State) : (coreReset s).cand = (drawWork s.cfg s.fresh).cand := rfl
@[simp] theorem coreReset_visited (s : State) : (coreReset s).visited = (drawWork s.cfg s.fresh).visited := rfl
@[simp] theorem coreReset_cap (s : State) : (coreReset s).cap = (drawWork s.cfg s.fresh).cap := rfl
@[simp] theorem coreReset_bestLen (s : State) : (coreReset s).bestLen = (drawWork s.cfg s.fresh).bestLen := rfl
@[simp] theorem coreReset_bestDist (s : State) : (coreReset s).bestDist = (drawWork s.cfg s.fresh).bestDist := rfl
@[simp] theorem coreReset_hlit (s : State) : (coreReset s).hlit = (drawWork s.cfg s.fresh).hlit := rfl
@[simp] theorem coreReset_hdist (s : State) : (coreReset s).hdist = (drawWork s.cfg s.fresh).hdist := rfl
@[simp] theorem coreReset_hclen (s : State) : (coreReset s).hclen = (drawWork s.cfg s.fresh).hclen := rfl
@[simp] theorem coreReset_litFreq (s : State) : (coreReset s).litFreq = (drawWork s.cfg s.fresh).litFreq := rfl
@[simp] theorem coreReset_distFreq (s : State) : (coreReset s).distFreq = (drawWork s.cfg s.fresh).distFreq := rfl
@[simp] theorem coreReset_clFreq (s : State) : (coreReset s).clFreq = (drawWork s.cfg s.fresh).clFreq := rfl
@[simp] theorem coreReset_prev (s : State) : (coreReset s).prev = (drawWork s.cfg s.fresh).prev := rfl
@[simp] theorem coreReset_wBuf (s : State) : (coreReset s).wBuf = 0#8 := rfl
@[simp] theorem coreReset_wCnt (s : State) : (coreReset s).wCnt = 0 := rfl
@[simp] theorem coreReset_sink (s : State) : (coreReset s).sink = [] := rfl
@[simp] theorem coreReset_bitPos (s : State) : (coreReset s).bitPos = 0 := rfl
@[simp] theorem coreReset_source (s : State) : (coreReset s).source = s.source := rfl
@[simp] theorem coreReset_data (s : State) : (coreReset s).data = s.data := rfl
@[simp] theorem coreReset_hashHead (s : State) : (coreReset s).hashHead = [] := rfl
@[simp] theorem coreReset_dstate (s : State) : (coreReset s).dstate = .expectHeader := rfl
@[simp] theorem coreReset_bfinal (s : State) : (coreReset s).bfinal = false := rfl
@[simp] theorem coreReset_btype (s : State) : (coreReset s).btype = 0 := rfl
@[simp] theorem coreReset_err (s : State) : (coreReset s).err = none := rfl
@[simp] theorem coreReset_errBitPos (s : State) : (coreReset s).errBitPos = 0 := rfl
@[simp] theorem coreReset_errValue (s : State) : (coreReset s).errValue = 0 := rfl
@[simp] theorem coreReset_out (s : State) : (coreReset s).out = [] := rfl
@[simp] theorem coreReset_decoded (s : State) : (coreReset s).decoded = [] := rfl
@[simp] theorem coreReset_result (s : State) : (coreReset s).result = .none := rfl
@[simp] theorem coreReset_place (s : State) : (coreReset s).place = .bfinal := rfl
@[simp] theorem coreReset_filled (s : State) : (coreReset s).filled = {} := rfl
@[simp] theorem coreReset_fresh (s : State) : (coreReset s).fresh = s.fresh + 1 := rfl
@[simp] theorem coreReset_port (s : State) : (coreReset s).port = s.port := rfl
@[simp] theorem coreReset_cfg (s : State) : (coreReset s).cfg = s.cfg := rfl

/-! ### sizeTo -/

@[simp] theorem sizeTo_acc (a d : Nat) (s : State) : (sizeTo a d s).acc = s.acc := rfl
@[simp] theorem sizeTo_accLen (a d : Nat) (s : State) : (sizeTo a d s).accLen = s.accLen := rfl
@[simp] theorem sizeTo_recs (a d : Nat) (s : State) : (sizeTo a d s).recs = s.recs := rfl
@[simp] theorem sizeTo_litLen (a d : Nat) (s : State) : (sizeTo a d s).litLen = s.litLen := rfl
@[simp] theorem sizeTo_distLen (a d : Nat) (s : State) : (sizeTo a d s).distLen = s.distLen := rfl
@[simp] theorem sizeTo_clLen (a d : Nat) (s : State) : (sizeTo a d s).clLen = s.clLen := rfl
@[simp] theorem sizeTo_litCode (a d : Nat) (s : State) : (sizeTo a d s).litCode = s.litCode := rfl
@[simp] theorem sizeTo_distCode (a d : Nat) (s : State) : (sizeTo a d s).distCode = s.distCode := rfl
@[simp] theorem sizeTo_clCode (a d : Nat) (s : State) : (sizeTo a d s).clCode = s.clCode := rfl
@[simp] theorem sizeTo_seq (a d : Nat) (s : State) : (sizeTo a d s).seq =
    s.litLen.take (a + 257) ++ s.distLen.take (d + 1) := rfl
@[simp] theorem sizeTo_rle (a d : Nat) (s : State) : (sizeTo a d s).rle = s.rle := rfl
@[simp] theorem sizeTo_n (a d : Nat) (s : State) : (sizeTo a d s).n = s.n := rfl
@[simp] theorem sizeTo_i (a d : Nat) (s : State) : (sizeTo a d s).i = s.i := rfl
@[simp] theorem sizeTo_h (a d : Nat) (s : State) : (sizeTo a d s).h = s.h := rfl
@[simp] theorem sizeTo_cand (a d : Nat) (s : State) : (sizeTo a d s).cand = s.cand := rfl
@[simp] theorem sizeTo_visited (a d : Nat) (s : State) : (sizeTo a d s).visited = s.visited := rfl
@[simp] theorem sizeTo_cap (a d : Nat) (s : State) : (sizeTo a d s).cap = s.cap := rfl
@[simp] theorem sizeTo_bestLen (a d : Nat) (s : State) : (sizeTo a d s).bestLen = s.bestLen := rfl
@[simp] theorem sizeTo_bestDist (a d : Nat) (s : State) : (sizeTo a d s).bestDist = s.bestDist := rfl
@[simp] theorem sizeTo_hlit (a d : Nat) (s : State) : (sizeTo a d s).hlit = a := rfl
@[simp] theorem sizeTo_hdist (a d : Nat) (s : State) : (sizeTo a d s).hdist = d := rfl
@[simp] theorem sizeTo_hclen (a d : Nat) (s : State) : (sizeTo a d s).hclen = s.hclen := rfl
@[simp] theorem sizeTo_litFreq (a d : Nat) (s : State) : (sizeTo a d s).litFreq = s.litFreq := rfl
@[simp] theorem sizeTo_distFreq (a d : Nat) (s : State) : (sizeTo a d s).distFreq = s.distFreq := rfl
@[simp] theorem sizeTo_clFreq (a d : Nat) (s : State) : (sizeTo a d s).clFreq = s.clFreq := rfl
@[simp] theorem sizeTo_prev (a d : Nat) (s : State) : (sizeTo a d s).prev = s.prev := rfl
@[simp] theorem sizeTo_wBuf (a d : Nat) (s : State) : (sizeTo a d s).wBuf = s.wBuf := rfl
@[simp] theorem sizeTo_wCnt (a d : Nat) (s : State) : (sizeTo a d s).wCnt = s.wCnt := rfl
@[simp] theorem sizeTo_sink (a d : Nat) (s : State) : (sizeTo a d s).sink = s.sink := rfl
@[simp] theorem sizeTo_bitPos (a d : Nat) (s : State) : (sizeTo a d s).bitPos = s.bitPos := rfl
@[simp] theorem sizeTo_source (a d : Nat) (s : State) : (sizeTo a d s).source = s.source := rfl
@[simp] theorem sizeTo_data (a d : Nat) (s : State) : (sizeTo a d s).data = s.data := rfl
@[simp] theorem sizeTo_hashHead (a d : Nat) (s : State) : (sizeTo a d s).hashHead = s.hashHead := rfl
@[simp] theorem sizeTo_dstate (a d : Nat) (s : State) : (sizeTo a d s).dstate = s.dstate := rfl
@[simp] theorem sizeTo_bfinal (a d : Nat) (s : State) : (sizeTo a d s).bfinal = s.bfinal := rfl
@[simp] theorem sizeTo_btype (a d : Nat) (s : State) : (sizeTo a d s).btype = s.btype := rfl
@[simp] theorem sizeTo_err (a d : Nat) (s : State) : (sizeTo a d s).err = s.err := rfl
@[simp] theorem sizeTo_errBitPos (a d : Nat) (s : State) : (sizeTo a d s).errBitPos = s.errBitPos := rfl
@[simp] theorem sizeTo_errValue (a d : Nat) (s : State) : (sizeTo a d s).errValue = s.errValue := rfl
@[simp] theorem sizeTo_out (a d : Nat) (s : State) : (sizeTo a d s).out = s.out := rfl
@[simp] theorem sizeTo_decoded (a d : Nat) (s : State) : (sizeTo a d s).decoded = s.decoded := rfl
@[simp] theorem sizeTo_result (a d : Nat) (s : State) : (sizeTo a d s).result = s.result := rfl
@[simp] theorem sizeTo_place (a d : Nat) (s : State) : (sizeTo a d s).place = s.place := rfl
@[simp] theorem sizeTo_filled (a d : Nat) (s : State) : (sizeTo a d s).filled = { s.filled with seq := true } := rfl
@[simp] theorem sizeTo_fresh (a d : Nat) (s : State) : (sizeTo a d s).fresh = s.fresh := rfl
@[simp] theorem sizeTo_port (a d : Nat) (s : State) : (sizeTo a d s).port = s.port := rfl
@[simp] theorem sizeTo_cfg (a d : Nat) (s : State) : (sizeTo a d s).cfg = s.cfg := rfl

/-! ### setFreqs -/

@[simp] theorem setFreqs_acc (a : Alphabet) (fs : List Nat) (s : State) : (setFreqs a fs s).acc = s.acc := by
  cases a <;> rfl
@[simp] theorem setFreqs_accLen (a : Alphabet) (fs : List Nat) (s : State) : (setFreqs a fs s).accLen = s.accLen := by
  cases a <;> rfl
@[simp] theorem setFreqs_recs (a : Alphabet) (fs : List Nat) (s : State) : (setFreqs a fs s).recs = s.recs := by
  cases a <;> rfl
@[simp] theorem setFreqs_litLen (a : Alphabet) (fs : List Nat) (s : State) : (setFreqs a fs s).litLen = s.litLen := by
  cases a <;> rfl
@[simp] theorem setFreqs_distLen (a : Alphabet) (fs : List Nat) (s : State) : (setFreqs a fs s).distLen = s.distLen := by
  cases a <;> rfl
@[simp] theorem setFreqs_clLen (a : Alphabet) (fs : List Nat) (s : State) : (setFreqs a fs s).clLen = s.clLen := by
  cases a <;> rfl
@[simp] theorem setFreqs_litCode (a : Alphabet) (fs : List Nat) (s : State) : (setFreqs a fs s).litCode = s.litCode := by
  cases a <;> rfl
@[simp] theorem setFreqs_distCode (a : Alphabet) (fs : List Nat) (s : State) : (setFreqs a fs s).distCode = s.distCode := by
  cases a <;> rfl
@[simp] theorem setFreqs_clCode (a : Alphabet) (fs : List Nat) (s : State) : (setFreqs a fs s).clCode = s.clCode := by
  cases a <;> rfl
@[simp] theorem setFreqs_seq (a : Alphabet) (fs : List Nat) (s : State) : (setFreqs a fs s).seq = s.seq := by
  cases a <;> rfl
@[simp] theorem setFreqs_rle (a : Alphabet) (fs : List Nat) (s : State) : (setFreqs a fs s).rle = s.rle := by
  cases a <;> rfl
@[simp] theorem setFreqs_n (a : Alphabet) (fs : List Nat) (s : State) : (setFreqs a fs s).n = s.n := by
  cases a <;> rfl
@[simp] theorem setFreqs_i (a : Alphabet) (fs : List Nat) (s : State) : (setFreqs a fs s).i = s.i := by
  cases a <;> rfl
@[simp] theorem setFreqs_h (a : Alphabet) (fs : List Nat) (s : State) : (setFreqs a fs s).h = s.h := by
  cases a <;> rfl
@[simp] theorem setFreqs_cand (a : Alphabet) (fs : List Nat) (s : State) : (setFreqs a fs s).cand = s.cand := by
  cases a <;> rfl
@[simp] theorem setFreqs_visited (a : Alphabet) (fs : List Nat) (s : State) : (setFreqs a fs s).visited = s.visited := by
  cases a <;> rfl
@[simp] theorem setFreqs_cap (a : Alphabet) (fs : List Nat) (s : State) : (setFreqs a fs s).cap = s.cap := by
  cases a <;> rfl
@[simp] theorem setFreqs_bestLen (a : Alphabet) (fs : List Nat) (s : State) : (setFreqs a fs s).bestLen = s.bestLen := by
  cases a <;> rfl
@[simp] theorem setFreqs_bestDist (a : Alphabet) (fs : List Nat) (s : State) : (setFreqs a fs s).bestDist = s.bestDist := by
  cases a <;> rfl
@[simp] theorem setFreqs_hlit (a : Alphabet) (fs : List Nat) (s : State) : (setFreqs a fs s).hlit = s.hlit := by
  cases a <;> rfl
@[simp] theorem setFreqs_hdist (a : Alphabet) (fs : List Nat) (s : State) : (setFreqs a fs s).hdist = s.hdist := by
  cases a <;> rfl
@[simp] theorem setFreqs_hclen (a : Alphabet) (fs : List Nat) (s : State) : (setFreqs a fs s).hclen = s.hclen := by
  cases a <;> rfl
@[simp] theorem setFreqs_prev (a : Alphabet) (fs : List Nat) (s : State) : (setFreqs a fs s).prev = s.prev := by
  cases a <;> rfl
@[simp] theorem setFreqs_wBuf (a : Alphabet) (fs : List Nat) (s : State) : (setFreqs a fs s).wBuf = s.wBuf := by
  cases a <;> rfl
@[simp] theorem setFreqs_wCnt (a : Alphabet) (fs : List Nat) (s : State) : (setFreqs a fs s).wCnt = s.wCnt := by
  cases a <;> rfl
@[simp] theorem setFreqs_sink (a : Alphabet) (fs : List Nat) (s : State) : (setFreqs a fs s).sink = s.sink := by
  cases a <;> rfl
@[simp] theorem setFreqs_bitPos (a : Alphabet) (fs : List Nat) (s : State) : (setFreqs a fs s).bitPos = s.bitPos := by
  cases a <;> rfl
@[simp] theorem setFreqs_source (a : Alphabet) (fs : List Nat) (s : State) : (setFreqs a fs s).source = s.source := by
  cases a <;> rfl
@[simp] theorem setFreqs_data (a : Alphabet) (fs : List Nat) (s : State) : (setFreqs a fs s).data = s.data := by
  cases a <;> rfl
@[simp] theorem setFreqs_hashHead (a : Alphabet) (fs : List Nat) (s : State) : (setFreqs a fs s).hashHead = s.hashHead := by
  cases a <;> rfl
@[simp] theorem setFreqs_dstate (a : Alphabet) (fs : List Nat) (s : State) : (setFreqs a fs s).dstate = s.dstate := by
  cases a <;> rfl
@[simp] theorem setFreqs_bfinal (a : Alphabet) (fs : List Nat) (s : State) : (setFreqs a fs s).bfinal = s.bfinal := by
  cases a <;> rfl
@[simp] theorem setFreqs_btype (a : Alphabet) (fs : List Nat) (s : State) : (setFreqs a fs s).btype = s.btype := by
  cases a <;> rfl
@[simp] theorem setFreqs_err (a : Alphabet) (fs : List Nat) (s : State) : (setFreqs a fs s).err = s.err := by
  cases a <;> rfl
@[simp] theorem setFreqs_errBitPos (a : Alphabet) (fs : List Nat) (s : State) : (setFreqs a fs s).errBitPos = s.errBitPos := by
  cases a <;> rfl
@[simp] theorem setFreqs_errValue (a : Alphabet) (fs : List Nat) (s : State) : (setFreqs a fs s).errValue = s.errValue := by
  cases a <;> rfl
@[simp] theorem setFreqs_out (a : Alphabet) (fs : List Nat) (s : State) : (setFreqs a fs s).out = s.out := by
  cases a <;> rfl
@[simp] theorem setFreqs_decoded (a : Alphabet) (fs : List Nat) (s : State) : (setFreqs a fs s).decoded = s.decoded := by
  cases a <;> rfl
@[simp] theorem setFreqs_result (a : Alphabet) (fs : List Nat) (s : State) : (setFreqs a fs s).result = s.result := by
  cases a <;> rfl
@[simp] theorem setFreqs_place (a : Alphabet) (fs : List Nat) (s : State) : (setFreqs a fs s).place = s.place := by
  cases a <;> rfl
@[simp] theorem setFreqs_fresh (a : Alphabet) (fs : List Nat) (s : State) : (setFreqs a fs s).fresh = s.fresh := by
  cases a <;> rfl
@[simp] theorem setFreqs_port (a : Alphabet) (fs : List Nat) (s : State) : (setFreqs a fs s).port = s.port := by
  cases a <;> rfl
@[simp] theorem setFreqs_cfg (a : Alphabet) (fs : List Nat) (s : State) : (setFreqs a fs s).cfg = s.cfg := by
  cases a <;> rfl
@[simp] theorem setFreqs_cl_clFreq (fs : List Nat) (s : State) : (setFreqs .cl fs s).clFreq = fs := rfl
@[simp] theorem setFreqs_litlen_clFreq (fs : List Nat) (s : State) : (setFreqs .litlen fs s).clFreq = s.clFreq := rfl
@[simp] theorem setFreqs_dist_clFreq (fs : List Nat) (s : State) : (setFreqs .dist fs s).clFreq = s.clFreq := rfl
@[simp] theorem setFreqs_dist_distFreq (fs : List Nat) (s : State) : (setFreqs .dist fs s).distFreq = fs := rfl
@[simp] theorem setFreqs_litlen_distFreq (fs : List Nat) (s : State) : (setFreqs .litlen fs s).distFreq = s.distFreq := rfl
@[simp] theorem setFreqs_cl_distFreq (fs : List Nat) (s : State) : (setFreqs .cl fs s).distFreq = s.distFreq := rfl
@[simp] theorem setFreqs_litlen_litFreq (fs : List Nat) (s : State) : (setFreqs .litlen fs s).litFreq = fs := rfl
@[simp] theorem setFreqs_dist_litFreq (fs : List Nat) (s : State) : (setFreqs .dist fs s).litFreq = s.litFreq := rfl
@[simp] theorem setFreqs_cl_litFreq (fs : List Nat) (s : State) : (setFreqs .cl fs s).litFreq = s.litFreq := rfl

/-! ### setLens -/

@[simp] theorem setLens_acc (a : Alphabet) (ls : List Nat) (s : State) : (setLens a ls s).acc = s.acc := by
  cases a <;> rfl
@[simp] theorem setLens_accLen (a : Alphabet) (ls : List Nat) (s : State) : (setLens a ls s).accLen = s.accLen := by
  cases a <;> rfl
@[simp] theorem setLens_recs (a : Alphabet) (ls : List Nat) (s : State) : (setLens a ls s).recs = s.recs := by
  cases a <;> rfl
@[simp] theorem setLens_litCode (a : Alphabet) (ls : List Nat) (s : State) : (setLens a ls s).litCode = s.litCode := by
  cases a <;> rfl
@[simp] theorem setLens_distCode (a : Alphabet) (ls : List Nat) (s : State) : (setLens a ls s).distCode = s.distCode := by
  cases a <;> rfl
@[simp] theorem setLens_clCode (a : Alphabet) (ls : List Nat) (s : State) : (setLens a ls s).clCode = s.clCode := by
  cases a <;> rfl
@[simp] theorem setLens_seq (a : Alphabet) (ls : List Nat) (s : State) : (setLens a ls s).seq = s.seq := by
  cases a <;> rfl
@[simp] theorem setLens_rle (a : Alphabet) (ls : List Nat) (s : State) : (setLens a ls s).rle = s.rle := by
  cases a <;> rfl
@[simp] theorem setLens_n (a : Alphabet) (ls : List Nat) (s : State) : (setLens a ls s).n = s.n := by
  cases a <;> rfl
@[simp] theorem setLens_i (a : Alphabet) (ls : List Nat) (s : State) : (setLens a ls s).i = s.i := by
  cases a <;> rfl
@[simp] theorem setLens_h (a : Alphabet) (ls : List Nat) (s : State) : (setLens a ls s).h = s.h := by
  cases a <;> rfl
@[simp] theorem setLens_cand (a : Alphabet) (ls : List Nat) (s : State) : (setLens a ls s).cand = s.cand := by
  cases a <;> rfl
@[simp] theorem setLens_visited (a : Alphabet) (ls : List Nat) (s : State) : (setLens a ls s).visited = s.visited := by
  cases a <;> rfl
@[simp] theorem setLens_cap (a : Alphabet) (ls : List Nat) (s : State) : (setLens a ls s).cap = s.cap := by
  cases a <;> rfl
@[simp] theorem setLens_bestLen (a : Alphabet) (ls : List Nat) (s : State) : (setLens a ls s).bestLen = s.bestLen := by
  cases a <;> rfl
@[simp] theorem setLens_bestDist (a : Alphabet) (ls : List Nat) (s : State) : (setLens a ls s).bestDist = s.bestDist := by
  cases a <;> rfl
@[simp] theorem setLens_hlit (a : Alphabet) (ls : List Nat) (s : State) : (setLens a ls s).hlit = s.hlit := by
  cases a <;> rfl
@[simp] theorem setLens_hdist (a : Alphabet) (ls : List Nat) (s : State) : (setLens a ls s).hdist = s.hdist := by
  cases a <;> rfl
@[simp] theorem setLens_hclen (a : Alphabet) (ls : List Nat) (s : State) : (setLens a ls s).hclen = s.hclen := by
  cases a <;> rfl
@[simp] theorem setLens_litFreq (a : Alphabet) (ls : List Nat) (s : State) : (setLens a ls s).litFreq = s.litFreq := by
  cases a <;> rfl
@[simp] theorem setLens_distFreq (a : Alphabet) (ls : List Nat) (s : State) : (setLens a ls s).distFreq = s.distFreq := by
  cases a <;> rfl
@[simp] theorem setLens_clFreq (a : Alphabet) (ls : List Nat) (s : State) : (setLens a ls s).clFreq = s.clFreq := by
  cases a <;> rfl
@[simp] theorem setLens_prev (a : Alphabet) (ls : List Nat) (s : State) : (setLens a ls s).prev = s.prev := by
  cases a <;> rfl
@[simp] theorem setLens_wBuf (a : Alphabet) (ls : List Nat) (s : State) : (setLens a ls s).wBuf = s.wBuf := by
  cases a <;> rfl
@[simp] theorem setLens_wCnt (a : Alphabet) (ls : List Nat) (s : State) : (setLens a ls s).wCnt = s.wCnt := by
  cases a <;> rfl
@[simp] theorem setLens_sink (a : Alphabet) (ls : List Nat) (s : State) : (setLens a ls s).sink = s.sink := by
  cases a <;> rfl
@[simp] theorem setLens_bitPos (a : Alphabet) (ls : List Nat) (s : State) : (setLens a ls s).bitPos = s.bitPos := by
  cases a <;> rfl
@[simp] theorem setLens_source (a : Alphabet) (ls : List Nat) (s : State) : (setLens a ls s).source = s.source := by
  cases a <;> rfl
@[simp] theorem setLens_data (a : Alphabet) (ls : List Nat) (s : State) : (setLens a ls s).data = s.data := by
  cases a <;> rfl
@[simp] theorem setLens_hashHead (a : Alphabet) (ls : List Nat) (s : State) : (setLens a ls s).hashHead = s.hashHead := by
  cases a <;> rfl
@[simp] theorem setLens_dstate (a : Alphabet) (ls : List Nat) (s : State) : (setLens a ls s).dstate = s.dstate := by
  cases a <;> rfl
@[simp] theorem setLens_bfinal (a : Alphabet) (ls : List Nat) (s : State) : (setLens a ls s).bfinal = s.bfinal := by
  cases a <;> rfl
@[simp] theorem setLens_btype (a : Alphabet) (ls : List Nat) (s : State) : (setLens a ls s).btype = s.btype := by
  cases a <;> rfl
@[simp] theorem setLens_err (a : Alphabet) (ls : List Nat) (s : State) : (setLens a ls s).err = s.err := by
  cases a <;> rfl
@[simp] theorem setLens_errBitPos (a : Alphabet) (ls : List Nat) (s : State) : (setLens a ls s).errBitPos = s.errBitPos := by
  cases a <;> rfl
@[simp] theorem setLens_errValue (a : Alphabet) (ls : List Nat) (s : State) : (setLens a ls s).errValue = s.errValue := by
  cases a <;> rfl
@[simp] theorem setLens_out (a : Alphabet) (ls : List Nat) (s : State) : (setLens a ls s).out = s.out := by
  cases a <;> rfl
@[simp] theorem setLens_decoded (a : Alphabet) (ls : List Nat) (s : State) : (setLens a ls s).decoded = s.decoded := by
  cases a <;> rfl
@[simp] theorem setLens_result (a : Alphabet) (ls : List Nat) (s : State) : (setLens a ls s).result = s.result := by
  cases a <;> rfl
@[simp] theorem setLens_place (a : Alphabet) (ls : List Nat) (s : State) : (setLens a ls s).place = s.place := by
  cases a <;> rfl
@[simp] theorem setLens_fresh (a : Alphabet) (ls : List Nat) (s : State) : (setLens a ls s).fresh = s.fresh := by
  cases a <;> rfl
@[simp] theorem setLens_port (a : Alphabet) (ls : List Nat) (s : State) : (setLens a ls s).port = s.port := by
  cases a <;> rfl
@[simp] theorem setLens_cfg (a : Alphabet) (ls : List Nat) (s : State) : (setLens a ls s).cfg = s.cfg := by
  cases a <;> rfl
@[simp] theorem setLens_cl_clLen (ls : List Nat) (s : State) : (setLens .cl ls s).clLen = ls := rfl
@[simp] theorem setLens_litlen_clLen (ls : List Nat) (s : State) : (setLens .litlen ls s).clLen = s.clLen := rfl
@[simp] theorem setLens_dist_clLen (ls : List Nat) (s : State) : (setLens .dist ls s).clLen = s.clLen := rfl
@[simp] theorem setLens_dist_distLen (ls : List Nat) (s : State) : (setLens .dist ls s).distLen = ls := rfl
@[simp] theorem setLens_litlen_distLen (ls : List Nat) (s : State) : (setLens .litlen ls s).distLen = s.distLen := rfl
@[simp] theorem setLens_cl_distLen (ls : List Nat) (s : State) : (setLens .cl ls s).distLen = s.distLen := rfl
@[simp] theorem setLens_litlen_litLen (ls : List Nat) (s : State) : (setLens .litlen ls s).litLen = ls := rfl
@[simp] theorem setLens_dist_litLen (ls : List Nat) (s : State) : (setLens .dist ls s).litLen = s.litLen := rfl
@[simp] theorem setLens_cl_litLen (ls : List Nat) (s : State) : (setLens .cl ls s).litLen = s.litLen := rfl

/-! ### setCodes -/

@[simp] theorem setCodes_acc (a : Alphabet) (cs : CodeArray) (s : State) : (setCodes a cs s).acc = s.acc := by
  cases a <;> rfl
@[simp] theorem setCodes_accLen (a : Alphabet) (cs : CodeArray) (s : State) : (setCodes a cs s).accLen = s.accLen := by
  cases a <;> rfl
@[simp] theorem setCodes_recs (a : Alphabet) (cs : CodeArray) (s : State) : (setCodes a cs s).recs = s.recs := by
  cases a <;> rfl
@[simp] theorem setCodes_litLen (a : Alphabet) (cs : CodeArray) (s : State) : (setCodes a cs s).litLen = s.litLen := by
  cases a <;> rfl
@[simp] theorem setCodes_distLen (a : Alphabet) (cs : CodeArray) (s : State) : (setCodes a cs s).distLen = s.distLen := by
  cases a <;> rfl
@[simp] theorem setCodes_clLen (a : Alphabet) (cs : CodeArray) (s : State) : (setCodes a cs s).clLen = s.clLen := by
  cases a <;> rfl
@[simp] theorem setCodes_seq (a : Alphabet) (cs : CodeArray) (s : State) : (setCodes a cs s).seq = s.seq := by
  cases a <;> rfl
@[simp] theorem setCodes_rle (a : Alphabet) (cs : CodeArray) (s : State) : (setCodes a cs s).rle = s.rle := by
  cases a <;> rfl
@[simp] theorem setCodes_n (a : Alphabet) (cs : CodeArray) (s : State) : (setCodes a cs s).n = s.n := by
  cases a <;> rfl
@[simp] theorem setCodes_i (a : Alphabet) (cs : CodeArray) (s : State) : (setCodes a cs s).i = s.i := by
  cases a <;> rfl
@[simp] theorem setCodes_h (a : Alphabet) (cs : CodeArray) (s : State) : (setCodes a cs s).h = s.h := by
  cases a <;> rfl
@[simp] theorem setCodes_cand (a : Alphabet) (cs : CodeArray) (s : State) : (setCodes a cs s).cand = s.cand := by
  cases a <;> rfl
@[simp] theorem setCodes_visited (a : Alphabet) (cs : CodeArray) (s : State) : (setCodes a cs s).visited = s.visited := by
  cases a <;> rfl
@[simp] theorem setCodes_cap (a : Alphabet) (cs : CodeArray) (s : State) : (setCodes a cs s).cap = s.cap := by
  cases a <;> rfl
@[simp] theorem setCodes_bestLen (a : Alphabet) (cs : CodeArray) (s : State) : (setCodes a cs s).bestLen = s.bestLen := by
  cases a <;> rfl
@[simp] theorem setCodes_bestDist (a : Alphabet) (cs : CodeArray) (s : State) : (setCodes a cs s).bestDist = s.bestDist := by
  cases a <;> rfl
@[simp] theorem setCodes_hlit (a : Alphabet) (cs : CodeArray) (s : State) : (setCodes a cs s).hlit = s.hlit := by
  cases a <;> rfl
@[simp] theorem setCodes_hdist (a : Alphabet) (cs : CodeArray) (s : State) : (setCodes a cs s).hdist = s.hdist := by
  cases a <;> rfl
@[simp] theorem setCodes_hclen (a : Alphabet) (cs : CodeArray) (s : State) : (setCodes a cs s).hclen = s.hclen := by
  cases a <;> rfl
@[simp] theorem setCodes_litFreq (a : Alphabet) (cs : CodeArray) (s : State) : (setCodes a cs s).litFreq = s.litFreq := by
  cases a <;> rfl
@[simp] theorem setCodes_distFreq (a : Alphabet) (cs : CodeArray) (s : State) : (setCodes a cs s).distFreq = s.distFreq := by
  cases a <;> rfl
@[simp] theorem setCodes_clFreq (a : Alphabet) (cs : CodeArray) (s : State) : (setCodes a cs s).clFreq = s.clFreq := by
  cases a <;> rfl
@[simp] theorem setCodes_prev (a : Alphabet) (cs : CodeArray) (s : State) : (setCodes a cs s).prev = s.prev := by
  cases a <;> rfl
@[simp] theorem setCodes_wBuf (a : Alphabet) (cs : CodeArray) (s : State) : (setCodes a cs s).wBuf = s.wBuf := by
  cases a <;> rfl
@[simp] theorem setCodes_wCnt (a : Alphabet) (cs : CodeArray) (s : State) : (setCodes a cs s).wCnt = s.wCnt := by
  cases a <;> rfl
@[simp] theorem setCodes_sink (a : Alphabet) (cs : CodeArray) (s : State) : (setCodes a cs s).sink = s.sink := by
  cases a <;> rfl
@[simp] theorem setCodes_bitPos (a : Alphabet) (cs : CodeArray) (s : State) : (setCodes a cs s).bitPos = s.bitPos := by
  cases a <;> rfl
@[simp] theorem setCodes_source (a : Alphabet) (cs : CodeArray) (s : State) : (setCodes a cs s).source = s.source := by
  cases a <;> rfl
@[simp] theorem setCodes_data (a : Alphabet) (cs : CodeArray) (s : State) : (setCodes a cs s).data = s.data := by
  cases a <;> rfl
@[simp] theorem setCodes_hashHead (a : Alphabet) (cs : CodeArray) (s : State) : (setCodes a cs s).hashHead = s.hashHead := by
  cases a <;> rfl
@[simp] theorem setCodes_dstate (a : Alphabet) (cs : CodeArray) (s : State) : (setCodes a cs s).dstate = s.dstate := by
  cases a <;> rfl
@[simp] theorem setCodes_bfinal (a : Alphabet) (cs : CodeArray) (s : State) : (setCodes a cs s).bfinal = s.bfinal := by
  cases a <;> rfl
@[simp] theorem setCodes_btype (a : Alphabet) (cs : CodeArray) (s : State) : (setCodes a cs s).btype = s.btype := by
  cases a <;> rfl
@[simp] theorem setCodes_err (a : Alphabet) (cs : CodeArray) (s : State) : (setCodes a cs s).err = s.err := by
  cases a <;> rfl
@[simp] theorem setCodes_errBitPos (a : Alphabet) (cs : CodeArray) (s : State) : (setCodes a cs s).errBitPos = s.errBitPos := by
  cases a <;> rfl
@[simp] theorem setCodes_errValue (a : Alphabet) (cs : CodeArray) (s : State) : (setCodes a cs s).errValue = s.errValue := by
  cases a <;> rfl
@[simp] theorem setCodes_out (a : Alphabet) (cs : CodeArray) (s : State) : (setCodes a cs s).out = s.out := by
  cases a <;> rfl
@[simp] theorem setCodes_decoded (a : Alphabet) (cs : CodeArray) (s : State) : (setCodes a cs s).decoded = s.decoded := by
  cases a <;> rfl
@[simp] theorem setCodes_result (a : Alphabet) (cs : CodeArray) (s : State) : (setCodes a cs s).result = s.result := by
  cases a <;> rfl
@[simp] theorem setCodes_place (a : Alphabet) (cs : CodeArray) (s : State) : (setCodes a cs s).place = s.place := by
  cases a <;> rfl
@[simp] theorem setCodes_fresh (a : Alphabet) (cs : CodeArray) (s : State) : (setCodes a cs s).fresh = s.fresh := by
  cases a <;> rfl
@[simp] theorem setCodes_port (a : Alphabet) (cs : CodeArray) (s : State) : (setCodes a cs s).port = s.port := by
  cases a <;> rfl
@[simp] theorem setCodes_cfg (a : Alphabet) (cs : CodeArray) (s : State) : (setCodes a cs s).cfg = s.cfg := by
  cases a <;> rfl
@[simp] theorem setCodes_cl_clCode (cs : CodeArray) (s : State) : (setCodes .cl cs s).clCode = cs := rfl
@[simp] theorem setCodes_litlen_clCode (cs : CodeArray) (s : State) : (setCodes .litlen cs s).clCode = s.clCode := rfl
@[simp] theorem setCodes_dist_clCode (cs : CodeArray) (s : State) : (setCodes .dist cs s).clCode = s.clCode := rfl
@[simp] theorem setCodes_dist_distCode (cs : CodeArray) (s : State) : (setCodes .dist cs s).distCode = cs := rfl
@[simp] theorem setCodes_litlen_distCode (cs : CodeArray) (s : State) : (setCodes .litlen cs s).distCode = s.distCode := rfl
@[simp] theorem setCodes_cl_distCode (cs : CodeArray) (s : State) : (setCodes .cl cs s).distCode = s.distCode := rfl
@[simp] theorem setCodes_litlen_litCode (cs : CodeArray) (s : State) : (setCodes .litlen cs s).litCode = cs := rfl
@[simp] theorem setCodes_dist_litCode (cs : CodeArray) (s : State) : (setCodes .dist cs s).litCode = s.litCode := rfl
@[simp] theorem setCodes_cl_litCode (cs : CodeArray) (s : State) : (setCodes .cl cs s).litCode = s.litCode := rfl

@[simp] theorem freqs_setFreqs (a : Alphabet) (fs : List Nat) (s : State) : (setFreqs a fs s).freqs a = fs := by
  cases a <;> rfl
@[simp] theorem lens_setLens (a : Alphabet) (ls : List Nat) (s : State) : (setLens a ls s).lens a = ls := by
  cases a <;> rfl
@[simp] theorem codes_setCodes (a : Alphabet) (cs : CodeArray) (s : State) : (setCodes a cs s).codes a = cs := by
  cases a <;> rfl

/-! ### overwriteShared -/

@[simp] theorem overwriteShared_acc (s : State) : (overwriteShared s).acc = s.acc := rfl
@[simp] theorem overwriteShared_accLen (s : State) : (overwriteShared s).accLen = s.accLen := rfl
@[simp] theorem overwriteShared_recs (s : State) : (overwriteShared s).recs = s.recs := rfl
@[simp] theorem overwriteShared_litLen (s : State) : (overwriteShared s).litLen = s.litLen := rfl
@[simp] theorem overwriteShared_distLen (s : State) : (overwriteShared s).distLen = s.distLen := rfl
@[simp] theorem overwriteShared_clLen (s : State) : (overwriteShared s).clLen = s.clLen := rfl
@[simp] theorem overwriteShared_litCode (s : State) : (overwriteShared s).litCode = s.litCode := rfl
@[simp] theorem overwriteShared_distCode (s : State) : (overwriteShared s).distCode = s.distCode := rfl
@[simp] theorem overwriteShared_clCode (s : State) : (overwriteShared s).clCode = s.clCode := rfl
@[simp] theorem overwriteShared_seq (s : State) : (overwriteShared s).seq = s.seq := rfl
@[simp] theorem overwriteShared_rle (s : State) : (overwriteShared s).rle = (drawBuffers s.fresh).rle := rfl
@[simp] theorem overwriteShared_n (s : State) : (overwriteShared s).n = s.n := rfl
@[simp] theorem overwriteShared_i (s : State) : (overwriteShared s).i = s.i := rfl
@[simp] theorem overwriteShared_h (s : State) : (overwriteShared s).h = s.h := rfl
@[simp] theorem overwriteShared_cand (s : State) : (overwriteShared s).cand = s.cand := rfl
@[simp] theorem overwriteShared_visited (s : State) : (overwriteShared s).visited = s.visited := rfl
@[simp] theorem overwriteShared_cap (s : State) : (overwriteShared s).cap = s.cap := rfl
@[simp] theorem overwriteShared_bestLen (s : State) : (overwriteShared s).bestLen = s.bestLen := rfl
@[simp] theorem overwriteShared_bestDist (s : State) : (overwriteShared s).bestDist = s.bestDist := rfl
@[simp] theorem overwriteShared_hlit (s : State) : (overwriteShared s).hlit = s.hlit := rfl
@[simp] theorem overwriteShared_hdist (s : State) : (overwriteShared s).hdist = s.hdist := rfl
@[simp] theorem overwriteShared_hclen (s : State) : (overwriteShared s).hclen = s.hclen := rfl
@[simp] theorem overwriteShared_litFreq (s : State) : (overwriteShared s).litFreq = s.litFreq := rfl
@[simp] theorem overwriteShared_distFreq (s : State) : (overwriteShared s).distFreq = s.distFreq := rfl
@[simp] theorem overwriteShared_clFreq (s : State) : (overwriteShared s).clFreq = s.clFreq := rfl
@[simp] theorem overwriteShared_prev (s : State) : (overwriteShared s).prev = s.prev := rfl
@[simp] theorem overwriteShared_wBuf (s : State) : (overwriteShared s).wBuf = s.wBuf := rfl
@[simp] theorem overwriteShared_wCnt (s : State) : (overwriteShared s).wCnt = s.wCnt := rfl
@[simp] theorem overwriteShared_sink (s : State) : (overwriteShared s).sink = s.sink := rfl
@[simp] theorem overwriteShared_bitPos (s : State) : (overwriteShared s).bitPos = s.bitPos := rfl
@[simp] theorem overwriteShared_source (s : State) : (overwriteShared s).source = s.source := rfl
@[simp] theorem overwriteShared_data (s : State) : (overwriteShared s).data = s.data := rfl
@[simp] theorem overwriteShared_hashHead (s : State) : (overwriteShared s).hashHead = s.hashHead := rfl
@[simp] theorem overwriteShared_dstate (s : State) : (overwriteShared s).dstate = s.dstate := rfl
@[simp] theorem overwriteShared_bfinal (s : State) : (overwriteShared s).bfinal = s.bfinal := rfl
@[simp] theorem overwriteShared_btype (s : State) : (overwriteShared s).btype = s.btype := rfl
@[simp] theorem overwriteShared_err (s : State) : (overwriteShared s).err = s.err := rfl
@[simp] theorem overwriteShared_errBitPos (s : State) : (overwriteShared s).errBitPos = s.errBitPos := rfl
@[simp] theorem overwriteShared_errValue (s : State) : (overwriteShared s).errValue = s.errValue := rfl
@[simp] theorem overwriteShared_out (s : State) : (overwriteShared s).out = s.out := rfl
@[simp] theorem overwriteShared_decoded (s : State) : (overwriteShared s).decoded = s.decoded := rfl
@[simp] theorem overwriteShared_result (s : State) : (overwriteShared s).result = s.result := rfl
@[simp] theorem overwriteShared_place (s : State) : (overwriteShared s).place = s.place := rfl
@[simp] theorem overwriteShared_filled (s : State) :
    (overwriteShared s).filled = { s.filled with litFreq := false, distFreq := false, clFreq := false } := rfl
@[simp] theorem overwriteShared_fresh (s : State) : (overwriteShared s).fresh = s.fresh + 1 := rfl
@[simp] theorem overwriteShared_port (s : State) : (overwriteShared s).port = s.port := rfl
@[simp] theorem overwriteShared_cfg (s : State) : (overwriteShared s).cfg = s.cfg := rfl

@[simp] theorem sizedTo_length (n bound : Nat) (xs : List Nat) : (sizedTo n bound xs).length = n := by simp [sizedTo]

theorem sizedTo_le {n bound f : Nat} {xs : List Nat} (h : f ∈ sizedTo n bound xs) : f ≤ bound := by
  obtain ⟨k, _, rfl⟩ := List.mem_map.mp h
  exact Nat.lt_succ_iff.mp (Nat.mod_lt _ (Nat.succ_pos _))

end Sys2Proof.Machine
end

