-- ==== Sys2Proof/Laws/BitStream.lean ====
section
/-! SUPPORT. What the bit-stream primitives do to the streams taken as sequences of bits: a write appends, a flush
appends padding, a read takes the next bit or faults. -/

namespace Sys2Proof.Machine

/-! ## Steps of an operation -/

@[simp] theorem Act.bind_ok {α β : Type} (a : α) (s : State) (f : α → State → Act β) :
    (Act.ok a s).bind f = f a s := rfl

@[simp] theorem Act.bind_raised {α β : Type} (s : State) (f : α → State → Act β) :
    (Act.raised s : Act α).bind f = .raised s := rfl

@[simp] theorem Act.bind_fault {α β : Type} (e : Fault) (f : α → State → Act β) :
    (Act.fault e : Act α).bind f = .fault e := rfl

@[simp] theorem Act.outcome_ok {α : Type} (a : α) (s : State) (r : α → Result) :
    (Act.ok a s).outcome r = .next { s with result := r a } := rfl

@[simp] theorem Act.outcome_raised {α : Type} (s : State) (r : α → Result) :
    (Act.raised s : Act α).outcome r = .next s := rfl

@[simp] theorem Act.outcome_fault {α : Type} (e : Fault) (r : α → Result) :
    (Act.fault e : Act α).outcome r = .fault e := rfl

/-- A sequence of two steps goes on only if both do. -/
theorem Act.bind_eq_ok {α β : Type} {x : Act α} {f : α → State → Act β} {b : β} {t : State}
    (h : x.bind f = .ok b t) : ∃ a s, x = .ok a s ∧ f a s = .ok b t := by
  cases x <;> simp_all [Act.bind]

/-- A sequence of two steps has raised in its first step or in its second. -/
theorem Act.bind_eq_raised {α β : Type} {x : Act α} {f : α → State → Act β} {t : State}
    (h : x.bind f = .raised t) : x = .raised t ∨ ∃ a s, x = .ok a s ∧ f a s = .raised t := by
  cases x <;> simp_all [Act.bind]

/-- A sequence of two steps is a fault of the model in its first step or in its second. -/
theorem Act.bind_eq_fault {α β : Type} {x : Act α} {f : α → State → Act β} {e : Fault}
    (h : x.bind f = .fault e) : x = .fault e ∨ ∃ a s, x = .ok a s ∧ f a s = .fault e := by
  cases x <;> simp_all [Act.bind]

theorem Act.bind_assoc {α β γ : Type} (x : Act α) (f : α → State → Act β) (g : β → State → Act γ) :
    (x.bind f).bind g = x.bind fun a s => (f a s).bind g := by
  cases x <;> rfl

/-- An operation answers a next state when its step went on, or when it raised. -/
theorem Act.outcome_eq_next {α : Type} {x : Act α} {r : α → Result} {t : State} (h : x.outcome r = .next t) :
    (∃ a s, x = .ok a s ∧ t = { s with result := r a }) ∨ x = .raised t := by
  cases x with
  | ok a s => exact .inl ⟨a, s, rfl, by simpa [Act.outcome] using h.symm⟩
  | raised s => exact .inr (by simpa [Act.outcome] using h)
  | fault e => simp [Act.outcome] at h

theorem DState.faultsTo_afterFault (d : DState) : d.FaultsTo d.afterFault := by
  cases d <;> simp [DState.FaultsTo, DState.afterFault]

/-- `raise` leaves what R312 says. -/
theorem raised_takeFault (c : Cause) (v : Nat) (s : State) : Raised c v s (takeFault c v s) :=
  ⟨rfl, rfl, rfl, DState.faultsTo_afterFault _, rfl, rfl, rfl, rfl, rfl, rfl, rfl, rfl, rfl,
    rfl, rfl, rfl, rfl, rfl, rfl, rfl⟩

/-! ## Writer -/

theorem byteBits_length (n : Nat) (b : Byte) : (byteBits n b).length = n := by simp [byteBits]

/-- The bits of a stream, byte by byte through the byte's bits in stream order. -/
theorem bytesBits_eq (c : Config.Params) (bs : List Byte) :
    bytesBits c.bitOrder bs = bs.flatMap fun b => byteBits 8 (c.streamOrder b) := by
  unfold bytesBits byteBits Config.Params.streamOrder
  cases c.bitOrder <;> simp [BitVec.getLsbD_reverse]

/-- The turn into stream order leads back. -/
@[simp] theorem streamOrder_streamOrder (c : Config.Params) (b : Byte) : c.streamOrder (c.streamOrder b) = b := by
  unfold Config.Params.streamOrder
  cases c.bitOrder with
  | lsbFirst => rfl
  | msbFirst => exact BitVec.reverse_reverse_eq

/-- A byte put into the sink has its pending bits in stream order. -/
theorem bytesBits_streamOrder (c : Config.Params) (b : Byte) :
    bytesBits c.bitOrder [c.streamOrder b] = byteBits 8 b := by simp [bytesBits_eq]

theorem bytesBits_length (o : Config.BitOrder) (bs : List Byte) : (bytesBits o bs).length = 8 * bs.length := by
  induction bs with
  | nil => rfl
  | cons b bs ih =>
    simp only [bytesBits, List.flatMap_cons, List.length_append, List.length_map, List.length_range,
      List.length_cons] at *
    omega

theorem bytesBits_append (o : Config.BitOrder) (as bs : List Byte) :
    bytesBits o (as ++ bs) = bytesBits o as ++ bytesBits o bs := by
  simp [bytesBits]

/-- The bits of a byte above its pending ones are 0. -/
theorem getLsbD_of_lt {b : Byte} {n k : Nat} (h : b.toNat < 2 ^ n) (hk : n ≤ k) : b.getLsbD k = false := by
  rw [BitVec.getLsbD]
  exact Nat.testBit_lt_two_pow (lt_of_lt_of_le h (Nat.pow_le_pow_right (by norm_num) hk))

/-- Or-ing the next bit in, seen bit by bit. -/
theorem orBit_getLsbD (b : Byte) (n k : Nat) (x : Bool) (hn : n < 8) (hk : k < 8) :
    (b ||| ((if x then 1#8 else 0#8) <<< n)).getLsbD k = (b.getLsbD k || (decide (k = n) && x)) := by
  cases x
  · simp
  · simp only [if_true, BitVec.getLsbD_or, BitVec.getLsbD_shiftLeft, hk, decide_true, Bool.true_and, Bool.and_true]
    by_cases h : k = n
    · subst h; simp
    · by_cases h2 : k < n
      · simp [h, h2]
      · have : 0 < k - n := by omega
        simp [h, h2, BitVec.getLsbD_one]
        intro; omega

theorem orBit_byteBits (b : Byte) (n : Nat) (x : Bool) (hn : n < 8) (hb : b.toNat < 2 ^ n) :
    byteBits (n + 1) (b ||| ((if x then 1#8 else 0#8) <<< n)) = byteBits n b ++ [x] := by
  unfold byteBits
  rw [List.range_succ, List.map_append]
  congr 1
  · apply List.map_congr_left
    intro k hk
    have hk := List.mem_range.mp hk
    rw [orBit_getLsbD b n k x hn (by omega)]
    simp [Nat.ne_of_lt hk]
  · simp only [List.map_cons, List.map_nil, List.cons.injEq, and_true]
    rw [orBit_getLsbD b n n x hn hn, getLsbD_of_lt hb le_rfl]
    simp

theorem orBit_lt (b : Byte) (n : Nat) (x : Bool) (hn : n < 8) (hb : b.toNat < 2 ^ n) :
    (b ||| ((if x then 1#8 else 0#8) <<< n)).toNat < 2 ^ (n + 1) := by
  apply Nat.lt_pow_two_of_testBit
  intro k hk
  rw [BitVec.testBit_toNat]
  by_cases h8 : k < 8
  · rw [orBit_getLsbD b n k x hn h8, getLsbD_of_lt hb (by omega)]
    simp [show k ≠ n by omega]
  · exact BitVec.getLsbD_of_ge _ _ (by omega)

/-- BS.WBIT changes the writer only (R137). -/
theorem writeBit_frame (b : Bool) (s : State) :
    ∃ w c k, writeBit b s = { s with wBuf := w, wCnt := c, sink := k } := by
  unfold writeBit
  dsimp only
  split
  · exact ⟨_, _, _, rfl⟩
  · exact ⟨_, _, s.sink, rfl⟩

/-- BS.WBIT keeps the writer's invariant (R21) and appends its bit to what has been written (R130). -/
theorem writeBit_spec (b : Bool) (s : State) (h : WriterOk s) :
    WriterOk (writeBit b s) ∧ (writeBit b s).written = s.written ++ [b] := by
  obtain ⟨h8, hlt⟩ := h
  have hb := orBit_byteBits s.wBuf s.wCnt b h8 hlt
  unfold writeBit
  dsimp only
  split
  · rename_i h7
    refine ⟨⟨by simp, by simp⟩, ?_⟩
    rw [h7] at hb
    simp only [State.written, bytesBits_append, bytesBits_streamOrder, h7, hb, List.append_assoc]
    simp [byteBits]
  · rename_i h7
    refine ⟨⟨by dsimp only; omega, orBit_lt _ _ _ h8 hlt⟩, ?_⟩
    simp only [State.written]
    rw [hb, List.append_assoc]

@[simp] theorem writeList_nil (s : State) : writeList [] s = s := rfl

@[simp] theorem writeList_cons (b : Bool) (bs : List Bool) (s : State) :
    writeList (b :: bs) s = writeList bs (writeBit b s) := rfl

theorem writeList_append (as bs : List Bool) (s : State) :
    writeList (as ++ bs) s = writeList bs (writeList as s) := by
  simp [writeList]

/-- Writing bits changes the writer only. -/
theorem writeList_frame (bits : List Bool) (s : State) :
    ∃ w c k, writeList bits s = { s with wBuf := w, wCnt := c, sink := k } := by
  induction bits generalizing s with
  | nil => exact ⟨s.wBuf, s.wCnt, s.sink, rfl⟩
  | cons b bs ih =>
    obtain ⟨w, c, k, h⟩ := writeBit_frame b s
    rw [writeList_cons, h]
    exact ih _

/-- Writing bits keeps the writer's invariant and appends them in order. -/
theorem writeList_spec (bits : List Bool) (s : State) (h : WriterOk s) :
    WriterOk (writeList bits s) ∧ (writeList bits s).written = s.written ++ bits := by
  induction bits generalizing s with
  | nil => simpa using h
  | cons b bs ih =>
    obtain ⟨hok, hw⟩ := writeBit_spec b s h
    obtain ⟨hok', hw'⟩ := ih _ hok
    exact ⟨hok', by rw [writeList_cons, hw', hw]; simp⟩

/-- The sink only grows. -/
theorem writeList_sink (bits : List Bool) (s : State) : ∃ bytes, (writeList bits s).sink = s.sink ++ bytes := by
  induction bits generalizing s with
  | nil => exact ⟨[], by simp⟩
  | cons b bs ih =>
    obtain ⟨bytes, h⟩ := ih (writeBit b s)
    have : ∃ more, (writeBit b s).sink = s.sink ++ more := by
      unfold writeBit
      dsimp only
      split
      · exact ⟨_, rfl⟩
      · exact ⟨[], by simp⟩
    obtain ⟨more, hm⟩ := this
    exact ⟨more ++ bytes, by rw [writeList_cons, h, hm]; simp⟩

/-- An operation that is a list of bits written, as a statement sees it. -/
theorem wrote_writeList (bits : List Bool) (s : State) (h : WriterOk s) :
    Wrote bits s { writeList bits s with result := .none } := by
  obtain ⟨hok, hw⟩ := writeList_spec bits s h
  refine ⟨hok, hw, ?_⟩
  obtain ⟨w, c, k, hf⟩ := writeList_frame bits s
  rw [hf]

/-- The bits of a code, first to last. -/
theorem codeBits_eq (c l : Nat) : codeBits c l = (List.range l).map fun k => c.testBit (l - 1 - k) := by
  unfold codeBits
  apply List.ext_getElem
  · simp
  · intro k h1 h2
    simp

/-- The padding above the pending bits, seen bit by bit. -/
theorem padding_byteBits (c : Config.Params) (b : Byte) (n : Nat) (hn : n < 8) (hb : b.toNat < 2 ^ n) :
    byteBits 8 (b ||| c.padding n) = byteBits n b ++ List.replicate (8 - n) c.padBit := by
  apply List.ext_getElem
  · simp [byteBits]; omega
  · intro k h1 h2
    have hk : k < 8 := by simpa [byteBits] using h1
    rw [List.getElem_append]
    split
    · rename_i h
      have hkn : k < n := by simpa [byteBits] using h
      simp only [byteBits, List.getElem_map, List.getElem_range, BitVec.getLsbD_or, Config.Params.padding]
      cases c.padBit <;> simp [hkn]
    · rename_i h
      have hkn : n ≤ k := by simpa [byteBits] using h
      simp only [byteBits, List.getElem_map, List.getElem_range, List.getElem_replicate, BitVec.getLsbD_or,
        getLsbD_of_lt hb hkn, Bool.false_or, Config.Params.padding]
      cases c.padBit
      · simp
      · have : (0xFF#8).getLsbD (k - n) = true := by
          have hall : ∀ j < 8, (0xFF#8).getLsbD j = true := by decide
          exact hall _ (by omega)
        simp [hk, Nat.not_lt.2 hkn, this]

/-- BS.FLUSH appends padding up to the byte boundary (R133). -/
theorem flush_spec (s : State) (h : WriterOk s) :
    WriterOk (flush s) ∧ (flush s).written = s.written ++ List.replicate ((8 - s.wCnt) % 8) s.cfg.padBit ∧
      (flush s).wBuf = 0#8 ∧ (flush s).wCnt = 0 := by
  obtain ⟨h8, hlt⟩ := h
  unfold flush
  split
  · rename_i h0
    refine ⟨⟨by simp, by simp⟩, ?_, rfl, rfl⟩
    rw [Nat.mod_eq_of_lt (by omega : 8 - s.wCnt < 8)]
    simp only [State.written, bytesBits_append, bytesBits_streamOrder, padding_byteBits _ _ _ h8 hlt, List.append_assoc]
    simp [byteBits]
  · rename_i h0
    have hz : s.wCnt = 0 := by omega
    have hb : s.wBuf = 0#8 := by
      rw [hz] at hlt
      exact BitVec.eq_of_toNat_eq (by simpa using hlt)
    exact ⟨⟨h8, hlt⟩, by simp [hz], hb, hz⟩

theorem flush_frame (s : State) : ∃ w c k, flush s = { s with wBuf := w, wCnt := c, sink := k } := by
  unfold flush
  split
  · exact ⟨_, _, _, rfl⟩
  · exact ⟨s.wBuf, s.wCnt, s.sink, rfl⟩

/-! ## Reader -/

theorem unread_length (s : State) : s.unread.length = 8 * s.source.length - s.bitPos := by
  simp [State.unread, State.sourceBits, bytesBits_length]

/-- Bit `k` of the source (R60). -/
theorem bytesBits_get (c : Config.Params) (bs : List Byte) (k : Nat) :
    (bytesBits c.bitOrder bs)[k]? = (bs[k / 8]?).map fun b => (c.streamOrder b).getLsbD (k % 8) := by
  induction bs generalizing k with
  | nil => simp [bytesBits]
  | cons b bs ih =>
    have hb : bytesBits c.bitOrder (b :: bs) = byteBits 8 (c.streamOrder b) ++ bytesBits c.bitOrder bs := by
      simp [bytesBits_eq]
    rw [hb]
    by_cases hk : k < 8
    · rw [List.getElem?_append_left (by simpa [byteBits_length] using hk)]
      have h0 : k / 8 = 0 := by omega
      have h1 : k % 8 = k := by omega
      simp [h0, h1, byteBits, hk]
    · rw [List.getElem?_append_right (by simpa [byteBits_length] using hk), byteBits_length, ih]
      obtain ⟨j, rfl⟩ : ∃ j, k = j + 8 := ⟨k - 8, by omega⟩
      have h0 : (j + 8) / 8 = j / 8 + 1 := by omega
      have h1 : (j + 8) % 8 = j % 8 := by omega
      simp [h0, h1]

/-- BS.RBIT (R134) in terms of the bits not yet read. -/
theorem readBit_cons (s : State) (b : Bool) (bs : List Bool) (h : s.unread = b :: bs) :
    readBit s = .ok b { s with bitPos := s.bitPos + 1 } := by
  have h0 : s.unread[0]? = some b := by rw [h]; rfl
  rw [State.unread, List.getElem?_drop, State.sourceBits, Nat.add_zero, bytesBits_get] at h0
  unfold readBit
  cases hs : s.source[s.bitPos / 8]? with
  | none => simp [hs] at h0
  | some x =>
    simp only [hs, Option.map_some, Option.some.injEq] at h0
    simp only [h0]

/-- BS.RBIT at the end of the source (R134, R311). -/
theorem readBit_nil (s : State) (h : s.unread = []) : readBit s = .raised (takeFault .endOfSource 0 s) := by
  have h0 : s.unread[0]? = none := by rw [h]; rfl
  rw [State.unread, List.getElem?_drop, State.sourceBits, Nat.add_zero, bytesBits_get] at h0
  unfold readBit
  cases hs : s.source[s.bitPos / 8]? with
  | none => rfl
  | some x => simp [hs] at h0

theorem unread_advance (s : State) (k : Nat) : ({ s with bitPos := s.bitPos + k } : State).unread = s.unread.drop k := by
  simp [State.unread, State.sourceBits]

/-- BS.RBITS where the source has the bits (R135). -/
theorem readBits_ok (n : Nat) (s : State) (h : n ≤ s.unread.length) :
    readBits n s = .ok (fieldValue (s.unread.take n)) { s with bitPos := s.bitPos + n } := by
  induction n generalizing s with
  | zero => simp [readBits, fieldValue]
  | succ n ih =>
    obtain ⟨b, bs, hu⟩ : ∃ b bs, s.unread = b :: bs := by
      cases hs : s.unread with
      | nil => simp [hs] at h
      | cons b bs => exact ⟨b, bs, rfl⟩
    have hadv : ({ s with bitPos := s.bitPos + 1 } : State).unread = bs := by rw [unread_advance, hu]; rfl
    rw [readBits, readBit_cons s b bs hu, Act.bind_ok, ih _ (by rw [hadv]; rw [hu] at h; simpa using h), Act.bind_ok,
      hadv, hu]
    simp [fieldValue, Nat.add_assoc, Nat.add_comm 1 n]

/-- BS.RBITS where it has not: the bits there are were consumed (R68, R311). -/
theorem readBits_raised (n : Nat) (s : State) (h : s.unread.length < n) :
    readBits n s = .raised (takeFault .endOfSource 0 { s with bitPos := s.bitPos + s.unread.length }) := by
  induction n generalizing s with
  | zero => simp at h
  | succ n ih =>
    cases hs : s.unread with
    | nil => rw [readBits, readBit_nil s hs, Act.bind_raised]; rfl
    | cons b bs =>
      have hadv : ({ s with bitPos := s.bitPos + 1 } : State).unread = bs := by rw [unread_advance, hs]; rfl
      rw [readBits, readBit_cons s b bs hs, Act.bind_ok, ih _ (by rw [hadv]; rw [hs] at h; simpa using h),
        Act.bind_raised, hadv]
      simp [Nat.add_assoc, Nat.add_comm 1 bs.length]

/-- The value of an `n`-bit field is below `2 ^ n`. -/
theorem fieldValue_lt (bits : List Bool) : fieldValue bits < 2 ^ bits.length := by
  induction bits with
  | nil => simp [fieldValue]
  | cons b bs ih =>
    rw [fieldValue, List.length_cons, Nat.pow_succ]
    cases b <;> simp <;> omega

/-- A field written and read back (R136). -/
theorem fieldValue_fieldBits (n v : Nat) : fieldValue (fieldBits n v) = v % 2 ^ n := by
  induction n generalizing v with
  | zero => simp [fieldBits, fieldValue, Nat.mod_one]
  | succ n ih =>
    have : fieldBits (n + 1) v = v.testBit 0 :: fieldBits n (v / 2) := by
      simp only [fieldBits, List.range_succ_eq_map, List.map_cons, List.map_map, List.cons.injEq, true_and]
      apply List.map_congr_left
      intro k _
      simp [Nat.testBit_succ]
    rw [this, fieldValue, ih, Nat.pow_succ, Nat.mul_comm (2 ^ n) 2, Nat.mod_mul, Nat.testBit_zero]
    congr 1
    rcases Nat.mod_two_eq_zero_or_one v with h | h <;> simp [h]

/-- Any reading of bits: it went on with the next `n` bits, or the source ended and it raised. -/
theorem readBits_cases (n : Nat) (s : State) :
    (n ≤ s.unread.length ∧
      readBits n s = .ok (fieldValue (s.unread.take n)) { s with bitPos := s.bitPos + n }) ∨
    (s.unread.length < n ∧
      readBits n s = .raised (takeFault .endOfSource 0 { s with bitPos := s.bitPos + s.unread.length })) := by
  by_cases h : n ≤ s.unread.length
  · exact .inl ⟨h, readBits_ok n s h⟩
  · exact .inr ⟨by omega, readBits_raised n s (by omega)⟩

end Sys2Proof.Machine
end

