-- ==== Sys2Proof/Laws/Guards.lean ====
section
/-! SUPPORT. One lemma for each shared guard and leaf operation: what it answers, said once. -/

namespace Sys2Proof.Machine

/-- A cut pair is in the ranges of R231. -/
@[simp] theorem ClPair.cut_inRange (p : ClPair) : p.cut.inRange = true := by
  cases p <;> simp [ClPair.cut, ClPair.inRange] <;> omega

/-! ## Guards -/

theorem unlessPending_ready {s : State} (h : s.err = none) (k : Out) : unlessPending s k = k := by
  simp [unlessPending, h]

theorem unlessPending_pending {s : State} (h : s.err.isSome = true) (k : Out) :
    unlessPending s k = .refused .errorPending := by simp [unlessPending, h]

/-- The error class is 0 exactly when no error is pending. -/
theorem errClass_ne_zero {s : State} : s.errClass ≠ 0 ↔ s.err.isSome = true := by
  unfold State.errClass
  cases s.err with
  | none => simp
  | some c => cases c <;> simp [Cause.errClass]

theorem needs_filled {bs : List Buffer} {s : State} (h : ∀ b ∈ bs, s.filled.has b = true) (k : Out) :
    needs bs s k = k := by
  have : bs.find? (fun b => !s.filled.has b) = none := List.find?_eq_none.2 fun b hb => by simp [h b hb]
  simp [needs, this]

/-- The two ways out of `needs`: all the buffers are filled, or it is a refusal. -/
theorem needs_cases (bs : List Buffer) (s : State) (k : Out) :
    ((∀ b ∈ bs, s.filled.has b = true) ∧ needs bs s k = k) ∨
    ∃ b ∈ bs, s.filled.has b = false ∧ needs bs s k = .refused (.unfilled b) := by
  cases h : bs.find? (fun b => !s.filled.has b) with
  | none => exact .inl ⟨fun b hb => by simpa using List.find?_eq_none.1 h b hb, by simp [needs, h]⟩
  | some b =>
    exact .inr ⟨b, List.mem_of_find?_eq_some h, by simpa using List.find?_some h, by simp [needs, h]⟩

theorem onAlphabet_some {a : Nat} {x : Alphabet} (h : Alphabet.ofOperand a = some x) (k : Alphabet → Out) :
    onAlphabet a k = k x := by simp [onAlphabet, h]

theorem onAlphabet_three (k : Alphabet → Out) : onAlphabet 3 k = .refused .badAlphabet := rfl

theorem withChunk_placed {n : Nat} {s : State} (h : n ≤ s.cfg.chunkMax) (hd : n ≤ s.data.length) (k : Out) :
    withChunk n s k = k := by
  simp [withChunk, Nat.not_lt.2 h, Nat.not_lt.2 hd]

theorem withChunk_long {n : Nat} {s : State} (h : s.cfg.chunkMax < n) (k : Out) :
    withChunk n s k = .refused .chunkTooLong := by simp [withChunk, h]

theorem withChunk_missing {n : Nat} {s : State} (h : n ≤ s.cfg.chunkMax) (hd : s.data.length < n) (k : Out) :
    withChunk n s k = .refused .chunkNotPlaced := by simp [withChunk, Nat.not_lt.2 h, hd]

theorem withBytes_placed {m : Nat} {s : State} (h : m ≤ s.data.length) (k : Out) : withBytes m s k = k := by
  simp [withBytes, Nat.not_lt.2 h]

theorem withBytes_missing {m : Nat} {s : State} (h : s.data.length < m) (k : Out) :
    withBytes m s k = .refused .chunkNotPlaced := by simp [withBytes, h]

theorem atBlockStart_ready {s : State} (h : s.dstate = .expectHeader) (hp : s.place = .bfinal) (k : Out) :
    atBlockStart s k = k := by simp [atBlockStart, h, hp]

/-- A CLLEN field is written at its place, or the place does not exist (R66). -/
theorem setClLen_cases (k v : Nat) (s : State) :
    (∃ c, s.cfg.clperm[k]? = some c ∧ c < s.clLen.length ∧
      setClLen k v s = .ok () { s with clLen := s.clLen.set c v }) ∨
    ∃ e, setClLen k v s = .fault (.indexOutOfRange e) := by
  unfold setClLen
  split
  · exact .inr ⟨_, rfl⟩
  · rename_i c hc
    split
    · exact .inl ⟨c, hc, ‹_›, rfl⟩
    · exact .inr ⟨_, rfl⟩

/-! ## Filled marks -/

@[simp] theorem filled_setFreqs (a : Alphabet) (fs : List Nat) (s : State) :
    (setFreqs a fs s).filled.has a.freqBuffer = true := by cases a <;> rfl

@[simp] theorem filled_setLens (a : Alphabet) (ls : List Nat) (s : State) :
    (setLens a ls s).filled.has a.lenBuffer = true := by cases a <;> rfl

@[simp] theorem filled_setCodes (a : Alphabet) (cs : CodeArray) (s : State) :
    (setCodes a cs s).filled.has a.codeBuffer = true := by cases a <;> rfl

/-! ## Table rows -/

/-- In a table whose symbols differ a symbol has one row. -/
theorem rowOf_of_nodup {table : List Config.CodeRow} (h : (table.map Config.CodeRow.sym).Nodup) :
    ∀ r ∈ table, rowOf table r.sym = some r := by
  intro r hr
  unfold rowOf
  induction table with
  | nil => cases hr
  | cons q rest ih =>
    rw [List.map_cons, List.nodup_cons] at h
    by_cases hq : q.sym = r.sym
    · rcases List.mem_cons.1 hr with rfl | hr
      · simp
      · exact absurd (hq ▸ List.mem_map_of_mem hr) h.1
    · rcases List.mem_cons.1 hr with rfl | hr
      · exact absurd rfl hq
      · rw [List.find?_cons_of_neg (by simpa using hq)]
        exact ih h.2 hr

/-- A symbol of the code tables has one row. -/
theorem rowOf_mem {c : Config.Params} (h : c.Ok) : (∀ r ∈ c.lenTable, rowOf c.lenTable r.sym = some r) ∧
    ∀ r ∈ c.distTable, rowOf c.distTable r.sym = some r :=
  ⟨rowOf_of_nodup (h.lenTable.1 ▸ List.nodup_range'), rowOf_of_nodup (h.distTable.1 ▸ List.nodup_range)⟩

theorem rowOf_eq_some {table : List Config.CodeRow} {sym : Nat} {r : Config.CodeRow} (h : rowOf table sym = some r) :
    r ∈ table ∧ r.sym = sym :=
  ⟨List.mem_of_find?_eq_some h, by simpa using List.find?_some h⟩

/-- Reverse search gives a row of the table whose base is at most the value. -/
theorem rowFor_eq_some {table : List Config.CodeRow} {v : Nat} {r : Config.CodeRow} (h : rowFor table v = some r) :
    r ∈ table ∧ r.base ≤ v := by
  have := List.mem_of_getLast? h
  simpa using this

/-- Reverse search in a table without gaps: there is a row, and the extra value fits its extra bits. -/
theorem rowFor_spec (bound v : Nat) (r : Config.CodeRow) (rest : List Config.CodeRow)
    (hc : Config.Gapless bound (r :: rest) = true) (hv : r.base ≤ v) (hb : v ≤ bound) :
    ∃ q, rowFor (r :: rest) v = some q ∧ v - q.base < 2 ^ q.extra := by
  induction rest generalizing r with
  | nil =>
    simp only [Config.Gapless, decide_eq_true_eq] at hc
    exact ⟨r, by simp [rowFor, hv], by omega⟩
  | cons q rest ih =>
    simp only [Config.Gapless, Bool.and_eq_true, decide_eq_true_eq] at hc
    obtain ⟨⟨hlt, hle⟩, hrest⟩ := hc
    by_cases hq : q.base ≤ v
    · obtain ⟨p, hp, he⟩ := ih q hrest hq
      refine ⟨p, ?_, he⟩
      have hf : (q :: rest).filter (fun r => r.base ≤ v) = q :: rest.filter (fun r => r.base ≤ v) := by
        rw [List.filter_cons, if_pos (by simpa using hq)]
      unfold rowFor at hp ⊢
      rw [List.filter_cons, if_pos (by simpa using hv), hf, List.getLast?_cons_cons, ← hf]
      exact hp
    · have none : ∀ (q : Config.CodeRow) (l : List Config.CodeRow), Config.Gapless bound (q :: l) = true → v < q.base →
          (q :: l).filter (fun r => r.base ≤ v) = [] := by
        intro q l
        induction l generalizing q with
        | nil => intro _ h; simp; omega
        | cons p l ihl =>
          intro hcov h
          simp only [Config.Gapless, Bool.and_eq_true, decide_eq_true_eq] at hcov
          rw [List.filter_cons, if_neg (by simpa using h)]
          exact ihl p hcov.2 (by omega)
      refine ⟨r, ?_, by omega⟩
      unfold rowFor
      rw [List.filter_cons, if_pos (by simpa using hv), none q rest hrest (by omega)]
      rfl

/-- Every match length has a row of its table, and its extra value fits the row's extra bits. -/
theorem lenRow_spec {c : Config.Params} (hc : c.Ok) (len : Nat) (h : c.minMatch ≤ len) (h' : len ≤ c.maxMatch) :
    ∃ r, lenRow c len = some r ∧ r ∈ c.lenTable ∧ r.base ≤ len ∧ len - r.base < 2 ^ r.extra := by
  obtain ⟨_, hfirst, _, hgap, _⟩ := hc.lenTable
  unfold lenRow
  rw [if_pos ⟨h, h'⟩]
  cases ht : c.lenTable with
  | nil => simp [ht] at hfirst
  | cons r rest =>
    have hb : r.base = c.minMatch := by simpa [ht] using hfirst
    obtain ⟨q, hq, he⟩ := rowFor_spec c.maxMatch len r rest (ht ▸ hgap) (hb ▸ h) h'
    exact ⟨q, hq, (rowFor_eq_some hq).1, (rowFor_eq_some hq).2, he⟩

/-- Every match distance has a row of its table, and its extra value fits the row's extra bits. -/
theorem distRow_spec {c : Config.Params} (hc : c.Ok) (dist : Nat) (h : 1 ≤ dist) (h' : dist ≤ c.wsize) :
    ∃ r, distRow c dist = some r ∧ r ∈ c.distTable ∧ r.base ≤ dist ∧ dist - r.base < 2 ^ r.extra := by
  obtain ⟨_, hfirst, _, hgap, _⟩ := hc.distTable
  unfold distRow
  rw [if_pos ⟨h, h'⟩]
  cases ht : c.distTable with
  | nil => simp [ht] at hfirst
  | cons r rest =>
    have hb : r.base = 1 := by simpa [ht] using hfirst
    obtain ⟨q, hq, he⟩ := rowFor_spec c.wsize dist r rest (ht ▸ hgap) (hb ▸ h) h'
    exact ⟨q, hq, (rowFor_eq_some hq).1, (rowFor_eq_some hq).2, he⟩

/-! ## Copies and records -/

/-- `len` bytes from `start` on, each read after the earlier ones were appended (R181). -/
theorem copyFrom_spec (start len : Nat) (out : List Byte) (h : start < out.length) :
    ∃ copy, copy.length = len ∧ copyFrom start len out = out ++ copy ∧
      ∀ k, k < copy.length → copy[k]? = (out ++ copy)[start + k]? := by
  induction len generalizing start out with
  | zero => exact ⟨[], rfl, by simp [copyFrom], by simp⟩
  | succ n ih =>
    have hx : out[start]? = some out[start] := List.getElem?_eq_getElem h
    obtain ⟨copy, h1, h2, h3⟩ := ih (start + 1) (out ++ [out[start]]) (by simp; omega)
    refine ⟨out[start] :: copy, by simp [h1], by rw [copyFrom, hx]; simpa using h2, ?_⟩
    intro k hk
    cases k with
    | zero => simp [List.getElem?_append_left h, hx]
    | succ k =>
      have := h3 k (by simpa using hk)
      rw [List.getElem?_cons_succ, this, show start + 1 + k = start + (k + 1) by omega]
      simp

/-- The copy of a match whose distance stays in the output. -/
theorem copyMatch_spec (dist len : Nat) (s : State) (h : 1 ≤ dist) (hd : dist ≤ s.out.length) :
    ∃ copy, copy.length = len ∧ IsCopy dist s.out copy ∧ copyMatch dist len s = { s with out := s.out ++ copy } := by
  obtain ⟨copy, h1, h2, h3⟩ := copyFrom_spec (s.out.length - dist) len s.out (by omega)
  exact ⟨copy, h1, h3, by simp [copyMatch, h2]⟩

/-- One record decoded: expanded when its distance stays in the output, else DistanceTooFar (R180, R310). -/
theorem lzStep_cases (r : MatchRecord) (s : State) :
    ((0 < r.length → 1 ≤ r.offset ∧ r.offset ≤ s.out.length) ∧
      ∃ copy, copy.length = r.length ∧ IsCopy r.offset s.out copy ∧
        lzStep r s = .ok () { s with out := s.out ++ copy ++ if r.hasLit then [r.lit] else [] }) ∨
    (0 < r.length ∧ (r.offset < 1 ∨ s.out.length < r.offset) ∧
      lzStep r s = .raised (takeFault .distanceTooFar r.offset s)) := by
  unfold lzStep
  by_cases hl : 0 < r.length
  · by_cases ho : r.offset < 1 ∨ s.out.length < r.offset
    · exact .inr ⟨hl, ho, by simp only [hl, ho, if_true]; rfl⟩
    · have h1 : 1 ≤ r.offset ∧ r.offset ≤ s.out.length := by omega
      obtain ⟨copy, hc, hi, he⟩ := copyMatch_spec r.offset r.length s h1.1 h1.2
      refine .inl ⟨fun _ => h1, copy, hc, hi, ?_⟩
      simp only [hl, ho, if_true, if_false, he]
      cases r.hasLit <;> simp
  · refine .inl ⟨fun h => absurd h hl, [], ?_, fun k hk => by simp at hk, ?_⟩
    · simp; omega
    · simp only [hl, if_false]
      cases r.hasLit <;> simp

/-! ## Run-length steps -/

/-- One pair expanded onto the sequence, or its fault (R234). -/
theorem rleStep_cases (total : Nat) (p : ClPair) (s : State) :
    (∃ ls, expandPairs [p] s.seq = some ls ∧ ((∃ v, p = .len v) ∨ ls.length ≤ total) ∧
      rleStep total p s = .ok () { s with seq := ls }) ∨
    (expandPairs [p] s.seq = none ∧ rleStep total p s = .raised (takeFault .repeatNoPrevious 16 s)) ∨
    (∃ ls, expandPairs [p] s.seq = some ls ∧ total < ls.length ∧ (∀ v, p ≠ .len v) ∧
      rleStep total p s = .raised (takeFault .repeatOverrun p.sym s)) := by
  have run : ∀ sym r v, (∃ ls, s.seq ++ List.replicate r v = ls ∧ ls.length ≤ total ∧
        appendRun total sym r v s = .ok () { s with seq := ls }) ∨
      (∃ ls, s.seq ++ List.replicate r v = ls ∧ total < ls.length ∧
        appendRun total sym r v s = .raised (takeFault .repeatOverrun sym s)) := by
    intro sym r v
    by_cases h : total < s.seq.length + r
    · exact .inr ⟨_, rfl, by simpa using h, by simp only [appendRun, h, if_true]; rfl⟩
    · exact .inl ⟨_, rfl, by simpa using h, by simp only [appendRun, h, if_false]⟩
  cases p with
  | len v => exact .inl ⟨_, rfl, .inl ⟨v, rfl⟩, rfl⟩
  | rep x =>
    cases h : s.seq.getLast? with
    | none => exact .inr (.inl ⟨by simp [expandPairs, h], by simp only [rleStep, h]; rfl⟩)
    | some v =>
      rcases run 16 (3 + x) v with ⟨ls, h1, h2, h3⟩ | ⟨ls, h1, h2, h3⟩
      · exact .inl ⟨ls, by simp [expandPairs, h, h1], .inr h2, by simp only [rleStep, h, h3]⟩
      · exact .inr (.inr ⟨ls, by simp [expandPairs, h, h1], h2, fun _ => by simp, by simp only [rleStep, h, h3]; rfl⟩)
  | z3 x =>
    rcases run 17 (3 + x) 0 with ⟨ls, h1, h2, h3⟩ | ⟨ls, h1, h2, h3⟩
    · exact .inl ⟨ls, by simp [expandPairs, h1], .inr h2, by simp only [rleStep, h3]⟩
    · exact .inr (.inr ⟨ls, by simp [expandPairs, h1], h2, fun _ => by simp, by simp only [rleStep, h3]; rfl⟩)
  | z11 x =>
    rcases run 18 (11 + x) 0 with ⟨ls, h1, h2, h3⟩ | ⟨ls, h1, h2, h3⟩
    · exact .inl ⟨ls, by simp [expandPairs, h1], .inr h2, by simp only [rleStep, h3]⟩
    · exact .inr (.inr ⟨ls, by simp [expandPairs, h1], h2, fun _ => by simp, by simp only [rleStep, h3]; rfl⟩)

/-! ## Merging -/

theorem mergeItems_nil (bs : List Item) : mergeItems [] bs = bs := rfl

theorem mergeItems_nil_right (as : List Item) : mergeItems as [] = as := by
  induction as with
  | nil => rfl
  | cons a as ih => simp [mergeItems, mergeFrom, ih]

/-- Of the two next items the lighter is taken, on equal weights the leaf. -/
theorem mergeItems_cons (a b : Item) (as bs : List Item) :
    mergeItems (a :: as) (b :: bs) =
      if a.weight ≤ b.weight then a :: mergeItems as (b :: bs) else b :: mergeItems (a :: as) bs := rfl

/-! ## Symbol decode -/

/-- The accumulator after `bits`, most significant first. -/
def accumulate (acc : Nat) (bits : List Bool) : Nat := bits.foldl (fun v b => 2 * v + b.toNat) acc

theorem codeValue_eq (bits : List Bool) : codeValue bits = accumulate 0 bits := rfl

/-- The symbol-decode loop: the first length at which the bits read are a code; or no such length within the bits
allowed; or the end of the source before (R210). -/
theorem symDecLoop_cases (codes : CodeArray) (fuel : Nat) (s : State) :
    let acc (l : Nat) := accumulate s.acc (s.unread.take l)
    (∃ sym l, 1 ≤ l ∧ l ≤ fuel ∧ l ≤ s.unread.length ∧ findCode codes (acc l) (s.accLen + l) = some sym ∧
      (∀ m, 1 ≤ m → m < l → findCode codes (acc m) (s.accLen + m) = none) ∧
      symDecLoop codes fuel s =
        .ok sym { s with bitPos := s.bitPos + l, acc := acc l, accLen := s.accLen + l }) ∨
    ((∀ m, 1 ≤ m → m ≤ min fuel s.unread.length → findCode codes (acc m) (s.accLen + m) = none) ∧
      ((fuel ≤ s.unread.length ∧
        symDecLoop codes fuel s =
          .raised (takeFault .noCodeMatch (acc fuel)
            { s with bitPos := s.bitPos + fuel, acc := acc fuel, accLen := s.accLen + fuel })) ∨
      (s.unread.length < fuel ∧
        ∃ v k, symDecLoop codes fuel s =
          .raised (takeFault .endOfSource 0
            { s with bitPos := s.bitPos + s.unread.length, acc := v, accLen := k })))) := by
  intro acc
  induction fuel generalizing s with
  | zero => exact .inr ⟨fun m h1 h2 => by omega, .inl ⟨Nat.zero_le _, rfl⟩⟩
  | succ fuel ih =>
    cases hu : s.unread with
    | nil =>
      refine .inr ⟨fun m h1 h2 => by simp at h2; omega, .inr ⟨by simp, s.acc, s.accLen, ?_⟩⟩
      simp only [symDecLoop, readBit_nil s hu, Act.bind_raised]
      rfl
    | cons b bs =>
      let u : State := { s with bitPos := s.bitPos + 1, acc := 2 * s.acc + b.toNat, accLen := s.accLen + 1 }
      have huu : u.unread = bs := by
        have := unread_advance s 1
        rw [hu] at this
        exact this
      have hacc : ∀ l, accumulate s.acc (s.unread.take (l + 1)) = accumulate u.acc (u.unread.take l) := fun l => by
        rw [hu, huu]; rfl
      have hlen : ∀ l, s.accLen + (l + 1) = u.accLen + l := fun l => by simp only [u]; omega
      have hpos : ∀ l, s.bitPos + (l + 1) = u.bitPos + l := fun l => by simp only [u]; omega
      have hstep : symDecLoop codes (fuel + 1) s =
          match findCode codes u.acc u.accLen with
          | some sym => .ok sym u
          | none => symDecLoop codes fuel u := by
        simp only [symDecLoop, readBit_cons s b bs hu, Act.bind_ok]
        rfl
      have h1 : acc 1 = u.acc := hacc 0
      cases hf : findCode codes u.acc u.accLen with
      | some sym =>
        refine .inl ⟨sym, 1, le_refl _, by omega, by simp, by rw [h1]; exact hf, fun m h1 h2 => by omega, ?_⟩
        rw [hstep, hf, h1]
      | none =>
        rw [hstep, hf]
        have none_at : ∀ m, 1 ≤ m → (∀ k, 1 ≤ k → k < m → findCode codes (accumulate u.acc (u.unread.take k))
            (u.accLen + k) = none) → ∀ k, 1 ≤ k → k < m + 1 → findCode codes (acc k) (s.accLen + k) = none := by
          intro m _ hm k hk hk'
          obtain ⟨k, rfl⟩ : ∃ j, k = j + 1 := ⟨k - 1, by omega⟩
          rw [show acc (k + 1) = _ from hacc k, hlen k]
          rcases Nat.eq_zero_or_pos k with rfl | hk0
          · exact hf
          · exact hm k hk0 (by omega)
        rcases ih u with ⟨sym, l, hl1, hl2, hl3, hl4, hl5, hl6⟩ | ⟨hn, h⟩
        · refine .inl ⟨sym, l + 1, by omega, by omega, by simpa [huu] using hl3, ?_, ?_, ?_⟩
          · rw [show acc (l + 1) = _ from hacc l, hlen l]; exact hl4
          · exact none_at l hl1 hl5
          · rw [show acc (l + 1) = _ from hacc l, hlen l, hpos l]; exact hl6
        · refine .inr ⟨?_, ?_⟩
          · intro m hm1 hm2
            refine none_at m hm1 (fun k hk1 hk2 => hn k hk1 ?_) m hm1 (by omega)
            simp only [huu, List.length_cons] at hm2 ⊢
            omega
          · rcases h with ⟨h1, h2⟩ | ⟨h1, v, k, h2⟩
            · refine .inl ⟨by simpa [huu] using h1, ?_⟩
              rw [show acc (fuel + 1) = _ from hacc fuel, hlen fuel, hpos fuel]; exact h2
            · refine .inr ⟨by simpa [huu] using h1, v, k, ?_⟩
              rw [List.length_cons, hpos bs.length, ← huu]; exact h2

end Sys2Proof.Machine
end

