-- ==== Sys2Proof/Laws/Memory.lean ====
section
/-! SUPPORT. The laws of the sparse arrays: every operation keeps the canonical form and the index bound, and a read
after a write gives the value written there and the old one anywhere else. -/

namespace Sys2Proof.Machine

/-- Every listed index is above `i`: what the tail of a canonical array has. -/
def Memory.above (i : Nat) (m : Memory) : Prop := ∀ e ∈ m, i < e.1

theorem Memory.wf_cons (i x : Nat) (m : Memory) :
    Memory.wf ((i, x) :: m) = true ↔ Memory.above i m ∧ Memory.wf m = true := by
  induction m generalizing i x with
  | nil => simp [Memory.wf, Memory.above]
  | cons e m ih =>
    obtain ⟨j, y⟩ := e
    rw [Memory.wf, Bool.and_eq_true, decide_eq_true_eq]
    constructor
    · rintro ⟨hij, hm⟩
      refine ⟨?_, hm⟩
      intro e he
      rcases List.mem_cons.mp he with rfl | he
      · exact hij
      · exact lt_trans hij (((ih j y).mp hm).1 e he)
    · rintro ⟨ha, hm⟩
      exact ⟨ha (j, y) (List.mem_cons_self ..), hm⟩

theorem Memory.read_of_above (i : Nat) (m : Memory) (h : Memory.above i m) : Memory.read m i = none := by
  induction m with
  | nil => rfl
  | cons e m ih =>
    obtain ⟨j, y⟩ := e
    have hij : i < j := h (j, y) (List.mem_cons_self ..)
    have : i ≠ j := Nat.ne_of_lt hij
    simp only [Memory.read, this, if_false]
    exact ih fun e he => h e (List.mem_cons_of_mem _ he)

/-- A write lists no index but the old ones and its own. -/
theorem Memory.mem_write (i : Nat) (v : Option Nat) (m : Memory) (e : Nat × Nat) (h : e ∈ Memory.write m i v) :
    e.1 = i ∨ e ∈ m := by
  induction m with
  | nil => cases v <;> simp_all [Memory.write]
  | cons f m ih =>
    obtain ⟨j, y⟩ := f
    cases v with
    | none =>
      simp only [Memory.write] at h
      split at h
      · exact .inr h
      · split at h
        · exact .inr (List.mem_cons_of_mem _ h)
        · rcases List.mem_cons.mp h with rfl | h
          · exact .inr (List.mem_cons_self ..)
          · exact (ih h).imp id (List.mem_cons_of_mem _)
    | some p =>
      simp only [Memory.write] at h
      split at h
      · rcases List.mem_cons.mp h with rfl | h
        · exact .inl rfl
        · exact .inr h
      · split at h
        · rcases List.mem_cons.mp h with rfl | h
          · exact .inl rfl
          · exact .inr (List.mem_cons_of_mem _ h)
        · rcases List.mem_cons.mp h with rfl | h
          · exact .inr (List.mem_cons_self ..)
          · exact (ih h).imp id (List.mem_cons_of_mem _)

/-- A write keeps the canonical form. -/
theorem Memory.wf_write (i : Nat) (v : Option Nat) (m : Memory) (h : Memory.wf m = true) :
    Memory.wf (Memory.write m i v) = true := by
  induction m with
  | nil => cases v <;> rfl
  | cons f m ih =>
    obtain ⟨j, y⟩ := f
    have hc := (Memory.wf_cons j y m).mp h
    by_cases hij : i < j
    · cases v with
      | none => simpa [Memory.write, hij] using h
      | some p =>
        simp only [Memory.write, hij, if_true]
        refine (Memory.wf_cons i p _).mpr ⟨?_, h⟩
        intro e he
        rcases List.mem_cons.mp he with rfl | he
        · exact hij
        · exact lt_trans hij (hc.1 e he)
    · by_cases hji : i = j
      · subst hji
        cases v with
        | none => simpa [Memory.write] using hc.2
        | some p =>
          simp only [Memory.write, lt_irrefl, if_false, if_true]
          exact (Memory.wf_cons i p m).mpr hc
      · have hlt : j < i := by omega
        have : Memory.write ((j, y) :: m) i v = (j, y) :: Memory.write m i v := by
          cases v <;> simp [Memory.write, hij, hji]
        rw [this]
        refine (Memory.wf_cons j y _).mpr ⟨?_, ih hc.2⟩
        intro e he
        rcases Memory.mem_write i v m e he with he | he
        · omega
        · exact hc.1 e he

/-- A write at an index below the bound keeps the bound. -/
theorem Memory.below_write (bound i : Nat) (v : Option Nat) (m : Memory) (h : Memory.below bound m) (hi : i < bound) :
    Memory.below bound (Memory.write m i v) := by
  intro e he
  rcases Memory.mem_write i v m e he with he | he
  · omega
  · exact h e he

/-- A read after a write. -/
theorem Memory.read_write (i k : Nat) (v : Option Nat) (m : Memory) (h : Memory.wf m = true) :
    Memory.read (Memory.write m i v) k = if k = i then v else Memory.read m k := by
  induction m with
  | nil => cases v <;> by_cases hk : k = i <;> simp [Memory.write, Memory.read, hk]
  | cons f m ih =>
    obtain ⟨j, y⟩ := f
    have hc := (Memory.wf_cons j y m).mp h
    by_cases hij : i < j
    · cases v with
      | none =>
        by_cases hk : k = i
        · subst hk
          have := Memory.read_of_above k ((j, y) :: m) (by
            intro e he
            rcases List.mem_cons.mp he with rfl | he
            · exact hij
            · exact lt_trans hij (hc.1 e he))
          simpa [Memory.write, hij] using this
        · simp [Memory.write, hij, hk]
      | some p => by_cases hk : k = i <;> simp [Memory.write, Memory.read, hij, hk]
    · by_cases hji : i = j
      · subst hji
        cases v with
        | none =>
          by_cases hk : k = i
          · subst hk
            simpa [Memory.write] using Memory.read_of_above k m hc.1
          · simp [Memory.write, Memory.read, hk]
        | some p => by_cases hk : k = i <;> simp [Memory.write, Memory.read, hk]
      · have hw : Memory.write ((j, y) :: m) i v = (j, y) :: Memory.write m i v := by
          cases v <;> simp [Memory.write, hij, hji]
        rw [hw]
        by_cases hk : k = j
        · have : k ≠ i := by omega
          simp [Memory.read, hk, show j ≠ i by omega]
        · simp [Memory.read, hk, ih hc.2]

/-- Any listing gives a canonical array within the bound. -/
theorem Memory.ofList_wf (bound : Nat) (es : List (Nat × Nat)) :
    Memory.wf (Memory.ofList bound es) = true ∧ Memory.below bound (Memory.ofList bound es) := by
  suffices H : ∀ m : Memory, Memory.wf m = true ∧ Memory.below bound m →
      Memory.wf (es.foldl (fun m e => if e.1 < bound then Memory.write m e.1 (some e.2) else m) m) = true ∧
      Memory.below bound (es.foldl (fun m e => if e.1 < bound then Memory.write m e.1 (some e.2) else m) m) from
    H [] ⟨rfl, by intro e he; simp at he⟩
  induction es with
  | nil => exact fun m h => h
  | cons e es ih =>
    intro m h
    apply ih
    dsimp only
    split
    · exact ⟨Memory.wf_write _ _ _ h.1, Memory.below_write _ _ _ _ h.2 ‹_›⟩
    · exact h

/-- The arrays of the state after reset. -/
theorem Memory.reset_wf : Memory.wf State.reset.hashHead = true ∧ Memory.wf State.reset.prev = true := ⟨rfl, rfl⟩

/-- The hash is an index of `hashHead` (R172). -/
theorem hashOf_lt (c : Config.Params) (h : c.hashSize = 2 ^ 16) (x y z : Byte) : c.hashOf x y z < c.hashSize := by
  unfold Config.Params.hashOf
  split
  · rw [h]
    exact lt_of_le_of_lt Nat.and_le_right (by norm_num)
  · exact Nat.mod_lt _ (by rw [h]; norm_num)

end Sys2Proof.Machine
end

