-- ==== Sys2Proof/Laws/Frames.lean ====
section
/-! SUPPORT. What the shared operations change and what they never do: the reading operations move the cursor forward
and touch no unit but the decoder's; the writing ones touch the writer only and raise nothing; the matcher keeps its
chains canonical. -/

namespace Sys2Proof.Machine

/-! ## Reading operations -/

/-- `t` is `s` after reading: the cursor has not moved back, and only the decoder's own registers, its buffers and its
output may differ. No error is recorded. -/
def Advances (s t : State) : Prop :=
  s.bitPos ≤ t.bitPos ∧
  t = { s with
    toBuffers := t.toBuffers, hlit := t.hlit, hdist := t.hdist, hclen := t.hclen, bitPos := t.bitPos
    dstate := t.dstate, bfinal := t.bfinal, btype := t.btype, out := t.out, decoded := t.decoded, place := t.place
    filled := t.filled, fresh := t.fresh }

theorem Advances.refl (s : State) : Advances s s := ⟨le_refl _, rfl⟩

theorem Advances.trans {s t u : State} (h : Advances s t) (h' : Advances t u) : Advances s u := by
  refine ⟨h.1.trans h'.1, ?_⟩
  have h1 := h.2
  have h2 := h'.2
  generalize t.toBuffers = tb at h1
  generalize t.hlit = a1 at h1
  generalize t.hdist = a2 at h1
  generalize t.hclen = a3 at h1
  generalize t.bitPos = a4 at h1
  generalize t.dstate = a5 at h1
  generalize t.bfinal = a6 at h1
  generalize t.btype = a7 at h1
  generalize t.out = a8 at h1
  generalize t.decoded = a9 at h1
  generalize t.place = a10 at h1
  generalize t.filled = a11 at h1
  generalize t.fresh = a12 at h1
  subst h1
  exact h2

/-- What a step inside a reading operation leaves: it has advanced, or it has raised from a state to which it had
advanced. -/
def Act.Reads {α : Type} (s : State) : Act α → Prop
  | .ok _ t => Advances s t
  | .raised t => ∃ c v u, Advances s u ∧ t = takeFault c v u
  | .fault _ => True

theorem Act.Reads.of_advances {α : Type} {s t : State} {x : Act α} (h : Advances s t) (hx : x.Reads t) : x.Reads s := by
  cases x with
  | ok a u => exact h.trans hx
  | raised u => obtain ⟨c, v, w, hw, rfl⟩ := hx; exact ⟨c, v, w, h.trans hw, rfl⟩
  | fault e => trivial

theorem Act.Reads.bind {α β : Type} {s : State} {x : Act α} {f : α → State → Act β} (hx : x.Reads s)
    (hf : ∀ a t, x = .ok a t → (f a t).Reads t) : (x.bind f).Reads s := by
  cases x with
  | ok a t => exact Act.Reads.of_advances hx (hf a t rfl)
  | raised t => exact hx
  | fault e => trivial

theorem raise_reads {α : Type} (c : Cause) (v : Nat) (s : State) : (raise c v s : Act α).Reads s :=
  ⟨c, v, s, .refl s, rfl⟩

theorem readBit_reads (s : State) : (readBit s).Reads s := by
  unfold readBit
  split
  · exact raise_reads ..
  · exact ⟨Nat.le_succ _, rfl⟩

theorem readBits_reads (n : Nat) (s : State) : (readBits n s).Reads s := by
  induction n generalizing s with
  | zero => exact .refl s
  | succ n ih => exact (readBit_reads s).bind fun _ t _ => (ih t).bind fun _ u _ => .refl u

theorem symDecLoop_reads (codes : CodeArray) (fuel : Nat) (s : State) : (symDecLoop codes fuel s).Reads s := by
  induction fuel generalizing s with
  | zero => exact raise_reads ..
  | succ fuel ih =>
    refine (readBit_reads s).bind fun b t _ => ?_
    have h : Advances t { t with acc := 2 * t.acc + b.toNat, accLen := t.accLen + 1 } := ⟨le_refl _, rfl⟩
    dsimp only
    split
    · exact h
    · exact (ih _).of_advances h

theorem symDec_reads (a : Alphabet) (s : State) : (symDec a s).Reads s :=
  (symDecLoop_reads ..).of_advances (t := { s with acc := 0, accLen := 0 }) ⟨le_refl _, rfl⟩

theorem appendRun_reads (total sym r v : Nat) (s : State) : (appendRun total sym r v s).Reads s := by
  unfold appendRun
  split
  · exact raise_reads ..
  · exact ⟨le_refl _, rfl⟩

theorem rleStep_reads (total : Nat) (p : ClPair) (s : State) : (rleStep total p s).Reads s := by
  unfold rleStep
  split
  · exact ⟨le_refl _, rfl⟩
  · split
    · exact raise_reads ..
    · exact appendRun_reads ..
  · exact appendRun_reads ..
  · exact appendRun_reads ..

theorem clSymbol_reads (c : Nat) (s : State) : (clSymbol c s).Reads s := by
  unfold clSymbol
  split
  · exact rleStep_reads ..
  · split
    · split
      · exact raise_reads ..
      · exact (readBits_reads ..).bind fun _ _ _ => rleStep_reads ..
    · split <;> exact (readBits_reads ..).bind fun _ _ _ => rleStep_reads ..

theorem readClLens_reads (k count : Nat) (s : State) : (readClLens k count s).Reads s := by
  induction count generalizing k s with
  | zero => exact .refl s
  | succ count ih =>
    refine (readBits_reads ..).bind fun v t _ => ?_
    rcases setClLen_cases k v t with ⟨c, _, _, h⟩ | ⟨e, h⟩ <;> rw [h]
    · exact (ih (k + 1) _).of_advances ⟨le_refl _, rfl⟩
    · trivial

theorem readSeq_reads (fuel : Nat) (s : State) : (readSeq fuel s).Reads s := by
  induction fuel generalizing s with
  | zero => exact .refl s
  | succ fuel ih =>
    unfold readSeq
    split
    · exact (symDec_reads ..).bind fun _ t _ => (clSymbol_reads ..).bind fun _ u _ => ih u
    · exact .refl s

theorem hdrRead_reads (s : State) : (hdrRead s).Reads s := by
  refine (readBits_reads ..).bind fun v s _ => ?_
  refine ((readBits_reads ..).bind fun v s _ => ?_).of_advances (t := setHlit v s) ⟨le_refl _, rfl⟩
  refine ((readBits_reads ..).bind fun v s _ => ?_).of_advances (t := setHdist v s) ⟨le_refl _, rfl⟩
  refine ((readClLens_reads ..).bind fun _ s _ => ?_).of_advances (t := setHclen v s) ⟨le_refl _, rfl⟩
  refine ((readSeq_reads ..).bind fun _ s _ => ?_).of_advances (t := beginSeq s) ⟨le_refl _, rfl⟩
  exact ⟨le_refl _, rfl⟩

theorem readExtra_reads (table : List Config.CodeRow) (sym : Nat) (s : State) : (readExtra table sym s).Reads s := by
  unfold readExtra
  split
  · trivial
  · exact (readBits_reads ..).bind fun _ t _ => .refl t

theorem symbolLoop_reads (fuel : Nat) (s : State) : (symbolLoop fuel s).Reads s := by
  induction fuel generalizing s with
  | zero => exact raise_reads ..
  | succ fuel ih =>
    refine (symDec_reads ..).bind fun sym s _ => ?_
    split
    · exact (ih _).of_advances ⟨le_refl _, rfl⟩
    · split
      · exact .refl s
      · split
        · exact raise_reads ..
        · refine (readExtra_reads ..).bind fun len s _ => (symDec_reads ..).bind fun d s _ => ?_
          split
          · exact raise_reads ..
          · refine (readExtra_reads ..).bind fun dist s _ => ?_
            split
            · exact raise_reads ..
            · refine ((symDec_reads ..).bind fun t s _ => ?_).of_advances (t := copyMatch dist len s) ⟨le_refl _, rfl⟩
              split
              · exact (ih _).of_advances ⟨le_refl _, rfl⟩
              · split
                · exact ⟨le_refl _, rfl⟩
                · exact raise_reads ..

theorem dynamicBlock_reads (s : State) : (dynamicBlock s).Reads s := by
  refine ((hdrRead_reads ..).bind fun _ t _ => ?_).of_advances
    (t := { s with btype := 2, dstate := .dynamicHuffman }) ⟨le_refl _, rfl⟩
  refine ((symbolLoop_reads ..).bind fun _ u _ => ?_).of_advances (t := beginData t) ⟨le_refl _, rfl⟩
  exact ⟨le_refl _, rfl⟩

/-- BLK.DEC reads, or raises from a state it read up to. -/
theorem blkDec_reads (s : State) : (blkDec s).Reads s := by
  refine (readBits_reads ..).bind fun f s _ => ?_
  refine ((readBits_reads ..).bind fun t s _ => ?_).of_advances (t := { s with bfinal := f = 1 }) ⟨le_refl _, rfl⟩
  split
  · exact ⟨le_refl _, rfl⟩
  · split
    · exact Act.Reads.of_advances (t := { s with btype := 1, dstate := .fixedHuffman }) ⟨le_refl _, rfl⟩
        (raise_reads ..)
    · split
      · exact Act.Reads.of_advances (t := { s with btype := 3 }) ⟨le_refl _, rfl⟩ (raise_reads ..)
      · exact dynamicBlock_reads s

/-- STRM.DEC reads, or raises from a state it read up to. -/
theorem strmDec_reads (fuel : Nat) (s : State) : (strmDec fuel s).Reads s := by
  induction fuel generalizing s with
  | zero => exact raise_reads ..
  | succ fuel ih =>
    refine (blkDec_reads s).bind fun _ t _ => ?_
    split
    · exact ih t
    · exact .refl t

theorem lzStep_reads (r : MatchRecord) (s : State) : (lzStep r s).Reads s := by
  rcases lzStep_cases r s with ⟨_, copy, _, _, h⟩ | ⟨_, _, h⟩ <;> rw [h]
  · exact ⟨le_refl _, rfl⟩
  · exact raise_reads ..

theorem lzDecode_reads (s : State) : (lzDecode s).Reads s := by
  have steps : ∀ rs t, (lzSteps rs t).Reads t := by
    intro rs
    induction rs with
    | nil => exact fun t => .refl t
    | cons r rs ih => exact fun t => (lzStep_reads r t).bind fun _ u _ => ih u
  exact (steps ..).of_advances (t := { s with out := [] }) ⟨le_refl _, rfl⟩

/-! ## Writing operations -/

/-- `t` is `s` after writing: only the writer and the sink may differ, the sink has only grown, and a writer between
operations is one again. -/
def Appends (s t : State) : Prop :=
  (WriterOk s → WriterOk t) ∧ (∃ bytes, t.sink = s.sink ++ bytes) ∧
  t = { s with wBuf := t.wBuf, wCnt := t.wCnt, sink := t.sink }

theorem Appends.refl (s : State) : Appends s s := ⟨id, ⟨[], by simp⟩, rfl⟩

theorem Appends.trans {s t u : State} (h : Appends s t) (h' : Appends t u) : Appends s u := by
  obtain ⟨b, hb⟩ := h.2.1
  obtain ⟨c, hc⟩ := h'.2.1
  refine ⟨fun w => h'.1 (h.1 w), ⟨b ++ c, by rw [hc, hb, List.append_assoc]⟩, ?_⟩
  have h1 := h.2.2
  have h2 := h'.2.2
  generalize t.wBuf = a1 at h1
  generalize t.wCnt = a2 at h1
  generalize t.sink = a3 at h1
  subst h1
  exact h2

theorem writeList_appends (bits : List Bool) (s : State) : Appends s (writeList bits s) := by
  refine ⟨fun h => (writeList_spec bits s h).1, writeList_sink bits s, ?_⟩
  obtain ⟨w, c, k, h⟩ := writeList_frame bits s
  rw [h]

/-- What a step inside a writing operation leaves: it has appended, or it is a fault of the model; it never raises
(R302). -/
def Act.Writes {α : Type} (s : State) : Act α → Prop
  | .ok _ t => Appends s t
  | .raised _ => False
  | .fault _ => True

theorem Act.Writes.of_appends {α : Type} {s t : State} {x : Act α} (h : Appends s t) (hx : x.Writes t) :
    x.Writes s := by
  cases x with
  | ok a u => exact h.trans hx
  | raised u => exact hx
  | fault e => trivial

theorem Act.Writes.bind {α β : Type} {s : State} {x : Act α} {f : α → State → Act β} (hx : x.Writes s)
    (hf : ∀ a t, x = .ok a t → (f a t).Writes t) : (x.bind f).Writes s := by
  cases x with
  | ok a t => exact Act.Writes.of_appends hx (hf a t rfl)
  | raised t => exact hx
  | fault e => trivial

/-- A symbol's code is written, or the symbol has none. -/
theorem emitCode_cases (a : Alphabet) (sym : Nat) (s : State) :
    (∃ c l, (s.codes a)[sym]? = some (some (c, l)) ∧ emitCode a sym s = .ok () (writeCode c l s)) ∨
    ((∀ c l, (s.codes a)[sym]? ≠ some (some (c, l))) ∧ emitCode a sym s = .fault (.absentCode a sym)) := by
  unfold emitCode
  split
  · rename_i c l h
    exact .inl ⟨c, l, h, rfl⟩
  · rename_i h
    exact .inr ⟨fun c l e => h c l e, rfl⟩

theorem emitCode_writes (a : Alphabet) (sym : Nat) (s : State) : (emitCode a sym s).Writes s := by
  rcases emitCode_cases a sym s with ⟨c, l, _, h⟩ | ⟨_, h⟩ <;> rw [h]
  · exact writeList_appends ..
  · trivial

theorem writePairs_writes (ps : List ClPair) (s : State) : (writePairs ps s).Writes s := by
  induction ps generalizing s with
  | nil => exact .refl s
  | cons p ps ih =>
    exact (emitCode_writes ..).bind fun _ t _ => (ih _).of_appends (writeList_appends ..)

theorem writeClLens_writes (cs : List Nat) (s : State) : (writeClLens cs s).Writes s := by
  induction cs generalizing s with
  | nil => exact .refl s
  | cons c cs ih =>
    unfold writeClLens
    split
    · trivial
    · exact (ih _).of_appends (writeList_appends ..)

/-- HDR.WRITE touches the writer only. -/
theorem hdrWrite_writes (s : State) : (hdrWrite s).Writes s := by
  unfold hdrWrite
  dsimp only
  have h1 : Appends s (writeBits 4 s.hclen (writeBits 5 s.hdist (writeBits 5 s.hlit (writeBits 2 2
      (writeBits 1 s.bfinal.toNat s))))) :=
    (((((writeList_appends _ s).trans (writeList_appends ..)).trans (writeList_appends ..)).trans
      (writeList_appends ..)).trans (writeList_appends ..))
  exact Act.Writes.of_appends h1 ((writeClLens_writes ..).bind fun _ _ _ => writePairs_writes ..)

theorem emitRecord_writes (r : MatchRecord) (s : State) : (emitRecord r s).Writes s := by
  have lit : ∀ t, (if r.hasLit then emitCode .litlen r.lit.toNat t else .ok () t : Act Unit).Writes t := by
    intro t
    split
    · exact emitCode_writes ..
    · exact .refl t
  unfold emitRecord
  dsimp only
  split
  · split
    · exact (emitCode_writes ..).bind fun _ t _ =>
        ((emitCode_writes ..).bind fun _ u _ => (lit _).of_appends (writeList_appends ..)).of_appends
          (writeList_appends ..)
    · trivial
  · exact lit s

theorem emitRecords_writes (rs : List MatchRecord) (s : State) : (emitRecords rs s).Writes s := by
  induction rs generalizing s with
  | nil => exact .refl s
  | cons r rs ih => exact (emitRecord_writes r s).bind fun _ t _ => ih t

/-- BS.FLUSH touches the writer only. -/
theorem flush_appends (s : State) : Appends s (flush s) := by
  refine ⟨fun h => (flush_spec s h).1, ?_, ?_⟩
  · unfold flush
    split
    · exact ⟨_, rfl⟩
    · exact ⟨[], by simp⟩
  · obtain ⟨w, c, k, h⟩ := flush_frame s
    rw [h]

/-! ## Matcher -/

/-- The hash chains are canonical and within their index ranges. -/
def ChainsOk (s : State) : Prop :=
  (s.hashHead.wf = true ∧ s.hashHead.below s.cfg.hashSize) ∧ (s.prev.wf = true ∧ s.prev.below s.cfg.prevSize)

/-- LZ.INSERT touches the two chain arrays only. -/
theorem lzInsert_frame (chunk : List Byte) (p : Nat) (s : State) :
    ∃ hh pr, lzInsert chunk p s = { s with hashHead := hh, prev := pr } := by
  unfold lzInsert
  split
  · exact ⟨s.hashHead, s.prev, rfl⟩
  · exact ⟨_, _, rfl⟩

theorem hashAt_lt {c : Config.Params} (hc : c.Ok) {chunk : List Byte} {p v : Nat} (h : hashAt c chunk p = some v) :
    v < c.hashSize := by
  unfold hashAt at h
  split at h
  · cases h; exact hashOf_lt c hc.hashSize ..
  · cases h

/-- A position has a hash exactly when three bytes are left. -/
theorem hashAt_isSome (c : Config.Params) (chunk : List Byte) (p : Nat) :
    (hashAt c chunk p).isSome = true ↔ p + 2 < chunk.length := by
  have hlen : (chunk.drop p).length = chunk.length - p := List.length_drop
  unfold hashAt
  split
  · rename_i a b c rest h
    rw [h] at hlen
    simp only [List.length_cons] at hlen
    simp; omega
  · rename_i h
    simp only [Option.isSome_none, Bool.false_eq_true, false_iff]
    intro hp
    match hd : chunk.drop p with
    | [] | [_] | [_, _] => rw [hd] at hlen; simp at hlen; omega
    | x :: y :: z :: rest => exact h x y z rest hd

/-- With a window there is a place in `prev` for every position. -/
theorem prevSize_pos {c : Config.Params} (hc : c.Ok) : 0 < c.prevSize := by
  obtain ⟨_, hfirst, _, _, hle⟩ := hc.distTable
  cases ht : c.distTable with
  | nil => simp [ht] at hfirst
  | cons r rest =>
    have h1 := hle r (ht ▸ List.mem_cons_self ..)
    have hb : r.base = 1 := by simpa [ht] using hfirst
    have := Nat.one_le_two_pow (n := r.extra)
    show 0 < c.wsize
    omega

theorem lzInsert_chains (chunk : List Byte) (p : Nat) (s : State) (hc : s.cfg.Ok) (h : ChainsOk s) :
    ChainsOk (lzInsert chunk p s) := by
  unfold lzInsert
  split
  · exact h
  · rename_i v hv
    exact ⟨⟨Memory.wf_write _ _ _ h.1.1, Memory.below_write _ _ _ _ h.1.2 (hashAt_lt hc hv)⟩,
      ⟨Memory.wf_write _ _ _ h.2.1, Memory.below_write _ _ _ _ h.2.2 (Nat.mod_lt _ (prevSize_pos hc))⟩⟩

/-- One candidate examined touches the best match only. -/
theorem examine_frame (chunk : List Byte) (i c : Nat) (s : State) :
    ∃ bl bd, examine chunk i c s = { s with bestLen := bl, bestDist := bd } := by
  unfold examine
  dsimp only
  split
  · split
    · split
      · exact ⟨_, _, rfl⟩
      · exact ⟨s.bestLen, s.bestDist, rfl⟩
    · exact ⟨s.bestLen, s.bestDist, rfl⟩
  · exact ⟨s.bestLen, s.bestDist, rfl⟩

theorem walk_frame (chunk : List Byte) (i fuel : Nat) (s : State) :
    ∃ cd vs bl bd, walk chunk i fuel s = { s with cand := cd, visited := vs, bestLen := bl, bestDist := bd } := by
  induction fuel generalizing s with
  | zero => exact ⟨s.cand, s.visited, s.bestLen, s.bestDist, rfl⟩
  | succ fuel ih =>
    unfold walk
    split
    · exact ⟨s.cand, s.visited, s.bestLen, s.bestDist, rfl⟩
    · rename_i c _
      obtain ⟨bl, bd, he⟩ := examine_frame chunk i c { s with visited := s.visited + 1 }
      dsimp only
      rw [he]
      split
      · exact ⟨s.cand, _, _, _, rfl⟩
      · obtain ⟨a1, a2, a3, a4, hw⟩ := ih { s with
          visited := s.visited + 1, bestLen := bl, bestDist := bd
          cand := Memory.read s.prev (c % s.cfg.prevSize) }
        exact ⟨a1, a2, a3, a4, hw⟩

/-- LZ.FIND touches the search registers only. -/
theorem lzFind_frame (chunk : List Byte) (i h : Nat) (s : State) :
    ∃ cd vs bl bd, lzFind chunk i h s =
      { s with
        cap := min s.cfg.maxMatch (s.n - i), h := h, cand := cd, visited := vs, bestLen := bl, bestDist := bd } := by
  obtain ⟨a1, a2, a3, a4, hw⟩ := walk_frame chunk i s.cfg.maxChain { s with
    cap := min s.cfg.maxMatch (s.n - i), bestLen := 0, bestDist := 0, h := h
    cand := Memory.read s.hashHead h, visited := 0 }
  exact ⟨a1, a2, a3, a4, hw⟩

theorem searchAt_frame (chunk : List Byte) (s : State) :
    ∃ cp hs cd vs bl bd, searchAt chunk s =
      { s with cap := cp, h := hs, cand := cd, visited := vs, bestLen := bl, bestDist := bd } := by
  unfold searchAt
  split
  · rename_i h _
    obtain ⟨a1, a2, a3, a4, hf⟩ := lzFind_frame chunk s.i h s
    exact ⟨_, _, a1, a2, a3, a4, hf⟩
  · exact ⟨s.cap, s.h, s.cand, s.visited, 0, 0, rfl⟩

theorem insertFrom_frame (chunk : List Byte) (p k : Nat) (s : State) :
    ∃ hh pr, insertFrom chunk p k s = { s with hashHead := hh, prev := pr } := by
  induction k generalizing p s with
  | zero => exact ⟨s.hashHead, s.prev, rfl⟩
  | succ k ih =>
    obtain ⟨a, b, h⟩ := lzInsert_frame chunk p s
    obtain ⟨c, d, h'⟩ := ih (p + 1) (lzInsert chunk p s)
    exact ⟨c, d, by rw [insertFrom, h', h]⟩

theorem insertFrom_chains (chunk : List Byte) (p k : Nat) (s : State) (hc : s.cfg.Ok) (h : ChainsOk s) :
    ChainsOk (insertFrom chunk p k s) := by
  induction k generalizing p s with
  | zero => exact h
  | succ k ih =>
    obtain ⟨hh, pr, e⟩ := lzInsert_frame chunk p s
    exact ih _ _ (by rw [e]; exact hc) (lzInsert_chains _ _ _ hc h)

/-- A pass of LZ.ENCODE, whatever it emits, touches the records, the chains and the matcher registers. -/
theorem encodeLoop_frame (chunk : List Byte) (fuel : Nat) (s : State) :
    ∃ rs hh pr i hs cd vs cp bl bd, encodeLoop chunk fuel s =
      { s with
        recs := rs, hashHead := hh, prev := pr, i := i, h := hs, cand := cd, visited := vs, cap := cp
        bestLen := bl, bestDist := bd } := by
  induction fuel generalizing s with
  | zero => exact ⟨s.recs, s.hashHead, s.prev, s.i, s.h, s.cand, s.visited, s.cap, s.bestLen, s.bestDist, rfl⟩
  | succ fuel ih =>
    unfold encodeLoop
    split
    · exact ⟨s.recs, s.hashHead, s.prev, s.i, s.h, s.cand, s.visited, s.cap, s.bestLen, s.bestDist, rfl⟩
    · rename_i b _
      obtain ⟨c1, c2, c3, c4, c5, c6, hs⟩ := searchAt_frame chunk s
      dsimp only
      split
      · obtain ⟨hh, pr, hl⟩ := lzInsert_frame chunk (searchAt chunk s).i
          { searchAt chunk s with recs := (searchAt chunk s).recs ++ [MatchRecord.literal b] }
        have he : ∃ r hh pr i, encodeLiteral chunk b (searchAt chunk s) =
            { searchAt chunk s with recs := r, hashHead := hh, prev := pr, i := i } :=
          ⟨_, hh, pr, _, by unfold encodeLiteral; rw [hl]⟩
        obtain ⟨r, hh, pr, i, he⟩ := he
        obtain ⟨a1, a2, a3, a4, a5, a6, a7, a8, a9, a10, h⟩ := ih (encodeLiteral chunk b (searchAt chunk s))
        exact ⟨a1, a2, a3, a4, a5, a6, a7, a8, a9, a10, by rw [h, he, hs]⟩
      · have he : ∃ r hh pr i, encodeMatch chunk (searchAt chunk s) =
            { searchAt chunk s with recs := r, hashHead := hh, prev := pr, i := i } := by
          obtain ⟨hh, pr, hl⟩ := insertFrom_frame chunk (searchAt chunk s).i ((searchAt chunk s).bestLen + 1)
            { searchAt chunk s with
              recs := (searchAt chunk s).recs ++ [MatchRecord.ofMatch (searchAt chunk s).bestDist
                (searchAt chunk s).bestLen chunk[(searchAt chunk s).i + (searchAt chunk s).bestLen]?] }
          exact ⟨_, hh, pr, _, by unfold encodeMatch; dsimp only; rw [hl]⟩
        obtain ⟨r, hh, pr, i, he⟩ := he
        obtain ⟨a1, a2, a3, a4, a5, a6, a7, a8, a9, a10, h⟩ := ih (encodeMatch chunk (searchAt chunk s))
        exact ⟨a1, a2, a3, a4, a5, a6, a7, a8, a9, a10, by rw [h, he, hs]⟩

/-- LZ.ENCODE's loop keeps the configuration and the chains. -/
theorem encodeLoop_chains (chunk : List Byte) (fuel : Nat) (s : State) (hc : s.cfg.Ok) (h : ChainsOk s) :
    ChainsOk (encodeLoop chunk fuel s) := by
  induction fuel generalizing s with
  | zero => exact h
  | succ fuel ih =>
    unfold encodeLoop
    split
    · exact h
    · rename_i b _
      obtain ⟨c1, c2, c3, c4, c5, c6, hs⟩ := searchAt_frame chunk s
      have hok : (searchAt chunk s).cfg.Ok := by rw [hs]; exact hc
      have hch : ChainsOk (searchAt chunk s) := by rw [hs]; exact h
      dsimp only
      split
      · have hi := lzInsert_chains chunk (searchAt chunk s).i
          { searchAt chunk s with recs := (searchAt chunk s).recs ++ [MatchRecord.literal b] } hok hch
        obtain ⟨hh, pr, e⟩ := lzInsert_frame chunk (searchAt chunk s).i
          { searchAt chunk s with recs := (searchAt chunk s).recs ++ [MatchRecord.literal b] }
        refine ih _ ?_ hi
        unfold encodeLiteral
        rw [e]
        exact hok
      · have hi := insertFrom_chains chunk (searchAt chunk s).i ((searchAt chunk s).bestLen + 1)
          { searchAt chunk s with
            recs := (searchAt chunk s).recs ++ [MatchRecord.ofMatch (searchAt chunk s).bestDist
              (searchAt chunk s).bestLen chunk[(searchAt chunk s).i + (searchAt chunk s).bestLen]?] } hok hch
        obtain ⟨hh, pr, e⟩ := insertFrom_frame chunk (searchAt chunk s).i ((searchAt chunk s).bestLen + 1)
          { searchAt chunk s with
            recs := (searchAt chunk s).recs ++ [MatchRecord.ofMatch (searchAt chunk s).bestDist
              (searchAt chunk s).bestLen chunk[(searchAt chunk s).i + (searchAt chunk s).bestLen]?] }
        refine ih _ ?_ hi
        unfold encodeMatch
        dsimp only
        rw [e]
        exact hok

/-- LZ.ENCODE touches the records, the chains, the matcher registers and one mark. -/
theorem lzEncode_frame (n : Nat) (s : State) :
    ∃ rs hh pr i hs cd vs cp bl bd, lzEncode n s =
      { s with
        recs := rs, hashHead := hh, prev := pr, n := n, i := i, h := hs, cand := cd, visited := vs, cap := cp
        bestLen := bl, bestDist := bd, filled := { s.filled with recs := true } } := by
  obtain ⟨a1, a2, a3, a4, a5, a6, a7, a8, a9, a10, h⟩ := encodeLoop_frame (s.data.take n) n
    { setRecs [] (lzReset s) with n := n, i := 0 }
  exact ⟨a1, a2, a3, a4, a5, a6, a7, a8, a9, a10, h⟩

theorem lzEncode_chains (n : Nat) (s : State) (hc : s.cfg.Ok)
    (h : s.prev.wf = true ∧ s.prev.below s.cfg.prevSize) : ChainsOk (lzEncode n s) :=
  encodeLoop_chains _ _ _ hc ⟨⟨rfl, fun e he => by cases he⟩, h⟩

/-! ## Counting and building -/

/-- BLK.FREQ writes the two frequency arrays, or a record is outside the code tables. -/
theorem blkFreq_cases (s : State) :
    (∃ lf df,
      countRecords s.cfg s.recs (List.replicate s.cfg.nlit 0, List.replicate s.cfg.ndist 0) = some (lf, df) ∧
      blkFreq s = .ok () (setFreqs .dist df (setFreqs .litlen (bump lf s.cfg.eob) s))) ∨
    (∃ e, blkFreq s = .fault e) := by
  unfold blkFreq
  split
  · exact .inr ⟨_, rfl⟩
  · rename_i lf df h
    exact .inl ⟨lf, df, h, rfl⟩

/-- The sizing field `hlit` is within the bounds of R239. -/
theorem sizeLit_le (s : State) (h : s.cfg.nlit = 286) : (sizeLit s).1 ≤ 29 := by
  have free : Config.freeHlit s.fresh % 30 ≤ 29 := by omega
  unfold sizeLit
  split
  · rename_i k hk
    split
    · have hm := List.mem_of_getLast? (show _ = some k from hk)
      have : k < (s.litLen.take s.cfg.nlit).length := by simpa using (List.mem_filter.1 hm).1
      simp at this
      dsimp only
      omega
    · exact free
  · exact free

/-- HDR.SIZE writes the sizing fields and the sequence, with a free value drawn where R239 states none; or an array is
shorter than its alphabet. -/
theorem hdrSize_cases (s : State) :
    (s.cfg.nlit ≤ s.litLen.length ∧ s.cfg.ndist ≤ s.distLen.length ∧
      hdrSize s = .ok () (sizeTo (sizeLit s).1 ((lastNonzero (s.distLen.take s.cfg.ndist)).getD 0)
        { s with fresh := s.fresh + (sizeLit s).2 })) ∨
    ((s.litLen.length < s.cfg.nlit ∨ s.distLen.length < s.cfg.ndist) ∧
      ∃ k, hdrSize s = .fault (.indexOutOfRange k)) := by
  unfold hdrSize
  split
  · exact .inr ⟨.inl ‹_›, _, rfl⟩
  · split
    · exact .inr ⟨.inr ‹_›, _, rfl⟩
    · exact .inl ⟨by omega, by omega, rfl⟩

/-- HDR.BUILD writes the header's registers and buffers, each from the sequence HDR.SIZE makes, or HDR.SIZE stops. -/
theorem hdrBuild_cases (s : State) :
    (∃ a d q k, hdrSize { s with btype := 2 } =
        .ok () (setSeq q { s with btype := 2, hlit := a, hdist := d, fresh := k }) ∧
      let f := clCounts s.cfg (rlePairs q)
      let l := coreLengths s.cfg f s.cfg.maxbitsCl
      hdrBuild s = .ok () { s with
        btype := 2, hlit := a, hdist := d, fresh := k, hclen := hclenOf s.cfg l, seq := q, rle := rlePairs q
        clFreq := f, clLen := l, clCode := canonCodes l
        filled := { s.filled with seq := true, rle := true, clFreq := true, clLen := true, clCode := true } }) ∨
    ∃ k, hdrBuild s = .fault (.indexOutOfRange k) := by
  unfold hdrBuild
  rcases hdrSize_cases { s with btype := 2 } with ⟨_, _, h⟩ | ⟨_, k, h⟩ <;> rw [h]
  · refine .inl ⟨_, _, _, _, rfl, ?_⟩
    simp only [Act.bind_ok, sizeTo, rleEnc, setRle, setFreqs, hufCanon, hufBuild, setLens, setCodes, setSeq,
      State.freqs, State.lens, Alphabet.maxBits]
  · exact .inr ⟨k, rfl⟩

end Sys2Proof.Machine
end

