-- ==== Sys2Proof/Tests/Slice0.lean ====
section
/-! SUPPORT. The model's own tests: the well-formedness checks, every constructor's decoding from a word written out
from the spec's encoding, single steps on the spec's own examples and vectors, and for every statement a state that
meets its hypotheses. -/

namespace Sys2Proof.Tests

open Sys2Proof.Machine

set_option Elab.async false

/-! ## Well-formedness: an ill-formed term for each check, refused -/

theorem test_wf_refuses : ([.bsWbits 32 0, .bsWbits 0 65536, .bsWcode 16 0, .bsWcode 0 32768, .bsRbits 32,
    .tblLensym 512, .tblDistsym 65536, .tblLenval 512 0, .tblLenval 0 32, .tblDistval 32 0, .tblDistval 0 8192,
    .lzInsert 131072, .lzFind 131072, .lzEncode 131072, .hufBuild 4, .hufCanon 4, .symDec 4, .rleDec 1024,
    .symEmit 131072, .blkEnc 131072 true, .hlit 32, .hdist 32, .hclen 16, .cllen 8, .clLen 16] : List Instr).all
    (fun i =>
    i.wellFormed = false) = true := by decide +kernel

theorem test_wf_accepts : ([.bsWbits 31 65535, .bsWcode 15 32767, .bsRbits 31, .tblLensym 511,
    .tblDistsym 65535, .tblLenval 511 31, .tblDistval 31 8191, .lzInsert 131071, .lzFind 131071, .lzEncode 131071,
    .hufBuild 3, .hufCanon 3, .symDec 3, .rleDec 1023, .symEmit 131071, .blkEnc 131071 true, .hlit 31, .hdist 31,
    .hclen 15, .cllen 7, .clLen 15] : List Instr).all (fun i => i.wellFormed = true) = true := by decide +kernel

/-! ## Decoding: words written out from R107 (opcode in bits 7:0, the operands at their bits) -/

theorem test_decode_system : ([(0x00000000#32, .coreReset),
    (0x00000001#32, .coreStatus)] : List (Word × Instr)).all (fun p =>
    decodeCmd p.1 = some p.2) = true := by decide +kernel

theorem test_decode_bit_stream : ([(0x00000010#32, .bsWbit false),
    (0x00000110#32, .bsWbit true),
    (0x14B87511#32, .bsWbits 21 0xA5C3),
    (0x05A3C912#32, .bsWcode 9 0x5A3C),
    (0x00000013#32, .bsFlush),
    (0x00000014#32, .bsRbit),
    (0x00001315#32, .bsRbits 19)] : List (Word × Instr)).all (fun p =>
    decodeCmd p.1 = some p.2) = true := by decide +kernel

theorem test_decode_tables : ([(0x00015118#32, .tblLensym 0x151),
    (0x00800119#32, .tblDistsym 0x8001),
    (0x002B1D1A#32, .tblLenval 0x11D 0x15),
    (0x0346BD1B#32, .tblDistval 0x1D 0x1A35)] : List (Word × Instr)).all (fun p =>
    decodeCmd p.1 = some p.2) = true := by decide +kernel

theorem test_decode_matcher : ([(0x00000020#32, .lzReset),
    (0x015A3C21#32, .lzInsert 0x15A3C),
    (0x01C3A522#32, .lzFind 0x1C3A5),
    (0x01000023#32, .lzEncode 0x10000),
    (0x00000024#32, .lzDecode)] : List (Word × Instr)).all (fun p =>
    decodeCmd p.1 = some p.2) = true := by decide +kernel

theorem test_decode_huffman : ([(0x00000230#32, .hufBuild 2),
    (0x00000131#32, .hufCanon 1),
    (0x00000232#32, .symDec 2)] : List (Word × Instr)).all (fun p =>
    decodeCmd p.1 = some p.2) = true := by decide +kernel

theorem test_decode_header : ([(0x00000040#32, .rleEnc),
    (0x0002A541#32, .rleDec 0x2A5),
    (0x00000042#32, .hdrSize),
    (0x00000043#32, .hdrBuild),
    (0x00000044#32, .hdrWrite),
    (0x00000045#32, .hdrRead)] : List (Word × Instr)).all (fun p =>
    decodeCmd p.1 = some p.2) = true := by decide +kernel

theorem test_decode_block : ([(0x00000050#32, .blkFreq),
    (0x01A53C51#32, .symEmit 0x1A53C),
    (0x0153A652#32, .blkEnc 0x153A6 false),
    (0x02000A52#32, .blkEnc 10 true),
    (0x00000053#32, .blkDec),
    (0x00000054#32, .strmDec),
    (0x00000055#32, .strmClose)] : List (Word × Instr)).all (fun p =>
    decodeCmd p.1 = some p.2) = true := by decide +kernel

theorem test_decode_reserved : ([0x02#32, 0x16#32, 0x17#32, 0x1C#32, 0x25#32, 0x33#32, 0x46#32, 0x56#32,
    0xFF#32] : List Word).all (fun w => decodeCmd w = none) = true := by decide +kernel

theorem test_decode_ignores_unused_bits : decodeCmd 0xFFFFFF13#32 = some .bsFlush := by decide +kernel

/-! ## Decoding: wire elements on their field value or symbol number (R92 to R94, R100 to R103) -/

theorem test_decode_fields :
    ([(.bfinal, 0, .bfinal false), (.bfinal, 1, .bfinal true), (.btype, 0, .btypeStored), (.btype, 1, .btypeFixed),
    (.btype, 2, .btypeDynamic), (.btype, 3, .btypeReserved), (.hlit, 29, .hlit 29), (.hdist, 22, .hdist 22),
    (.hclen, 14, .hclen 14), (.cllen, 5, .cllen 5), (.pad, 0, .pad)] :
    List (Format × Nat × Instr)).all (fun p => decode p.1 p.2.1 = some p.2.2) = true := by decide +kernel

theorem test_decode_clsym :
    ([(.clsym, 0, .clLen 0), (.clsym, 15, .clLen 15), (.clsym, 16, .clRep), (.clsym, 17, .clZ3), (.clsym, 18,
    .clZ11)] :
    List (Format × Nat × Instr)).all (fun p => decode p.1 p.2.1 = some p.2.2) = true := by decide +kernel

theorem test_decode_literal : decode .litlen 0 = some (.lit 0#8) ∧ decode .litlen 255 = some (.lit 255#8) := by
  decide +kernel

theorem test_decode_litlen : (List.range' 256 32).map decodeLitlen =
    [.eob, .len257, .len258, .len259, .len260, .len261, .len262, .len263, .len264, .len265, .len266, .len267,
     .len268, .len269, .len270, .len271,
     .len272, .len273, .len274, .len275, .len276, .len277, .len278, .len279, .len280, .len281, .len282, .len283,
     .len284, .len285, .litlenIllegal286, .litlenIllegal287].map some := rfl

theorem test_decode_dist : (List.range 32).map decodeDist =
    [.dist0, .dist1, .dist2, .dist3, .dist4, .dist5, .dist6, .dist7, .dist8, .dist9, .dist10, .dist11, .dist12,
     .dist13, .dist14, .dist15,
     .dist16, .dist17, .dist18, .dist19, .dist20, .dist21, .dist22, .dist23, .dist24, .dist25, .dist26, .dist27,
     .dist28, .dist29, .distIllegal30, .distIllegal31].map some := rfl

theorem test_decode_element_refuses : ([(.bfinal, 2), (.btype, 4), (.hlit, 32), (.hclen, 16), (.cllen, 8),
    (.clsym, 19), (.litlen, 288), (.dist, 32), (.cmd, 2 ^ 32)] : List (Format × Nat)).all (fun p => decode p.1 p.2 = none) = true := by
  decide +kernel

/-! ## Single steps: the spec's own examples and vectors -/

/-- The outcome is a next state with this property. -/
def nextWith (o : Out) (p : State → Bool) : Bool :=
  match o with
  | .next s => p s
  | .fault _ => false
  | .refused _ => false

/-- The outcome is this refusal. -/
def refusedAs (o : Out) (r : Refusal) : Bool :=
  match o with
  | .refused q => q = r
  | _ => false

/-- The outcome is this fault of the model. -/
def faultAs (o : Out) (f : Fault) : Bool :=
  match o with
  | .fault g => g = f
  | _ => false

def bytes (l : List Nat) : List Byte := l.map (BitVec.ofNat 8)

/-- After reset with this source attached. -/
def reading (l : List Nat) : State := { State.reset with source := bytes l }

/-- After reset with this chunk in work. -/
def working (l : List Nat) : State :=
  { State.reset with data := bytes l, n := l.length }

/-- The standard parameters, bits first at the top of each byte, padded with ones (U4, U5). -/
def msbFirst : Config.Params := { Config.standard with bitOrder := .msbFirst, padBit := true }

theorem standard_ok : Config.standard.Ok where
  symbols := by decide
  hashSize := by decide
  ranges := by decide
  caps := by decide
  clperm := by decide
  lenTable := by decide +kernel
  distTable := by decide +kernel

theorem msbFirst_ok : msbFirst.Ok where
  symbols := by decide
  hashSize := by decide
  ranges := by decide
  caps := by decide
  clperm := by decide
  lenTable := by decide +kernel
  distTable := by decide +kernel

/-- Inside a dynamic block at this place. -/
def inside (p : Place) (l : List Nat) : State := { reading l with dstate := .dynamicHuffman, btype := 2, place := p }

-- R340, R316, vector FLT-2, program P4
theorem test_reset_after_fault :
    nextWith (exec .coreReset (takeFault .reservedType 3 (reading [7])))
      (fun t => t.status = 0#16 ∧ t.errInfo = 0#64 ∧ t.dstate = .expectHeader ∧ t.source = bytes [7]) = true := by
  decide +kernel

theorem test_status_flt2 :
    nextWith (exec .blkDec (reading [7])) (fun t => t.status = 0x7225#16 ∧ t.errInfo = 0x300000003#64) = true := by
  decide +kernel

theorem test_status_result :
    nextWith (exec .coreStatus { State.reset with dstate := .done, bfinal := true, btype := 2 })
    (fun t => t.result = .status 0x5004#16 0#64) = true := by decide +kernel

-- R130, R131, R132, R133 and vectors BS-3, BS-6, BS-11, program P5
theorem test_wbit : nextWith (exec (.bsWbit true) { State.reset with wBuf := 1#8, wCnt := 2 })
    (fun t => t.wBuf = 5#8 ∧ t.wCnt = 3 ∧ t.sink = []) = true := by decide +kernel

theorem test_wbit_eighth : nextWith (exec (.bsWbit true) { State.reset with wBuf := 0x1B#8, wCnt := 7 })
    (fun t => t.wBuf = 0#8 ∧ t.wCnt = 0 ∧ t.sink = [0x9B#8]) = true := by decide +kernel

-- R60 turned round (U4): the first bit is the byte's bit 7
theorem test_wbit_msb : nextWith
    (exec (.bsWbit true) { State.reset with wBuf := 0x1B#8, wCnt := 7, cfg := msbFirst })
    (fun t => t.sink = [0xD9#8] ∧ t.wCnt = 0) = true ∧
    nextWith (exec .bsFlush { State.reset with wBuf := 3#8, wCnt := 3, cfg := msbFirst })
      (fun t => t.sink = [0xDF#8]) = true ∧
    nextWith (exec (.bsRbits 5) { reading [0xB4] with cfg := msbFirst }) (fun t => t.result = .bits 13) = true := by
  decide +kernel

theorem test_wbits : nextWith (exec (.bsWbits 16 0xABCD) { State.reset with wBuf := 5#8, wCnt := 3 })
    (fun t => t.sink = [0x6D#8, 0x5E#8] ∧ t.wBuf = 5#8 ∧ t.wCnt = 3) = true := by decide +kernel

theorem test_wbits_width : refusedAs (exec (.bsWbits 17 0) State.reset) .badWidth = true := by decide +kernel

theorem test_wcode :
    nextWith (exec (.bsWcode 3 6) { State.reset with sink := [0x6D#8, 0x5E#8], wBuf := 5#8, wCnt := 3 })
    (fun t => t.wBuf = 0x1D#8 ∧ t.wCnt = 6) = true := by decide +kernel

theorem test_wcode_refused : refusedAs (exec (.bsWcode 1 2) State.reset) .badWidth = true ∧
    refusedAs (exec (.bsWcode 0 0) State.reset) .badWidth = true := by decide +kernel

theorem test_flush : nextWith (exec .bsFlush { State.reset with wBuf := 3#8, wCnt := 3 })
    (fun t => t.sink = [3#8] ∧ t.wBuf = 0#8 ∧ t.wCnt = 0) = true := by decide +kernel

theorem test_flush_empty : nextWith (exec .bsFlush State.reset) (fun t => t.sink = []) = true := by decide +kernel

-- R134, R135 and vectors BS-7 to BS-10
theorem test_rbit : nextWith (exec .bsRbit { reading [5] with bitPos := 2 })
    (fun t => t.result = .bits 1 ∧ t.bitPos = 3) = true := by decide +kernel

theorem test_rbits : nextWith (exec (.bsRbits 16) { reading [0x6D, 0x5E, 5] with bitPos := 3 })
    (fun t => t.result = .bits 0xABCD ∧ t.bitPos = 19) = true := by decide +kernel

theorem test_rbits_truncated : nextWith (exec (.bsRbits 5) { reading [5] with bitPos := 4 })
    (fun t => t.err = some .endOfSource ∧ t.errBitPos = 8 ∧ t.errValue = 0) = true := by decide +kernel

-- R312: dstate <- Failed
theorem test_rbit_done : nextWith (exec .bsRbit { State.reset with dstate := .done })
    (fun t => t.err = some .endOfSource ∧ t.status = 0x0135#16) = true := by decide +kernel

-- the tables of 95_test_vectors 4.1
theorem test_lensym : ([(3, 257, 0, 0), (12, 265, 1, 1), (34, 272, 3, 2), (226, 283, 31, 5), (257, 284, 30, 5),
    (258, 285, 0, 0)] : List (Nat × Nat × Nat × Nat)).all (fun p =>
    nextWith (exec (.tblLensym p.1) State.reset) (fun t => t.result = .code p.2.1 p.2.2.1 p.2.2.2) = true) = true := by
  decide +kernel

theorem test_distsym : ([(1, 0, 0, 0), (6, 4, 1, 1), (256, 15, 63, 6), (300, 16, 43, 7), (4097, 24, 0, 11),
    (32768, 29, 8191, 13)] : List (Nat × Nat × Nat × Nat)).all (fun p =>
    nextWith (exec (.tblDistsym p.1) State.reset) (fun t => t.result = .code p.2.1 p.2.2.1 p.2.2.2) = true) = true := by
  decide +kernel

theorem test_lenval : nextWith (exec (.tblLenval 284 31) State.reset) (fun t => t.result = .value 258) = true ∧
    refusedAs (exec (.tblLenval 286 0) State.reset) .badLength = true := by decide +kernel

theorem test_distval : nextWith (exec (.tblDistval 16 43) State.reset) (fun t => t.result = .value 300) = true ∧
    refusedAs (exec (.tblDistval 30 0) State.reset) .badDistance = true := by decide +kernel

-- R172 to R177 and vectors LZ-5, LZ-6, LZ-7
theorem test_hash3 : Config.hash3 0x61#8 0x61#8 0x61#8 = 0x6771 ∧ Config.hash3 0x41#8 0x42#8 0x41#8 = 0x4561 := by
  decide +kernel

-- a core with a smaller chunk limit (R10, U6)
theorem test_chunk_limit :
    refusedAs (exec (.lzEncode 4) { working [1, 2, 3, 4] with cfg := { Config.standard with chunkMax := 3 } })
      .chunkTooLong = true := by decide +kernel

theorem test_lzreset : nextWith (exec .lzReset { State.reset with hashHead := [(0x6771, 0)] })
    (fun t => t.hashHead = []) = true := by decide +kernel

theorem test_lzinsert : nextWith (exec (.lzInsert 1) { working [97, 97, 97, 97] with hashHead := [(0x6771, 0)] })
    (fun t => t.hashHead = [(0x6771, 1)] ∧ t.prev = [(1, 0)]) = true := by decide +kernel

theorem test_lzfind : nextWith
    (exec (.lzFind 1) { working (List.replicate 10 97) with hashHead := [(0x6771, 0)] })
    (fun t => t.result = .found 9 1 ∧ t.cap = 9) = true := by decide +kernel

-- the chunk's fourth byte is not placed
theorem test_lz_not_placed :
    refusedAs (exec (.lzInsert 1) { working [1, 2, 3] with n := 4 }) .chunkNotPlaced = true ∧
    refusedAs (exec (.lzFind 0) { working [1, 2, 3] with n := 4 }) .chunkNotPlaced = true ∧
    nextWith (exec (.lzInsert 2) { working [1, 2, 3] with n := 4 }) (fun t => t.hashHead = []) = true := by
  decide +kernel

theorem test_lzfind_range : faultAs (exec (.lzFind 2) (working [97, 97, 97, 97])) (.indexOutOfRange 4) = true := by
  decide +kernel

theorem test_lzencode : nextWith (exec (.lzEncode 7) { State.reset with data := bytes [97, 98, 99, 97, 98, 99, 0] })
    (fun t => t.recs = [⟨0, 0, 97#8, true⟩, ⟨0, 0, 98#8, true⟩, ⟨0, 0, 99#8, true⟩, ⟨3, 3, 0#8, true⟩]) = true := by
  decide +kernel

theorem test_lzencode_end : nextWith (exec (.lzEncode 4) { State.reset with data := bytes [97, 97, 97, 97] })
    (fun t => t.recs = [⟨0, 0, 97#8, true⟩, ⟨1, 3, 0#8, false⟩]) = true := by decide +kernel

/-- These records filled in. -/
def recording (rs : List MatchRecord) : State :=
  { State.reset with recs := rs, filled := { State.reset.filled with recs := true } }

theorem test_lzdecode :
    nextWith (exec .lzDecode (recording [⟨0, 0, 65#8, true⟩, ⟨0, 0, 66#8, true⟩, ⟨2, 8, 0#8, false⟩]))
    (fun t => t.out = bytes [65, 66, 65, 66, 65, 66, 65, 66, 65, 66]) = true := by decide +kernel

theorem test_lzdecode_too_far : nextWith (exec .lzDecode (recording [⟨0, 0, 97#8, true⟩, ⟨2, 3, 0#8, false⟩]))
    (fun t => t.err = some .distanceTooFar ∧ t.errValue = 2) = true ∧
    refusedAs (exec .lzDecode (recording [⟨5, 0, 0x41#8, true⟩])) .badRecord = true := by decide +kernel

-- the Huffman vectors of 95_test_vectors 4.2
theorem test_build_ties : buildLengths [1, 1, 1, 1, 1] 15 = [3, 3, 2, 2, 2] := by decide +kernel

theorem test_build_cap : buildLengths [1, 2, 4, 8, 16, 32, 64, 128, 256] 7 = [7, 7, 7, 7, 5, 4, 3, 2, 1] := by
  decide +kernel

theorem test_hufbuild : nextWith (exec (.hufBuild 1)
      { State.reset with distFreq := [5, 0, 5, 5, 5], filled := { State.reset.filled with distFreq := true } })
    (fun t => t.distLen = [2, 0, 2, 2, 2]) = true := by decide +kernel

theorem test_hufcanon : nextWith (exec (.hufCanon 1)
      { State.reset with distLen := [1, 2, 2, 2], filled := { State.reset.filled with distLen := true } })
    (fun t => t.distCode = [some (0, 1), some (2, 2), some (3, 2), some (4, 2)]) = true := by decide +kernel

theorem test_canon_order : canonCodes [3, 3, 3, 3, 3, 2, 4, 4] =
    [some (2, 3), some (3, 3), some (4, 3), some (5, 3), some (6, 3), some (0, 2), some (14, 4), some (15, 4)] := by
  decide +kernel

/-- The code set CAN-1 as the distance codes. -/
def can1 (l : List Nat) : State :=
  { reading l with
    distCode := [some (2, 2), some (0, 1), some (6, 3), some (7, 3)]
    filled := { State.reset.filled with distCode := true } }

theorem test_symdec : nextWith (exec (.symDec 1) (can1 [3])) (fun t => t.result = .symbol 2 ∧ t.bitPos = 3) = true := by
  decide +kernel

theorem test_symdec_no_code : nextWith
    (exec (.symDec 1) { can1 [0xFF, 0xFF] with distCode := [some (0, 2), none, none, some (1, 2)] })
    (fun t => t.err = some .noCodeMatch ∧ t.errValue = 0x7FFF ∧ t.errBitPos = 15) = true := by decide +kernel

-- R233 and the vectors of 95_test_vectors 4.3
theorem test_rle_zero_runs : rlePairs (List.replicate 141 0) = [.z11 127, .z3 0] ∧
    rlePairs (List.replicate 139 0) = [.z11 127, .len 0] := by decide +kernel

theorem test_rleenc : nextWith (exec .rleEnc
      { State.reset with seq := [4, 4, 0, 0, 0, 4], filled := { State.reset.filled with seq := true } })
    (fun t => t.rle = [.len 4, .len 4, .z3 0, .len 4]) = true := by decide +kernel

/-- These pairs filled in. -/
def paired (ps : List ClPair) : State :=
  { State.reset with rle := ps, filled := { State.reset.filled with rle := true } }

theorem test_rledec : nextWith (exec (.rleDec 7) (paired [.len 4, .z3 0, .rep 0]))
    (fun t => t.seq = [4, 0, 0, 0, 0, 0, 0]) = true := by decide +kernel

theorem test_rledec_faults : nextWith (exec (.rleDec 6) (paired [.len 5, .rep 3]))
    (fun t => t.err = some .repeatOverrun ∧ t.errValue = 16) = true ∧
    refusedAs (exec (.rleDec 3) (paired [.len 5, .len 5])) .shortSequence = true := by decide +kernel

/-- The length arrays of a chunk without a match (R238's example). -/
def sized : State :=
  { State.reset with
    litLen := List.replicate 97 0 ++ [1] ++ List.replicate 158 0 ++ [1] ++ List.replicate 29 0
    distLen := List.replicate 30 0
    filled := { State.reset.filled with litLen := true, distLen := true } }

theorem test_hdrsize : nextWith (exec .hdrSize sized)
    (fun t => t.hlit = 0 ∧ t.hdist = 0 ∧ t.seq.length = 258) = true := by decide +kernel

-- no length at 256 or above: hlit is free, the rest is as R238 says
theorem test_hdrsize_free : nextWith
    (exec .hdrSize { sized with litLen := List.replicate 286 0, distLen := [0, 0, 3] ++ List.replicate 27 0 })
    (fun t => t.hdist = 2 ∧ t.fresh = 1 ∧ t.filled.seq = true) = true := by decide +kernel

theorem test_hdrsize_short : faultAs (exec .hdrSize { sized with litLen := List.replicate 257 1 })
    (.indexOutOfRange 257) = true := by decide +kernel

theorem test_hdrbuild : nextWith (exec .hdrBuild sized)
    (fun t => t.btype = 2 ∧ t.rle = [.z11 86, .len 1, .z11 127, .z11 9, .len 1, .len 0] ∧ t.hclen = 14) = true := by
  decide +kernel

/-- A small header: one code-length symbol of one bit (R243). -/
def headed : State :=
  { State.reset with
    hclen := 0, clLen := List.replicate 16 0 ++ [0, 0, 1], clCode := List.replicate 18 none ++ [some (0, 1)]
    rle := [.z11 5]
    filled := { State.reset.filled with clLen := true, clCode := true, rle := true } }

theorem test_hdrwrite : nextWith (exec .hdrWrite headed)
    (fun t => t.sink = [0x04#8, 0x00#8, 0x80#8, 0x40#8] ∧ t.wCnt = 5 ∧ t.wBuf = 1#8) = true := by decide +kernel

-- the header of vector FLT-7b: every length zero
theorem test_hdrread : nextWith
    (exec .hdrRead { reading [5, 0, 0x80, 0xE4, 0x7F, 0xFB, 0xFF, 0x1F] with bitPos := 3 })
    (fun t => t.bitPos = 45 ∧ t.litLen = List.replicate 257 0 ∧ t.distLen = [0]) = true := by decide +kernel

-- R260's example
theorem test_blkfreq : nextWith (exec .blkFreq (recording [⟨0, 0, 97#8, true⟩, ⟨1, 9, 0#8, false⟩]))
    (fun t => t.litFreq[97]? = some 1 ∧ t.litFreq[263]? = some 1 ∧ t.litFreq[256]? = some 1 ∧ t.litFreq.sum = 3 ∧
      t.distFreq[0]? = some 1 ∧ t.distFreq.sum = 1) = true := by decide +kernel

-- the data part of vector BLK-2: LEN 265 x=1, DIST 0, then a literal
theorem test_symemit : nextWith (exec (.symEmit 0)
      { recording [⟨1, 12, 97#8, true⟩] with
        litCode := List.replicate 97 none ++ [some (2, 2)] ++ List.replicate 167 none ++ [some (0, 1)]
        distCode := [some (0, 1)]
        filled := { State.reset.filled with recs := true, litCode := true, distCode := true } })
    (fun t => t.wBuf = 0x0A#8 ∧ t.wCnt = 5) = true := by decide +kernel

-- a literal needs no distance codes
theorem test_symemit_literal : nextWith (exec (.symEmit 0)
      { recording [⟨0, 0, 1#8, true⟩] with
        litCode := [none, some (1, 1)], filled := { State.reset.filled with recs := true, litCode := true } })
    (fun t => t.wBuf = 1#8 ∧ t.wCnt = 1) = true := by decide +kernel

-- program P1
theorem test_blkenc_empty : nextWith (exec (.blkEnc 0 true) State.reset)
    (fun t => t.sink ++ [t.wBuf] = bytes [5, 0xC0, 0x81, 8, 0, 0, 0, 0, 0x20, 0x7F, 0xEB, 3] ∧ t.wCnt = 4) = true := by
  decide +kernel

-- section 1.2
theorem test_blkenc : nextWith (exec (.blkEnc 10 true) { State.reset with data := List.replicate 10 0x61#8 })
    (fun t => t.sink = bytes [0x3D, 0xC0, 0x21, 1, 0, 0, 0, 0x80, 0xA0, 0xAD, 0xFE, 0x3F, 0x61, 0x83] ∧
      t.wBuf = 0x18#8 ∧ t.wCnt = 5) = true := by decide +kernel

-- section 1.3
theorem test_blkdec : nextWith
    (exec .blkDec (reading [0x3D, 0xC0, 0x21, 1, 0, 0, 0, 0x80, 0xA0, 0xAD, 0xFE, 0x3F, 0x61, 0x83, 0x18]))
    (fun t => t.decoded = List.replicate 10 0x61#8 ∧ t.bitPos = 117 ∧ t.status = 0x5004#16) = true := by
  decide +kernel

-- vector FLT-10: DistanceTooFar before the trailing symbol
theorem test_blkdec_too_far : nextWith
    (exec .blkDec (reading [0x0D, 0xC1, 1, 9, 0, 0, 0, 0x80, 0xA0, 0xAD, 0xFE, 0x3F, 0x51, 0x68, 1]))
    (fun t => t.status = 0x5615#16 ∧ t.errBitPos = 112 ∧ t.errValue = 2) = true := by decide +kernel

-- program P3
theorem test_strmdec : nextWith
    (exec .strmDec (reading [0x0C, 0xC0, 0x81, 0, 0, 0, 0, 0x80, 0x20, 0xD6, 0xFD, 0x25, 0xAE, 0xB8, 0, 0x38, 0x10, 1, 0,
      0, 0, 0, 0xE4, 0xBA, 0x3F, 0xC4, 9]))
    (fun t => t.decoded = bytes [97, 97, 97, 97, 98] ∧ t.bitPos = 212 ∧ t.status = 0x5004#16) = true := by
  decide +kernel

-- vector FLT-1
theorem test_strmdec_empty : nextWith (exec .strmDec State.reset) (fun t => t.status = 0x0135#16) = true := by
  decide +kernel

theorem test_strmclose : nextWith (exec .strmClose { State.reset with wBuf := 0x18#8, wCnt := 5 })
    (fun t => t.sink = [0x18#8] ∧ t.wCnt = 0) = true := by decide +kernel

/-! ## Wire elements -/

-- ACC-3 and FLT-3, element by element
theorem test_bfinal : nextWith (step { reading [1] with port := [.element] })
    (fun t => t.bfinal = true ∧ t.place = .btype ∧ t.bitPos = 1) = true := by decide +kernel

theorem test_btype_stored :
    nextWith (exec .btypeStored { reading [1] with bitPos := 3, bfinal := true, place := .btype })
    (fun t => t.status = 0x1001#16 ∧ t.bitPos = 3) = true := by decide +kernel

theorem test_btype_fixed :
    nextWith (exec .btypeFixed { reading [3] with bitPos := 3, bfinal := true, place := .btype })
    (fun t => t.status = 0x3125#16 ∧ t.errValue = 1) = true := by decide +kernel

theorem test_btype_dynamic : nextWith (exec .btypeDynamic { reading [5] with bitPos := 3, place := .btype })
    (fun t => t.dstate = .dynamicHuffman ∧ t.btype = 2 ∧ t.place = .hlit) = true := by decide +kernel

theorem test_btype_reserved : nextWith
    (exec .btypeReserved { reading [7] with bitPos := 3, bfinal := true, place := .btype })
    (fun t => t.status = 0x7225#16 ∧ t.errValue = 3) = true := by decide +kernel

theorem test_hlit_element : nextWith (step { inside .hlit [0x3D, 0xC0] with bitPos := 3, port := [.element] })
    (fun t => t.hlit = 7 ∧ t.bitPos = 8 ∧ t.place = .hdist) = true := by decide +kernel

theorem test_hdist_element : nextWith (exec (.hdist 5) (inside .hdist []))
    (fun t => t.hdist = 5 ∧ t.place = .hclen) = true := by decide +kernel

theorem test_hclen_element : nextWith (exec (.hclen 14) (inside .hclen []))
    (fun t => t.hclen = 14 ∧ t.clLen = List.replicate 19 0 ∧ t.place = .cllen 0) = true := by decide +kernel

theorem test_cllen_element : nextWith (exec (.cllen 5) { inside (.cllen 2) [] with hclen := 0 })
    (fun t => t.clLen[18]? = some 5 ∧ t.place = .cllen 3) = true := by decide +kernel

theorem test_cllen_last : nextWith (exec (.cllen 1) { inside (.cllen 3) [] with hclen := 0 })
    (fun t => t.clCode[0]? = some (some (0, 1)) ∧ t.place = .clsym ∧ t.seq = []) = true := by decide +kernel

theorem test_cl_len : nextWith (exec (.clLen 5) { inside .clsym [] with seq := [4] })
    (fun t => t.seq = [4, 5] ∧ t.place = .clsym) = true := by decide +kernel

theorem test_cl_last : nextWith (exec (.clLen 1) { inside .clsym [] with seq := List.replicate 257 8 })
    (fun t => t.litLen = List.replicate 257 8 ∧ t.distLen = [1] ∧ t.distCode = [some (0, 1)] ∧
      t.place = .record) = true := by decide +kernel

theorem test_cl_rep : nextWith (exec .clRep { inside .clsym [3] with seq := [4, 0] })
    (fun t => t.seq = [4, 0, 0, 0, 0, 0, 0, 0] ∧ t.bitPos = 2) = true := by decide +kernel

theorem test_cl_rep_first : nextWith (exec .clRep (inside .clsym [3]))
    (fun t => t.err = some .repeatNoPrevious ∧ t.errBitPos = 0) = true := by decide +kernel

theorem test_cl_z3 : nextWith (exec .clZ3 { inside .clsym [2] with seq := [4] })
    (fun t => t.seq = [4, 0, 0, 0, 0, 0] ∧ t.bitPos = 3) = true := by decide +kernel

theorem test_cl_z11 : nextWith (exec .clZ11 { inside .clsym [2] with seq := [4] })
    (fun t => t.seq = 4 :: List.replicate 13 0 ∧ t.bitPos = 7) = true := by decide +kernel

theorem test_cl_z11_overrun : nextWith (exec .clZ11 { inside .clsym [0x7F] with seq := List.replicate 138 0 })
    (fun t => t.err = some .repeatOverrun ∧ t.errValue = 18 ∧ t.errBitPos = 7) = true := by decide +kernel

theorem test_lit_record : nextWith (exec (.lit 97#8) (inside .record []))
    (fun t => t.out = [97#8] ∧ t.recs = [⟨0, 0, 97#8, true⟩]) = true := by decide +kernel

theorem test_lit_trailing :
    nextWith (exec (.lit 0#8) { inside (.trailing 3 1) [] with out := bytes [97, 97, 97, 97] })
    (fun t => t.recs = [⟨1, 3, 0#8, true⟩] ∧ t.out.length = 5 ∧ t.place = .record) = true := by decide +kernel

theorem test_eob_final : nextWith (exec .eob { inside .record [] with bfinal := true, out := [97#8] })
    (fun t => t.dstate = .done ∧ t.decoded = [97#8]) = true := by decide +kernel

theorem test_eob_trailing : nextWith (exec .eob { inside (.trailing 3 1) [] with out := [97#8] })
    (fun t => t.dstate = .expectHeader ∧ t.recs = [⟨1, 3, 0#8, false⟩]) = true := by decide +kernel

/-- The first and the last length of every length symbol, by extra bits all 0 and all 1 (R151, column "lengths"). -/
def lengthRanges : List (Nat × Nat) :=
  [(3, 3), (4, 4), (5, 5), (6, 6), (7, 7), (8, 8), (9, 9), (10, 10), (11, 12), (13, 14), (15, 16), (17, 18), (19, 22),
   (23, 26), (27, 30), (31, 34), (35, 42), (43, 50), (51, 58), (59, 66)] ++
  [(67, 82), (83, 98), (99, 114), (115, 130), (131, 162), (163, 194), (195, 226), (227, 258), (258, 258)]

theorem test_len_elements : (lengthElements.zip lengthRanges).all (fun p =>
    nextWith (exec p.1 (inside .record [0, 0])) (fun t => t.place = .dist p.2.1) = true ∧
    nextWith (exec p.1 (inside .record [0xFF, 0xFF])) (fun t => t.place = .dist p.2.2) = true) = true := by
  decide +kernel

theorem test_len_trailing : lengthElements.all (fun i =>
    nextWith (exec i (inside (.trailing 3 1) [])) (fun t => t.err = some .trailingNotLiteral) = true) = true := by
  decide +kernel

/-- The first and the last distance of every distance symbol (R152, column "distances"). -/
def distanceRanges : List (Nat × Nat) :=
  [(1, 1), (2, 2), (3, 3), (4, 4), (5, 6), (7, 8), (9, 12), (13, 16), (17, 24), (25, 32), (33, 48), (49, 64), (65, 96),
   (97, 128), (129, 192)] ++
  [(193, 256), (257, 384), (385, 512), (513, 768), (769, 1024), (1025, 1536), (1537, 2048), (2049, 3072), (3073, 4096),
   (4097, 6144), (6145, 8192), (8193, 12288), (12289, 16384), (16385, 24576), (24577, 32768)]

theorem test_dist_too_far : (distanceElements.zip distanceRanges).all (fun p =>
    nextWith (exec p.1 (inside (.dist 3) [0, 0])) (fun t => t.errValue = p.2.1) = true ∧
    nextWith (exec p.1 (inside (.dist 3) [0xFF, 0xFF])) (fun t => t.errValue = p.2.2) = true) = true := by
  decide +kernel

theorem test_dist_copy : nextWith (exec .dist1 { inside (.dist 5) [] with out := bytes [65, 66] })
    (fun t => t.out = bytes [65, 66, 65, 66, 65, 66, 65] ∧ t.place = .trailing 5 2) = true := by decide +kernel

theorem test_illegal_symbols :
    nextWith (exec .litlenIllegal286 (inside .record [])) (fun t => t.status = 0x4215#16 ∧ t.errValue = 286) = true ∧
    nextWith (exec .litlenIllegal287 (inside (.trailing 3 1) []))
      (fun t => t.status = 0x4515#16 ∧ t.errValue = 287) = true ∧
    nextWith (exec .distIllegal30 (inside (.dist 3) [])) (fun t => t.status = 0x4215#16 ∧ t.errValue = 30) = true ∧
    nextWith (exec .distIllegal31 (inside (.dist 3) [])) (fun t => t.errValue = 31) = true := by decide +kernel

theorem test_pad : nextWith (exec .pad { reading [1] with dstate := .done, bitPos := 3 })
    (fun t => t.bitPos = 3 ∧ t.dstate = .done) = true := by decide +kernel

theorem test_out_of_place : refusedAs (exec .eob State.reset) .elementOutOfPlace = true := by decide +kernel

-- the command port (R107, R314)
theorem test_command : nextWith (step { State.reset with port := [.command 0x0000A311#32] })
    (fun t => t.wBuf = 5#8 ∧ t.wCnt = 3 ∧ t.port = []) = true := by decide +kernel

theorem test_command_refused :
    refusedAs (step { State.reset with port := [.command 0x43#32] }) .notHostIssuable = true ∧
    refusedAs (step { State.reset with port := [.command 0x16#32] }) .unknownCommand = true ∧
    refusedAs (exec (.blkEnc 0 true) (takeFault .reservedType 3 State.reset)) .errorPending = true ∧
    refusedAs (exec (.hufCanon 0) State.reset) (.unfilled .litLen) = true := by decide +kernel

/-! ## Witnesses: for every statement with hypotheses, states and operands that meet them all, each clause at the
boundary of its range -/

/-- The step inside an operation goes on with a value and a state of this property. -/
def okWith (x : Act Nat) (p : Nat → State → Bool) : Bool :=
  match x with
  | .ok v t => p v t
  | _ => false

/-- A pending byte one bit short of full. -/
def pending : State := { State.reset with wBuf := 0x7F#8, wCnt := 7 }

/-- The stream of section 1.3: one block of ten letters. -/
def oneBlock : List Nat := [0x3D, 0xC0, 0x21, 1, 0, 0, 0, 0x80, 0xA0, 0xAD, 0xFE, 0x3F, 0x61, 0x83, 0x18]

/-- An end-of-block code alone, at the last bit of the source, in a final block. -/
def lastSymbol : State :=
  { inside .record [0] with
    bitPos := 7, bfinal := true, litCode := List.replicate 256 none ++ [some (0, 1)]
    filled := { State.reset.filled with litCode := true } }

theorem writerOk_reset : WriterOk State.reset := by unfold WriterOk; decide

theorem writerOk_pending : WriterOk pending := by unfold WriterOk; decide

/-- Inside a block, a byte pending, chains in use. -/
def busy : State :=
  { lastSymbol with
    wBuf := 0x7F#8, wCnt := 7, hashHead := [(0, 0), (65535, 2)], prev := [(32767, 1)], port := [.element] }

/-- The third bit of a block comes next. -/
def atBtype : State := { reading [1] with bitPos := 1, bfinal := true, place := .btype }

/-- Outside a block, in this control state. -/
def resting (d : DState) : State := { State.reset with dstate := d, bfinal := true, sink := [1#8] }

theorem inv_of_checks {s : State}
    (h : (s.wCnt < 8 ∧ s.wBuf.toNat < 2 ^ s.wCnt) ∧ s.cfg = Config.standard ∧
      (s.dstate = .failed → s.err.isSome = true) ∧
      (s.err.isSome = true → s.dstate = .failed ∨ s.dstate = .stored) ∧
      (s.err = none → s.errBitPos = 0 ∧ s.errValue = 0) ∧ (s.err.isSome = true → s.out = [] ∧ s.decoded = []) ∧
      s.btype < 4 ∧ s.dstate ≠ .fixedHuffman ∧ (s.place.inBlock = true ↔ s.dstate = .dynamicHuffman) ∧
      (s.place = .btype → s.dstate = .expectHeader) ∧
      (s.hashHead.wf = true ∧ ∀ e ∈ s.hashHead, e.1 < s.cfg.hashSize) ∧
      (s.prev.wf = true ∧ ∀ e ∈ s.prev, e.1 < s.cfg.prevSize))
    (hk : ∀ k, s.place ≠ .cllen k) : Inv s :=
  have ⟨h1, h2, h3, h4, h5, h6, h7, h8, h9, h10, h11, h12⟩ := h
  ⟨h1, h2 ▸ standard_ok, h3, h4, h5, h6, h7, h8, h9, h10, fun k e => absurd e (hk k), h11, h12⟩

theorem inv_busy : Inv busy := inv_of_checks (by decide +kernel) (fun _ h => by cases h)

theorem inv_atBtype : Inv atBtype := inv_of_checks (by decide +kernel) (fun _ h => by cases h)

theorem inv_expectHeader : Inv (resting .expectHeader) := inv_of_checks (by decide +kernel) (fun _ h => by cases h)

theorem inv_done : Inv (resting .done) := inv_of_checks (by decide +kernel) (fun _ h => by cases h)

theorem inv_stored : Inv (resting .stored) := inv_of_checks (by decide +kernel) (fun _ h => by cases h)

theorem witness_DecodeEncode : (Instr.tblDistval 31 8191).wellFormed = true ∧ (Instr.clLen 15).wellFormed = true := by
  decide +kernel

theorem witness_EncodeDecode : decodeCmd 0xFFFFFF52#32 = some (.blkEnc 0x1FFFF true) ∧
    Format.clsym ≠ .cmd ∧ Format.clsym ≠ .pad ∧ decode .clsym 15 = some (.clLen 15) ∧
    decode .dist 31 = some .distIllegal31 := by decide +kernel

theorem witness_CommandPort :
    0x02 ∉ hostOpcodes ∧ 0x02 ∉ sequencerOpcodes ∧ 0xFF ∉ hostOpcodes ∧ 0xFF ∉ sequencerOpcodes ∧
    0x21 ∈ sequencerOpcodes ∧ 0x51 ∈ sequencerOpcodes ∧ 0x00 ∈ hostOpcodes ∧ 0x55 ∈ hostOpcodes ∧
    [Request.command 0xFFFFFF55#32] = .command 0xFFFFFF55#32 :: [] ∧ (0xFFFFFF55#32).toNat % 2 ^ 8 = 0x55 := by
  decide +kernel

theorem witness_StepRuns_commands :
    State.reset.port = [] ∧
    decodeCmd 0x0000A311#32 = some (.bsWbits 3 5) ∧ (Instr.bsWbits 3 5).hostIssuable = true ∧
    decodeCmd 0x00000042#32 = some .hdrSize := by decide +kernel

theorem witness_StepRuns_elements :
    (let s := { inside (.cllen 0) [0xE0] with bitPos := 5, port := [.element] }
     s.port = .element :: [] ∧ s.err = none ∧ s.dstate ≠ .done ∧ s.dstate ≠ .stored ∧
     s.place.fieldFormat = some (.cllen, 3) ∧ 3 ≤ s.unread.length ∧
     decode .cllen (fieldValue (s.unread.take 3)) = some (.cllen 7)) ∧
    (let s := { lastSymbol with port := [.element] }
     s.port = .element :: [] ∧ s.err = none ∧ s.dstate ≠ .done ∧ s.dstate ≠ .stored ∧
     s.place.symbolFormat = some (.litlen, .litlen) ∧ s.filled.has Alphabet.litlen.codeBuffer = true ∧
     okWith (symDec .litlen { s with port := [] }) (fun v _ => decode .litlen v = some .eob) = true) ∧
    (let s := { State.reset with dstate := .done, port := [.element] }
     s.port = .element :: [] ∧ s.err = none ∧ s.dstate = .done) := by decide +kernel

theorem witness_StepRuns_host :
    (let s := { takeFault .reservedType 3 State.reset with port := [.element] }
     s.port = .element :: [] ∧ s.err.isSome = true) ∧
    (let s := { State.reset with dstate := .stored, port := [.element] }
     s.port = .element :: [] ∧ s.err = none ∧ s.dstate = .stored) ∧
    { State.reset with port := [.attach [1#8]] }.port = .attach [1#8] :: [] ∧
    { State.reset with port := [.place []] }.port = .place [] :: [] ∧
    { State.reset with port := [.load (.recs [])] }.port = .load (.recs []) :: [] ∧
    { State.reset with port := [.load (.freq .cl [1])] }.port = .load (.freq .cl [1]) :: [] ∧
    { State.reset with port := [.load (.lens .dist [16])] }.port = .load (.lens .dist [16]) :: [] ∧
    { State.reset with port := [.load (.seq [])] }.port = .load (.seq []) :: [] ∧
    { State.reset with port := [.load (.rle [.rep 4])] }.port = .load (.rle [.rep 4]) :: [] := by decide +kernel

theorem witness_CoreReset : State.reset.cfg.Ok := standard_ok

theorem witness_ControlTransitions :
    Inv (resting .expectHeader) ∧ nextWith (exec .bsFlush (resting .expectHeader)) (fun _ => true) = true ∧
    Inv atBtype ∧ nextWith (exec .btypeStored atBtype) (fun t => t.dstate = .stored) = true ∧
    Inv (resting .done) ∧ (resting .done).err = none ∧
    nextWith (exec .bsFlush (resting .done)) (fun t => t.err = none) = true :=
  ⟨inv_expectHeader, by decide +kernel, inv_atBtype, by decide +kernel, inv_done, rfl, by decide +kernel⟩

theorem witness_StatusRegisters :
    (takeFault .distanceTooFar 3 { State.reset with btype := 3 }).btype < 4 ∧
    (takeFault .distanceTooFar 3 { State.reset with btype := 3 }).err = some .distanceTooFar ∧
    (takeFault .distanceTooFar 3 { State.reset with btype := 3 }).dstate = .failed ∧
    State.reset.btype < 4 ∧ State.reset.err = none ∧ State.reset.dstate = .expectHeader := by decide +kernel

theorem witness_PendingErrorRefusesEverything : (takeFault .endOfSource 0 State.reset).errClass ≠ 0 ∧
    Instr.pad ≠ .coreReset ∧ Instr.pad ≠ .coreStatus := by decide +kernel

/-- An instruction and a state in which it raises, for each cause. -/
def raisers : List (Instr × State × Cause) :=
  [(.symDec 1, { can1 [0xFF, 0xFF] with distCode := [some (0, 2)] }, .noCodeMatch),
   (.distIllegal31, inside (.dist 3) [], .symbolOutOfRange), (.clRep, inside .clsym [], .repeatNoPrevious),
   (.rleDec 6, paired [.len 5, .rep 3], .repeatOverrun), (.litlenIllegal287, inside (.trailing 3 1) [], .trailingNotLiteral),
   (.lzDecode, recording [⟨32768, 3, 0#8, false⟩], .distanceTooFar), (.blkDec, reading [3], .fixedHuffman),
   (.strmDec, reading [7], .reservedType), (.bsRbit, State.reset, .endOfSource)]

theorem witness_FaultEntry : Inv (resting .done) ∧ (resting .done).err = none ∧ Inv atBtype ∧ atBtype.err = none ∧
    nextWith (exec .bsRbit (resting .done)) (fun t => t.err = some .endOfSource) = true ∧
    nextWith (exec .btypeFixed atBtype) (fun t => t.err = some .fixedHuffman) = true :=
  ⟨inv_done, rfl, inv_atBtype, rfl, by decide +kernel, by decide +kernel⟩

theorem witness_FaultValues_ok : raisers.all (fun p => p.2.1.cfg = Config.standard) = true ∧ Config.standard.Ok :=
  ⟨by decide +kernel, standard_ok⟩

theorem witness_FaultValues : raisers.all (fun p =>
    p.2.1.err = none ∧ nextWith (exec p.1 p.2.1) (fun t => t.err = some p.2.2)) = true := by decide +kernel

theorem witness_OnlyReadingOperationsFault : Instr.bsFlush.faultFree = true ∧ pending.err = none ∧
    nextWith (exec .bsFlush pending) (fun _ => true) = true := by decide +kernel

theorem witness_WriteBit : { pending with wCnt := 6 }.err = none ∧ { pending with wCnt := 6 }.wCnt < 7 ∧
    pending.wCnt = 7 ∧ WriterOk pending := ⟨rfl, by decide +kernel, rfl, writerOk_pending⟩

theorem witness_WriteFieldsAndCodes : pending.err = none ∧ WriterOk pending ∧ 0 ≤ pending.cfg.nbitsMax ∧
    16 ≤ pending.cfg.nbitsMax ∧ pending.cfg.nbitsMax < 17 ∧ 1 ≤ 15 ∧ 2 ^ 15 - 1 < 2 ^ 15 ∧ 2 ^ 1 ≤ 2 :=
  ⟨rfl, writerOk_pending, by decide +kernel⟩

theorem witness_FlushAndClose : pending.err = none ∧ WriterOk pending ∧ State.reset.wCnt = 0 ∧
    WriterOk State.reset := ⟨rfl, writerOk_pending, rfl, writerOk_reset⟩

theorem witness_ReadBitsAndFields :
    { reading [0x80] with bitPos := 7 }.err = none ∧ { reading [0x80] with bitPos := 7 }.unread = true :: [] ∧
    (reading []).unread = [] ∧
    16 ≤ (reading [1, 2]).cfg.nbitsMax ∧ 16 ≤ (reading [1, 2]).unread.length ∧ (reading [1]).unread.length < 9 ∧
    9 ≤ (reading [1]).cfg.nbitsMax ∧ (reading [1]).cfg.nbitsMax < 17 := by decide +kernel

theorem witness_WriteThenRead :
    State.reset.err = none ∧ State.reset.wBuf = 0#8 ∧ State.reset.wCnt = 0 ∧ State.reset.sink = [] ∧
    (.bsWbit true, [true]) = (Instr.bsWbit true, [true]) ∧ 16 ≤ State.reset.cfg.nbitsMax ∧ 1 ≤ 2 ∧ 2 ≤ 15 ∧ 3 < 2 ^ 2 ∧
    nextWith (runAll [.bsWbit true, .bsWbits 16 0xA5C3, .bsWcode 2 3, .bsFlush] State.reset)
      (fun t => (reading (t.sink.map (·.toNat))).source = t.sink ∧ (reading []).err = none ∧
        (reading []).bitPos = 0 ∧ (reading []).cfg = State.reset.cfg) = true := by decide +kernel

theorem witness_tables_ok : State.reset.cfg.Ok ∧ State.reset.cfg.lenTable = Config.lenTable ∧
    State.reset.cfg.distTable = Config.distTable := ⟨standard_ok, rfl, rfl⟩

theorem witness_TableLookups : State.reset.err = none ∧ State.reset.cfg.minMatch ≤ 3 ∧
    258 ≤ State.reset.cfg.maxMatch ∧ 32768 ≤ State.reset.cfg.wsize ∧ (2 < 3 ∨ 258 < 2) ∧ (259 < 3 ∨ 258 < 259) ∧
    (0 < 1 ∨ 32768 < 0) ∧ (32769 < 1 ∨ 32768 < 32769) ∧ (⟨284, 227, 5⟩ : Config.CodeRow) ∈ State.reset.cfg.lenTable ∧
    31 < 2 ^ 5 ∧ (256 < 257 ∨ 285 < 256) ∧ (286 < 257 ∨ 285 < 286) ∧
    (⟨29, 24577, 13⟩ : Config.CodeRow) ∈ State.reset.cfg.distTable ∧ 29 < 30 := by decide +kernel

theorem witness_TableLaws : State.reset.err = none ∧ 3 ≤ 258 ∧ 1 ≤ 32768 ∧
    (285, 0) ≠ ((284, 31) : Nat × Nat) ∧
    nextWith (exec (.tblLenval 285 0) State.reset) (fun t => t = { State.reset with result := .value 258 }) = true ∧
    nextWith (exec (.tblDistval 29 8191) State.reset)
      (fun t => t = { State.reset with result := .value 32768 }) = true := by decide +kernel

theorem witness_ChainResetAndInsert :
    (let s := { working [1, 2, 3, 4] with hashHead := [(0, 1)], prev := [(1, 0)] }
     s.err = none ∧ s.hashHead.wf = true ∧ s.prev.wf = true ∧ 1 + 2 < s.n ∧ s.data[1]? = some 2#8 ∧ s.data[1 + 1]? = some 3#8 ∧ s.data[1 + 2]? = some 4#8 ∧
     s.n ≤ 2 + 2) ∧
    (let s := { working [1, 2, 3] with n := 4 }
     1 + 2 < s.n ∧ s.data.length ≤ 1 + 2) := by decide +kernel

theorem witness_FindReturnsMatch :
    (let s := { working [1, 2, 1, 2, 1] with hashHead := [(0x121, 0)] }
     s.err = none ∧ 2 + 2 < s.n ∧ 2 + min s.cfg.maxMatch (s.n - 2) ≤ s.data.length ∧ s.data[2]? = some 1#8 ∧
     s.data[2 + 1]? = some 2#8 ∧ s.data[2 + 2]? = some 1#8 ∧ s.candidates (s.cfg.hashOf 1#8 2#8 1#8) = [0] ∧
     s.n ≤ 3 + 2 ∧ nextWith (exec (.lzFind 2) s) (fun t => t.bestLen = 3 ∧ t.bestDist = 2) = true) ∧
    (let s := { working [1, 2, 3] with n := 4 }
     0 + 2 < s.n ∧ s.data.length < 0 + min s.cfg.maxMatch (s.n - 0)) := by decide +kernel

theorem witness_EncodeCoversChunk_MatcherRoundTrip_EncodeExpands :
    (working [1, 2, 3]).cfg.Ok ∧ (working [1, 2, 3]).err = none ∧ 3 ≤ (working [1, 2, 3]).cfg.chunkMax ∧
    3 ≤ (working [1, 2, 3]).data.length ∧ (working [1, 2, 3]).cfg.chunkMax < 65537 ∧
    (working [1, 2, 3]).data.length < 4 := ⟨standard_ok, by decide +kernel⟩

theorem witness_DecodeExpandsRecords :
    (let s := recording [⟨0, 0, 65#8, true⟩, ⟨1, 3, 0#8, false⟩]
     s.err = none ∧ s.filled.recs = true ∧ (∀ r ∈ s.recs, r.wellFormed s.cfg = true) ∧
     Expands s.recs [] [65#8, 65#8, 65#8, 65#8]) ∧
    (let s := recording [⟨0, 0, 65#8, true⟩, ⟨2, 3, 0#8, false⟩]
     (∀ r ∈ s.recs, r.wellFormed s.cfg = true) ∧ s.recs = [⟨0, 0, 65#8, true⟩] ++ ⟨2, 3, 0#8, false⟩ :: [] ∧
     Expands [⟨0, 0, 65#8, true⟩] [] [65#8] ∧ 0 < 3 ∧ [65#8].length < 2) ∧
    (let s := recording [⟨5, 0, 0x41#8, true⟩]
     (⟨5, 0, 0x41#8, true⟩ : MatchRecord) ∈ s.recs ∧ (⟨5, 0, 0x41#8, true⟩ : MatchRecord).wellFormed s.cfg = false) := by
  refine ⟨⟨rfl, rfl, by decide +kernel, ⟨by decide +kernel, [], rfl, ?_, ⟨by decide +kernel, [65#8, 65#8, 65#8], rfl, ?_, rfl⟩⟩⟩,
    ⟨by decide +kernel, rfl, ⟨by decide +kernel, [], rfl, ?_, rfl⟩, by decide +kernel, by decide +kernel⟩, by decide +kernel⟩ <;>
  · unfold IsCopy; decide

theorem witness_BuildCoversPresentSymbols :
    (let s := setFreqs .cl [0, 7] State.reset
     s.cfg = Config.standard ∧ s.err = none ∧ Alphabet.ofOperand 2 = some .cl ∧
     s.filled.has Alphabet.cl.freqBuffer = true ∧
     present (s.freqs .cl) ≤ 2 ^ Alphabet.cl.maxBits s.cfg ∧ present (s.freqs .cl) = 1) := by decide +kernel

theorem witness_BuildSaturatesKraft :
    (let s := setFreqs .cl [5, 0, 5, 1] State.reset
     Alphabet.ofOperand 2 = some .cl ∧ 2 ≤ present (s.freqs .cl) ∧
     present (s.freqs .cl) ≤ 2 ^ Alphabet.cl.maxBits s.cfg ∧ s.cfg.builder = .packageMerge ∧
     0 < 2 ∧ (s.freqs .cl)[0]? = some 5 ∧ (s.freqs .cl)[2]? = some 5 ∧
     nextWith (exec (.hufBuild 2) s) (fun t => (t.lens .cl)[0]? = some 2 ∧ (t.lens .cl)[2]? = some 1) = true) := by
  decide +kernel

theorem witness_CanonCountsCodes :
    (let s := setLens .dist [15, 0, 1] State.reset
     s.err = none ∧ Alphabet.ofOperand 1 = some .dist ∧ s.filled.has Alphabet.dist.lenBuffer = true ∧
     (∀ l ∈ s.lens .dist, l ≤ 15) ∧ (s.lens .dist)[1]? = some 0) := by decide +kernel

theorem witness_CanonCodesArePrefixFree :
    (let s := setLens .cl [2, 1, 3, 3] State.reset
     s.cfg = Config.standard ∧ Alphabet.ofOperand 2 = some .cl ∧ (∀ l ∈ s.lens .cl, l ≤ Alphabet.cl.maxBits s.cfg) ∧
     kraft (Alphabet.cl.maxBits s.cfg) (s.lens .cl) = 2 ^ Alphabet.cl.maxBits s.cfg ∧
     nextWith (exec (.hufCanon 2) s)
       (fun t => (t.codes .cl)[0]? = some (some (2, 2)) ∧ (t.codes .cl)[2]? = some (some (6, 3)) ∧
         (t.codes .cl)[3]? = some (some (7, 3))) = true) := by decide +kernel

theorem witness_SymbolDecodeInvertsCode :
    (let s := setLens .dist [2, 1, 3, 3] State.reset
     Alphabet.ofOperand 1 = some .dist ∧ (∀ m ∈ s.lens .dist, m ≤ 15) ∧ kraft 15 (s.lens .dist) ≤ 2 ^ 15 ∧
     nextWith (exec (.hufCanon 1) s)
       (fun t => (t.codes .dist)[2]? = some (some (6, 3)) ∧ (can1 [3]).codes .dist = t.codes .dist) = true ∧
     (can1 [3]).err = none ∧ (can1 [3]).filled.has Alphabet.dist.codeBuffer = true ∧
     3 ≤ (can1 [3]).cfg.decodeMaxbits ∧
     ((List.range 3).map fun k => (6 : Nat).testBit (3 - 1 - k)) <+: (can1 [3]).unread) := by decide +kernel

theorem witness_SymbolDecodeFirstMatch :
    Alphabet.ofOperand 1 = some .dist ∧ (can1 [3]).err = none ∧
    (can1 [3]).filled.has Alphabet.dist.codeBuffer = true ∧
    3 ≤ (can1 [3]).unread.length ∧
    ((can1 [3]).codes .dist)[2]? = some (some (codeValue ((can1 [3]).unread.take 3), 3)) ∧
    (∀ m < 3, 1 ≤ m → some (codeValue ((can1 [3]).unread.take m), m) ∉ (can1 [3]).codes .dist) ∧
    (can1 [3]).cfg.decodeMaxbits = 15 ∧ 15 ≤ (can1 [1, 2]).unread.length ∧
    { can1 [1, 2] with bitPos := 2 }.unread.length < 15 := by decide +kernel

theorem witness_RunLengthEncode_RoundTrip :
    (setSeq [15, 15, 15, 15, 0] State.reset).err = none ∧
    (setSeq [15, 15, 15, 15, 0] State.reset).filled.seq = true ∧
    (∀ l ∈ (setSeq [15, 15, 15, 15, 0] State.reset).seq, l ≤ 15) ∧
    (setSeq [15, 15, 15, 15, 0] State.reset).seq = List.replicate 4 15 ++ [0] ∧ 1 ≤ 4 ∧ [0].head? ≠ some 15 ∧
    (setSeq [] State.reset).seq = [] ∧ (setSeq [0] State.reset).seq = List.replicate 1 0 ++ [] ∧
    ([] : List Nat).head? ≠ some 0 := by decide +kernel

theorem witness_RunLengthDecode :
    (paired [.len 4, .rep 0]).err = none ∧ (paired [.len 4, .rep 0]).filled.rle = true ∧
    expandPairs (paired [.len 4, .rep 0]).rle [] = some [4, 4, 4, 4] ∧ [4, 4, 4, 4].length = 4 ∧
    (paired [.rep 0]).rle = .rep 0 :: [] ∧ 0 < 1 ∧
    (paired [.len 4, .rep 0]).rle = [.len 4] ++ .rep 0 :: [] ∧ expandPairs [.len 4] [] = some [4] ∧ [4].length < 3 ∧
    expandPairs [.rep 0] [4] = some [4, 4, 4, 4] ∧ 3 < [4, 4, 4, 4].length ∧ [4, 4, 4, 4].length < 5 ∧
    [4].length = 1 := by decide +kernel

theorem witness_HeaderSize :
    sized.err = none ∧ sized.filled.litLen = true ∧ sized.filled.distLen = true ∧
    sized.cfg.nlit ≤ sized.litLen.length ∧ sized.cfg.ndist ≤ sized.distLen.length ∧
    0 < sized.cfg.ndist ∧ (∀ k < sized.cfg.ndist, 0 < k → sized.distLen[k]? = some 0) ∧
    256 < sized.cfg.nlit ∧ sized.litLen[256]? ≠ some 0 ∧
    (∀ k < sized.cfg.nlit, 256 < k → sized.litLen[k]? = some 0) ∧
    (let s := { sized with litLen := List.replicate 286 0 }
     s.cfg.nlit ≤ s.litLen.length ∧ ∀ k < s.cfg.nlit, 256 ≤ k → s.litLen[k]? = some 0) ∧
    { sized with litLen := List.replicate 285 0 }.litLen.length < sized.cfg.nlit ∧
    { sized with distLen := [0] }.distLen.length < sized.cfg.ndist := by decide +kernel

theorem witness_HeaderBuild : sized.cfg.Ok ∧ sized.err = none ∧ sized.filled.litLen = true ∧
    sized.filled.distLen = true ∧ sized.cfg.nlit ≤ sized.litLen.length ∧ sized.cfg.ndist ≤ sized.distLen.length :=
  ⟨standard_ok, by decide +kernel⟩

theorem witness_HeaderWrite : headed.err = none ∧ WriterOk headed ∧ headed.filled.clLen = true ∧
    headed.filled.rle = true ∧ (headed.rle ≠ [] → headed.filled.clCode = true) ∧
    (∀ c ∈ headed.cfg.clperm.take (headed.hclen + 4), c < headed.clLen.length) ∧
    (∀ p ∈ headed.rle, hasCode headed.clCode p.sym) := by
  refine ⟨rfl, writerOk_reset, rfl, rfl, fun _ => rfl, by decide +kernel, fun p h => ?_⟩
  cases List.mem_singleton.1 h
  exact ⟨0, 1, by decide +kernel⟩

/-- The header of vector FLT-7b: 258 lengths, all zero, as two runs. -/
def zeroHeader : State :=
  { headed with
    clLen := [1] ++ List.replicate 17 0 ++ [1], clCode := [some (0, 1)] ++ List.replicate 17 none ++ [some (1, 1)]
    rle := [.z11 127, .z11 109] }

theorem witness_HeaderRead :
    (let t := zeroHeader
     let r := { reading [5, 0, 0x80, 0xE4, 0x7F, 0xFB, 0xFF, 0x1F] with bitPos := 3 }
     r.cfg = Config.standard ∧ t.cfg = r.cfg ∧ r.err = none ∧ t.hlit < 32 ∧ t.hdist < 32 ∧ t.hclen < 16 ∧
     t.clLen.length = t.cfg.ncl ∧ (∀ l ∈ t.clLen, l < 8) ∧
     (∀ k < 19, t.hclen + 4 ≤ k → ∀ c < 19, t.cfg.clperm[k]? = some c → t.clLen[c]? = some 0) ∧
     kraft 7 t.clLen ≤ 2 ^ 7 ∧ t.clCode = canonCodes t.clLen ∧ (∀ l ∈ t.clLen, l ≤ t.cfg.decodeMaxbits) ∧
     (∀ p ∈ t.rle, p.inRange = true ∧ t.clCode[p.sym]? = some (some (1, 1))) ∧
     expandPairs t.rle [] = some (List.replicate 258 0) ∧ (List.replicate 258 0).length = t.total ∧
     (headerBits t).drop 3 <+: r.unread) := by decide +kernel

theorem witness_HeaderReadInvertsWrite :
    sized.cfg = Config.standard ∧ sized.litLen.length = sized.cfg.nlit ∧ sized.distLen.length = sized.cfg.ndist ∧ (∀ l ∈ sized.litLen, l ≤ 15) ∧
    (∀ l ∈ sized.distLen, l ≤ 15) ∧
    nextWith (exec .hdrBuild sized) (fun t => nextWith (exec .hdrWrite t) fun u => nextWith (exec .bsFlush u) fun v =>
      (headerBits t).drop 3 <+: { State.reset with source := v.sink, bitPos := 3 }.unread) = true := by
  decide +kernel

theorem witness_FrequencyCount :
    (recording [⟨0, 0, 97#8, true⟩, ⟨32768, 258, 0#8, false⟩]).err = none ∧
    (recording [⟨0, 0, 97#8, true⟩, ⟨32768, 258, 0#8, false⟩]).filled.recs = true ∧
    (recording []).cfg = Config.standard ∧
    (∀ r ∈ (recording [⟨0, 0, 97#8, true⟩, ⟨32768, 258, 0#8, false⟩]).recs,
      r.wellFormed Config.standard = true) := by decide +kernel

/-- A record whose symbols all have codes. -/
def coded : State :=
  { recording [⟨1, 12, 97#8, true⟩] with
    litCode := List.replicate 97 none ++ [some (2, 2)] ++ List.replicate 167 none ++ [some (0, 1)]
    distCode := [some (0, 1)]
    filled := { State.reset.filled with recs := true, litCode := true, distCode := true } }

theorem witness_SymbolEmit : coded.err = none ∧ WriterOk coded ∧ coded.filled.recs = true ∧
    coded.filled.litCode = true ∧ coded.filled.distCode = true ∧ coded.recs[0]? = some ⟨1, 12, 97#8, true⟩ ∧
    RecordCoded coded ⟨1, 12, 97#8, true⟩ := by
  refine ⟨rfl, writerOk_reset, rfl, rfl, rfl, rfl, fun _ => ⟨⟨265, 11, 1⟩, ⟨0, 1, 0⟩, ?_, ?_, ⟨0, 1, ?_⟩, ⟨0, 1, ?_⟩⟩,
    fun _ => ⟨2, 2, ?_⟩⟩ <;> decide +kernel

theorem witness_BlockEncode : State.reset.cfg.Ok ∧ State.reset.err = none ∧ WriterOk State.reset ∧
    1 ≤ State.reset.cfg.chunkMax ∧
    1 ≤ { State.reset with data := [97#8] }.data.length ∧ State.reset.cfg.chunkMax < 65537 ∧
    nextWith (exec (.blkEnc 1 false) { State.reset with data := [97#8] }) (fun _ => true) = true :=
  ⟨standard_ok, rfl, writerOk_reset, by decide +kernel⟩

theorem witness_DecodeGuards :
    Instr.blkDec ∈ [Instr.blkDec, .strmDec] ∧
    (Inv (resting .done) ∧ (resting .done).err = none ∧ (resting .done).dstate = .done) ∧
    (Inv (resting .stored) ∧ (resting .stored).err = none ∧ (resting .stored).dstate = .stored) ∧
    (Inv (takeFault .reservedType 3 atBtype) ∧ (takeFault .reservedType 3 atBtype).dstate = .failed) ∧
    (Inv busy ∧ busy.dstate = .dynamicHuffman) :=
  ⟨by decide +kernel, ⟨inv_done, rfl, rfl⟩, ⟨inv_stored, rfl, rfl⟩,
    ⟨inv_of_checks (by decide +kernel) (fun _ h => by cases h), rfl⟩, ⟨inv_busy, rfl⟩⟩

theorem witness_OtherBlockTypes :
    Instr.strmDec ∈ [Instr.blkDec, .strmDec] ∧ (reading [1]).err = none ∧ (reading [1]).dstate = .expectHeader ∧
    (reading [1]).place = .bfinal ∧
    { reading [0x20] with bitPos := 5 }.unread = true :: false :: false :: [] ∧
    { reading [0x40] with bitPos := 5 }.unread = false :: true :: false :: [] ∧
    { reading [0xE0] with bitPos := 5 }.unread = true :: true :: true :: [] := by decide +kernel

theorem witness_BlockDecode : (reading oneBlock).cfg.Ok ∧ (reading oneBlock).err = none ∧ (reading oneBlock).dstate = .expectHeader ∧
    (reading oneBlock).place = .bfinal ∧
    nextWith (exec .blkDec (reading oneBlock)) (fun t => t.err = none ∧ t.btype = 2) = true ∧
    0 + 3 ≤ 8 * (reading oneBlock).source.length := ⟨standard_ok, by decide +kernel⟩

theorem witness_RoundTrips :
    nextWith (exec .coreReset { takeFault .reservedType 3 State.reset with data := [97#8] })
      (fun s => 1 ≤ s.cfg.chunkMax ∧ 1 ≤ s.data.length ∧
        (∀ c ∈ [[97#8], []], c.length ≤ s.cfg.chunkMax)) = true ∧
    [[97#8], []] ≠ ([] : List (List Byte)) ∧
    { takeFault .reservedType 3 State.reset with data := [97#8] }.cfg = Config.standard := by decide +kernel

theorem witness_HeaderElements :
    State.reset.err = none ∧ State.reset.dstate = .expectHeader ∧ State.reset.place = .bfinal ∧
    atBtype.dstate = .expectHeader ∧ atBtype.place = .btype ∧
    (inside (.cllen 18) []).place = .cllen 18 ∧ (inside (.cllen 18) []).cfg.clperm[18]? = some 15 ∧
    15 < (inside (.cllen 18) []).clLen.length ∧
    18 + 1 < { inside (.cllen 18) [] with hclen := 16 }.hclen + 4 ∧
    { inside (.cllen 18) [] with hclen := 15 }.hclen + 4 ≤ 18 + 1 ∧
    (inside (.cllen 3) []).cfg.clperm[3]? = some 0 ∧ { inside (.cllen 3) [] with hclen := 0 }.hclen + 4 ≤ 3 + 1 := by decide +kernel

theorem witness_CodeLengthElements :
    (let s := { inside .clsym [3] with seq := List.replicate 252 8 }
     s.err = none ∧ s.place = .clsym ∧ 15 ≤ 15 ∧ s.seq.getLast? = some 8 ∧ 2 ≤ s.unread.length ∧
     s.seq.length + (3 + fieldValue (s.unread.take 2)) ≤ s.total) ∧
    (let s := { inside .clsym [3] with seq := List.replicate 253 8 }
     s.total < s.seq.length + (3 + fieldValue (s.unread.take 2))) ∧
    (inside .clsym []).seq = [] ∧ { inside .clsym [3] with bitPos := 2 }.unread.length < 7 := by decide +kernel

theorem witness_LiteralAndEndOfBlock : (inside .record []).err = none ∧ (inside .record []).place = .record ∧
    (inside (.trailing 258 32768) []).place = .trailing 258 32768 := by decide +kernel

theorem witness_LengthElements :
    (inside .record []).cfg = Config.standard ∧
    (Instr.len284, (⟨284, 227, 5⟩ : Config.CodeRow)) ∈ lengthElements.zip (inside .record []).cfg.lenTable ∧
    (inside .record []).err = none ∧ (inside .record []).place = .record ∧
    5 ≤ { inside .record [0xF8] with bitPos := 3 }.unread.length ∧
    { inside .record [0xF8] with bitPos := 4 }.unread.length < 5 ∧
    (inside (.trailing 3 1) []).place = .trailing 3 1 := by decide +kernel

theorem witness_DistanceElements :
    (inside (.dist 3) []).cfg = Config.standard ∧
    (Instr.dist29, (⟨29, 24577, 13⟩ : Config.CodeRow)) ∈ distanceElements.zip (inside (.dist 3) []).cfg.distTable ∧
    (Instr.dist1, (⟨1, 2, 0⟩ : Config.CodeRow)) ∈ distanceElements.zip (inside (.dist 3) []).cfg.distTable ∧
    (inside (.dist 3) []).err = none ∧ (inside (.dist 3) []).place = .dist 3 ∧ 0 ≤ (inside (.dist 3) []).unread.length ∧
    2 + fieldValue ((inside (.dist 3) []).unread.take 0) ≤ { inside (.dist 3) [] with out := [1#8, 2#8] }.out.length ∧
    { inside (.dist 3) [] with out := [1#8] }.out.length < 2 ∧ (inside (.dist 3) [1]).unread.length < 13 := by
  decide +kernel

theorem witness_IllegalSymbolsAndPad : (inside .record []).err = none ∧ (inside .record []).place = .record ∧
    (inside (.trailing 3 1) []).place = .trailing 3 1 ∧ (inside (.dist 258) []).place = .dist 258 ∧
    { State.reset with dstate := .done }.dstate = .done := by decide +kernel

theorem witness_UnitsAreSeparate : nextWith (exec .lzReset pending) (fun _ => true) = true ∧
    Instr.lzReset ≠ .coreReset ∧ Instr.lzReset.writesSink = false ∧ Instr.bsFlush.writesChains = false ∧
    Instr.lzReset.leavesDecoder = true := by decide +kernel

theorem witness_HostRequestsNeverFault :
    State.reset.cfg.Ok ∧
    [Request.command 0x55#32] = .command 0x55#32 :: [] ∧ (Request.command 0x55#32).fromHost = true :=
  ⟨standard_ok, by decide +kernel⟩

theorem witness_StepKeepsInvariant :
    Inv busy ∧ nextWith (step busy) (fun t => t.dstate = .done ∧ t.bitPos = 8) = true :=
  ⟨inv_busy, by decide +kernel⟩

end Sys2Proof.Tests
end

section
/-! SUPPORT. The statements about reset, the status registers and what a step runs: the fields of STATUS as digits of a
sum, the safe state after reset, and the fetch clause by clause. -/

namespace Sys2Proof.Machine

/-! ## Status registers -/

theorem DState.code_le (d : DState) : d.code ≤ 5 := by cases d <;> decide

theorem State.errClass_le (s : State) : s.errClass ≤ 3 := by
  unfold State.errClass
  cases s.err with
  | none => decide
  | some c => cases c <;> decide

theorem State.errCause_le (s : State) : s.errCause ≤ 6 := by
  unfold State.errCause
  cases s.err with
  | none => decide
  | some c => cases c <;> decide

/-- No field of STATUS runs over into the next one (R28). -/
theorem State.status_toNat (s : State) :
    s.status.toNat = s.dstate.code + s.errClass * 2 ^ 4 + s.errCause * 2 ^ 8 + s.bfinal.toNat * 2 ^ 12
      + s.btype % 4 * 2 ^ 13 := by
  have hd := s.dstate.code_le
  have hc := s.errClass_le
  have hk := s.errCause_le
  have hf := s.bfinal.toNat_le
  rw [State.status, BitVec.toNat_ofNat]
  omega

theorem State.errInfo_toNat (s : State) :
    s.errInfo.toNat = s.errBitPos % 2 ^ 32 + s.errValue % 2 ^ 32 * 2 ^ 32 := by
  rw [State.errInfo, BitVec.toNat_ofNat]
  omega

/-- Settles O9: the fields of STATUS and ERRINFO are digits of a mixed-radix sum, read off by arithmetic. -/
theorem statusRegisters : Obligations.StatusRegisters := by
  intro s hb
  have hs := s.status_toNat
  have he := s.errInfo_toNat
  have hd := s.dstate.code_le
  have hc := s.errClass_le
  have hk := s.errCause_le
  have hf := s.bfinal.toNat_le
  refine ⟨?_, ?_, ?_, by omega, by omega, by omega, by omega, by omega, rfl⟩
  · intro d k hmem hdk
    have hcode : ∀ p ∈ [(DState.expectHeader, 0), (.stored, 1), (.fixedHuffman, 2), (.dynamicHuffman, 3), (.done, 4),
        (.failed, 5)], p.1.code = p.2 := by decide
    have hk' : s.dstate.code = k := hdk ▸ hcode _ hmem
    omega
  · intro hnone
    have h1 : s.errClass = 0 := by rw [State.errClass, hnone]; rfl
    have h2 : s.errCause = 0 := by rw [State.errCause, hnone]; rfl
    omega
  · intro c k l hmem hsome
    have hnumbers : ∀ p ∈ [(Cause.noCodeMatch, 1, 1), (.symbolOutOfRange, 1, 2), (.repeatNoPrevious, 1, 3),
        (.repeatOverrun, 1, 4), (.trailingNotLiteral, 1, 5), (.distanceTooFar, 1, 6), (.fixedHuffman, 2, 1),
        (.reservedType, 2, 2), (.endOfSource, 3, 1)], p.1.errClass = p.2.1 ∧ p.1.errCause = p.2.2 := by decide
    have hclass : s.errClass = k := by rw [State.errClass, hsome]; exact (hnumbers _ hmem).1
    have hcause : s.errCause = l := by rw [State.errCause, hsome]; exact (hnumbers _ hmem).2
    omega

/-! ## Reset -/

/-- The parameters at the spec's values keep their constraints (R10, R11). -/
theorem standard_params_ok : Config.standard.Ok where
  symbols := by decide
  hashSize := by decide
  ranges := by decide
  caps := by decide
  clperm := by decide
  lenTable := by decide +kernel
  distTable := by decide +kernel

/-- What makes a state with an empty writer and no block in progress safe. -/
theorem Inv.of_idle {s : State} (hw : s.wBuf = 0#8 ∧ s.wCnt = 0) (hc : s.cfg.Ok) (hd : s.dstate = .expectHeader)
    (hp : s.place = .bfinal) (he : s.err = none ∧ s.errBitPos = 0 ∧ s.errValue = 0) (hb : s.btype = 0)
    (hh : s.hashHead = []) (hv : s.prev.wf = true ∧ s.prev.below s.cfg.prevSize) : Inv s where
  writer := by simp [WriterOk, hw]
  cfg := hc
  failed := by simp [hd]
  pending := by simp [he]
  noInfo := fun _ => he.2
  noOutput := by simp [he]
  btype := by simp [hb]
  notFixed := by simp [hd]
  inBlock := by simp [hd, hp, Place.inBlock]
  btypePlace := fun _ => hd
  cllenPlace := by simp [hp]
  hashHead := by simp [hh, Memory.wf, Memory.below]
  prev := hv

/-- Settles O6: the fields of `State.reset` are those values, and a state without a block is safe. -/
theorem resetState : Obligations.ResetState :=
  ⟨rfl, rfl, rfl, rfl, rfl, by decide, by decide, rfl, rfl, fun _ => rfl,
    .of_idle ⟨rfl, rfl⟩ standard_params_ok rfl rfl ⟨rfl, rfl, rfl⟩ rfl rfl ⟨rfl, by simp [State.reset, Memory.below]⟩⟩

theorem coreReset_inv (s : State) (h : s.cfg.Ok) : Inv (coreReset s) :=
  .of_idle ⟨rfl, rfl⟩ h rfl rfl ⟨rfl, rfl, rfl⟩ rfl rfl (Memory.ofList_wf _ _)

/-- Settles O7: every field of `coreReset s` by its law; the free registers are cut to their widths when drawn. -/
theorem coreReset_resetValues : Obligations.CoreReset := by
  intro s
  have cut : ∀ v w : Nat, v % 2 ^ w < 2 ^ w := fun v w => Nat.mod_lt _ (by positivity)
  refine ⟨coreReset s, rfl, rfl, rfl, rfl, rfl, rfl, ?_, ?_, rfl, rfl, rfl, rfl, rfl, rfl, rfl, fun _ => rfl, rfl, rfl,
    rfl, rfl, rfl, cut _ _, cut _ _, cut _ _, cut _ _, cut _ _, cut _ _, cut _ _, cut _ _, cut _ _, cut _ _, cut _ _,
    cut _ _, coreReset_inv s⟩
  · exact BitVec.eq_of_toNat_eq (by simp [State.status_toNat, State.errClass, State.errCause, DState.code])
  · exact BitVec.eq_of_toNat_eq (by simp [State.errInfo_toNat])

/-! ## The step -/

/-- Without an error, outside `Done` and `Stored`, the fetch reads the element at the place (R105). -/
theorem fetchElement_reading {s : State} (he : s.err = none) (hd : s.dstate ≠ .done) (hs : s.dstate ≠ .stored) :
    fetchElement s = elementAt s.place s := by
  unfold fetchElement
  cases h : s.dstate <;> simp_all

theorem elementAt_field {p : Place} {f : Format} {n : Nat} (h : p.fieldFormat = some (f, n)) (s : State) :
    elementAt p s = elementOf f (readBits n s) := by
  cases p <;> cases h <;> rfl

theorem elementAt_symbol {p : Place} {f : Format} {a : Alphabet} (h : p.symbolFormat = some (f, a)) (s : State) :
    elementAt p s = symbolOf f a s := by
  cases p <;> cases h <;> rfl

theorem step_of_run {s t : State} {r : Request} {rest : List Request} {i : Instr} (hp : s.port = r :: rest)
    (hr : serve r { s with port := rest } = .run i t) : step s = exec i t := by
  simp only [step, fetch, hp, hr]

theorem step_of_settled {s : State} {r : Request} {rest : List Request} {o : Out} (hp : s.port = r :: rest)
    (hr : serve r { s with port := rest } = .settled o) : step s = o := by
  simp only [step, fetch, hp, hr]

/-- Settles O5: each request's clause of `serve`, the element's by what stands at its place. -/
theorem stepRunsTheDecodedInstruction : Obligations.StepRunsTheDecodedInstruction := by
  intro s rest
  refine ⟨?_, ?_, ?_, ?_, ?_, ?_, ?_, ?_, ?_, ?_, ?_, ?_, ?_, ?_, ?_⟩
  · intro hp
    simp only [step, fetch, hp]
  · intro w i hp hd hh
    exact step_of_run hp (by simp only [serve, fetchCommand, hd, hh, if_true])
  · intro w i hp hd
    exact step_of_run hp (by simp only [serve, fetchSequencer, hd])
  · intro hp he hd
    exact step_of_run hp (by simp [serve, fetchElement, he, hd])
  · intro f n i hp he hd hs hf hn hi
    refine step_of_run hp ?_
    rw [serve, fetchElement_reading (s := { s with port := rest }) he hd hs, elementAt_field hf,
      readBits_ok n { s with port := rest } hn]
    change elementOf f (.ok (fieldValue (s.unread.take n)) _) = _
    simp only [elementOf, hi]
  · intro f a v i t hp he hd hs hf ha hv hi
    refine step_of_run hp ?_
    rw [serve, fetchElement_reading (s := { s with port := rest }) he hd hs, elementAt_symbol hf, symbolOf,
      if_pos ha, hv]
    simp only [elementOf, hi]
  · intro hp he
    exact step_of_settled hp (by simp only [serve, fetchElement, he, if_true])
  · intro hp he hs
    exact step_of_settled hp (by simp [serve, fetchElement, he, hs])
  · exact fun bytes hp => step_of_settled hp rfl
  · exact fun bytes hp => step_of_settled hp rfl
  · exact fun rs hp => step_of_settled hp rfl
  · exact fun a fs hp => step_of_settled hp rfl
  · exact fun a ls hp => step_of_settled hp rfl
  · exact fun ls hp => step_of_settled hp rfl
  · exact fun ps hp => step_of_settled hp rfl

end Sys2Proof.Machine
end

section
/-! SUPPORT. LZ.DECODE is the expansion of its records: a copy is determined by its distance and length, so a record
that `Expands` allows is decoded to what `Expands` says. -/

namespace Sys2Proof.Machine

/-- The bytes of a copy are determined one after another by those before them. -/
theorem isCopy_unique {offset : Nat} {before copy copy' : List Byte}
    (h1 : 0 < copy.length → 1 ≤ offset ∧ offset ≤ before.length)
    (hlen : copy'.length = copy.length) (hc : IsCopy offset before copy) (hc' : IsCopy offset before copy') :
    copy' = copy := by
  apply List.ext_getElem?
  intro k
  induction k using Nat.strong_induction_on with
  | _ k ih =>
    by_cases hk : k < copy.length
    · rw [hc k hk, hc' k (by omega)]
      by_cases hb : before.length - offset + k < before.length
      · rw [List.getElem?_append_left hb, List.getElem?_append_left hb]
      · rw [List.getElem?_append_right (by omega), List.getElem?_append_right (by omega)]
        exact ih _ (by omega)
    · rw [List.getElem?_eq_none (by omega), List.getElem?_eq_none (by omega)]

/-- A record whose distance stays in the output is its copy, then its literal. -/
theorem lzStep_expands {r : MatchRecord} {s : State} {copy : List Byte}
    (hr : 0 < r.length → 1 ≤ r.offset ∧ r.offset ≤ s.out.length) (hlen : copy.length = r.length)
    (hc : IsCopy r.offset s.out copy) :
    lzStep r s = .ok () { s with out := s.out ++ copy ++ if r.hasLit then [r.lit] else [] } := by
  rcases lzStep_cases r s with ⟨_, copy', hlen', hc', h⟩ | ⟨h0, hfar, _⟩
  · rw [h, isCopy_unique (by rwa [hlen]) (by rw [hlen', hlen]) hc hc']
  · have := hr h0
    omega

theorem lzSteps_of_expands {rs : List MatchRecord} {s : State} {bytes : List Byte} (h : Expands rs s.out bytes) :
    lzSteps rs s = .ok () { s with out := bytes } := by
  induction rs generalizing s with
  | nil => rw [show bytes = s.out from h]; rfl
  | cons r rs ih =>
    obtain ⟨hr, copy, hlen, hc, hrest⟩ := h
    rw [lzSteps, lzStep_expands hr hlen hc, Act.bind_ok]
    exact ih hrest

theorem lzSteps_append (as bs : List MatchRecord) (s : State) :
    lzSteps (as ++ bs) s = (lzSteps as s).bind fun _ t => lzSteps bs t := by
  induction as generalizing s with
  | nil => rfl
  | cons a as ih => simp only [List.cons_append, lzSteps, ih, Act.bind_assoc]

/-- A distance beyond the output raises DistanceTooFar (R310). -/
theorem lzStep_tooFar {r : MatchRecord} {s : State} (h0 : 0 < r.length) (hfar : s.out.length < r.offset) :
    lzStep r s = .raised (takeFault .distanceTooFar r.offset s) := by
  rcases lzStep_cases r s with ⟨hr, _⟩ | ⟨_, _, h⟩
  · have := hr h0
    omega
  · exact h

/-- What LZ.DECODE answers on a filled `recs`, by whether its records are well formed. -/
theorem execLzDecode_ready {s : State} (he : s.err = none) (hf : s.filled.recs = true) :
    execLzDecode s = if s.recs.all (fun r => r.wellFormed s.cfg) then (lzDecode s).outcome fun _ => .none
      else .refused .badRecord := by
  rw [execLzDecode, unlessPending_ready he, needs_filled (by simpa [Filled.has] using hf)]

/-- Settles O24, by induction over the records: each step is the one `Expands` allows, or the first fault. -/
theorem decodeExpandsRecords : Obligations.DecodeExpandsRecords := by
  intro s he hf
  refine ⟨?_, ?_, ?_⟩
  · intro bytes hwf hx
    have hsteps : lzDecode s = .ok () { s with out := bytes } := lzSteps_of_expands (s := { s with out := [] }) hx
    change execLzDecode s = _
    rw [execLzDecode_ready he hf, if_pos (List.all_eq_true.2 hwf), hsteps]
    rfl
  · intro good r bad bytes hwf hrecs hx h0 hfar
    have hgood : lzSteps good { s with out := [] } = .ok () { s with out := bytes } := lzSteps_of_expands hx
    have hsteps : lzDecode s = .raised (takeFault .distanceTooFar r.offset { s with out := bytes }) := by
      rw [lzDecode, hrecs, lzSteps_append, hgood, Act.bind_ok, lzSteps, lzStep_tooFar h0 hfar, Act.bind_raised]
    refine ⟨_, ?_, raised_takeFault .distanceTooFar r.offset { s with out := bytes }⟩
    change execLzDecode s = _
    rw [execLzDecode_ready he hf, if_pos (List.all_eq_true.2 hwf), hsteps]
    rfl
  · intro r hr hwf
    have hbad : ¬ s.recs.all (fun r => r.wellFormed s.cfg) = true := fun hall => by
      have := List.all_eq_true.1 hall r hr
      simp [hwf] at this
    change execLzDecode s = _
    rw [execLzDecode_ready he hf, if_neg hbad]

end Sys2Proof.Machine
end

section
/-! SUPPORT. What the operations of the decoder can do, said once each: the guards read backwards, the reading operations
(which leave the control state, and are no fault of the model while the parameters keep their constraints), and whole
blocks. -/

namespace Sys2Proof.Machine

/-! ## Guards, read backwards

A guard that does not refuse has let its operation run. `nofun` shows that an outcome is no refusal. -/

theorem unlessPending_eq {s : State} {k o : Out} (h : unlessPending s k = o) (ho : ∀ r, o ≠ .refused r) :
    s.err = none ∧ k = o := by
  cases he : s.err with
  | none => exact ⟨rfl, by rwa [unlessPending_ready he] at h⟩
  | some c => exact absurd (h.symm.trans (unlessPending_pending (by simp [he]) k)) (ho _)

theorem needs_eq {bs : List Buffer} {s : State} {k o : Out} (h : needs bs s k = o) (ho : ∀ r, o ≠ .refused r) :
    k = o := by
  rcases needs_cases bs s k with ⟨_, h'⟩ | ⟨_, _, _, h'⟩
  · rw [← h', h]
  · exact absurd (h.symm.trans h') (ho _)

theorem onAlphabet_eq {a : Nat} {k : Alphabet → Out} {o : Out} (h : onAlphabet a k = o) (ho : ∀ r, o ≠ .refused r) :
    ∃ x, Alphabet.ofOperand a = some x ∧ k x = o := by
  unfold onAlphabet at h
  split at h
  · exact absurd h.symm (ho _)
  · rename_i x hx
    exact ⟨x, hx, h⟩

theorem ite_refused_eq {c : Prop} [Decidable c] {r : Refusal} {k o : Out} (h : (if c then .refused r else k) = o)
    (ho : ∀ r, o ≠ .refused r) : ¬ c ∧ k = o := by
  split at h
  · exact absurd h.symm (ho _)
  · exact ⟨‹_›, h⟩

theorem ite_else_refused_eq {c : Prop} [Decidable c] {r : Refusal} {k o : Out} (h : (if c then k else .refused r) = o)
    (ho : ∀ r, o ≠ .refused r) : c ∧ k = o := by
  split at h
  · exact ⟨‹_›, h⟩
  · exact absurd h.symm (ho _)

theorem withChunk_eq {n : Nat} {s : State} {k o : Out} (h : withChunk n s k = o) (ho : ∀ r, o ≠ .refused r) :
    n ≤ s.cfg.chunkMax ∧ n ≤ s.data.length ∧ k = o := by
  obtain ⟨hn, h⟩ := ite_refused_eq h ho
  obtain ⟨hd, h⟩ := ite_refused_eq h ho
  exact ⟨not_lt.1 hn, not_lt.1 hd, h⟩

theorem withBytes_eq {m : Nat} {s : State} {k o : Out} (h : withBytes m s k = o) (ho : ∀ r, o ≠ .refused r) :
    k = o := (ite_refused_eq h ho).2

theorem atBlockStart_eq {s : State} {k o : Out} (h : atBlockStart s k = o) (ho : ∀ r, o ≠ .refused r) :
    s.dstate = .expectHeader ∧ s.place = .bfinal ∧ k = o := by
  unfold atBlockStart at h
  cases hd : s.dstate <;> simp only [hd] at h
  case expectHeader =>
    obtain ⟨hp, h⟩ := ite_else_refused_eq h ho
    exact ⟨rfl, hp, h⟩
  all_goals exact absurd h.symm (ho _)

theorem complete_eq_next {r : Result} {s t : State} (h : complete r s = .next t) : t = { s with result := r } :=
  (Host.Outcome.next.inj h).symm

/-! ## Steps of an operation and what they meet -/

/-- A step that goes on does so in a state with `P`, one that raises has met its condition in a state with `Q`, and it
is a fault of the model only under `F`. -/
def Act.Meets {α : Type} (P Q : State → Prop) (F : Prop) : Act α → Prop
  | .ok _ t => P t
  | .raised t => ∃ c v u, Q u ∧ t = takeFault c v u
  | .fault _ => F

theorem Act.Meets.bind {α β : Type} {P P' Q : State → Prop} {F : Prop} {x : Act α} {f : α → State → Act β}
    (hx : x.Meets P Q F) (hf : ∀ a t, x = .ok a t → P t → (f a t).Meets P' Q F) : (x.bind f).Meets P' Q F := by
  cases x with
  | ok a t => exact hf a t rfl hx
  | raised t => exact hx
  | fault e => exact hx

theorem Act.Meets.mono {α : Type} {P P' Q Q' : State → Prop} {F F' : Prop} {x : Act α} (hx : x.Meets P Q F)
    (hP : ∀ t, P t → P' t) (hQ : ∀ u, Q u → Q' u) (hF : F → F') : x.Meets P' Q' F' := by
  cases x with
  | ok a t => exact hP t hx
  | raised t =>
    obtain ⟨c, v, u, hu, rfl⟩ := hx
    exact ⟨c, v, u, hQ u hu, rfl⟩
  | fault e => exact hF hx

theorem Act.Meets.of_raise {α : Type} {P Q : State → Prop} {F : Prop} {c : Cause} {v : Nat} {s : State} (h : Q s) :
    (raise c v s : Act α).Meets P Q F := ⟨c, v, s, h, rfl⟩

/-- An operation made of such a step has completed, or raised. -/
theorem Act.Meets.of_next {α : Type} {P Q : State → Prop} {F : Prop} {x : Act α} {r : α → Result} {t : State}
    (hx : x.Meets P Q F) (h : x.outcome r = .next t) :
    (∃ u q, P u ∧ t = { u with result := q }) ∨ ∃ c v u, Q u ∧ t = takeFault c v u := by
  rcases Act.outcome_eq_next h with ⟨a, u, rfl, rfl⟩ | rfl
  · exact .inl ⟨u, r a, hx, rfl⟩
  · exact .inr hx

theorem Act.Meets.of_fault {α : Type} {P Q : State → Prop} {F : Prop} {x : Act α} {r : α → Result} {f : Fault}
    (hx : x.Meets P Q F) (h : x.outcome r = .fault f) : F := by
  cases x with
  | ok a u => cases h
  | raised u => cases h
  | fault e => exact hx

/-! ## Reading without moving the control registers -/

theorem Advances.cfg {s t : State} (h : Advances s t) : t.cfg = s.cfg := by rw [h.2]

/-- `t` is `s` after reading that leaves `dstate`, the place and BTYPE as they are. -/
structure ReadsOn (s t : State) : Prop where
  advances : Advances s t
  dstate   : t.dstate = s.dstate
  place    : t.place = s.place
  btype    : t.btype = s.btype
  hclen    : s.hclen < 16 → t.hclen < 16

theorem ReadsOn.refl (s : State) : ReadsOn s s := ⟨.refl s, rfl, rfl, rfl, id⟩

theorem ReadsOn.trans {s t u : State} (h : ReadsOn s t) (h' : ReadsOn t u) : ReadsOn s u :=
  ⟨h.advances.trans h'.advances, h'.dstate.trans h.dstate, h'.place.trans h.place, h'.btype.trans h.btype,
    fun hs => h'.hclen (h.hclen hs)⟩

/-- A step that reads on, raises from a state to which it has read on, and is no fault of the model while the parameters
keep their constraints. -/
def Act.ReadsOn {α : Type} (s : State) (x : Act α) : Prop :=
  x.Meets (Machine.ReadsOn s) (Machine.ReadsOn s) (¬ s.cfg.Ok)

theorem Act.ReadsOn.after {α : Type} {s t : State} {x : Act α} (hx : x.ReadsOn t) (h : Machine.ReadsOn s t) :
    x.ReadsOn s :=
  Act.Meets.mono hx (fun _ => h.trans) (fun _ => h.trans) (by rw [h.advances.cfg]; exact id)

theorem Act.ReadsOn.of_raise {α : Type} {c : Cause} {v : Nat} {s u : State} (h : Machine.ReadsOn s u) :
    (raise c v u : Act α).ReadsOn s := Act.Meets.of_raise h

theorem Act.ReadsOn.bind {α β : Type} {s : State} {x : Act α} {f : α → State → Act β} (hx : x.ReadsOn s)
    (hf : ∀ a t, x = .ok a t → Machine.ReadsOn s t → (f a t).ReadsOn t) : (x.bind f).ReadsOn s :=
  Act.Meets.bind hx fun a t e h => (hf a t e h).after h

theorem readBits_readsOn (n : Nat) (s : State) : (readBits n s).ReadsOn s := by
  rcases readBits_cases n s with ⟨_, h⟩ | ⟨_, h⟩ <;> rw [h]
  · exact ⟨⟨Nat.le_add_right .., rfl⟩, rfl, rfl, rfl, id⟩
  · exact .of_raise ⟨⟨Nat.le_add_right .., rfl⟩, rfl, rfl, rfl, id⟩

theorem readBit_readsOn (s : State) : (readBit s).ReadsOn s := by
  cases hu : s.unread with
  | nil => rw [readBit_nil s hu]; exact .of_raise (.refl s)
  | cons b bs => rw [readBit_cons s b bs hu]; exact ⟨⟨Nat.le_add_right .., rfl⟩, rfl, rfl, rfl, id⟩

/-- A field read fits its width. -/
theorem readBits_lt {n v : Nat} {s t : State} (h : readBits n s = .ok v t) : v < 2 ^ n := by
  rcases readBits_cases n s with ⟨hn, h'⟩ | ⟨_, h'⟩ <;> rw [h'] at h
  · obtain ⟨rfl, rfl⟩ := Act.ok.inj h
    simpa [Nat.min_eq_left hn] using fieldValue_lt (s.unread.take n)
  · cases h

theorem symDec_readsOn (a : Alphabet) (s : State) : (symDec a s).ReadsOn s := by
  rcases symDecLoop_cases (s.codes a) s.cfg.decodeMaxbits { s with acc := 0, accLen := 0 } with
    ⟨sym, l, _, _, _, _, _, h⟩ | ⟨_, ⟨_, h⟩ | ⟨_, v, k, h⟩⟩ <;> rw [symDec, h]
  · exact ⟨⟨Nat.le_add_right .., rfl⟩, rfl, rfl, rfl, id⟩
  · exact .of_raise ⟨⟨Nat.le_add_right .., rfl⟩, rfl, rfl, rfl, id⟩
  · exact .of_raise ⟨⟨Nat.le_add_right .., rfl⟩, rfl, rfl, rfl, id⟩

theorem rleStep_readsOn (total : Nat) (p : ClPair) (s : State) : (rleStep total p s).ReadsOn s := by
  rcases rleStep_cases total p s with ⟨ls, _, _, h⟩ | ⟨_, h⟩ | ⟨ls, _, _, _, h⟩ <;> rw [h]
  · exact ⟨⟨le_rfl, rfl⟩, rfl, rfl, rfl, id⟩
  · exact .of_raise (.refl s)
  · exact .of_raise (.refl s)

theorem clSymbol_readsOn (c : Nat) (s : State) : (clSymbol c s).ReadsOn s := by
  unfold clSymbol
  split
  · exact rleStep_readsOn ..
  · split
    · split
      · exact .of_raise (.refl s)
      · exact (readBits_readsOn ..).bind fun _ _ _ _ => rleStep_readsOn ..
    · split <;> exact (readBits_readsOn ..).bind fun _ _ _ _ => rleStep_readsOn ..

/-- Every entry of CLPERM is a code-length symbol (R150). -/
theorem clperm_lt {c : Config.Params} (hc : c.Ok) {k : Nat} (hk : k ∈ c.clperm) : k < c.ncl := by
  obtain ⟨hlen, hall⟩ := hc.clperm
  have hsub : List.range c.ncl ⊆ c.clperm := fun k hk => hall k (List.mem_range.1 hk)
  have hperm : (List.range c.ncl).Perm c.clperm :=
    (List.nodup_range.subperm hsub).perm_of_length_le (by simp [hlen])
  exact List.mem_range.1 (hperm.mem_iff.2 hk)

/-- The places of CLPERM are there and lead into `clLen`. -/
theorem setClLen_total {k v : Nat} {s : State} (hc : s.cfg.Ok) (hk : k < s.cfg.ncl) (hl : s.clLen.length = s.cfg.ncl) :
    ∃ c, setClLen k v s = .ok () { s with clLen := s.clLen.set c v } := by
  have hk' : k < s.cfg.clperm.length := by rw [hc.clperm.1]; exact hk
  refine ⟨s.cfg.clperm[k], ?_⟩
  rw [setClLen, List.getElem?_eq_getElem hk']
  exact if_pos (by rw [hl]; exact clperm_lt hc (List.getElem_mem _))

theorem readClLens_readsOn {k count : Nat} {s : State} (hk : s.cfg.Ok → k + count ≤ s.cfg.ncl)
    (hl : s.clLen.length = s.cfg.ncl) : (readClLens k count s).ReadsOn s := by
  induction count generalizing k s with
  | zero => exact ReadsOn.refl s
  | succ count ih =>
    refine (readBits_readsOn 3 s).bind fun v t hv ht => ?_
    have hcfg := ht.advances.cfg
    have hlt : t.clLen.length = t.cfg.ncl := by
      rcases readBits_cases 3 s with ⟨_, h⟩ | ⟨_, h⟩ <;> rw [h] at hv <;> cases hv
      exact hl
    have hkt : t.cfg.Ok → k + (count + 1) ≤ t.cfg.ncl := by rwa [hcfg]
    have hrest : ∀ c, (readClLens (k + 1) count { t with clLen := t.clLen.set c v }).ReadsOn t := fun c =>
      .after (ih (s := { t with clLen := t.clLen.set c v })
        (fun h => by have := hkt h; change k + 1 + count ≤ t.cfg.ncl; omega) (by simpa using hlt))
        ⟨⟨le_rfl, rfl⟩, rfl, rfl, rfl, id⟩
    rcases setClLen_cases k v t with ⟨c, _, _, h⟩ | ⟨e, h⟩
    · rw [h]
      exact hrest c
    · rw [h]
      intro hc
      obtain ⟨c, hset⟩ := setClLen_total (k := k) (v := v) hc (by have := hkt hc; omega) hlt
      rw [hset] at h
      cases h

theorem readSeq_readsOn (fuel : Nat) (s : State) : (readSeq fuel s).ReadsOn s := by
  induction fuel generalizing s with
  | zero => exact ReadsOn.refl s
  | succ fuel ih =>
    unfold readSeq
    split
    · exact (symDec_readsOn ..).bind fun _ _ _ _ => (clSymbol_readsOn ..).bind fun _ u _ _ => ih u
    · exact ReadsOn.refl s

theorem hdrRead_readsOn (s : State) : (hdrRead s).ReadsOn s := by
  refine (readBits_readsOn 5 s).bind fun v s _ _ => ?_
  refine .after ((readBits_readsOn _ (setHlit v s)).bind fun v s _ _ => ?_) ⟨⟨le_rfl, rfl⟩, rfl, rfl, rfl, id⟩
  refine .after ((readBits_readsOn _ (setHdist v s)).bind fun v s hv _ => ?_) ⟨⟨le_rfl, rfl⟩, rfl, rfl, rfl, id⟩
  have hv16 : v < 2 ^ 4 := readBits_lt hv
  have hplaces : s.cfg.Ok → 0 + (v + 4) ≤ s.cfg.ncl := fun hc => by
    have hncl : s.cfg.ncl = 19 := hc.symbols.2.2.1
    omega
  refine .after ((readClLens_readsOn (s := setHclen v s) hplaces List.length_replicate).bind fun _ s _ _ => ?_)
    ⟨⟨le_rfl, rfl⟩, rfl, rfl, rfl, fun _ => hv16⟩
  refine .after ((readSeq_readsOn _ (beginSeq s)).bind fun _ s _ _ => ?_) ⟨⟨le_rfl, rfl⟩, rfl, rfl, rfl, id⟩
  exact ⟨⟨le_rfl, rfl⟩, rfl, rfl, rfl, id⟩

/-- A symbol of the table has its value read, or the table has no row of it. -/
theorem readExtra_readsOn {table : List Config.CodeRow} {sym : Nat} {s : State}
    (h : s.cfg.Ok → (rowOf table sym).isSome = true) : (readExtra table sym s).ReadsOn s := by
  unfold readExtra
  split
  · rename_i hnone
    exact fun hc => by simpa [hnone] using h hc
  · exact (readBits_readsOn ..).bind fun _ t _ _ => ReadsOn.refl t

theorem rowOf_isSome {table : List Config.CodeRow} {sym : Nat} (h : sym ∈ table.map Config.CodeRow.sym) :
    (rowOf table sym).isSome = true := by
  obtain ⟨r, hr, rfl⟩ := List.mem_map.1 h
  exact List.find?_isSome.2 ⟨r, hr, by simp⟩

/-- The length symbols have rows (R151). -/
theorem lenTable_isSome {c : Config.Params} (hc : c.Ok) {sym : Nat} (h : 257 ≤ sym) (h' : sym < c.nlit) :
    (rowOf c.lenTable sym).isSome = true := by
  have hn : c.nlit = 286 := hc.symbols.1
  exact rowOf_isSome (by rw [hc.lenTable.1, List.mem_range'_1]; omega)

/-- The distance symbols have rows (R152). -/
theorem distTable_isSome {c : Config.Params} (hc : c.Ok) {sym : Nat} (h : sym < c.ndist) :
    (rowOf c.distTable sym).isSome = true := by
  have hn : c.ndist = 30 := hc.symbols.2.1
  exact rowOf_isSome (by rw [hc.distTable.1, List.mem_range]; omega)

theorem symbolLoop_readsOn (fuel : Nat) (s : State) : (symbolLoop fuel s).ReadsOn s := by
  induction fuel generalizing s with
  | zero => exact .of_raise (.refl s)
  | succ fuel ih =>
    refine (symDec_readsOn ..).bind fun sym s _ _ => ?_
    split
    · exact (ih (pushLiteral _ s)).after ⟨⟨le_rfl, rfl⟩, rfl, rfl, rfl, id⟩
    split
    · exact ReadsOn.refl s
    split
    · exact .of_raise (.refl s)
    rename_i hbyte heob hlit
    have hlen : s.cfg.Ok → (rowOf s.cfg.lenTable sym).isSome = true := fun hc => by
      have he : s.cfg.eob = 256 := hc.symbols.2.2.2
      exact lenTable_isSome hc (by omega) (by omega)
    refine (readExtra_readsOn hlen).bind fun len s _ _ => (symDec_readsOn ..).bind fun d s _ _ => ?_
    split
    · exact .of_raise (.refl s)
    rename_i hd
    refine (readExtra_readsOn fun hc => distTable_isSome hc (not_le.1 hd)).bind fun dist s _ _ => ?_
    split
    · exact .of_raise (.refl s)
    refine .after ((symDec_readsOn _ (copyMatch dist len s)).bind fun t s _ _ => ?_)
      ⟨⟨le_rfl, rfl⟩, rfl, rfl, rfl, id⟩
    split
    · exact (ih (pushMatch dist len _ s)).after ⟨⟨le_rfl, rfl⟩, rfl, rfl, rfl, id⟩
    split
    · exact ⟨⟨le_rfl, rfl⟩, rfl, rfl, rfl, id⟩
    · exact .of_raise (.refl s)

theorem lzSteps_readsOn (rs : List MatchRecord) (s : State) : (lzSteps rs s).ReadsOn s := by
  induction rs generalizing s with
  | nil => exact ReadsOn.refl s
  | cons r rs ih =>
    refine Act.ReadsOn.bind ?_ fun _ t _ _ => ih t
    rcases lzStep_cases r s with ⟨_, copy, _, _, h⟩ | ⟨_, _, h⟩ <;> rw [h]
    · exact ⟨⟨le_rfl, rfl⟩, rfl, rfl, rfl, id⟩
    · exact .of_raise (.refl s)

theorem lzDecode_readsOn (s : State) : (lzDecode s).ReadsOn s :=
  (lzSteps_readsOn s.recs { s with out := [] }).after ⟨⟨le_rfl, rfl⟩, rfl, rfl, rfl, id⟩

/-- The fold of RLE.DEC completes, raises or refuses; it is never a fault of the model. -/
theorem rleDecLoop_cases (total : Nat) (ps : List ClPair) (s : State) :
    (∃ u, ReadsOn s u ∧ rleDecLoop total ps s = .next { u with result := .none }) ∨
    (∃ c v u, ReadsOn s u ∧ rleDecLoop total ps s = .next (takeFault c v u)) ∨
    ∃ r, rleDecLoop total ps s = .refused r := by
  induction ps generalizing s with
  | nil =>
    unfold rleDecLoop
    split
    · exact .inr (.inr ⟨_, rfl⟩)
    · exact .inl ⟨s, .refl s, rfl⟩
  | cons p ps ih =>
    unfold rleDecLoop
    split
    · exact .inr (.inr ⟨_, rfl⟩)
    rcases rleStep_cases total p s with ⟨ls, _, _, h⟩ | ⟨_, h⟩ | ⟨ls, _, _, _, h⟩ <;> rw [h]
    · have hs : ReadsOn s { s with seq := ls } := ⟨⟨le_rfl, rfl⟩, rfl, rfl, rfl, id⟩
      rcases ih { s with seq := ls } with ⟨u, hu, h⟩ | ⟨c, v, u, hu, h⟩ | ⟨r, h⟩
      · exact .inl ⟨u, hs.trans hu, h⟩
      · exact .inr (.inl ⟨c, v, u, hs.trans hu, h⟩)
      · exact .inr (.inr ⟨r, h⟩)
    · exact .inr (.inl ⟨_, _, s, .refl s, rfl⟩)
    · exact .inr (.inl ⟨_, _, s, .refl s, rfl⟩)

/-! ## Whole blocks -/

/-- A state in which an operation that started in `s` may have met the condition of a fault. -/
structure FaultsAt (s u : State) : Prop where
  advances : Advances s u
  btype    : s.btype < 4 → u.btype < 4
  dstate   : u.dstate = s.dstate ∨ s.dstate = .expectHeader ∧ u.dstate ≠ .stored

theorem ReadsOn.faultsAt {s u : State} (h : ReadsOn s u) : FaultsAt s u :=
  ⟨h.advances, fun hs => h.btype ▸ hs, .inl h.dstate⟩

theorem Act.ReadsOn.meets {α : Type} {s : State} {x : Act α} (hx : x.ReadsOn s) :
    x.Meets (Machine.ReadsOn s) (FaultsAt s) (¬ s.cfg.Ok) := Act.Meets.mono hx (fun _ => id) (fun _ => ReadsOn.faultsAt) id

/-- Between two blocks, at the stored hand-off, or after the final block. -/
structure BlockEnds (s t : State) : Prop where
  advances : Advances s t
  place    : t.place = .bfinal
  btype    : t.btype < 4
  dstate   : t.dstate = .expectHeader ∨ (t.dstate = .stored ∧ t.btype = 0) ∨ (t.dstate = .done ∧ t.bfinal = true)

/-- Decoding on between two blocks. -/
theorem Act.Meets.after {α : Type} {s t : State} {x : Act α}
    (hx : x.Meets (BlockEnds t) (FaultsAt t) (¬ t.cfg.Ok)) (ha : Advances s t) (hd : t.dstate = s.dstate)
    (hb : s.btype < 4 → t.btype < 4) : x.Meets (BlockEnds s) (FaultsAt s) (¬ s.cfg.Ok) := by
  refine hx.mono (fun w hw => ⟨ha.trans hw.advances, hw.place, hw.btype, hw.dstate⟩)
    (fun w hw => ⟨ha.trans hw.advances, fun hs => hw.btype (hb hs), ?_⟩) (by rw [ha.cfg]; exact id)
  have hdw := hw.dstate
  rwa [hd] at hdw

theorem endBlock_blockEnds {s t : State} (h : Advances s t) (hb : t.btype < 4) : BlockEnds s (endBlock t) where
  advances := h.trans ⟨le_rfl, rfl⟩
  place := rfl
  btype := hb
  dstate := by cases hf : t.bfinal <;> simp [hf]

theorem dynamicBlock_meets {s : State} (hd : s.dstate = .expectHeader) :
    (dynamicBlock s).Meets (BlockEnds s) (FaultsAt s) (¬ s.cfg.Ok) := by
  let b : State := { s with btype := 2, dstate := .dynamicHuffman }
  have hb : Advances s b := ⟨le_rfl, rfl⟩
  have inBlock : ∀ u, ReadsOn b u → FaultsAt s u := fun u hu =>
    ⟨hb.trans hu.advances, fun _ => by simp [hu.btype, b], .inr ⟨hd, by simp [hu.dstate, b]⟩⟩
  have hdata : (hdrRead b).bind (fun _ t => symbolLoop (beginData t).bitsLeft (beginData t)) |>.ReadsOn b :=
    (hdrRead_readsOn b).bind fun _ t _ _ =>
      (symbolLoop_readsOn _ (beginData t)).after ⟨⟨le_rfl, rfl⟩, rfl, rfl, rfl, id⟩
  have hend := Act.Meets.bind (f := fun _ u => .ok () (endBlock u)) (P' := BlockEnds s)
    (Act.Meets.mono hdata (fun _ => id) inBlock id) fun _ u _ hu =>
      endBlock_blockEnds (hb.trans hu.advances) (by simp [hu.btype, b])
  rwa [Act.bind_assoc] at hend

/-- BLK.DEC between two blocks (R271): a block read to its end, a hand-off, or a fault. -/
theorem blkDec_meets {s : State} (hd : s.dstate = .expectHeader) (hp : s.place = .bfinal) :
    (blkDec s).Meets (BlockEnds s) (FaultsAt s) (¬ s.cfg.Ok) := by
  refine Act.Meets.bind (readBits_readsOn 1 s).meets fun f t _ ht => ?_
  have ht' : ReadsOn s { t with bfinal := f = 1 } := ht.trans ⟨⟨le_rfl, rfl⟩, rfl, rfl, rfl, id⟩
  refine Act.Meets.bind (Act.ReadsOn.after (readBits_readsOn ..) ht').meets fun v u _ hu => ?_
  have hadv := hu.advances
  split
  · exact ⟨hadv.trans ⟨le_rfl, rfl⟩, hu.place.trans hp, Nat.zero_lt_succ 3, .inr (.inl ⟨rfl, rfl⟩)⟩
  split
  · exact .of_raise ⟨hadv.trans ⟨le_rfl, rfl⟩, fun _ => (by decide : 1 < 4), .inr ⟨hd, nofun⟩⟩
  split
  · exact .of_raise ⟨hadv.trans ⟨le_rfl, rfl⟩, fun _ => (by decide : 3 < 4), .inl hu.dstate⟩
  · exact (dynamicBlock_meets (hu.dstate.trans hd)).after hadv hu.dstate fun hs => hu.btype ▸ hs

/-- STRM.DEC (R282): block after block, all of them begun in `ExpectHeader`. -/
theorem strmDec_meets {fuel : Nat} {s : State} (hd : s.dstate = .expectHeader) (hp : s.place = .bfinal) :
    (strmDec fuel s).Meets (BlockEnds s) (FaultsAt s) (¬ s.cfg.Ok) := by
  induction fuel generalizing s with
  | zero => exact .of_raise (ReadsOn.refl s).faultsAt
  | succ fuel ih =>
    refine (blkDec_meets hd hp).bind fun _ t _ ht => ?_
    split
    · rename_i hdt
      exact (ih hdt ht.place).after ht.advances (hdt.trans hd.symm) fun _ => ht.btype
    · exact ht

end Sys2Proof.Machine
end

section
/-! SUPPORT. The instructions that leave the decoder alone: one relation for what they may change, shown for each
operation and then for each instruction. -/

namespace Sys2Proof.Machine

/-- `t` is `s` after an instruction that leaves the decoder alone. `w` says that it may write to the sink, `c` that it
may write the hash chains. -/
structure Encodes (w c : Bool) (s t : State) : Prop where
  host      : t.source = s.source ∧ t.data = s.data ∧ t.port = s.port ∧ t.cfg = s.cfg
  decoder   : t.bitPos = s.bitPos ∧ t.dstate = s.dstate ∧ t.place = s.place ∧ t.out = s.out ∧ t.decoded = s.decoded ∧
    t.err = s.err ∧ t.errBitPos = s.errBitPos ∧ t.errValue = s.errValue
  sink      : ∃ bytes, t.sink = s.sink ++ bytes
  writerOk  : WriterOk s → WriterOk t
  writer    : w = false → t.sink = s.sink ∧ t.wBuf = s.wBuf ∧ t.wCnt = s.wCnt
  chainsOk  : s.cfg.Ok → ChainsOk s → ChainsOk t
  chains    : c = false → t.hashHead = s.hashHead ∧ t.prev = s.prev
  btype     : s.btype < 4 → t.btype < 4
  hclen     : s.cfg.Ok → s.hclen < 16 → t.hclen < 16

theorem Encodes.refl (w c : Bool) (s : State) : Encodes w c s s :=
  ⟨⟨rfl, rfl, rfl, rfl⟩, ⟨rfl, rfl, rfl, rfl, rfl, rfl, rfl, rfl⟩, ⟨[], by simp⟩, id, fun _ => ⟨rfl, rfl, rfl⟩,
    fun _ => id, fun _ => ⟨rfl, rfl⟩, id, fun _ => id⟩

theorem Encodes.trans {w c : Bool} {s t u : State} (h : Encodes w c s t) (h' : Encodes w c t u) : Encodes w c s u := by
  obtain ⟨source, data, port, cfg⟩ := h.host
  obtain ⟨bitPos, dstate, place, out, decoded, err, errBitPos, errValue⟩ := h.decoder
  obtain ⟨a, ha⟩ := h.sink
  obtain ⟨b, hb⟩ := h'.sink
  have hcfg := h'.hclen
  have hchains := h'.chainsOk
  rw [cfg] at hcfg hchains
  refine ⟨by simpa only [source, data, port, cfg] using h'.host, ?_, ⟨a ++ b, by rw [hb, ha, List.append_assoc]⟩,
    fun hs => h'.writerOk (h.writerOk hs), fun hw => ?_, fun ok hs => hchains ok (h.chainsOk ok hs), fun hc => ?_,
    fun hs => h'.btype (h.btype hs), fun ok hs => hcfg ok (h.hclen ok hs)⟩
  · simpa only [bitPos, dstate, place, out, decoded, err, errBitPos, errValue] using h'.decoder
  · obtain ⟨h1, h2, h3⟩ := h.writer hw
    simpa only [h1, h2, h3] using h'.writer hw
  · obtain ⟨h1, h2⟩ := h.chains hc
    simpa only [h1, h2] using h'.chains hc

/-- A change of the block-scoped buffers, the matcher registers but `prev`, the header registers and the model's own
marks is none of the decoder, the writer or the chains. -/
theorem Encodes.of_working {w c : Bool} {s t : State}
    (h : t = { s with
      toBuffers := t.toBuffers, n := t.n, i := t.i, h := t.h, cand := t.cand, visited := t.visited, cap := t.cap
      bestLen := t.bestLen, bestDist := t.bestDist, hlit := t.hlit, hdist := t.hdist, hclen := t.hclen
      litFreq := t.litFreq, distFreq := t.distFreq, clFreq := t.clFreq, bfinal := t.bfinal, btype := t.btype
      filled := t.filled, fresh := t.fresh, result := t.result })
    (hb : s.btype < 4 → t.btype < 4) (hh : s.cfg.Ok → s.hclen < 16 → t.hclen < 16) : Encodes w c s t := by
  have hw : t.sink = s.sink ∧ t.wBuf = s.wBuf ∧ t.wCnt = s.wCnt := by rw [h]; exact ⟨rfl, rfl, rfl⟩
  have hc : t.hashHead = s.hashHead ∧ t.prev = s.prev := by rw [h]; exact ⟨rfl, rfl⟩
  have hcfg : t.cfg = s.cfg := by rw [h]
  refine ⟨by rw [h]; exact ⟨rfl, rfl, rfl, rfl⟩, by rw [h]; exact ⟨rfl, rfl, rfl, rfl, rfl, rfl, rfl, rfl⟩,
    ⟨[], by simp [hw.1]⟩, ?_, fun _ => hw, ?_, fun _ => hc, hb, hh⟩
  · rw [WriterOk, WriterOk, hw.2.1, hw.2.2]
    exact id
  · rw [ChainsOk, ChainsOk, hc.1, hc.2, hcfg]
    exact fun _ => id

theorem Encodes.of_appends {c : Bool} {s t : State} (h : Appends s t) : Encodes true c s t := by
  obtain ⟨hok, hsink, ht⟩ := h
  have hc : t.hashHead = s.hashHead ∧ t.prev = s.prev := by rw [ht]; exact ⟨rfl, rfl⟩
  have hcfg : t.cfg = s.cfg := by rw [ht]
  refine ⟨by rw [ht]; exact ⟨rfl, rfl, rfl, rfl⟩, by rw [ht]; exact ⟨rfl, rfl, rfl, rfl, rfl, rfl, rfl, rfl⟩, hsink,
    hok, nofun, ?_, fun _ => hc, by rw [ht]; exact id, by rw [ht]; exact fun _ => id⟩
  rw [ChainsOk, ChainsOk, hc.1, hc.2, hcfg]
  exact fun _ => id

/-- A change of the chains and the matcher's own registers. -/
theorem Encodes.of_matching {w : Bool} {s t : State}
    (h : t = { s with
      recs := t.recs, n := t.n, i := t.i, h := t.h, cand := t.cand, visited := t.visited, cap := t.cap
      bestLen := t.bestLen, bestDist := t.bestDist, hashHead := t.hashHead, prev := t.prev, filled := t.filled })
    (hc : s.cfg.Ok → ChainsOk s → ChainsOk t) : Encodes w true s t := by
  have hw : t.sink = s.sink ∧ t.wBuf = s.wBuf ∧ t.wCnt = s.wCnt := by rw [h]; exact ⟨rfl, rfl, rfl⟩
  refine ⟨by rw [h]; exact ⟨rfl, rfl, rfl, rfl⟩, by rw [h]; exact ⟨rfl, rfl, rfl, rfl, rfl, rfl, rfl, rfl⟩,
    ⟨[], by simp [hw.1]⟩, ?_, fun _ => hw, hc, nofun, by rw [h]; exact id, by rw [h]; exact fun _ => id⟩
  rw [WriterOk, WriterOk, hw.2.1, hw.2.2]
  exact id

theorem Encodes.withResult {w c : Bool} {s t : State} (h : Encodes w c s t) (r : Result) :
    Encodes w c s { t with result := r } := h.trans (.of_working rfl id fun _ => id)

/-- A step inside such an instruction; it never raises (R302). -/
def Act.Encodes {α : Type} (w c : Bool) (s : State) : Act α → Prop
  | .ok _ t => Machine.Encodes w c s t
  | .raised _ => False
  | .fault _ => True

theorem Act.Encodes.after {α : Type} {w c : Bool} {s t : State} {x : Act α} (hx : x.Encodes w c t)
    (h : Machine.Encodes w c s t) : x.Encodes w c s := by
  cases x with
  | ok a u => exact h.trans hx
  | raised u => exact hx
  | fault e => trivial

theorem Act.Encodes.bind {α β : Type} {w c : Bool} {s : State} {x : Act α} {f : α → State → Act β}
    (hx : x.Encodes w c s) (hf : ∀ a t, (f a t).Encodes w c t) : (x.bind f).Encodes w c s := by
  cases x with
  | ok a t => exact (hf a t).after hx
  | raised t => exact hx
  | fault e => trivial

theorem Act.Writes.encodes {α : Type} {c : Bool} {s : State} {x : Act α} (hx : x.Writes s) : x.Encodes true c s := by
  cases x with
  | ok a t => exact .of_appends hx
  | raised t => exact hx
  | fault e => trivial

theorem Act.Encodes.of_next {α : Type} {w c : Bool} {s t : State} {x : Act α} {r : α → Result} (hx : x.Encodes w c s)
    (h : x.outcome r = .next t) : Machine.Encodes w c s t := by
  rcases Act.outcome_eq_next h with ⟨a, u, rfl, rfl⟩ | rfl
  · exact Machine.Encodes.withResult hx (r a)
  · exact absurd hx id

theorem hufBuild_encodes {w c : Bool} (a : Alphabet) (s : State) : Encodes w c s (hufBuild a s) :=
  .of_working (by cases a <;> rfl) (by simp [hufBuild]) (by simp [hufBuild])

theorem hufCanon_encodes {w c : Bool} (a : Alphabet) (s : State) : Encodes w c s (hufCanon a s) :=
  .of_working (by cases a <;> rfl) (by simp [hufCanon]) (by simp [hufCanon])

theorem lzEncode_encodes {w : Bool} (n : Nat) (s : State) : Encodes w true s (lzEncode n s) := by
  refine .of_matching ?_ fun hc h => lzEncode_chains n s hc h.2
  obtain ⟨_, _, _, _, _, _, _, _, _, _, h⟩ := lzEncode_frame n s
  rw [h]

theorem lzInsert_encodes {w : Bool} (chunk : List Byte) (p : Nat) (s : State) :
    Encodes w true s (lzInsert chunk p s) := by
  refine .of_matching ?_ fun hc h => lzInsert_chains chunk p s hc h
  obtain ⟨_, _, h⟩ := lzInsert_frame chunk p s
  rw [h]

theorem lzFind_encodes {w c : Bool} (chunk : List Byte) (i h : Nat) (s : State) :
    Encodes w c s (lzFind chunk i h s) := by
  obtain ⟨_, _, _, _, hf⟩ := lzFind_frame chunk i h s
  rw [hf]
  exact .of_working rfl id fun _ => id

theorem blkFreq_encodes {w c : Bool} (s : State) : (blkFreq s).Encodes w c s := by
  rcases blkFreq_cases s with ⟨lf, df, _, h⟩ | ⟨e, h⟩ <;> rw [h]
  · exact Encodes.of_working rfl id fun _ => id
  · trivial

theorem hdrSize_encodes {w c : Bool} (s : State) : (hdrSize s).Encodes w c s := by
  rcases hdrSize_cases s with ⟨_, _, h⟩ | ⟨_, k, h⟩ <;> rw [h]
  · exact Encodes.of_working rfl id fun _ => id
  · trivial

theorem lastNonzero_eq_some {xs : List Nat} {k : Nat} (h : lastNonzero xs = some k) :
    k < xs.length ∧ xs[k]?.getD 0 ≠ 0 := by
  have hk := List.mem_filter.1 (List.mem_of_getLast? h)
  exact ⟨List.mem_range.1 hk.1, by simpa using hk.2⟩

/-- `hclen` fits its 4-bit field (R93, R240). -/
theorem hclenOf_lt {c : Config.Params} (hc : c.Ok) (ls : List Nat) : hclenOf c ls < 16 := by
  unfold hclenOf
  cases h : lastNonzero (c.clperm.map fun k => ls[k]?.getD 0) with
  | none => simp
  | some k =>
    have hk := (lastNonzero_eq_some h).1
    rw [List.length_map, hc.clperm.1, hc.symbols.2.2.1] at hk
    simp only [Option.getD_some]
    omega

theorem hdrBuild_encodes {w c : Bool} (s : State) : (hdrBuild s).Encodes w c s := by
  rcases hdrBuild_cases s with ⟨a, d, q, k, _, h⟩ | ⟨k, h⟩ <;> rw [h]
  · exact Encodes.of_working rfl (fun _ => (by decide : 2 < 4)) fun hc _ => hclenOf_lt hc _
  · trivial

theorem blkEnc_encodes (n : Nat) (final : Bool) (s : State) : (blkEnc n final s).Encodes true true s := by
  have hlz : Encodes true true s (lzEncode n { s with bfinal := final }) :=
    (Encodes.of_working (t := { s with bfinal := final }) rfl id fun _ => id).trans (lzEncode_encodes ..)
  refine .after (.bind (blkFreq_encodes _) fun _ t => ?_) hlz
  refine .after (.bind (hdrBuild_encodes _) fun _ t => .bind (hdrWrite_writes t).encodes fun _ t =>
    .bind (emitRecords_writes ..).encodes fun _ t => (emitCode_writes ..).encodes) ?_
  exact (((hufBuild_encodes .litlen t).trans (hufBuild_encodes ..)).trans (hufCanon_encodes ..)).trans
    (hufCanon_encodes ..)

/-- The instructions that leave the decoder alone change nothing outside their own unit. -/
theorem exec_encodes {i : Instr} {s t : State} (hi : i.leavesDecoder = true) (h : exec i s = .next t) :
    Encodes i.writesSink i.writesChains s t := by
  have done : ∀ {w c : Bool} {u : State} {r : Result}, complete r u = .next t → Encodes w c s u → Encodes w c s t :=
    fun h hu => complete_eq_next h ▸ hu.withResult _
  cases i with
  | coreStatus => exact done h (.refl ..)
  | bsWbit b => exact done (unlessPending_eq h nofun).2 (.of_appends (writeList_appends [b] s))
  | bsWbits n v =>
    exact done (ite_refused_eq (unlessPending_eq h nofun).2 nofun).2 (.of_appends (writeList_appends ..))
  | bsWcode l c =>
    exact done (ite_refused_eq (unlessPending_eq h nofun).2 nofun).2 (.of_appends (writeList_appends ..))
  | bsFlush => exact done (unlessPending_eq h nofun).2 (.of_appends (flush_appends s))
  | strmClose => exact done (unlessPending_eq h nofun).2 (.of_appends (flush_appends s))
  | tblLensym len =>
    have h := (unlessPending_eq h nofun).2
    split at h
    · cases h
    · exact done h (.refl ..)
  | tblDistsym dist =>
    have h := (unlessPending_eq h nofun).2
    split at h
    · cases h
    · exact done h (.refl ..)
  | tblLenval sym e =>
    have h := (unlessPending_eq h nofun).2
    split at h
    · cases h
    · exact done (ite_refused_eq h nofun).2 (.refl ..)
  | tblDistval d e =>
    have h := (unlessPending_eq h nofun).2
    split at h
    · cases h
    · exact done (ite_refused_eq h nofun).2 (.refl ..)
  | lzReset =>
    exact done (unlessPending_eq h nofun).2
      (.of_matching rfl fun _ hs => ⟨⟨rfl, by simp [lzReset, Memory.below]⟩, hs.2⟩)
  | lzInsert p =>
    have h := (unlessPending_eq h nofun).2
    split at h
    · exact done (withBytes_eq h nofun) (lzInsert_encodes ..)
    · exact done h (.refl ..)
  | lzFind p =>
    have h := (unlessPending_eq h nofun).2
    split at h
    · have h := withBytes_eq h nofun
      split at h
      · cases h
      · exact done h (lzFind_encodes ..)
    · cases h
  | lzEncode n => exact done (withChunk_eq (unlessPending_eq h nofun).2 nofun).2.2 (lzEncode_encodes ..)
  | hufBuild a =>
    obtain ⟨x, _, h⟩ := onAlphabet_eq (unlessPending_eq h nofun).2 nofun
    exact done (needs_eq h nofun) (hufBuild_encodes ..)
  | hufCanon a =>
    obtain ⟨x, _, h⟩ := onAlphabet_eq (unlessPending_eq h nofun).2 nofun
    exact done (needs_eq h nofun) (hufCanon_encodes ..)
  | rleEnc => exact done (needs_eq (unlessPending_eq h nofun).2 nofun) (.of_working rfl id fun _ => id)
  | hdrSize => exact (hdrSize_encodes s).of_next (needs_eq (unlessPending_eq h nofun).2 nofun)
  | hdrBuild => exact (hdrBuild_encodes s).of_next (needs_eq (unlessPending_eq h nofun).2 nofun)
  | hdrWrite =>
    exact (hdrWrite_writes s).encodes.of_next (needs_eq (needs_eq (unlessPending_eq h nofun).2 nofun) nofun)
  | blkFreq => exact (blkFreq_encodes s).of_next (needs_eq (unlessPending_eq h nofun).2 nofun)
  | symEmit k =>
    have h := needs_eq (unlessPending_eq h nofun).2 nofun
    split at h
    · cases h
    · exact (emitRecord_writes ..).encodes.of_next (needs_eq h nofun)
  | blkEnc n final => exact (blkEnc_encodes n final s).of_next (withChunk_eq (unlessPending_eq h nofun).2 nofun).2.2
  | _ => cases hi

end Sys2Proof.Machine
end

section
/-! SUPPORT. The decoder's instructions: the shared meanings they run, how each moves the control registers, and from that
the separation of the units, the transition table and the invariant. -/

namespace Sys2Proof.Machine

/-! ## The decoder's instructions -/

/-- The decoder's instructions by the shared meaning they run: the readers and decoders of R107, and the wire elements,
those of one kind of symbol together. -/
inductive DecoderMeaning : Instr → (State → Out) → Prop
  | bsRbit : DecoderMeaning .bsRbit execBsRbit
  | bsRbits (n : Nat) : DecoderMeaning (.bsRbits n) (execBsRbits n)
  | lzDecode : DecoderMeaning .lzDecode execLzDecode
  | symDec (a : Nat) : DecoderMeaning (.symDec a) (execSymDec a)
  | rleDec (total : Nat) : DecoderMeaning (.rleDec total) (execRleDec total)
  | hdrRead : DecoderMeaning .hdrRead execHdrRead
  | blkDec : DecoderMeaning .blkDec execBlkDec
  | strmDec : DecoderMeaning .strmDec execStrmDec
  | bfinal (f : Bool) : DecoderMeaning (.bfinal f) (execBfinal f)
  | btypeStored : DecoderMeaning .btypeStored (btypeElement 0)
  | btypeDynamic : DecoderMeaning .btypeDynamic (btypeElement 2)
  | btypeUnsupported {i : Instr} (v : Nat) (h : v = 1 ∨ v = 3) : DecoderMeaning i (btypeElement v)
  | hlit (a : Nat) : DecoderMeaning (.hlit a) (execHlit a)
  | hdist (d : Nat) : DecoderMeaning (.hdist d) (execHdist d)
  | hclen (c : Nat) : DecoderMeaning (.hclen c) (execHclen c)
  | cllen (l : Nat) : DecoderMeaning (.cllen l) (execCllen l)
  | codeLength {i : Instr} (c : Nat) : DecoderMeaning i (clElement c)
  | literal (b : Byte) : DecoderMeaning (.lit b) (litElement b)
  | endOfBlock : DecoderMeaning .eob eobElement
  | length {i : Instr} (sym : Nat) : DecoderMeaning i (lenElement sym)
  | litlenIllegal {i : Instr} (sym : Nat) : DecoderMeaning i (litlenIllegalElement sym)
  | distance {i : Instr} (sym : Nat) : DecoderMeaning i (distElement sym)
  | distIllegal {i : Instr} (sym : Nat) : DecoderMeaning i (distIllegalElement sym)
  | pad : DecoderMeaning .pad execPad

/-- Every instruction but CORE.RESET that does not leave the decoder alone is one of the decoder's. -/
theorem exec_decoderMeaning {i : Instr} (hi : i.leavesDecoder = false) (hr : i ≠ .coreReset) :
    DecoderMeaning i (exec i) := by
  cases i with
  | bsRbit => exact .bsRbit
  | bsRbits n => exact .bsRbits n
  | lzDecode => exact .lzDecode
  | symDec a => exact .symDec a
  | rleDec total => exact .rleDec total
  | hdrRead => exact .hdrRead
  | blkDec => exact .blkDec
  | strmDec => exact .strmDec
  | bfinal f => exact .bfinal f
  | btypeStored => exact .btypeStored
  | btypeDynamic => exact .btypeDynamic
  | btypeFixed => exact .btypeUnsupported 1 (.inl rfl)
  | btypeReserved => exact .btypeUnsupported 3 (.inr rfl)
  | hlit a => exact .hlit a
  | hdist d => exact .hdist d
  | hclen c => exact .hclen c
  | cllen l => exact .cllen l
  | clLen | clRep | clZ3 | clZ11 => exact .codeLength _
  | lit b => exact .literal b
  | eob => exact .endOfBlock
  | len257 | len258 | len259 | len260 | len261 | len262 | len263 | len264 | len265 | len266 | len267 | len268 | len269
  | len270 | len271 | len272 | len273 | len274 | len275 | len276 | len277 | len278 | len279 | len280 | len281 | len282
  | len283 | len284 | len285 => exact .length _
  | litlenIllegal286 | litlenIllegal287 => exact .litlenIllegal _
  | dist0 | dist1 | dist2 | dist3 | dist4 | dist5 | dist6 | dist7 | dist8 | dist9 | dist10 | dist11 | dist12 | dist13
  | dist14 | dist15 | dist16 | dist17 | dist18 | dist19 | dist20 | dist21 | dist22 | dist23 | dist24 | dist25 | dist26
  | dist27 | dist28 | dist29 => exact .distance _
  | distIllegal30 | distIllegal31 => exact .distIllegal _
  | pad => exact .pad
  | coreReset => exact absurd rfl hr
  | _ => cases hi

/-- How a completed decoder instruction has moved the control registers (R271, R91, R99). -/
inductive Moves (i : Instr) (s u : State) : Prop
  /-- it has read where the decoder stands -/
  | reads (h : ReadsOn s u)
  /-- from one element of a dynamic block to the next one -/
  | inside (hs : s.place.inBlock = true) (hu : u.place.inBlock = true) (hd : u.dstate = s.dstate)
      (hb : u.btype = s.btype)
      (hk : ∀ k, u.place = .cllen k → Inv s → i.wellFormed = true → k < s.cfg.ncl ∧ u.hclen < 16)
  /-- past BFINAL -/
  | opens (hs : s.dstate = .expectHeader) (hu : u.place = .btype) (hd : u.dstate = .expectHeader)
      (hb : u.btype = s.btype)
  /-- a dynamic block begins -/
  | begins (hi : i = .btypeDynamic) (hs : s.place = .btype) (hu : u.place = .hlit) (hd : u.dstate = .dynamicHuffman)
      (hb : u.btype = 2)
  /-- the stored hand-off by elements -/
  | handsOff (hi : i = .btypeStored) (hs : s.place = .btype) (hu : u.place = .bfinal) (hd : u.dstate = .stored)
      (hb : u.btype = 0)
  /-- a dynamic block ends -/
  | ends (hi : i = .eob) (hs : s.place.inBlock = true) (hu : u.place = .bfinal)
      (hd : u.dstate = if u.bfinal then .done else .expectHeader) (hb : u.btype = s.btype)
  /-- whole blocks -/
  | decodes (hi : i ∈ [.blkDec, .strmDec]) (hs : s.dstate = .expectHeader) (h : BlockEnds s u)

/-- A state in which a decoder instruction may have met the condition of a fault: as `FaultsAt`, or at BTYPE. -/
structure Failing (s u : State) : Prop where
  advances : Advances s u
  btype    : s.btype < 4 → u.btype < 4
  dstate   : u.dstate = s.dstate ∨ (s.place = .btype ∨ s.dstate = .expectHeader) ∧ u.dstate ≠ .stored

theorem FaultsAt.failing {s u : State} (h : FaultsAt s u) : Failing s u :=
  ⟨h.advances, h.btype, h.dstate.imp id fun h => ⟨.inr h.1, h.2⟩⟩

theorem Failing.refl (s : State) : Failing s s := (ReadsOn.refl s).faultsAt.failing

/-- `t` is what a decoder instruction leaves: it has completed in `u`, or it has raised from `u`. -/
def Decoded (i : Instr) (s t : State) : Prop :=
  (∃ u q, (Advances s u ∧ Moves i s u) ∧ t = { u with result := q }) ∨ ∃ c v u, Failing s u ∧ t = takeFault c v u

theorem ReadsOn.decoded {i : Instr} {s u : State} (h : ReadsOn s u) (q : Result) : Decoded i s { u with result := q } :=
  .inl ⟨u, q, ⟨h.advances, .reads h⟩, rfl⟩

theorem Act.ReadsOn.decoded {α : Type} {i : Instr} {s t : State} {x : Act α} {r : α → Result} (hx : x.ReadsOn s)
    (h : x.outcome r = .next t) : Decoded i s t :=
  (hx.mono (fun _ hu => ⟨hu.advances, .reads hu⟩) (fun _ hu => hu.faultsAt.failing) id).of_next h

theorem decoded_of_goTo {i : Instr} {p : Place} {s u t : State} (h : element (goTo p u) = .next t)
    (ha : Advances s u) (hm : Moves i s { u with place := p }) : Decoded i s t :=
  .inl ⟨{ u with place := p }, .none, ⟨ha.trans ⟨le_rfl, rfl⟩, hm⟩, (Host.Outcome.next.inj h).symm⟩

theorem decoded_of_raise {i : Instr} {c : Cause} {v : Nat} {s u t : State} (h : element (raise c v u) = .next t)
    (hu : Failing s u) : Decoded i s t :=
  .inr ⟨c, v, u, hu, (Host.Outcome.next.inj h).symm⟩

theorem btypeElement_decoded {i : Instr} {v : Nat} {s t : State} (h : btypeElement v s = .next t)
    (hv : i = .btypeStored ∧ v = 0 ∨ i = .btypeDynamic ∧ v = 2 ∨ v = 1 ∨ v = 3) : Decoded i s t := by
  obtain ⟨hp, h⟩ := ite_else_refused_eq (unlessPending_eq h nofun).2 nofun
  rcases hv with ⟨hi, rfl⟩ | ⟨hi, rfl⟩ | rfl | rfl
  · exact decoded_of_goTo h ⟨le_rfl, rfl⟩ (.handsOff hi hp rfl rfl rfl)
  · exact decoded_of_goTo h ⟨le_rfl, rfl⟩ (.begins hi hp rfl rfl rfl)
  · exact decoded_of_raise h ⟨⟨le_rfl, rfl⟩, fun _ => (by decide : 1 < 4), .inr ⟨.inl hp, nofun⟩⟩
  · exact decoded_of_raise h ⟨⟨le_rfl, rfl⟩, fun _ => (by decide : 3 < 4), .inl rfl⟩

/-- A header field of a block in progress, its value taken over. -/
theorem headerField_decoded {i : Instr} {p q : Place} {s u t : State}
    (h : unlessPending s (if s.place = p then element (goTo q u) else outOfPlace) = .next t) (hp : p.inBlock = true)
    (hq : q.inBlock = true) (hu : Advances s u ∧ u.dstate = s.dstate ∧ u.btype = s.btype)
    (hk : ∀ k, q = .cllen k → Inv s → i.wellFormed = true → k < s.cfg.ncl ∧ u.hclen < 16) : Decoded i s t := by
  obtain ⟨hs, h⟩ := ite_else_refused_eq (unlessPending_eq h nofun).2 nofun
  exact decoded_of_goTo h hu.1 (.inside (hs ▸ hp) hq hu.2.1 hu.2.2 hk)

theorem execCllen_decoded {i : Instr} {l : Nat} {s t : State} (h : execCllen l s = .next t) : Decoded i s t := by
  have h := (unlessPending_eq h nofun).2
  split at h
  case h_2 => cases h
  rename_i k hp
  have hs : s.place.inBlock = true := by rw [hp]; rfl
  rcases setClLen_cases k l s with ⟨c, _, _, hset⟩ | ⟨e, hset⟩ <;> rw [hset] at h
  · change element (afterClLen k { s with clLen := s.clLen.set c l }) = _ at h
    unfold afterClLen at h
    split at h
    · rename_i hlt
      refine decoded_of_goTo h ⟨le_rfl, rfl⟩ (.inside hs rfl rfl rfl fun j hj hinv _ => ?_)
      cases hj
      have hcl := (hinv.cllenPlace k hp).2
      have hncl : s.cfg.ncl = 19 := hinv.cfg.symbols.2.2.1
      change k + 1 < s.hclen + 4 at hlt
      exact ⟨by omega, hcl⟩
    · exact decoded_of_goTo h ⟨le_rfl, rfl⟩ (.inside hs rfl rfl rfl nofun)
  · cases h

theorem clElement_decoded {i : Instr} {c : Nat} {s t : State} (h : clElement c s = .next t) : Decoded i s t := by
  obtain ⟨hp, h⟩ := ite_else_refused_eq (unlessPending_eq h nofun).2 nofun
  have hs : s.place.inBlock = true := by rw [hp]; rfl
  have hx := clSymbol_readsOn c s
  cases hc : clSymbol c s with
  | ok a u =>
    rw [hc] at h hx
    have hu : ReadsOn s u := hx
    change element (afterClSymbol u) = _ at h
    unfold afterClSymbol at h
    split at h
    · exact decoded_of_goTo h hu.advances (.inside hs rfl hu.dstate hu.btype nofun)
    · exact decoded_of_goTo h (hu.advances.trans ⟨le_rfl, rfl⟩) (.inside hs rfl hu.dstate hu.btype nofun)
  | raised u =>
    rw [hc] at h hx
    obtain ⟨c, v, w, hw, rfl⟩ := hx
    exact .inr ⟨c, v, w, hw.faultsAt.failing, (Host.Outcome.next.inj h).symm⟩
  | fault e => rw [hc] at h; cases h

theorem litElement_decoded {i : Instr} {b : Byte} {s t : State} (h : litElement b s = .next t) : Decoded i s t := by
  have h := (unlessPending_eq h nofun).2
  split at h
  · rename_i hp
    exact decoded_of_goTo h ⟨le_rfl, rfl⟩ (.inside (by rw [hp]; rfl) rfl rfl rfl nofun)
  · rename_i hp
    exact decoded_of_goTo h ⟨le_rfl, rfl⟩ (.inside (by rw [hp]; rfl) rfl rfl rfl nofun)
  · cases h

theorem eobElement_decoded {s t : State} (h : eobElement s = .next t) : Decoded .eob s t := by
  have h := (unlessPending_eq h nofun).2
  split at h
  · rename_i hp
    exact .inl ⟨endBlock s, .none, ⟨⟨le_rfl, rfl⟩, .ends rfl (by rw [hp]; rfl) rfl rfl rfl⟩,
      (Host.Outcome.next.inj h).symm⟩
  · rename_i len dist hp
    exact .inl ⟨endBlock (pushMatch dist len none s), .none,
      ⟨⟨le_rfl, rfl⟩, .ends rfl (by rw [hp]; rfl) rfl rfl rfl⟩, (Host.Outcome.next.inj h).symm⟩
  · cases h

/-- A base value plus the extra bits read, or the end of the source inside them, or no row of the symbol. -/
theorem readExtra_cases (table : List Config.CodeRow) (sym : Nat) (s : State) :
    (∃ v k, readExtra table sym s = .ok v { s with bitPos := s.bitPos + k }) ∨
    (∃ k, readExtra table sym s = .raised (takeFault .endOfSource 0 { s with bitPos := s.bitPos + k })) ∨
    ∃ e, readExtra table sym s = .fault e := by
  unfold readExtra
  split
  · exact .inr (.inr ⟨_, rfl⟩)
  · rename_i r _
    rcases readBits_cases r.extra s with ⟨_, h⟩ | ⟨_, h⟩ <;> rw [h]
    · exact .inl ⟨_, _, rfl⟩
    · exact .inr (.inl ⟨_, rfl⟩)

/-- The cursor moved on, nothing else. -/
theorem readsOn_bitPos (s : State) (k : Nat) : ReadsOn s { s with bitPos := s.bitPos + k } :=
  ⟨⟨Nat.le_add_right .., rfl⟩, rfl, rfl, rfl, id⟩

theorem lenElement_decoded {i : Instr} {sym : Nat} {s t : State} (h : lenElement sym s = .next t) :
    Decoded i s t := by
  have h := (unlessPending_eq h nofun).2
  split at h
  · rename_i hp
    rcases readExtra_cases s.cfg.lenTable sym s with ⟨v, k, hx⟩ | ⟨k, hx⟩ | ⟨e, hx⟩ <;> rw [hx] at h
    · exact decoded_of_goTo h (readsOn_bitPos s k).advances (.inside (by rw [hp]; rfl) rfl rfl rfl nofun)
    · exact decoded_of_raise h (readsOn_bitPos s k).faultsAt.failing
    · cases h
  · exact decoded_of_raise h (.refl s)
  · cases h

theorem distElement_decoded {i : Instr} {sym : Nat} {s t : State} (h : distElement sym s = .next t) :
    Decoded i s t := by
  have h := (unlessPending_eq h nofun).2
  split at h
  · rename_i len hp
    rcases readExtra_cases s.cfg.distTable sym s with ⟨v, k, hx⟩ | ⟨k, hx⟩ | ⟨e, hx⟩ <;> rw [hx] at h
    · rw [Act.bind_ok] at h
      have hk := readsOn_bitPos s k
      split at h
      · exact decoded_of_raise h hk.faultsAt.failing
      · exact decoded_of_goTo h (hk.advances.trans ⟨le_rfl, rfl⟩) (.inside (by rw [hp]; rfl) rfl rfl rfl nofun)
    · exact decoded_of_raise h (readsOn_bitPos s k).faultsAt.failing
    · cases h
  · cases h

/-- What a decoder instruction leaves when it answers a next state. -/
theorem exec_decoded {i : Instr} {s t : State} (hi : i.leavesDecoder = false) (hr : i ≠ .coreReset)
    (h : exec i s = .next t) : s.err = none ∧ Decoded i s t := by
  have hm := exec_decoderMeaning hi hr
  generalize exec i = m at hm h
  cases hm with
  | bsRbit =>
    obtain ⟨he, h⟩ := unlessPending_eq h nofun
    exact ⟨he, (readBit_readsOn s).decoded h⟩
  | bsRbits n =>
    obtain ⟨he, h⟩ := unlessPending_eq h nofun
    exact ⟨he, (readBits_readsOn n s).decoded (ite_refused_eq h nofun).2⟩
  | lzDecode =>
    obtain ⟨he, h⟩ := unlessPending_eq h nofun
    exact ⟨he, (lzDecode_readsOn s).decoded (ite_else_refused_eq (needs_eq h nofun) nofun).2⟩
  | symDec a =>
    obtain ⟨he, h⟩ := unlessPending_eq h nofun
    obtain ⟨x, _, h⟩ := onAlphabet_eq h nofun
    exact ⟨he, (symDec_readsOn x s).decoded (needs_eq h nofun)⟩
  | rleDec total =>
    obtain ⟨he, h⟩ := unlessPending_eq h nofun
    have h := needs_eq h nofun
    have hs : ReadsOn s (setSeq [] s) := ⟨⟨le_rfl, rfl⟩, rfl, rfl, rfl, id⟩
    rcases rleDecLoop_cases total s.rle (setSeq [] s) with ⟨u, hu, h'⟩ | ⟨c, v, u, hu, h'⟩ | ⟨r, h'⟩ <;>
      cases h'.symm.trans h
    · exact ⟨he, (hs.trans hu).decoded .none⟩
    · exact ⟨he, .inr ⟨c, v, u, (hs.trans hu).faultsAt.failing, rfl⟩⟩
  | hdrRead =>
    obtain ⟨he, h⟩ := unlessPending_eq h nofun
    exact ⟨he, (hdrRead_readsOn s).decoded h⟩
  | blkDec =>
    obtain ⟨he, h⟩ := unlessPending_eq h nofun
    obtain ⟨hd, hp, h⟩ := atBlockStart_eq h nofun
    exact ⟨he, ((blkDec_meets hd hp).mono (fun _ hu => ⟨hu.advances, .decodes (by simp) hd hu⟩)
      (fun _ hu => hu.failing) id).of_next h⟩
  | strmDec =>
    obtain ⟨he, h⟩ := unlessPending_eq h nofun
    obtain ⟨hd, hp, h⟩ := atBlockStart_eq h nofun
    exact ⟨he, ((strmDec_meets hd hp).mono (fun _ hu => ⟨hu.advances, .decodes (by simp) hd hu⟩)
      (fun _ hu => hu.failing) id).of_next h⟩
  | bfinal f =>
    obtain ⟨he, h⟩ := unlessPending_eq h nofun
    obtain ⟨hd, _, h⟩ := atBlockStart_eq h nofun
    exact ⟨he, decoded_of_goTo h ⟨le_rfl, rfl⟩ (.opens hd rfl hd rfl)⟩
  | btypeStored => exact ⟨(unlessPending_eq h nofun).1, btypeElement_decoded h (.inl ⟨rfl, rfl⟩)⟩
  | btypeDynamic => exact ⟨(unlessPending_eq h nofun).1, btypeElement_decoded h (.inr (.inl ⟨rfl, rfl⟩))⟩
  | btypeUnsupported v hv => exact ⟨(unlessPending_eq h nofun).1, btypeElement_decoded h (.inr (.inr hv))⟩
  | hlit a =>
    exact ⟨(unlessPending_eq h nofun).1, headerField_decoded h rfl rfl ⟨⟨le_rfl, rfl⟩, rfl, rfl⟩ nofun⟩
  | hdist d =>
    exact ⟨(unlessPending_eq h nofun).1, headerField_decoded h rfl rfl ⟨⟨le_rfl, rfl⟩, rfl, rfl⟩ nofun⟩
  | hclen c =>
    refine ⟨(unlessPending_eq h nofun).1, headerField_decoded h rfl rfl ⟨⟨le_rfl, rfl⟩, rfl, rfl⟩ ?_⟩
    intro k hk hinv hwf
    cases hk
    exact ⟨by rw [hinv.cfg.symbols.2.2.1]; decide, by simpa [Instr.wellFormed] using hwf⟩
  | cllen l => exact ⟨(unlessPending_eq h nofun).1, execCllen_decoded h⟩
  | codeLength c => exact ⟨(unlessPending_eq h nofun).1, clElement_decoded h⟩
  | literal b => exact ⟨(unlessPending_eq h nofun).1, litElement_decoded h⟩
  | endOfBlock => exact ⟨(unlessPending_eq h nofun).1, eobElement_decoded h⟩
  | length sym => exact ⟨(unlessPending_eq h nofun).1, lenElement_decoded h⟩
  | distance sym => exact ⟨(unlessPending_eq h nofun).1, distElement_decoded h⟩
  | litlenIllegal sym =>
    obtain ⟨he, h⟩ := unlessPending_eq h nofun
    split at h
    · exact ⟨he, decoded_of_raise h (.refl s)⟩
    · exact ⟨he, decoded_of_raise h (.refl s)⟩
    · cases h
  | distIllegal sym =>
    obtain ⟨he, h⟩ := unlessPending_eq h nofun
    split at h
    · exact ⟨he, decoded_of_raise h (.refl s)⟩
    · cases h
  | pad =>
    obtain ⟨he, h⟩ := unlessPending_eq h nofun
    obtain rfl := complete_eq_next (ite_else_refused_eq h nofun).2
    exact ⟨he, (ReadsOn.refl s).decoded .none⟩

/-! ## Separate units -/

/-- What a reading operation leaves alone. -/
theorem Advances.frame {s u : State} (h : Advances s u) :
    (u.source = s.source ∧ u.data = s.data ∧ u.port = s.port ∧ u.cfg = s.cfg) ∧
    (u.sink = s.sink ∧ u.wBuf = s.wBuf ∧ u.wCnt = s.wCnt) ∧ (u.hashHead = s.hashHead ∧ u.prev = s.prev) ∧
    (u.err = s.err ∧ u.errBitPos = s.errBitPos ∧ u.errValue = s.errValue) := by
  rw [h.2]
  exact ⟨⟨rfl, rfl, rfl, rfl⟩, ⟨rfl, rfl, rfl⟩, ⟨rfl, rfl⟩, rfl, rfl, rfl⟩

/-- What a decoder instruction leaves alone, whether it completes or raises. -/
theorem Decoded.frame {i : Instr} {s t : State} (h : Decoded i s t) :
    (t.source = s.source ∧ t.data = s.data ∧ t.port = s.port ∧ t.cfg = s.cfg) ∧
    (t.sink = s.sink ∧ t.wBuf = s.wBuf ∧ t.wCnt = s.wCnt) ∧ (t.hashHead = s.hashHead ∧ t.prev = s.prev) := by
  rcases h with ⟨u, q, ⟨hu, _⟩, rfl⟩ | ⟨c, v, u, hu, rfl⟩
  · obtain ⟨hhost, hwriter, hchains, _⟩ := hu.frame
    exact ⟨hhost, hwriter, hchains⟩
  · obtain ⟨hhost, hwriter, hchains, _⟩ := hu.advances.frame
    exact ⟨hhost, hwriter, hchains⟩

/-- Settles O56: an instruction resets the core, leaves the decoder alone, or is the decoder's. -/
theorem unitsAreSeparate : Obligations.UnitsAreSeparate := by
  intro i s t h
  by_cases hr : i = .coreReset
  · subst hr
    obtain rfl : coreReset s = t := Host.Outcome.next.inj h
    exact ⟨rfl, rfl, rfl, rfl, fun hne => absurd rfl hne, nofun, nofun, nofun⟩
  cases hi : i.leavesDecoder with
  | true =>
    have he := exec_encodes hi h
    obtain ⟨source, data, port, cfg⟩ := he.host
    exact ⟨source, data, port, cfg, fun _ => he.sink, he.writer, he.chains, fun _ => he.decoder⟩
  | false =>
    obtain ⟨⟨source, data, port, cfg⟩, hw, hc⟩ := (exec_decoded hi hr h).2.frame
    exact ⟨source, data, port, cfg, fun _ => ⟨[], by simp [hw.1]⟩, fun _ => hw, fun _ => hc, nofun⟩

/-! ## Transitions and the invariant -/

/-- In `ExpectHeader` or at BTYPE, which is in `ExpectHeader` too. -/
theorem Inv.expectHeader {s : State} (hs : Inv s) (h : s.place = .btype ∨ s.dstate = .expectHeader) :
    s.dstate = .expectHeader := h.elim hs.btypePlace id

/-- Settles O8: a decoder instruction moves the control state as `Moves` says or fails; the others keep it. -/
theorem controlTransitions : Obligations.ControlTransitions := by
  intro i s t hs h hdone
  by_cases hr : i = .coreReset
  · subst hr
    obtain rfl : coreReset s = t := Host.Outcome.next.inj h
    exact .inr (.inl ⟨rfl, rfl⟩)
  cases hi : i.leavesDecoder with
  | true => exact .inl (exec_encodes hi h).decoder.2.1
  | false =>
    obtain ⟨he, hd⟩ := exec_decoded hi hr h
    rcases hd with ⟨u, q, ⟨_, hm⟩, rfl⟩ | ⟨c, v, u, hu, rfl⟩
    · cases hm with
      | reads h => exact .inl h.dstate
      | inside _ _ hd _ _ => exact .inl hd
      | opens hs' _ hd _ => exact .inl (hd.trans hs'.symm)
      | begins hi hp _ hd hb => exact .inr (.inr (.inr (.inr (.inl ⟨hs.btypePlace hp, hd, hb, hi⟩))))
      | handsOff hi hp _ hd hb =>
        exact .inr (.inr (.inr (.inl ⟨hs.btypePlace hp, hd, hb, by simp [hi]⟩)))
      | ends hi hp _ hd _ => exact .inr (.inr (.inr (.inr (.inr (.inl ⟨hs.inBlock.1 hp, hi, hd⟩)))))
      | decodes hi hs' h =>
        have hi' := List.mem_cons_of_mem Instr.btypeStored hi
        rcases h.dstate with hd | ⟨hd, hb⟩ | ⟨hd, hf⟩
        · exact .inl (hd.trans hs'.symm)
        · exact .inr (.inr (.inr (.inl ⟨hs', hd, hb, hi'⟩)))
        · exact .inr (.inr (.inr (.inr (.inr (.inr ⟨hs', hd, hf, hi⟩)))))
    · rcases hu.dstate with hd | ⟨hp, hd⟩
      · cases hsd : s.dstate with
        | expectHeader => exact .inr (.inr (.inl ⟨by simp, by simp [hd, hsd, DState.afterFault], rfl⟩))
        | dynamicHuffman => exact .inr (.inr (.inl ⟨by simp, by simp [hd, hsd, DState.afterFault], rfl⟩))
        | stored => exact .inl (by simp [hd, hsd, DState.afterFault])
        | failed => exact .inl (by simp [hd, hsd, DState.afterFault])
        | fixedHuffman => exact absurd hsd hs.notFixed
        | done => exact absurd (hdone hsd he) nofun
      · refine .inr (.inr (.inl ⟨by simp [hs.expectHeader hp], ?_, rfl⟩))
        cases hud : u.dstate <;> simp_all [DState.afterFault]

/-- The writer, the parameters, the chains and the registers of an error are the same after reading. -/
theorem Inv.of_advances {s u : State} (hs : Inv s) (he : s.err = none) (h : Advances s u) (hb : u.btype < 4)
    (hd : u.dstate ≠ .failed ∧ u.dstate ≠ .fixedHuffman) (hp : u.place.inBlock = true ↔ u.dstate = .dynamicHuffman)
    (hbt : u.place = .btype → u.dstate = .expectHeader)
    (hk : ∀ k, u.place = .cllen k → k < s.cfg.ncl ∧ u.hclen < 16) : Inv u := by
  obtain ⟨⟨_, _, _, hcfg⟩, ⟨_, hbuf, hcnt⟩, ⟨hhead, hprev⟩, herr, hpos, hval⟩ := h.frame
  have hu : u.err = none := herr.trans he
  exact
    { writer := by rw [WriterOk, hbuf, hcnt]; exact hs.writer
      cfg := hcfg ▸ hs.cfg
      failed := fun h => absurd h hd.1
      pending := by simp [hu]
      noInfo := fun _ => by rw [hpos, hval]; exact hs.noInfo he
      noOutput := by simp [hu]
      btype := hb
      notFixed := hd.2
      inBlock := hp
      btypePlace := hbt
      cllenPlace := by rw [hcfg]; exact hk
      hashHead := by rw [hhead, hcfg]; exact hs.hashHead
      prev := by rw [hprev, hcfg]; exact hs.prev }

/-- Without an error the control state is not `Failed`. -/
theorem Inv.not_failed {s : State} (hs : Inv s) (he : s.err = none) : s.dstate ≠ .failed := fun h => by
  simpa [he] using hs.failed h

theorem Inv.of_readsOn {s u : State} (hs : Inv s) (he : s.err = none) (h : ReadsOn s u) : Inv u := by
  refine hs.of_advances he h.advances (h.btype ▸ hs.btype) ?_ ?_ ?_ fun k hk => ?_
  · rw [h.dstate]
    exact ⟨hs.not_failed he, hs.notFixed⟩
  · rw [h.place, h.dstate]
    exact hs.inBlock
  · rw [h.place, h.dstate]
    exact hs.btypePlace
  · obtain ⟨hlt, hcl⟩ := hs.cllenPlace k (h.place ▸ hk)
    exact ⟨hlt, h.hclen hcl⟩

theorem Inv.of_moves {i : Instr} {s u : State} (hs : Inv s) (he : s.err = none) (hi : i.wellFormed = true)
    (ha : Advances s u) (h : Moves i s u) : Inv u := by
  cases h with
  | reads h => exact hs.of_readsOn he h
  | inside hin hu hd hb hk =>
    have hd : u.dstate = .dynamicHuffman := hd.trans (hs.inBlock.1 hin)
    exact hs.of_advances he ha (hb ▸ hs.btype) (by simp [hd]) (by simp [hu, hd])
      (fun hp => by simp [hp, Place.inBlock] at hu) fun k hp => hk k hp hs hi
  | opens _ hu hd hb =>
    exact hs.of_advances he ha (hb ▸ hs.btype) (by simp [hd]) (by simp [hu, hd, Place.inBlock]) (fun _ => hd)
      (by simp [hu])
  | begins _ _ hu hd hb =>
    exact hs.of_advances he ha (by simp [hb]) (by simp [hd]) (by simp [hu, hd, Place.inBlock]) (by simp [hu])
      (by simp [hu])
  | handsOff _ _ hu hd hb =>
    exact hs.of_advances he ha (by simp [hb]) (by simp [hd]) (by simp [hu, hd, Place.inBlock]) (by simp [hu])
      (by simp [hu])
  | ends _ _ hu hd hb =>
    have hd : u.dstate = .done ∨ u.dstate = .expectHeader := by cases hf : u.bfinal <;> simp [hd, hf]
    refine hs.of_advances he ha (hb ▸ hs.btype) ?_ ?_ (by simp [hu]) (by simp [hu]) <;>
      rcases hd with hd | hd <;> simp [hu, hd, Place.inBlock]
  | decodes _ _ h =>
    have hu := h.place
    refine hs.of_advances he ha h.btype ?_ ?_ (by simp [hu]) (by simp [hu]) <;>
      rcases h.dstate with hd | ⟨hd, _⟩ | ⟨hd, _⟩ <;> simp [hu, hd, Place.inBlock]

/-- The state a fault leaves is safe (R312). -/
theorem Inv.of_takeFault {s u : State} (hs : Inv s) (h : Advances s u) (hb : u.btype < 4) (c : Cause) (v : Nat) :
    Inv (takeFault c v u) := by
  obtain ⟨⟨_, _, _, hcfg⟩, ⟨_, hbuf, hcnt⟩, ⟨hhead, hprev⟩, _⟩ := h.frame
  have hd : u.dstate.afterFault = .failed ∨ u.dstate.afterFault = .stored := by
    cases u.dstate <;> simp [DState.afterFault]
  exact
    { writer := by simpa only [WriterOk, takeFault_wCnt, takeFault_wBuf, hbuf, hcnt] using hs.writer
      cfg := by simpa only [takeFault_cfg, hcfg] using hs.cfg
      failed := fun _ => rfl
      pending := fun _ => hd
      noInfo := nofun
      noOutput := fun _ => ⟨rfl, rfl⟩
      btype := hb
      notFixed := by rcases hd with hd | hd <;> simp [hd]
      inBlock := by rcases hd with hd | hd <;> simp [hd, Place.inBlock]
      btypePlace := nofun
      cllenPlace := nofun
      hashHead := by simpa only [takeFault_hashHead, takeFault_cfg, hhead, hcfg] using hs.hashHead
      prev := by simpa only [takeFault_prev, takeFault_cfg, hprev, hcfg] using hs.prev }

/-- An instruction that leaves the decoder alone keeps the invariant. -/
theorem Inv.of_encodes {w c : Bool} {s t : State} (hs : Inv s) (h : Encodes w c s t) : Inv t := by
  obtain ⟨_, _, _, hcfg⟩ := h.host
  obtain ⟨_, hdstate, hplace, hout, hdecoded, herr, hpos, hval⟩ := h.decoder
  obtain ⟨hhead, hprev⟩ := h.chainsOk hs.cfg ⟨hs.hashHead, hs.prev⟩
  exact
    { writer := h.writerOk hs.writer
      cfg := hcfg ▸ hs.cfg
      failed := by rw [hdstate, herr]; exact hs.failed
      pending := by rw [hdstate, herr]; exact hs.pending
      noInfo := by rw [herr, hpos, hval]; exact hs.noInfo
      noOutput := by rw [herr, hout, hdecoded]; exact hs.noOutput
      btype := h.btype hs.btype
      notFixed := by rw [hdstate]; exact hs.notFixed
      inBlock := by rw [hdstate, hplace]; exact hs.inBlock
      btypePlace := by rw [hdstate, hplace]; exact hs.btypePlace
      cllenPlace := by
        rw [hplace, hcfg]
        intro k hk
        obtain ⟨hlt, hcl⟩ := hs.cllenPlace k hk
        exact ⟨hlt, h.hclen hs.cfg hcl⟩
      hashHead := hhead
      prev := hprev }

end Sys2Proof.Machine
end

section
/-! SUPPORT. Every step keeps the invariant: what the fetch decodes is well formed, and every well-formed instruction
keeps it. -/

namespace Sys2Proof.Machine

/-! ## What is decoded is well formed -/

/-- Every operand of a command word fits the field it is cut from (R107). -/
theorem decodeCmd_wellFormed {w : Word} {i : Instr} (h : decodeCmd w = some i) : i.wellFormed = true := by
  unfold decodeCmd at h
  dsimp only at h
  split at h <;> cases h <;> simp [Instr.wellFormed, field, Nat.mod_lt]

theorem decodeLenSym_wellFormed {v : Nat} {i : Instr} (h : decodeLenSym v = some i) : i.wellFormed = true := by
  unfold decodeLenSym at h
  split at h <;> cases h <;> rfl

theorem decodeDist_wellFormed {v : Nat} {i : Instr} (h : decodeDist v = some i) : i.wellFormed = true := by
  unfold decodeDist at h
  split at h <;> cases h <;> rfl

theorem decodeClsym_wellFormed {v : Nat} {i : Instr} (h : decodeClsym v = some i) : i.wellFormed = true := by
  unfold decodeClsym at h
  split at h
  · cases h
    simpa [Instr.wellFormed]
  · split at h <;> cases h <;> rfl

/-- An element's field or symbol gives a well-formed instruction (R92 to R97, R111). -/
theorem decode_wellFormed {f : Format} {v : Nat} {i : Instr} (h : decode f v = some i) : i.wellFormed = true := by
  cases f with
  | cmd =>
    obtain ⟨_, h⟩ := Option.ite_none_right_eq_some.1 h
    exact decodeCmd_wellFormed h
  | bfinal | pad =>
    obtain ⟨_, h⟩ := Option.ite_none_right_eq_some.1 h
    cases h
    rfl
  | hlit | hdist | hclen | cllen =>
    obtain ⟨hv, h⟩ := Option.ite_none_right_eq_some.1 h
    cases h
    simpa [Instr.wellFormed] using hv
  | btype =>
    unfold decode decodeBtype at h
    dsimp only at h
    split at h <;> cases h <;> rfl
  | clsym => exact decodeClsym_wellFormed h
  | litlen =>
    unfold decode decodeLitlen at h
    dsimp only at h
    split at h
    · cases h
      rfl
    · exact decodeLenSym_wellFormed h
  | dist => exact decodeDist_wellFormed h

/-! ## Every step keeps the invariant -/

/-- Every well-formed instruction keeps the invariant. -/
theorem exec_inv {i : Instr} {s t : State} (hs : Inv s) (hi : i.wellFormed = true) (h : exec i s = .next t) :
    Inv t := by
  by_cases hr : i = .coreReset
  · subst hr
    obtain rfl : coreReset s = t := Host.Outcome.next.inj h
    exact coreReset_inv s hs.cfg
  cases hd : i.leavesDecoder with
  | true => exact hs.of_encodes (exec_encodes hd h)
  | false =>
    obtain ⟨he, ⟨u, q, ⟨ha, hm⟩, rfl⟩ | ⟨c, v, u, hu, rfl⟩⟩ := exec_decoded hd hr h
    · exact { hs.of_moves he hi ha hm with }
    · exact hs.of_takeFault hu.advances (hu.btype hs.btype) c v

/-- A bulk operand goes into the block-scoped buffers and the frequency arrays. -/
theorem loadBulk_inv {s : State} (hs : Inv s) (b : Bulk) : Inv (loadBulk b s) := by
  refine hs.of_encodes (w := false) (c := false) ?_
  cases b with
  | recs | seq | rle => exact .of_working rfl id fun _ => id
  | freq a fs => cases a <;> exact .of_working rfl id fun _ => id
  | lens a ls => cases a <;> exact .of_working rfl id fun _ => id

/-- What the fetch hands on in a safe state is safe: a well-formed instruction with its state, or the step's outcome. -/
def Fetched.Safe : Fetched → Prop
  | .run i t => i.wellFormed = true ∧ Inv t
  | .settled o => ∀ t, o = .next t → Inv t

theorem Fetched.safe_next {t : State} (ht : Inv t) : (Fetched.settled (.next t)).Safe :=
  fun _ hu => Host.Outcome.next.inj hu ▸ ht

theorem Fetched.safe_fault (f : Fault) : (Fetched.settled (.fault f)).Safe := fun _ hu => by cases hu

theorem Fetched.safe_refused (r : Refusal) : (Fetched.settled (.refused r)).Safe := fun _ hu => by cases hu

theorem elementOf_safe {f : Format} {x : Act Nat} {s : State} (hs : Inv s) (he : s.err = none) (hx : x.ReadsOn s) :
    (elementOf f x).Safe := by
  unfold elementOf
  split
  · rename_i v t
    split
    · rename_i i hi
      exact ⟨decode_wellFormed hi, hs.of_readsOn he hx⟩
    · exact Fetched.safe_fault _
  · obtain ⟨c, v, u, hu, rfl⟩ := hx
    exact Fetched.safe_next (hs.of_takeFault hu.advances (hu.faultsAt.btype hs.btype) c v)
  · exact Fetched.safe_fault _

theorem symbolOf_safe {f : Format} {a : Alphabet} {s : State} (hs : Inv s) (he : s.err = none) :
    (symbolOf f a s).Safe := by
  unfold symbolOf
  split
  · exact elementOf_safe hs he (symDec_readsOn a s)
  · exact Fetched.safe_refused _

theorem elementAt_safe {p : Place} {s : State} (hs : Inv s) (he : s.err = none) : (elementAt p s).Safe := by
  cases p with
  | bfinal | btype | hlit | hdist | hclen | cllen => exact elementOf_safe hs he (readBits_readsOn ..)
  | clsym | record | dist | trailing => exact symbolOf_safe hs he

theorem fetchElement_safe {s : State} (hs : Inv s) : (fetchElement s).Safe := by
  unfold fetchElement
  split
  · exact Fetched.safe_refused _
  rename_i he
  have he : s.err = none := by simpa using he
  split
  · exact ⟨rfl, hs⟩
  · exact Fetched.safe_refused _
  · exact elementAt_safe hs he

theorem serve_safe {r : Request} {s : State} (hs : Inv s) : (serve r s).Safe := by
  cases r with
  | command w =>
    change (fetchCommand w s).Safe
    unfold fetchCommand
    split
    · exact Fetched.safe_refused _
    · rename_i i hi
      split
      · exact ⟨decodeCmd_wellFormed hi, hs⟩
      · exact Fetched.safe_refused _
  | sequencer w =>
    change (fetchSequencer w s).Safe
    unfold fetchSequencer
    split
    · exact Fetched.safe_refused _
    · rename_i i hi
      exact ⟨decodeCmd_wellFormed hi, hs⟩
  | element => exact fetchElement_safe hs
  | attach bytes | place bytes =>
    exact Fetched.safe_next { hs with }
  | load b =>
    exact Fetched.safe_next (loadBulk_inv hs b)

theorem fetch_safe {s : State} (hs : Inv s) : (fetch s).Safe := by
  unfold fetch
  split
  · exact Fetched.safe_next hs
  · exact serve_safe { hs with }

/-- Settles O58: the fetch hands on a safe state, and every well-formed instruction keeps it safe. -/
theorem stepKeepsInvariant : Obligations.StepKeepsInvariant := by
  intro s t hs h
  have hf := fetch_safe hs
  unfold step at h
  split at h <;> rename_i hfetch <;> rw [hfetch] at hf
  · exact exec_inv hf.2 hf.1 h
  · exact hf t h

end Sys2Proof.Machine
end

section
/-! SUPPORT. The Huffman unit gives every present symbol a code: HUF.BUILD a length from 1 to the cap, HUF.CANON the code.
-/

namespace Sys2Proof.Machine

/-! ## Package-merge covers the present symbols

How often a symbol stands in a list of items is its code length (R203). The packages of one round hold no symbol more
often than the round before, so `cap` rounds give at most `cap`. A leaf is merged before every package of at least its
weight, and of the packages lighter than the heaviest leaf there are at most `m - 2`; so every leaf is among the first
`2m - 2` items, the ones that are taken. -/

/-- How often the symbol stands in the items. -/
def tally (sym : Nat) (items : List Item) : Nat := (items.flatMap Item.syms).count sym

@[simp] theorem tally_nil (sym : Nat) : tally sym [] = 0 := rfl

@[simp] theorem tally_cons (sym : Nat) (x : Item) (xs : List Item) :
    tally sym (x :: xs) = x.syms.count sym + tally sym xs := by simp [tally]

theorem tally_append (sym : Nat) (xs ys : List Item) : tally sym (xs ++ ys) = tally sym xs + tally sym ys := by
  simp [tally]

theorem tally_perm {sym : Nat} {xs ys : List Item} (h : xs.Perm ys) : tally sym xs = tally sym ys :=
  (h.flatMap fun _ _ => .refl _).count_eq sym

theorem tally_sublist {sym : Nat} {xs ys : List Item} (h : xs.Sublist ys) : tally sym xs ≤ tally sym ys :=
  (h.flatMap Item.syms).count_le sym

theorem tally_pos {sym : Nat} {x : Item} {xs : List Item} (h : x ∈ xs) (hx : sym ∈ x.syms) : 0 < tally sym xs :=
  List.count_pos_iff.2 (List.mem_flatMap.2 ⟨x, h, hx⟩)

/-- A present symbol has one leaf, an absent one none. -/
theorem tally_presentFrom (sym k : Nat) (freq : List Nat) :
    tally sym (presentFrom k freq) = if k ≤ sym ∧ 0 < freq[sym - k]?.getD 0 then 1 else 0 := by
  induction freq generalizing k with
  | nil => simp [presentFrom]
  | cons f fs ih =>
    have tail : k < sym → tally sym (presentFrom (k + 1) fs) =
        if k ≤ sym ∧ 0 < (f :: fs)[sym - k]?.getD 0 then 1 else 0 := fun hlt => by
      rw [ih, show sym - k = sym - (k + 1) + 1 by omega, List.getElem?_cons_succ]
      simp [show k + 1 ≤ sym from hlt, show k ≤ sym by omega]
    unfold presentFrom
    rcases Nat.lt_trichotomy sym k with hlt | rfl | hgt
    · split <;> simp [ih, show ¬ k + 1 ≤ sym by omega, show ¬ k ≤ sym by omega, show k ≠ sym by omega]
    · split <;> simp_all
    · split
      · rw [tally_cons, tail hgt]
        simp [show k ≠ sym by omega]
      · exact tail hgt

theorem insertItem_perm (x : Item) (ys : List Item) : (insertItem x ys).Perm (x :: ys) := by
  induction ys with
  | nil => exact .refl _
  | cons y ys ih =>
    unfold insertItem
    split
    · exact .refl _
    · exact (ih.cons y).trans (.swap x y ys)

theorem sortItems_perm (xs : List Item) : (sortItems xs).Perm xs := by
  induction xs with
  | nil => exact .refl _
  | cons x xs ih => exact (insertItem_perm x _).trans (ih.cons x)

theorem mergeItems_perm (as bs : List Item) : (mergeItems as bs).Perm (as ++ bs) := by
  induction as generalizing bs with
  | nil => exact .refl _
  | cons a as iha =>
    induction bs with
    | nil => simp [mergeItems_nil_right]
    | cons b bs ihb =>
      rw [mergeItems_cons]
      split
      · exact (iha (b :: bs)).cons a
      · exact (ihb.cons b).trans List.perm_middle.symm

theorem tally_packages (sym : Nat) (xs : List Item) : tally sym (packages xs) ≤ tally sym xs := by
  induction xs using packages.induct with
  | case1 x y rest ih =>
    simp only [packages, tally_cons, List.count_append]
    omega
  | case2 xs h =>
    rw [packages]
    · simp
    · exact h

theorem tally_packageRounds (sym : Nat) (leaves : List Item) (k : Nat) (cur : List Item) :
    tally sym (packageRounds leaves k cur) ≤ k * tally sym leaves + tally sym cur := by
  induction k generalizing cur with
  | zero => simp [packageRounds]
  | succ k ih =>
    have h1 := ih (mergeItems leaves (packages cur))
    have h2 := tally_packages sym cur
    rw [tally_perm (mergeItems_perm ..), tally_append] at h1
    rw [packageRounds, Nat.succ_mul]
    omega

/-- The items lighter than a weight. -/
def lighter (w : Nat) (items : List Item) : Nat := items.countP fun x => x.weight < w

/-- A package lighter than `w` is made of two items lighter than `w`. -/
theorem lighter_packages (w : Nat) (xs : List Item) : 2 * lighter w (packages xs) ≤ lighter w xs := by
  induction xs using packages.induct with
  | case1 x y rest ih =>
    simp only [lighter, packages, List.countP_cons, decide_eq_true_eq] at ih ⊢
    split <;> split <;> split <;> omega
  | case2 xs h =>
    rw [packages]
    · simp [lighter]
    · exact h

theorem lighter_mergeItems (w : Nat) (as bs : List Item) :
    lighter w (mergeItems as bs) = lighter w as + lighter w bs := by
  rw [lighter, (mergeItems_perm as bs).countP_eq, List.countP_append]
  rfl

/-- Leaves of at most the weight `w` are merged behind no other packages than those lighter than `w`. -/
theorem mem_take_mergeItems {w : Nat} {as bs : List Item} (hw : ∀ a ∈ as, a.weight ≤ w) :
    ∀ a ∈ as, a ∈ (mergeItems as bs).take (as.length + lighter w bs) := by
  induction as generalizing bs with
  | nil => exact nofun
  | cons x as iha =>
    have hx := hw x (List.mem_cons_self ..)
    have hrest := fun a ha => hw a (List.mem_cons_of_mem x ha)
    induction bs with
    | nil => simp [mergeItems_nil_right, lighter]
    | cons b bs ihb =>
      intro a ha
      rw [mergeItems_cons]
      split
      · rw [List.length_cons, Nat.add_right_comm, List.take_succ_cons]
        rcases List.mem_cons.1 ha with rfl | ha
        · exact List.mem_cons_self ..
        · exact List.mem_cons_of_mem _ (iha hrest a ha)
      · have hb : lighter w (b :: bs) = lighter w bs + 1 := by
          simp only [lighter, List.countP_cons]
          simp [show b.weight < w by omega]
        rw [hb, ← Nat.add_assoc, List.take_succ_cons]
        exact List.mem_cons_of_mem _ (ihb a ha)

/-- After any number of rounds every leaf is among the items that are taken. -/
theorem mem_take_packageRounds {w m : Nat} {leaves cur : List Item} (k : Nat) (hw : ∀ a ∈ leaves, a.weight ≤ w)
    (hm : 2 ≤ m) (hlen : leaves.length = m) (hl : lighter w leaves < m) (hc : lighter w cur ≤ 2 * m - 3)
    (hcur : ∀ a ∈ leaves, a ∈ cur.take (2 * m - 2)) :
    ∀ a ∈ leaves, a ∈ (packageRounds leaves k cur).take (2 * m - 2) := by
  induction k generalizing cur with
  | zero => exact hcur
  | succ k ih =>
    have hp := lighter_packages w cur
    refine ih ?_ fun a ha => ?_
    · rw [lighter_mergeItems]
      omega
    · exact List.Sublist.subset (List.take_sublist_take_left (by omega)) (mem_take_mergeItems hw a ha)

theorem exists_heaviest {items : List Item} (h : items ≠ []) : ∃ x ∈ items, ∀ y ∈ items, y.weight ≤ x.weight := by
  have hne : items.toFinset.Nonempty := by simpa [List.toFinset_nonempty_iff] using h
  obtain ⟨x, hx, hmax⟩ := items.toFinset.exists_max_image Item.weight hne
  exact ⟨x, List.mem_toFinset.1 hx, fun y hy => hmax y (List.mem_toFinset.2 hy)⟩

/-- The taken items hold every symbol of a leaf. -/
theorem tally_taken_pos {sym : Nat} {leaves : List Item} (k : Nat) (hm : 2 ≤ leaves.length)
    (h : 0 < tally sym leaves) :
    0 < tally sym ((packageRounds leaves k leaves).take (2 * leaves.length - 2)) := by
  obtain ⟨x, hx, hmax⟩ := exists_heaviest (items := leaves) (by rintro rfl; simp at hm)
  have hl : lighter x.weight leaves < leaves.length := List.countP_lt_length_iff.2 ⟨x, hx, by simp⟩
  have htake : leaves.take (2 * leaves.length - 2) = leaves := List.take_of_length_le (by omega)
  obtain ⟨a, ha, hsym⟩ := List.mem_flatMap.1 (List.count_pos_iff.1 h)
  exact tally_pos (mem_take_packageRounds k hmax hm rfl hl (by omega) (by rw [htake]; exact fun _ => id) a ha) hsym

@[simp] theorem occurrences_length (n : Nat) (syms : List Nat) : (occurrences n syms).length = n := by
  simp [occurrences]

theorem occurrences_get {n sym : Nat} (syms : List Nat) (h : sym < n) :
    (occurrences n syms)[sym]? = some (syms.count sym) := by
  simp [occurrences, h]

/-- `buildLengths` counts the symbols of a list of items that holds a present symbol 1 to `cap` times and no other. -/
theorem buildLengths_eq_occurrences (freq : List Nat) {cap : Nat} (hcap : 1 ≤ cap) :
    ∃ items, buildLengths freq cap = occurrences freq.length (items.flatMap Item.syms) ∧
      ∀ sym, (freq[sym]?.getD 0 = 0 → tally sym items = 0) ∧
        (0 < freq[sym]?.getD 0 → 1 ≤ tally sym items ∧ tally sym items ≤ cap) := by
  have hleaf : ∀ sym, tally sym (sortItems (presentFrom 0 freq)) = if 0 < freq[sym]?.getD 0 then 1 else 0 := by
    intro sym
    rw [tally_perm (sortItems_perm _), tally_presentFrom]
    simp
  unfold buildLengths
  dsimp only
  generalize sortItems (presentFrom 0 freq) = leaves at hleaf ⊢
  split
  · refine ⟨[], by simp [occurrences, List.map_const'], fun sym => ⟨fun _ => rfl, fun hf => ?_⟩⟩
    have := hleaf sym
    simp [hf] at this
  · rename_i x
    refine ⟨[x], by simp, fun sym => ?_⟩
    rw [hleaf sym]
    constructor <;> intro hf <;> simp [hf, hcap]
  · rename_i hnil hone
    have hm : 2 ≤ leaves.length := by
      match leaves with
      | [] => exact absurd rfl hnil
      | [x] => exact absurd rfl (hone x)
      | x :: y :: rest => simp
    refine ⟨_, rfl, fun sym => ?_⟩
    have hsub := tally_sublist (sym := sym)
      (List.take_sublist (2 * leaves.length - 2) (packageRounds leaves (cap - 1) leaves))
    have hrounds := tally_packageRounds sym leaves (cap - 1) leaves
    rw [hleaf sym] at hrounds
    constructor
    · intro hf
      simp only [hf, lt_irrefl, if_false] at hrounds
      omega
    · intro hf
      have hpos := tally_taken_pos (sym := sym) (cap - 1) hm (by simp [hleaf sym, hf])
      simp only [hf, if_true] at hrounds
      omega

theorem buildLengths_covers (freq : List Nat) {cap : Nat} (hcap : 1 ≤ cap) :
    Covers cap freq (buildLengths freq cap) := by
  obtain ⟨items, heq, hitems⟩ := buildLengths_eq_occurrences freq hcap
  rw [heq]
  refine ⟨by simp, fun sym f hf => ⟨_, occurrences_get _ (List.getElem?_eq_some_iff.1 hf).1, ?_⟩⟩
  simpa [hf, tally] using hitems sym

/-- Whatever the construction, the core's lengths cover the present symbols and no others, within the cap (R201). -/
theorem coreLengths_covers (c : Config.Params) (freq : List Nat) {cap : Nat} (hcap : 1 ≤ cap) :
    Covers cap freq (coreLengths c freq cap) := by
  unfold coreLengths
  split
  · exact buildLengths_covers freq hcap
  · rename_i k _
    dsimp only
    split
    · rename_i hok
      simp only [lengthsOk, Bool.and_eq_true, decide_eq_true_eq] at hok
      obtain ⟨⟨⟨hlen, hzip⟩, _⟩, _⟩ := hok
      refine ⟨hlen, fun sym f hf => ?_⟩
      have hlt : sym < (Config.otherLengths k freq cap).length := by
        rw [hlen]
        exact (List.getElem?_eq_some_iff.1 hf).1
      have hl := List.getElem?_eq_getElem hlt
      have hmem : (f, (Config.otherLengths k freq cap)[sym]) ∈ freq.zip (Config.otherLengths k freq cap) :=
        List.mem_of_getElem? (i := sym) (by simp [List.getElem?_zip_eq_some, hf, hl])
      have hpair := List.all_eq_true.1 hzip _ hmem
      refine ⟨_, hl, fun h0 => ?_, fun hpos => ?_⟩
      · simpa [h0] using hpair
      · simpa [Nat.pos_iff_ne_zero.1 hpos] using hpair
    · exact buildLengths_covers freq hcap

/-! ## Canonical codes for every symbol with a length -/

theorem mem_symsOfLen {l k sym : Nat} {ls : List Nat} (h : ls[sym]? = some l) : k + sym ∈ symsOfLen l k ls := by
  induction ls generalizing k sym with
  | nil => simp at h
  | cons x xs ih =>
    unfold symsOfLen
    cases sym with
    | zero =>
      obtain rfl : x = l := by simpa using h
      simp
    | succ sym =>
      have := ih (k := k + 1) (sym := sym) (by simpa using h)
      rw [show k + 1 + sym = k + (sym + 1) by omega] at this
      split
      · exact List.mem_cons_of_mem _ this
      · exact this

theorem mem_canonOrder {ls : List Nat} {sym l : Nat} (h : ls[sym]? = some l) (h1 : 1 ≤ l) (h15 : l ≤ 15) :
    (sym, l) ∈ canonOrder ls := by
  refine List.mem_flatMap.2 ⟨l - 1, List.mem_range.2 (by omega), List.mem_map.2 ⟨sym, ?_, ?_⟩⟩
  · simpa [Nat.sub_add_cancel h1] using mem_symsOfLen (k := 0) h
  · simp [Nat.sub_add_cancel h1]

theorem canonAssign_map_fst (last : Option (Nat × Nat)) (order : List (Nat × Nat)) :
    (canonAssign last order).map Prod.fst = order.map Prod.fst := by
  induction order generalizing last with
  | nil => rfl
  | cons e rest ih => simp [canonAssign, ih]

theorem lookup_isSome_of_mem {α β : Type} [BEq α] [LawfulBEq α] {a : α} {xs : List (α × β)}
    (h : a ∈ xs.map Prod.fst) : (xs.lookup a).isSome = true := by
  induction xs with
  | nil => simp at h
  | cons e xs ih =>
    obtain ⟨b, y⟩ := e
    by_cases hab : a = b
    · simp [hab]
    · rw [List.lookup_cons, beq_false_of_ne hab]
      exact ih (by simpa [hab] using h)

@[simp] theorem canonCodes_length (ls : List Nat) : (canonCodes ls).length = ls.length := by simp [canonCodes]

/-- A symbol with a length of 1 to 15 bits has a canonical code (R206). -/
theorem hasCode_canonCodes {ls : List Nat} {sym l : Nat} (h : ls[sym]? = some l) (h1 : 1 ≤ l) (h15 : l ≤ 15) :
    hasCode (canonCodes ls) sym := by
  have hlt := (List.getElem?_eq_some_iff.1 h).1
  have hmem : sym ∈ (canonAssign none (canonOrder ls)).map Prod.fst := by
    rw [canonAssign_map_fst]
    exact List.mem_map.2 ⟨_, mem_canonOrder h h1 h15, rfl⟩
  obtain ⟨⟨c, m⟩, hc⟩ := Option.isSome_iff_exists.1 (lookup_isSome_of_mem hmem)
  exact ⟨c, m, by simp [canonCodes, hlt, hc]⟩

/-- What HUF.BUILD and HUF.CANON give together: a code for every symbol that is present. -/
theorem hasCode_coreLengths (c : Config.Params) {freq : List Nat} {cap sym : Nat} (hcap : 1 ≤ cap) (h15 : cap ≤ 15)
    (h : 0 < freq[sym]?.getD 0) : hasCode (canonCodes (coreLengths c freq cap)) sym := by
  cases hf : freq[sym]? with
  | none => simp [hf] at h
  | some f =>
    obtain ⟨l, hl, _, hpos⟩ := (coreLengths_covers c freq hcap).2 sym f hf
    obtain ⟨h1, hle⟩ := hpos (by simpa [hf] using h)
    exact hasCode_canonCodes hl h1 (hle.trans h15)

end Sys2Proof.Machine
end

section
/-! SUPPORT. The records of LZ.ENCODE are well formed, and BLK.FREQ counts every symbol they need. -/

namespace Sys2Proof.Machine

/-! ## LZ.ENCODE emits well-formed records -/

/-- The best match so far is no longer than the search allows, and its distance is within the window (R174, R176). -/
def SearchOk (s : State) : Prop :=
  s.bestLen ≤ s.cap ∧ (0 < s.bestLen → 1 ≤ s.bestDist ∧ s.bestDist ≤ s.cfg.wsize)

theorem commonLen_le (cap : Nat) (as bs : List Byte) : commonLen cap as bs ≤ cap := by
  induction cap generalizing as bs with
  | zero => cases as <;> cases bs <;> simp [commonLen]
  | succ k ih =>
    match as, bs with
    | [], _ | _ :: _, [] => simp [commonLen]
    | a :: as, b :: bs =>
      unfold commonLen
      split
      · exact Nat.succ_le_succ (ih as bs)
      · exact Nat.zero_le _

theorem examine_searchOk {chunk : List Byte} {i c : Nat} {s : State} (h : SearchOk s) :
    SearchOk (examine chunk i c s) := by
  unfold examine
  split
  · rename_i hviable
    split
    · dsimp only
      split
      · refine ⟨commonLen_le .., fun _ => ⟨?_, hviable.2⟩⟩
        change 1 ≤ i - c
        omega
      · exact h
    · exact h
  · exact h

theorem walk_searchOk {chunk : List Byte} {i fuel : Nat} {s : State} (h : SearchOk s) :
    SearchOk (walk chunk i fuel s) := by
  induction fuel generalizing s with
  | zero => exact h
  | succ fuel ih =>
    unfold walk
    split
    · exact h
    · rename_i c _
      have he : SearchOk (examine chunk i c { s with visited := s.visited + 1 }) := examine_searchOk h
      dsimp only
      split
      · exact he
      · exact ih he

/-- The search of one pass: a match of at most MAX_MATCH bytes within the window, or none. -/
theorem searchAt_best (chunk : List Byte) (s : State) :
    (searchAt chunk s).bestLen ≤ s.cfg.maxMatch ∧
      (0 < (searchAt chunk s).bestLen →
        1 ≤ (searchAt chunk s).bestDist ∧ (searchAt chunk s).bestDist ≤ s.cfg.wsize) := by
  unfold searchAt
  split
  · rename_i h _
    obtain ⟨hlen, hdist⟩ : SearchOk (lzFind chunk s.i h s) := walk_searchOk ⟨Nat.zero_le _, by simp⟩
    obtain ⟨_, _, _, _, hf⟩ := lzFind_frame chunk s.i h s
    have hcap : (lzFind chunk s.i h s).cap = min s.cfg.maxMatch (s.n - s.i) := by rw [hf]
    have hcfg : (lzFind chunk s.i h s).cfg = s.cfg := by rw [hf]
    rw [hcap] at hlen
    rw [hcfg] at hdist
    exact ⟨hlen.trans (min_le_left ..), hdist⟩
  · exact ⟨Nat.zero_le _, by simp⟩

/-- Every record of the state is well formed (R34). -/
def RecordsOk (s : State) : Prop := ∀ r ∈ s.recs, r.wellFormed s.cfg = true

theorem RecordsOk.push {s t : State} {r : MatchRecord} (h : RecordsOk s) (hr : r.wellFormed s.cfg = true)
    (hrecs : t.recs = s.recs ++ [r]) (hcfg : t.cfg = s.cfg) : RecordsOk t := by
  intro q hq
  rw [hcfg]
  rw [hrecs, List.mem_append, List.mem_singleton] at hq
  rcases hq with hq | rfl
  · exact h q hq
  · exact hr

theorem encodeLiteral_frame (chunk : List Byte) (b : Byte) (s : State) :
    (encodeLiteral chunk b s).recs = s.recs ++ [MatchRecord.literal b] ∧ (encodeLiteral chunk b s).cfg = s.cfg := by
  obtain ⟨_, _, h⟩ := lzInsert_frame chunk s.i { s with recs := s.recs ++ [MatchRecord.literal b] }
  unfold encodeLiteral
  rw [h]
  exact ⟨rfl, rfl⟩

theorem encodeMatch_frame (chunk : List Byte) (s : State) :
    (encodeMatch chunk s).recs =
      s.recs ++ [MatchRecord.ofMatch s.bestDist s.bestLen chunk[s.i + s.bestLen]?] ∧
    (encodeMatch chunk s).cfg = s.cfg := by
  obtain ⟨_, _, h⟩ := insertFrom_frame chunk s.i (s.bestLen + 1)
    { s with recs := s.recs ++ [MatchRecord.ofMatch s.bestDist s.bestLen chunk[s.i + s.bestLen]?] }
  unfold encodeMatch
  dsimp only
  rw [h]
  exact ⟨rfl, rfl⟩

theorem literal_wellFormed (b : Byte) (c : Config.Params) : (MatchRecord.literal b).wellFormed c = true := by
  simp [MatchRecord.literal, MatchRecord.wellFormed]

theorem ofMatch_wellFormed {c : Config.Params} {dist len : Nat} (lit : Option Byte) (hd : 1 ≤ dist ∧ dist ≤ c.wsize)
    (hl : c.minMatch ≤ len ∧ len ≤ c.maxMatch) : (MatchRecord.ofMatch dist len lit).wellFormed c = true := by
  cases lit <;> simp [MatchRecord.ofMatch, MatchRecord.wellFormed, hd, hl]

theorem encodeLoop_recordsOk {chunk : List Byte} {fuel : Nat} {s : State} (hc : s.cfg.Ok) (h : RecordsOk s) :
    RecordsOk (encodeLoop chunk fuel s) := by
  induction fuel generalizing s with
  | zero => exact h
  | succ fuel ih =>
    unfold encodeLoop
    split
    · exact h
    rename_i b _
    obtain ⟨hlen, hdist⟩ := searchAt_best chunk s
    have hs : RecordsOk (searchAt chunk s) ∧ (searchAt chunk s).cfg = s.cfg := by
      obtain ⟨_, _, _, _, _, _, hf⟩ := searchAt_frame chunk s
      rw [hf]
      exact ⟨h, rfl⟩
    obtain ⟨hrecs, hcfg⟩ := hs
    dsimp only
    split
    · obtain ⟨hr, hcfg'⟩ := encodeLiteral_frame chunk b (searchAt chunk s)
      exact ih (by rw [hcfg', hcfg]; exact hc) (hrecs.push (literal_wellFormed ..) hr hcfg')
    · rename_i hmin
      obtain ⟨hr, hcfg'⟩ := encodeMatch_frame chunk (searchAt chunk s)
      have h3 := hc.ranges.1
      refine ih (by rw [hcfg', hcfg]; exact hc) (hrecs.push ?_ hr hcfg')
      rw [hcfg]
      exact ofMatch_wellFormed _ (hdist (by omega)) ⟨by omega, hlen⟩

theorem lzEncode_recordsOk (n : Nat) {s : State} (hc : s.cfg.Ok) : RecordsOk (lzEncode n s) :=
  encodeLoop_recordsOk hc fun r hr => by cases hr

/-! ## BLK.FREQ counts every symbol the records need -/

/-- Occurrences were only added. -/
def Grows (fs gs : List Nat) : Prop := gs.length = fs.length ∧ ∀ k : Nat, fs[k]?.getD 0 ≤ gs[k]?.getD 0

theorem Grows.refl (fs : List Nat) : Grows fs fs := ⟨rfl, fun _ => le_rfl⟩

theorem Grows.trans {fs gs hs : List Nat} (h : Grows fs gs) (h' : Grows gs hs) : Grows fs hs :=
  ⟨h'.1.trans h.1, fun k => (h.2 k).trans (h'.2 k)⟩

theorem Grows.pos {fs gs : List Nat} {k : Nat} (h : Grows fs gs) (hk : 0 < fs[k]?.getD 0) : 0 < gs[k]?.getD 0 :=
  lt_of_lt_of_le hk (h.2 k)

theorem bump_grows (fs : List Nat) (sym : Nat) : Grows fs (bump fs sym) := by
  refine ⟨by simp [bump], fun k => ?_⟩
  rw [bump, List.getElem?_set]
  split
  · subst sym
    split
    · simp
    · simp [List.getElem?_eq_none (not_lt.1 ‹_›)]
  · exact le_rfl

theorem bump_pos {fs : List Nat} {sym : Nat} (h : sym < fs.length) : 0 < (bump fs sym)[sym]?.getD 0 := by
  simp [bump, h]

/-- Every symbol the record's elements need has been counted (R264, R260). -/
def RecordCounted (c : Config.Params) (r : MatchRecord) (lf df : List Nat) : Prop :=
  (0 < r.length → ∃ l d, lenRow c r.length = some l ∧ distRow c r.offset = some d ∧ 0 < lf[l.sym]?.getD 0 ∧
    0 < df[d.sym]?.getD 0) ∧
  (r.hasLit = true → 0 < lf[r.lit.toNat]?.getD 0)

theorem RecordCounted.mono {c : Config.Params} {r : MatchRecord} {lf df lf' df' : List Nat}
    (h : RecordCounted c r lf df) (hl : Grows lf lf') (hd : Grows df df') : RecordCounted c r lf' df' := by
  refine ⟨fun h0 => ?_, fun h0 => hl.pos (h.2 h0)⟩
  obtain ⟨l, d, hlr, hdr, hlp, hdp⟩ := h.1 h0
  exact ⟨l, d, hlr, hdr, hl.pos hlp, hd.pos hdp⟩

theorem lenRow_sym_lt {c : Config.Params} (hc : c.Ok) {r : Config.CodeRow} (hr : r ∈ c.lenTable) : r.sym < c.nlit := by
  have hmem := List.mem_map_of_mem (f := Config.CodeRow.sym) hr
  rw [hc.lenTable.1, List.mem_range'_1] at hmem
  have hn : c.nlit = 286 := hc.symbols.1
  omega

theorem distRow_sym_lt {c : Config.Params} (hc : c.Ok) {r : Config.CodeRow} (hr : r ∈ c.distTable) :
    r.sym < c.ndist := by
  have hmem := List.mem_map_of_mem (f := Config.CodeRow.sym) hr
  rw [hc.distTable.1, List.mem_range] at hmem
  have hn : c.ndist = 30 := hc.symbols.2.1
  omega

/-- A match record's length and distance are in the tables; a literal record has no length. -/
theorem wellFormed_rows {c : Config.Params} (hc : c.Ok) {r : MatchRecord} (h : r.wellFormed c = true)
    (h0 : 0 < r.length) :
    ∃ l d, lenRow c r.length = some l ∧ l.sym < c.nlit ∧ distRow c r.offset = some d ∧ d.sym < c.ndist := by
  have hne : r.length ≠ 0 := Nat.pos_iff_ne_zero.1 h0
  simp only [MatchRecord.wellFormed, hne, decide_false, Bool.and_false, Bool.false_and, Bool.false_or,
    Bool.and_eq_true, decide_eq_true_eq] at h
  obtain ⟨⟨⟨⟨h1, hw⟩, hmin⟩, hmax⟩, _⟩ := h
  obtain ⟨l, hl, hlm, _⟩ := lenRow_spec hc r.length hmin hmax
  obtain ⟨d, hd, hdm, _⟩ := distRow_spec hc r.offset h1 hw
  exact ⟨l, d, hl, lenRow_sym_lt hc hlm, hd, distRow_sym_lt hc hdm⟩

/-- A well-formed record is counted, all its symbols of it. -/
theorem countRecord_counts {c : Config.Params} (hc : c.Ok) {r : MatchRecord} (hr : r.wellFormed c = true)
    {lf df : List Nat} (hlf : lf.length = c.nlit) (hdf : df.length = c.ndist) :
    ∃ lf' df', countRecord c r (lf, df) = some (lf', df') ∧ Grows lf lf' ∧ Grows df df' ∧
      RecordCounted c r lf' df' := by
  have hbyte : r.lit.toNat < c.nlit := by
    have := r.lit.isLt
    rw [hc.symbols.1]
    omega
  have lit : ∀ fs : List Nat, fs.length = c.nlit → ∃ fs', (if r.hasLit then bump fs r.lit.toNat else fs) = fs' ∧
      Grows fs fs' ∧ (r.hasLit = true → 0 < fs'[r.lit.toNat]?.getD 0) := fun fs hlen => by
    cases r.hasLit with
    | true => exact ⟨_, rfl, bump_grows .., fun _ => bump_pos (by rw [hlen]; exact hbyte)⟩
    | false => exact ⟨_, rfl, .refl _, nofun⟩
  by_cases h0 : 0 < r.length
  · obtain ⟨l, d, hl, hls, hd, hds⟩ := wellFormed_rows hc hr h0
    obtain ⟨lf', hlf', hgrow, hlit⟩ := lit (bump lf l.sym) ((bump_grows lf l.sym).1.trans hlf)
    refine ⟨lf', bump df d.sym, ?_, (bump_grows ..).trans hgrow, bump_grows .., fun _ => ?_, hlit⟩
    · simp only [countRecord, h0, if_true, hl, hd, hlf']
    · exact ⟨l, d, hl, hd, hgrow.pos (bump_pos (by rw [hlf]; exact hls)), bump_pos (by rw [hdf]; exact hds)⟩
  · obtain ⟨lf', hlf', hgrow, hlit⟩ := lit lf hlf
    exact ⟨lf', df, by simp only [countRecord, h0, if_false, hlf'], hgrow, .refl _, fun h => absurd h h0, hlit⟩

theorem countRecords_counts {c : Config.Params} (hc : c.Ok) {rs : List MatchRecord}
    (hrs : ∀ r ∈ rs, r.wellFormed c = true) {lf df : List Nat} (hlf : lf.length = c.nlit) (hdf : df.length = c.ndist) :
    ∃ lf' df', countRecords c rs (lf, df) = some (lf', df') ∧ Grows lf lf' ∧ Grows df df' ∧
      ∀ r ∈ rs, RecordCounted c r lf' df' := by
  induction rs generalizing lf df with
  | nil => exact ⟨lf, df, rfl, .refl _, .refl _, nofun⟩
  | cons r rs ih =>
    obtain ⟨lf1, df1, h1, hgl1, hgd1, hr⟩ := countRecord_counts hc (hrs r (List.mem_cons_self ..)) hlf hdf
    obtain ⟨lf2, df2, h2, hgl2, hgd2, hall⟩ :=
      ih (fun q hq => hrs q (List.mem_cons_of_mem r hq)) (hgl1.1.trans hlf) (hgd1.1.trans hdf)
    refine ⟨lf2, df2, by rw [countRecords, h1, Option.bind_some, h2], hgl1.trans hgl2, hgd1.trans hgd2, ?_⟩
    intro q hq
    rcases List.mem_cons.1 hq with rfl | hq
    · exact hr.mono hgl2 hgd2
    · exact hall q hq

/-- BLK.FREQ completes on well-formed records and counts all they need, and the end-of-block symbol (R260). -/
theorem blkFreq_completes {s : State} (hc : s.cfg.Ok) (hr : RecordsOk s) :
    ∃ lf df, blkFreq s = .ok () (setFreqs .dist df (setFreqs .litlen lf s)) ∧ lf.length = s.cfg.nlit ∧
      df.length = s.cfg.ndist ∧ 0 < lf[s.cfg.eob]?.getD 0 ∧ ∀ r ∈ s.recs, RecordCounted s.cfg r lf df := by
  obtain ⟨lf, df, h, hgl, hgd, hall⟩ := countRecords_counts hc hr
    (List.length_replicate (n := s.cfg.nlit) (a := 0)) (List.length_replicate (n := s.cfg.ndist) (a := 0))
  have hlf : lf.length = s.cfg.nlit := by simpa using hgl.1
  have heob : s.cfg.eob < lf.length := by
    rw [hlf, hc.symbols.1, hc.symbols.2.2.2]
    decide
  refine ⟨bump lf s.cfg.eob, df, ?_, (bump_grows ..).1.trans hlf, by simpa using hgd.1, bump_pos heob,
    fun r hr => (hall r hr).mono (bump_grows ..) (.refl _)⟩
  rw [blkFreq, h]

end Sys2Proof.Machine
end

section
/-! SUPPORT. No host request is a fault of the model: HDR.BUILD codes the pairs of its own sequence, so BLK.ENC writes
only symbols that have codes; no other operation of the host indexes or writes what might be missing. -/

namespace Sys2Proof.Machine

/-! ## HDR.BUILD codes every pair of its own sequence -/

theorem mem_of_mem_runs {ls : List Nat} {e : Nat × Nat} (h : e ∈ runs ls) : e.1 ∈ ls := by
  induction ls generalizing e with
  | nil => cases h
  | cons v vs ih =>
    unfold runs at h
    split at h
    · obtain rfl := List.mem_singleton.1 h
      exact List.mem_cons_self ..
    · rename_i w r rest hruns
      rw [hruns] at ih
      split at h <;> rcases List.mem_cons.1 h with rfl | h
      · exact List.mem_cons_self ..
      · exact List.mem_cons_of_mem _ (ih (List.mem_cons_of_mem _ h))
      · exact List.mem_cons_self ..
      · exact List.mem_cons_of_mem _ (ih h)

theorem zeroRun_sym_lt {fuel r : Nat} {p : ClPair} (h : p ∈ zeroRun fuel r) : p.sym < 19 := by
  induction fuel generalizing r with
  | zero => cases h
  | succ fuel ih =>
    unfold zeroRun at h
    split at h
    · rcases List.mem_cons.1 h with rfl | h
      · exact (by decide : 18 < 19)
      · exact ih h
    · split at h
      · obtain rfl := List.mem_singleton.1 h
        exact (by decide : 17 < 19)
      · obtain rfl := List.eq_of_mem_replicate h
        exact (by decide : 0 < 19)

theorem repeatRun_sym_lt {v fuel r : Nat} {p : ClPair} (hv : v < 19) (h : p ∈ repeatRun v fuel r) : p.sym < 19 := by
  induction fuel generalizing r with
  | zero => cases h
  | succ fuel ih =>
    unfold repeatRun at h
    split at h
    · rcases List.mem_cons.1 h with rfl | h
      · exact (by decide : 16 < 19)
      · exact ih h
    · obtain rfl := List.eq_of_mem_replicate h
      exact hv

/-- The pairs of code lengths up to 15 are symbols of the code-length alphabet (R230, R231). -/
theorem rlePairs_sym_lt {ls : List Nat} (h15 : ∀ l ∈ ls, l ≤ 15) {p : ClPair} (h : p ∈ rlePairs ls) : p.sym < 19 := by
  obtain ⟨e, he, hp⟩ := List.mem_flatMap.1 h
  have hv : e.1 < 19 := by
    have := h15 _ (mem_of_mem_runs he)
    omega
  unfold runPairs at hp
  split at hp
  · exact zeroRun_sym_lt hp
  · rcases List.mem_cons.1 hp with rfl | hp
    · exact hv
    · exact repeatRun_sym_lt hv hp

theorem clCounts_pos {c : Config.Params} {ps : List ClPair} {p : ClPair} (h : p ∈ ps) (hp : p.sym < c.ncl) :
    0 < (clCounts c ps)[p.sym]?.getD 0 := by
  rw [clCounts, occurrences_get _ hp]
  exact List.count_pos_iff.2 (List.mem_map_of_mem h)

/-- No length is above the cap. -/
theorem Covers.le {cap : Nat} {freq ls : List Nat} (h : Covers cap freq ls) : ∀ l ∈ ls, l ≤ cap := by
  intro l hl
  obtain ⟨sym, hsym⟩ := List.mem_iff_getElem?.1 hl
  have hlt : sym < freq.length := h.1 ▸ (List.getElem?_eq_some_iff.1 hsym).1
  obtain ⟨m, hm, h0, hpos⟩ := h.2 sym _ (List.getElem?_eq_getElem hlt)
  obtain rfl : m = l := Option.some.inj (hm.symm.trans hsym)
  rcases Nat.eq_zero_or_pos freq[sym] with hf | hf
  · rw [h0 hf]
    exact Nat.zero_le _
  · exact (hpos hf).2

/-- The caps leave room for a code of one bit and fit 15 bits (R11). -/
theorem caps_range {c : Config.Params} (hc : c.Ok) (a : Alphabet) : 1 ≤ a.maxBits c ∧ a.maxBits c ≤ 15 := by
  obtain ⟨hlit, _, hncl, hcl7, hld, _, hmax⟩ := hc.caps
  rw [hc.symbols.1] at hlit
  rw [hc.symbols.2.2.1] at hncl
  have hld1 : c.maxbitsLd ≠ 0 := fun h => by simp [h] at hlit
  have hcl1 : c.maxbitsCl ≠ 0 := fun h => by simp [h] at hncl
  cases a <;> simp only [Alphabet.maxBits] <;> omega

/-- HDR.BUILD on full arrays of lengths up to 15: it completes, its code set codes its pairs, and the data part's codes
and the records stay. -/
theorem hdrBuild_completes {s : State} (hc : s.cfg.Ok) (hlit : s.litLen.length = s.cfg.nlit)
    (hdist : s.distLen.length = s.cfg.ndist) (hlit15 : ∀ l ∈ s.litLen, l ≤ 15) (hdist15 : ∀ l ∈ s.distLen, l ≤ 15) :
    ∃ t, hdrBuild s = .ok () t ∧ t.cfg = s.cfg ∧ t.recs = s.recs ∧ t.litCode = s.litCode ∧ t.distCode = s.distCode ∧
      t.clLen.length = s.cfg.ncl ∧ ∀ p ∈ t.rle, hasCode t.clCode p.sym := by
  rcases hdrSize_cases { s with btype := 2 } with ⟨_, _, hsize⟩ | ⟨hshort, _⟩
  case inr =>
    change s.litLen.length < s.cfg.nlit ∨ s.distLen.length < s.cfg.ndist at hshort
    omega
  rcases hdrBuild_cases s with ⟨a, d, q, k, hq, h⟩ | ⟨k, h⟩
  case inr =>
    unfold hdrBuild at h
    rw [hsize] at h
    cases h
  rw [hsize] at hq
  have hseq : _ = q := congrArg (fun t : State => t.seq) (Act.ok.inj hq).2
  simp only [sizeTo_seq] at hseq
  have h15 : ∀ l ∈ q, l ≤ 15 := fun l hl => by
    rw [← hseq, List.mem_append] at hl
    exact hl.elim (fun h => hlit15 l (List.mem_of_mem_take h)) (fun h => hdist15 l (List.mem_of_mem_take h))
  obtain ⟨hcap1, hcap15⟩ := caps_range hc .cl
  refine ⟨_, h, rfl, rfl, rfl, rfl, ?_, fun p hp => ?_⟩
  · exact ((coreLengths_covers s.cfg _ hcap1).1).trans (occurrences_length ..)
  · have hsym : p.sym < s.cfg.ncl := by
      rw [hc.symbols.2.2.1]
      exact rlePairs_sym_lt h15 hp
    exact hasCode_coreLengths s.cfg hcap1 hcap15 (clCounts_pos hp hsym)

/-! ## Writing what has codes -/

/-- A step that completes, having written only. -/
def Act.Appends {α : Type} (s : State) (x : Act α) : Prop := x.Meets (Machine.Appends s) (fun _ => False) False

theorem Act.Appends.after {α : Type} {s t : State} {x : Act α} (hx : x.Appends t) (h : Machine.Appends s t) :
    x.Appends s := Act.Meets.mono hx (fun _ => h.trans) (fun _ => id) id

theorem Act.Appends.bind {α β : Type} {s : State} {x : Act α} {f : α → State → Act β} (hx : x.Appends s)
    (hf : ∀ a t, Machine.Appends s t → (f a t).Appends t) : (x.bind f).Appends s :=
  Act.Meets.bind hx fun a t _ h => (hf a t h).after h

theorem Act.Appends.completes {s : State} {x : Act Unit} (hx : x.Appends s) : ∃ t, x = .ok () t := by
  cases x with
  | ok a t => exact ⟨t, rfl⟩
  | raised t =>
    obtain ⟨_, _, _, hno, _⟩ := hx
    exact hno.elim
  | fault e => exact False.elim hx

theorem Appends.codes {s t : State} (h : Appends s t) (a : Alphabet) : t.codes a = s.codes a := by
  rw [h.2.2]
  cases a <;> rfl

theorem Appends.cfg {s t : State} (h : Appends s t) : t.cfg = s.cfg := by rw [h.2.2]

theorem Appends.clLen {s t : State} (h : Appends s t) : t.clLen = s.clLen := by rw [h.2.2]

theorem Appends.rle {s t : State} (h : Appends s t) : t.rle = s.rle := by rw [h.2.2]

theorem Appends.recs {s t : State} (h : Appends s t) : t.recs = s.recs := by rw [h.2.2]

theorem emitCode_appends {a : Alphabet} {sym : Nat} {s : State} (h : hasCode (s.codes a) sym) :
    (emitCode a sym s).Appends s := by
  obtain ⟨c, l, hcl⟩ := h
  rcases emitCode_cases a sym s with ⟨c', l', _, h'⟩ | ⟨hnone, _⟩
  · rw [h']
    exact writeList_appends ..
  · exact absurd hcl (hnone c l)

theorem writePairs_appends {ps : List ClPair} {s : State} (h : ∀ p ∈ ps, hasCode (s.codes .cl) p.sym) :
    (writePairs ps s).Appends s := by
  induction ps generalizing s with
  | nil => exact Appends.refl s
  | cons p ps ih =>
    refine (emitCode_appends (a := .cl) (h p (List.mem_cons_self ..))).bind fun _ t ht => ?_
    have hw := writeList_appends p.repeatBits t
    refine (ih fun q hq => ?_).after hw
    rw [hw.codes, ht.codes]
    exact h q (List.mem_cons_of_mem p hq)

theorem writeClLens_appends {cs : List Nat} {s : State} (h : ∀ c ∈ cs, c < s.clLen.length) :
    (writeClLens cs s).Appends s := by
  induction cs generalizing s with
  | nil => exact Appends.refl s
  | cons c cs ih =>
    have hlt := h c (List.mem_cons_self ..)
    rw [writeClLens, List.getElem?_eq_getElem hlt]
    have hw : Appends s (writeBits 3 s.clLen[c] s) := writeList_appends ..
    refine (ih fun d hd => ?_).after hw
    rw [hw.clLen]
    exact h d (List.mem_cons_of_mem c hd)

theorem hdrWrite_appends {s : State} (hc : s.cfg.Ok) (hl : s.clLen.length = s.cfg.ncl)
    (h : ∀ p ∈ s.rle, hasCode (s.codes .cl) p.sym) : (hdrWrite s).Appends s := by
  have hfields : Appends s (writeBits 4 s.hclen (writeBits 5 s.hdist (writeBits 5 s.hlit (writeBits 2 2
      (writeBits 1 s.bfinal.toNat s))))) :=
    ((((writeList_appends ..).trans (writeList_appends ..)).trans (writeList_appends ..)).trans
      (writeList_appends ..)).trans (writeList_appends ..)
  refine Act.Appends.after (.bind (writeClLens_appends fun c hmem => ?_) fun _ t ht => writePairs_appends ?_) hfields
  · rw [hfields.clLen, hl]
    exact clperm_lt hc (List.mem_of_mem_take hmem)
  · rw [ht.codes, hfields.codes]
    exact h

theorem RecordCoded.of_appends {s t : State} {r : MatchRecord} (h : RecordCoded s r) (ht : Appends s t) :
    RecordCoded t r := by
  rw [ht.2.2]
  exact h

theorem emitRecord_appends {r : MatchRecord} {s : State} (h : RecordCoded s r) : (emitRecord r s).Appends s := by
  obtain ⟨hmatch, hlit⟩ := h
  have lit : ∀ t, Appends s t → (if r.hasLit then emitCode .litlen r.lit.toNat t else .ok () t : Act Unit).Appends t :=
    fun t ht => by
      split
      · exact emitCode_appends (by rw [ht.codes]; exact hlit ‹_›)
      · exact Appends.refl t
  unfold emitRecord
  dsimp only
  split
  · rename_i h0
    obtain ⟨l, d, hl, hd, hlc, hdc⟩ := hmatch h0
    rw [hl, hd]
    refine Act.Appends.bind (emitCode_appends hlc) fun _ t ht => ?_
    have ht' := writeList_appends (fieldBits l.extra (r.length - l.base)) t
    refine .after (.bind (emitCode_appends ?_) fun _ u hu => ?_) ht'
    · exact ((ht'.codes .dist).trans (ht.codes .dist)) ▸ hdc
    · have hu' := writeList_appends (fieldBits d.extra (r.offset - d.base)) u
      exact (lit _ (((ht.trans ht').trans hu).trans hu')).after hu'
  · exact lit s (.refl s)

theorem emitRecords_appends {rs : List MatchRecord} {s : State} (h : ∀ r ∈ rs, RecordCoded s r) :
    (emitRecords rs s).Appends s := by
  induction rs generalizing s with
  | nil => exact Appends.refl s
  | cons r rs ih =>
    exact (emitRecord_appends (h r (List.mem_cons_self ..))).bind fun _ t ht =>
      ih fun q hq => (h q (List.mem_cons_of_mem r hq)).of_appends ht

/-! ## BLK.ENC -/

/-- The codes of BLK.ENC for its data part: HUF.BUILD and HUF.CANON on counted frequencies. -/
def dataCodes (lf df : List Nat) (s : State) : State :=
  hufCanon .dist (hufCanon .litlen (hufBuild .dist (hufBuild .litlen (setFreqs .dist df (setFreqs .litlen lf s)))))

theorem dataCodes_frame (lf df : List Nat) (s : State) :
    (dataCodes lf df s).cfg = s.cfg ∧ (dataCodes lf df s).recs = s.recs ∧
    (dataCodes lf df s).litLen = coreLengths s.cfg lf s.cfg.maxbitsLd ∧
    (dataCodes lf df s).distLen = coreLengths s.cfg df s.cfg.maxbitsLd ∧
    (dataCodes lf df s).litCode = canonCodes (coreLengths s.cfg lf s.cfg.maxbitsLd) ∧
    (dataCodes lf df s).distCode = canonCodes (coreLengths s.cfg df s.cfg.maxbitsLd) :=
  ⟨rfl, rfl, rfl, rfl, rfl, rfl⟩

/-- A record whose symbols were counted has the codes built from the counts. -/
theorem RecordCounted.coded {s : State} {r : MatchRecord} {lf df : List Nat} (h : RecordCounted s.cfg r lf df)
    (hlit : ∀ sym : Nat, 0 < lf[sym]?.getD 0 → hasCode s.litCode sym)
    (hdist : ∀ sym : Nat, 0 < df[sym]?.getD 0 → hasCode s.distCode sym) : RecordCoded s r := by
  refine ⟨fun h0 => ?_, fun h0 => hlit _ (h.2 h0)⟩
  obtain ⟨l, d, hl, hd, hlp, hdp⟩ := h.1 h0
  exact ⟨l, d, hl, hd, hlit _ hlp, hdist _ hdp⟩

/-- BLK.ENC (R262) completes: every symbol it writes was counted, so it has a code. -/
theorem blkEnc_completes (n : Nat) (final : Bool) {s : State} (hc : s.cfg.Ok) : ∃ t, blkEnc n final s = .ok () t := by
  have hcfg : (lzEncode n { s with bfinal := final }).cfg = s.cfg := by
    obtain ⟨_, _, _, _, _, _, _, _, _, _, h⟩ := lzEncode_frame n { s with bfinal := final }
    rw [h]
  have hrecs : RecordsOk (lzEncode n { s with bfinal := final }) := lzEncode_recordsOk n hc
  unfold blkEnc
  generalize lzEncode n { s with bfinal := final } = e at hcfg hrecs ⊢
  rw [← hcfg] at hc
  -- the counts and the codes of the data part
  obtain ⟨lf, df, hfreq, hlf, hdf, heob, hcounted⟩ := blkFreq_completes hc hrecs
  obtain ⟨hcap1, hcap15⟩ : 1 ≤ e.cfg.maxbitsLd ∧ e.cfg.maxbitsLd ≤ 15 := caps_range hc .litlen
  obtain ⟨dcfg, drecs, dlit, ddist, dlitCode, ddistCode⟩ := dataCodes_frame lf df e
  have hcl := coreLengths_covers e.cfg lf hcap1
  have hcd := coreLengths_covers e.cfg df hcap1
  -- the header
  obtain ⟨t, hbuild, tcfg, trecs, tlitCode, tdistCode, tclLen, tpairs⟩ := hdrBuild_completes (s := dataCodes lf df e)
    (by rw [dcfg]; exact hc) (by rw [dlit, dcfg, hcl.1, hlf]) (by rw [ddist, dcfg, hcd.1, hdf])
    (by rw [dlit]; exact fun l hl => (hcl.le l hl).trans hcap15)
    (by rw [ddist]; exact fun l hl => (hcd.le l hl).trans hcap15)
  replace tcfg := tcfg.trans dcfg
  have hlit : ∀ sym : Nat, 0 < lf[sym]?.getD 0 → hasCode t.litCode sym := fun sym h => by
    rw [tlitCode, dlitCode]
    exact hasCode_coreLengths e.cfg hcap1 hcap15 h
  have hdist : ∀ sym : Nat, 0 < df[sym]?.getD 0 → hasCode t.distCode sym := fun sym h => by
    rw [tdistCode, ddistCode]
    exact hasCode_coreLengths e.cfg hcap1 hcap15 h
  have hcoded : ∀ r ∈ t.recs, RecordCoded t r := fun r hr => by
    rw [trecs, drecs] at hr
    exact RecordCounted.coded (tcfg ▸ hcounted r hr) hlit hdist
  -- the bits
  have hwrite : ((hdrWrite t).bind fun _ t => (emitRecords t.recs t).bind fun _ t =>
      emitCode .litlen t.cfg.eob t).Appends t := by
    refine (hdrWrite_appends (tcfg ▸ hc) (by rw [tclLen, dcfg, tcfg]) tpairs).bind fun _ u hu => ?_
    refine (emitRecords_appends fun r hr => ?_).bind fun _ v hv => emitCode_appends ?_
    · rw [hu.recs] at hr
      exact (hcoded r hr).of_appends hu
    · rw [hv.codes, hu.codes, hv.cfg, hu.cfg, tcfg]
      exact hlit _ heob
  rw [hfreq, Act.bind_ok]
  change ∃ v, ((hdrBuild (dataCodes lf df e)).bind fun _ t => (hdrWrite t).bind fun _ t =>
    (emitRecords t.recs t).bind fun _ t => emitCode .litlen t.cfg.eob t) = .ok () v
  rw [hbuild, Act.bind_ok]
  exact hwrite.completes

/-! ## Host requests -/

theorem complete_ne_fault {r : Result} {s : State} {f : Fault} : complete r s ≠ .fault f := nofun

/-- An operation the host may issue is no fault of the model. -/
theorem exec_hostIssuable_ne_fault {i : Instr} {s : State} {f : Fault} (hc : s.cfg.Ok) (hi : i.hostIssuable = true) :
    exec i s ≠ .fault f := by
  intro h
  cases i with
  | coreReset | coreStatus => cases h
  | bsWbit | bsFlush | lzReset | strmClose => exact complete_ne_fault (unlessPending_eq h nofun).2
  | bsWbits | bsWcode => exact complete_ne_fault (ite_refused_eq (unlessPending_eq h nofun).2 nofun).2
  | bsRbit => exact Act.Meets.of_fault (readBit_readsOn s) (unlessPending_eq h nofun).2 hc
  | bsRbits n =>
    exact Act.Meets.of_fault (readBits_readsOn n s) (ite_refused_eq (unlessPending_eq h nofun).2 nofun).2 hc
  | tblLensym | tblDistsym =>
    have h := (unlessPending_eq h nofun).2
    split at h
    · cases h
    · exact complete_ne_fault h
  | tblLenval | tblDistval =>
    have h := (unlessPending_eq h nofun).2
    split at h
    · cases h
    · exact complete_ne_fault (ite_refused_eq h nofun).2
  | lzEncode n => exact complete_ne_fault (withChunk_eq (unlessPending_eq h nofun).2 nofun).2.2
  | lzDecode =>
    exact Act.Meets.of_fault (lzDecode_readsOn s)
      (ite_else_refused_eq (needs_eq (unlessPending_eq h nofun).2 nofun) nofun).2 hc
  | hufBuild a | hufCanon a =>
    obtain ⟨x, _, h⟩ := onAlphabet_eq (unlessPending_eq h nofun).2 nofun
    exact complete_ne_fault (needs_eq h nofun)
  | rleEnc => exact complete_ne_fault (needs_eq (unlessPending_eq h nofun).2 nofun)
  | rleDec total =>
    have h := needs_eq (unlessPending_eq h nofun).2 nofun
    rcases rleDecLoop_cases total s.rle (setSeq [] s) with ⟨u, _, h'⟩ | ⟨c, v, u, _, h'⟩ | ⟨r, h'⟩ <;>
      cases h'.symm.trans h
  | blkEnc n final =>
    have h := (withChunk_eq (unlessPending_eq h nofun).2 nofun).2.2
    obtain ⟨t, ht⟩ := blkEnc_completes n final hc
    rw [ht] at h
    cases h
  | blkDec =>
    obtain ⟨hd, hp, h⟩ := atBlockStart_eq (unlessPending_eq h nofun).2 nofun
    exact (blkDec_meets hd hp).of_fault h hc
  | strmDec =>
    obtain ⟨hd, hp, h⟩ := atBlockStart_eq (unlessPending_eq h nofun).2 nofun
    exact (strmDec_meets hd hp).of_fault h hc
  | _ => cases hi

/-- Settles O57: a command runs an operation the host may issue, none of which is a fault of the model, and what the
host attaches, places or loads is a next state. -/
theorem hostRequestsNeverFault : Obligations.HostRequestsNeverFault := by
  intro s r rest f hc hp hr
  cases r with
  | command w =>
    cases hw : decodeCmd w with
    | none =>
      rw [step_of_settled hp (o := .refused .unknownCommand) (by simp only [serve, fetchCommand, hw])]
      nofun
    | some i =>
      cases hi : i.hostIssuable with
      | false =>
        rw [step_of_settled hp (o := .refused .notHostIssuable) (by simp [serve, fetchCommand, hw, hi])]
        nofun
      | true =>
        rw [step_of_run hp (i := i) (t := { s with port := rest }) (by simp [serve, fetchCommand, hw, hi])]
        exact exec_hostIssuable_ne_fault (s := { s with port := rest }) hc hi
  | attach bytes | place bytes | load b =>
    rw [step_of_settled hp rfl]
    nofun
  | sequencer w | element => cases hr

end Sys2Proof.Machine
end

section
/-! SUPPORT. LZ.FIND returns the first of the longest matches its chain holds. -/

namespace Sys2Proof.Machine

/-! ## The match length -/

/-- `commonLen` is the greatest length on which two ranges agree, up to its cap. -/
theorem le_commonLen_iff {cap len : Nat} {as bs : List Byte} (hlen : len ≤ cap) (hcap : cap ≤ bs.length) :
    len ≤ commonLen cap as bs ↔ ∀ k, k < len → as[k]? = bs[k]? := by
  induction cap generalizing len as bs with
  | zero =>
    obtain rfl : len = 0 := by omega
    simp
  | succ cap ih =>
    cases len with
    | zero => simp
    | succ len =>
      match as, bs with
      | _, [] => simp at hcap
      | [], b :: bs => simpa [commonLen] using ⟨0, by simp⟩
      | a :: as, b :: bs =>
        have hrest := ih (len := len) (as := as) (bs := bs) (by omega) (by simpa using hcap)
        rw [Nat.forall_lt_succ_left']
        by_cases hab : a = b <;> simp [commonLen, hab, hrest]

/-- The bytes an index names in the chunk are those of the buffer. -/
theorem chunk_getElem? {s : State} {k : Nat} (h : k < s.n) : s.chunk[k]? = s.data[k]? := by
  simp [State.chunk, h]

/-- A candidate in the window matches on exactly the lengths up to its match length (R175). -/
theorem matches_iff {s : State} {i c len : Nat} (hw : i + s.cap ≤ s.chunk.length) (hlen : len ≤ s.cap) :
    s.Matches i c len ↔ (c < i ∧ i - c ≤ s.cfg.wsize) ∧ len ≤ matchLen s.chunk c i s.cap := by
  have hn : i + s.cap ≤ s.n := hw.trans (List.length_take_le ..)
  unfold State.Matches matchLen
  rw [le_commonLen_iff hlen (by rw [List.length_drop]; omega), and_assoc]
  refine and_congr_right fun hc => and_congr_right fun _ => forall₂_congr fun k hk => ?_
  rw [List.getElem?_drop, List.getElem?_drop, chunk_getElem? (by omega), chunk_getElem? (by omega)]

/-- The cheap reject of R174 loses nothing: a candidate replaces the best exactly when it is viable and longer. -/
theorem examine_eq {chunk : List Byte} {i c : Nat} {s : State} (hw : i + s.cap ≤ chunk.length) :
    examine chunk i c s =
      if (c < i ∧ i - c ≤ s.cfg.wsize) ∧ s.bestLen < matchLen chunk c i s.cap then
        { s with bestLen := matchLen chunk c i s.cap, bestDist := i - c }
      else s := by
  have hreject (h : s.bestLen < matchLen chunk c i s.cap) :
      s.bestLen < s.cap ∧ chunk[c + s.bestLen]? = chunk[i + s.bestLen]? := by
    have hlt : s.bestLen < s.cap := h.trans_le (commonLen_le ..)
    have hbyte := (le_commonLen_iff hlt (by rw [List.length_drop]; omega)).1 h s.bestLen (Nat.lt_succ_self _)
    exact ⟨hlt, by simpa using hbyte⟩
  unfold examine
  by_cases hv : c < i ∧ i - c ≤ s.cfg.wsize
  · rw [if_pos hv]
    by_cases hl : s.bestLen < matchLen chunk c i s.cap
    · simp only [if_pos (hreject hl), if_pos hl, if_pos (And.intro hv hl)]
    · simp only [if_neg hl, ite_self, if_neg fun h => hl (And.right h)]
  · rw [if_neg hv, if_neg fun h => hv h.1]

/-! ## The walk along a chain -/

/-- The best match of `s` is the first of the longest matches of `i` among the candidates `seen`, within the cap. -/
structure BestAmong (s : State) (i : Nat) (seen : List Nat) : Prop where
  le_cap : s.bestLen ≤ s.cap
  noMatch : s.bestLen = 0 → s.bestDist = 0
  longest : ∀ c ∈ seen, ∀ len, len ≤ s.cap → s.Matches i c len → len ≤ s.bestLen
  earliest : 0 < s.bestLen → ∃ before c after, seen = before ++ c :: after ∧ s.Matches i c s.bestLen ∧
    s.bestDist = i - c ∧ ∀ d ∈ before, ¬ s.Matches i d s.bestLen

/-- Further candidates that match on no more bytes than the best leave it the best. -/
theorem BestAmong.append {s : State} {i : Nat} {seen more : List Nat} (h : BestAmong s i seen)
    (hmore : ∀ c ∈ more, ∀ len, len ≤ s.cap → s.Matches i c len → len ≤ s.bestLen) : BestAmong s i (seen ++ more) where
  le_cap := h.le_cap
  noMatch := h.noMatch
  longest := fun c hc => (List.mem_append.1 hc).elim (h.longest c) (hmore c)
  earliest := fun hpos => by
    obtain ⟨before, c, after, rfl, hrest⟩ := h.earliest hpos
    exact ⟨before, c, after ++ more, by simp, hrest⟩

/-- Where the walk stands is no part of its best match. -/
theorem BestAmong.withCursor {s : State} {i : Nat} {seen : List Nat} (h : BestAmong s i seen) (vs : Nat)
    (cd : Option Nat) : BestAmong { s with visited := vs, cand := cd } i seen :=
  ⟨h.le_cap, h.noMatch, h.longest, h.earliest⟩

theorem examine_bestAmong {s : State} {i c : Nat} {seen : List Nat} (hw : i + s.cap ≤ s.chunk.length)
    (h : BestAmong s i seen) : BestAmong (examine s.chunk i c s) i (seen ++ [c]) := by
  rw [examine_eq hw]
  split
  · rename_i hnew
    obtain ⟨hviable, hlonger⟩ := hnew
    have hcap : matchLen s.chunk c i s.cap ≤ s.cap := commonLen_le ..
    exact {
      le_cap := hcap
      noMatch := fun h0 => absurd h0 (Nat.ne_of_gt (Nat.zero_lt_of_lt hlonger))
      longest := fun d hd len hlen hm => by
        rcases List.mem_append.1 hd with hd | hd
        · exact (h.longest d hd len hlen hm).trans hlonger.le
        · rw [List.mem_singleton.1 hd] at hm
          exact ((matches_iff hw hlen).1 hm).2
      earliest := fun _ => ⟨seen, c, [], rfl, (matches_iff hw hcap).2 ⟨hviable, le_rfl⟩, rfl,
        fun d hd hm => (h.longest d hd _ hcap hm).not_gt hlonger⟩ }
  · rename_i hold
    refine h.append fun d hd len hlen hm => ?_
    rw [List.mem_singleton.1 hd, matches_iff hw hlen] at hm
    exact hm.2.trans (Nat.not_lt.1 fun hlt => hold ⟨hm.1, hlt⟩)

theorem walk_of_none {s : State} (hc : s.cand = none) (chunk : List Byte) (i fuel : Nat) : walk chunk i fuel s = s := by
  cases fuel with
  | zero => rfl
  | succ fuel => rw [walk, hc]

theorem chainFrom_none (prev : Memory) (size fuel : Nat) : chainFrom prev size fuel none = [] := by
  cases fuel <;> rfl

/-- One step of the walk: the candidate is examined, and the walk ends there at MAX_MATCH or goes on to the next. -/
theorem walk_of_some {s : State} {c : Nat} (hc : s.cand = some c) (chunk : List Byte) (i fuel : Nat) :
    ∃ bl bd,
      examine chunk i c { s with visited := s.visited + 1 } =
        { s with visited := s.visited + 1, bestLen := bl, bestDist := bd } ∧
      walk chunk i (fuel + 1) s =
        if s.cfg.maxMatch ≤ bl then { s with visited := s.visited + 1, bestLen := bl, bestDist := bd }
        else walk chunk i fuel { s with
          visited := s.visited + 1, bestLen := bl, bestDist := bd, cand := s.prev.read (c % s.cfg.wsize) } := by
  obtain ⟨bl, bd, he⟩ := examine_frame chunk i c { s with visited := s.visited + 1 }
  refine ⟨bl, bd, he, ?_⟩
  conv_lhs => unfold walk
  split
  · rename_i hn
    cases hc.symm.trans hn
  · rename_i d hd
    cases hc.symm.trans hd
    dsimp only
    rw [he]
    rfl

/-- The walk ends with the best match of the whole chain: where it breaks off early the best cannot grow. -/
theorem walk_bestAmong {fuel i : Nat} {s : State} {seen : List Nat} (hw : i + s.cap ≤ s.chunk.length)
    (hcap : s.cap ≤ s.cfg.maxMatch) (h : BestAmong s i seen) :
    BestAmong (walk s.chunk i fuel s) i (seen ++ chainFrom s.prev s.cfg.wsize fuel s.cand) := by
  induction fuel generalizing s seen with
  | zero => simpa [walk, chainFrom] using h
  | succ fuel ih =>
    cases hc : s.cand with
    | none => rwa [walk_of_none hc, chainFrom_none, List.append_nil]
    | some c =>
      obtain ⟨bl, bd, he, hwalk⟩ := walk_of_some hc s.chunk i fuel
      have hone : BestAmong (examine s.chunk i c { s with visited := s.visited + 1 }) i (seen ++ [c]) :=
        examine_bestAmong (s := { s with visited := s.visited + 1 }) hw (h.withCursor ..)
      rw [he] at hone
      rw [hwalk, chainFrom, List.append_cons]
      split
      · rename_i hfull
        exact (hone.withCursor ..).append fun _ _ _ hlen _ => (hlen.trans hcap).trans hfull
      · exact ih (s := { s with
          visited := s.visited + 1, bestLen := bl, bestDist := bd, cand := s.prev.read (c % s.cfg.wsize) })
          hw hcap (hone.withCursor ..)

/-- The walk visits candidates of its chain only, each once. -/
theorem walk_visited (chunk : List Byte) (i fuel : Nat) (s : State) :
    (walk chunk i fuel s).visited ≤ s.visited + (chainFrom s.prev s.cfg.wsize fuel s.cand).length := by
  induction fuel generalizing s with
  | zero => exact Nat.le_add_right ..
  | succ fuel ih =>
    cases hc : s.cand with
    | none =>
      rw [walk_of_none hc]
      exact Nat.le_add_right ..
    | some c =>
      obtain ⟨bl, bd, _, hwalk⟩ := walk_of_some hc chunk i fuel
      rw [hwalk, chainFrom, List.length_cons]
      split
      · exact Nat.add_le_add_left (Nat.le_add_left ..) s.visited
      · exact (ih _).trans (Nat.succ_add_eq_add_succ ..).le

theorem chainFrom_length_le (prev : Memory) (size fuel : Nat) (c : Option Nat) :
    (chainFrom prev size fuel c).length ≤ fuel := by
  induction fuel generalizing c with
  | zero => simp [chainFrom]
  | succ fuel ih =>
    cases c with
    | none => simp [chainFrom]
    | some c => simpa [chainFrom] using ih _

/-! ## LZ.FIND -/

/-- LZ.FIND at a position whose comparison window is placed: the best among the candidates (R174). -/
theorem lzFind_bestAmong {s : State} {i h : Nat} (hw : i + min s.cfg.maxMatch (s.n - i) ≤ s.chunk.length) :
    BestAmong (lzFind s.chunk i h s) i (s.candidates h) :=
  walk_bestAmong (seen := [])
    (s := { s with
      cap := min s.cfg.maxMatch (s.n - i), bestLen := 0, bestDist := 0, h := h, cand := s.hashHead.read h
      visited := 0 })
    hw (min_le_left ..) ⟨Nat.zero_le _, fun _ => rfl, nofun, nofun⟩

theorem lzFind_visited (chunk : List Byte) (i h : Nat) (s : State) :
    (lzFind chunk i h s).visited ≤ (s.candidates h).length :=
  (walk_visited ..).trans (Nat.zero_add _).le

theorem hashAt_eq {s : State} {p : Nat} {a b c : Byte} (hp : p + 2 < s.n) (ha : s.data[p]? = some a)
    (hb : s.data[p + 1]? = some b) (hc : s.data[p + 2]? = some c) :
    hashAt s.cfg s.chunk p = some (s.cfg.hashOf a b c) := by
  have hdrop : s.chunk.drop p = a :: b :: c :: s.chunk.drop (p + 3) := by
    rw [← chunk_getElem? (by omega)] at ha hb hc
    obtain ⟨_, rfl⟩ := List.getElem?_eq_some_iff.1 ha
    obtain ⟨_, rfl⟩ := List.getElem?_eq_some_iff.1 hb
    obtain ⟨_, rfl⟩ := List.getElem?_eq_some_iff.1 hc
    rw [List.drop_eq_getElem_cons, List.drop_eq_getElem_cons, List.drop_eq_getElem_cons]
  rw [hashAt, hdrop]

/-- LZ.FIND with three bytes left and its comparison window placed completes with the search of that hash. -/
theorem execLzFind_placed {s : State} {i : Nat} {a b c : Byte} (he : s.err = none) (hi : i + 2 < s.n)
    (hw : i + min s.cfg.maxMatch (s.n - i) ≤ s.data.length) (ha : s.data[i]? = some a)
    (hb : s.data[i + 1]? = some b) (hc : s.data[i + 2]? = some c) :
    let t := lzFind s.chunk i (s.cfg.hashOf a b c) s
    execLzFind i s = complete (.found t.bestLen t.bestDist) t := by
  rw [execLzFind, unlessPending_ready he, if_pos hi, withBytes_placed hw, hashAt_eq hi ha hb hc]

/-- Settles O22: the walk keeps `BestAmong` of the candidates seen, so LZ.FIND ends with the best of the chain. -/
theorem findReturnsMatch : Obligations.FindReturnsMatch := by
  intro s i he
  refine ⟨fun a b c hi hw ha hb hc => ?_, fun hn => ?_, fun hi hw => ?_⟩
  · have hbest : BestAmong (lzFind s.chunk i (s.cfg.hashOf a b c) s) i (s.candidates (s.cfg.hashOf a b c)) :=
      lzFind_bestAmong (by simp only [State.chunk, List.length_take]; omega)
    have hvisited := lzFind_visited s.chunk i (s.cfg.hashOf a b c) s
    have hnext : exec (.lzFind i) s = _ := execLzFind_placed he hi hw ha hb hc
    obtain ⟨cd, vs, bl, bd, hf⟩ := lzFind_frame s.chunk i (s.cfg.hashOf a b c) s
    rw [hf] at hbest hvisited hnext
    refine ⟨_, hnext, rfl, hvisited, chainFrom_length_le .., hbest.le_cap, hbest.noMatch, fun hpos => ?_,
      hbest.longest, fun hpos => ?_⟩
    · obtain ⟨_, d, _, _, ⟨hlt, hwin, hbytes⟩, hdist, _⟩ := hbest.earliest hpos
      dsimp only at hlt hwin hbytes hdist hpos ⊢
      rw [hdist, Nat.sub_sub_self hlt.le]
      exact ⟨by omega, le_min hwin (Nat.sub_le ..), hbytes⟩
    · obtain ⟨before, d, after, hchain, ⟨hlt, _⟩, hdist, hfirst⟩ := hbest.earliest hpos
      exact ⟨before, d, after, hchain, hlt, hdist, hfirst⟩
  · change execLzFind i s = _
    rw [execLzFind, unlessPending_ready he, if_neg (by omega)]
  · change execLzFind i s = _
    rw [execLzFind, unlessPending_ready he, if_pos hi, withBytes_missing hw]

end Sys2Proof.Machine
end

section
/-! SUPPORT. HDR.SIZE trims each length array after its last nonzero entry. -/

namespace Sys2Proof.Machine

/-! ## The last nonzero entry -/

theorem lastNonzero_eq_none {xs : List Nat} (h : ∀ k, k < xs.length → xs[k]? = some 0) : lastNonzero xs = none := by
  have hnil : ((List.range xs.length).filter fun k => xs[k]?.getD 0 != 0) = [] :=
    List.filter_eq_nil_iff.2 fun k hk => by simp [h k (List.mem_range.1 hk)]
  rw [lastNonzero, hnil, List.getLast?_nil]

theorem lastNonzero_eq_of_last {xs : List Nat} {k : Nat} (hk : k < xs.length) (hne : xs[k]? ≠ some 0)
    (hz : ∀ j, k < j → j < xs.length → xs[j]? = some 0) : lastNonzero xs = some k := by
  obtain ⟨m, hm⟩ : ∃ m, xs.length = k + 1 + m := ⟨_, (Nat.add_sub_of_le hk).symm⟩
  have hkeep : (xs[k]?.getD 0 != 0) = true := by
    rw [List.getElem?_eq_getElem hk] at hne ⊢
    simpa using hne
  have hdrop : (((List.range m).map (k + 1 + ·)).filter fun j => xs[j]?.getD 0 != 0) = [] :=
    List.filter_eq_nil_iff.2 fun j hj => by
      obtain ⟨d, hd, rfl⟩ := List.mem_map.1 hj
      rw [List.mem_range] at hd
      simp [hz (k + 1 + d) (by omega) (by omega)]
  rw [lastNonzero, hm, List.range_add, List.filter_append, hdrop, List.append_nil, List.range_succ,
    List.filter_append, List.filter_singleton, hkeep, cond_true, List.getLast?_concat]

/-- The last nonzero entry of an array's first `n`, when one is nonzero. -/
theorem lastNonzero_take {xs : List Nat} {n k : Nat} (hn : n ≤ xs.length) (hk : k < n) (hne : xs[k]? ≠ some 0)
    (hz : ∀ j, k < j → j < n → xs[j]? = some 0) : lastNonzero (xs.take n) = some k := by
  have hlen : (xs.take n).length = n := List.length_take_of_le hn
  refine lastNonzero_eq_of_last (hlen.symm ▸ hk) (by rwa [List.getElem?_take_of_lt hk]) fun j hkj hj => ?_
  rw [hlen] at hj
  rw [List.getElem?_take_of_lt hj]
  exact hz j hkj hj

/-! ## The sizing fields -/

/-- `hdist` (R238): the last distance symbol with a length, 0 when none has one. -/
theorem lastNonzero_getD_eq {xs : List Nat} {n k : Nat} (hn : n ≤ xs.length) (hk : k < n)
    (hlast : k = 0 ∨ xs[k]? ≠ some 0) (hz : ∀ j, k < j → j < n → xs[j]? = some 0) :
    (lastNonzero (xs.take n)).getD 0 = k := by
  by_cases hne : xs[k]? = some 0
  · obtain rfl : k = 0 := hlast.resolve_right (not_not_intro hne)
    rw [lastNonzero_eq_none fun j hj => ?_, Option.getD_none]
    have hj : j < n := hj.trans_le (List.length_take_le ..)
    rw [List.getElem?_take_of_lt hj]
    rcases Nat.eq_zero_or_pos j with rfl | hpos
    · exact hne
    · exact hz j hpos hj
  · rw [lastNonzero_take hn hk hne hz, Option.getD_some]

theorem sizeLit_of_last {s : State} {k : Nat} (hn : s.cfg.nlit ≤ s.litLen.length) (h256 : 256 ≤ k)
    (hk : k < s.cfg.nlit) (hne : s.litLen[k]? ≠ some 0)
    (hz : ∀ j, k < j → j < s.cfg.nlit → s.litLen[j]? = some 0) : sizeLit s = (k + 1 - 257, 0) := by
  simp only [sizeLit, lastNonzero_take hn hk hne hz, if_pos h256]

/-- Without a length at 256 or above `hlit` is the free value (log 27). -/
theorem sizeLit_free {s : State} (hz : ∀ k, 256 ≤ k → k < s.cfg.nlit → s.litLen[k]? = some 0) :
    sizeLit s = (Config.freeHlit s.fresh % 30, 1) := by
  unfold sizeLit
  split
  · rename_i k hk
    obtain ⟨hlt, hne⟩ := lastNonzero_eq_some hk
    have hlt : k < s.cfg.nlit := hlt.trans_le (List.length_take_le ..)
    rw [List.getElem?_take_of_lt hlt] at hne
    exact if_neg fun h256 => hne (by rw [hz k h256 hlt, Option.getD_some])
  · rfl

/-! ## HDR.SIZE -/

theorem execHdrSize_ready {s : State} (he : s.err = none) (hl : s.filled.litLen = true)
    (hd : s.filled.distLen = true) : execHdrSize s = (hdrSize s).outcome fun _ => .none := by
  rw [execHdrSize, unlessPending_ready he, needs_filled (by simp [Filled.has, hl, hd])]

/-- HDR.SIZE on two arrays that cover their alphabets. -/
theorem hdrSize_covered {s : State} (hl : s.cfg.nlit ≤ s.litLen.length) (hd : s.cfg.ndist ≤ s.distLen.length) :
    hdrSize s = .ok () (sizeTo (sizeLit s).1 ((lastNonzero (s.distLen.take s.cfg.ndist)).getD 0)
      { s with fresh := s.fresh + (sizeLit s).2 }) := by
  rw [hdrSize, if_neg hl.not_gt, if_neg hd.not_gt]

/-- Settles O35: the last nonzero entry of each array is the one named, or `hlit` is the free value. -/
theorem headerSize : Obligations.HeaderSize := by
  intro s hc he hfl hfd
  have hexec : exec .hdrSize s = (hdrSize s).outcome fun _ => .none := execHdrSize_ready he hfl hfd
  refine ⟨fun hl hd lastDist hlt hlast hz => ?_, fun hl => ?_, fun hl hd => ?_⟩
  · rw [hexec, hdrSize_covered hl hd, lastNonzero_getD_eq hd hlt hlast hz]
    refine ⟨fun lastLit h256 hlit hne hzl => ?_, fun hzl => ?_⟩
    · rw [sizeLit_of_last hl h256 hlit hne hzl]
      have htake : lastLit + 1 - 257 + 257 = lastLit + 1 := by omega
      simp only [sizeTo, setSeq, htake, Act.outcome_ok, Nat.add_zero]
    · refine ⟨(sizeLit s).1, sizeLit_le s hc.symbols.1, ?_⟩
      rw [sizeLit_free hzl]
      rfl
  · rw [hexec, hdrSize, if_pos hl, Act.outcome_fault]
  · rw [hexec, hdrSize, if_neg hl.not_gt, if_pos hd, Act.outcome_fault]

end Sys2Proof.Machine
end

section
/-! SUPPORT. Decoding inverts encoding. A command word is the sum of its opcode and its operands, each times the power
of two its field begins at (R106, R107), so the fields are read off by arithmetic; the elements' tables are read row by
row. -/

namespace Sys2Proof

/-! ## Fields of a command word -/

/-- The opcode is what stands below bit 8. -/
theorem field_opcode {op x : Nat} (h : op < 2 ^ 8) : field (op + x * 2 ^ 8) 0 8 = op := by
  unfold field
  omega

theorem field_opcode_two {op x y k : Nat} (h : op < 2 ^ 8) : field (op + x * 2 ^ 8 + y * 2 ^ (k + 8)) 0 8 = op := by
  rw [Nat.pow_add, ← Nat.mul_assoc, Nat.add_assoc, ← Nat.add_mul, field_opcode h]

/-- The word of a well-formed operation decodes to it: below bit 8 stands its opcode, and every operand fits its field
(R106, R107). -/
theorem decodeCmd_encode {i : Instr} {v : Nat} (hi : i.wellFormed = true) (he : encode i = (.cmd, v)) :
    v < 2 ^ 32 ∧ decodeCmd (BitVec.ofNat 32 v) = some i := by
  cases i with
  | coreReset | coreStatus | bsFlush | bsRbit | lzReset | lzDecode | rleEnc | hdrSize | hdrBuild | hdrWrite | hdrRead
  | blkFreq | blkDec | strmDec | strmClose =>
    cases he
    exact ⟨by decide, by decide⟩
  | bsWbit b =>
    cases he
    cases b <;> exact ⟨by decide, by decide⟩
  | bsRbits n | tblLensym n | tblDistsym n | lzInsert n | lzFind n | lzEncode n | hufBuild n | hufCanon n | symDec n
  | rleDec n | symEmit n =>
    cases he
    simp only [Instr.wellFormed, decide_eq_true_eq] at hi
    refine ⟨by omega, ?_⟩
    simp (disch := omega) only [decodeCmd, BitVec.toNat_ofNat, Nat.mod_eq_of_lt, field_opcode]
    congr 2
    unfold field
    omega
  | bsWbits n v | bsWcode n v | tblLenval n v | tblDistval n v =>
    cases he
    simp only [Instr.wellFormed, decide_eq_true_eq, Bool.and_eq_true] at hi
    refine ⟨by omega, ?_⟩
    simp (disch := omega) only [decodeCmd, BitVec.toNat_ofNat, Nat.mod_eq_of_lt, field_opcode_two]
    congr 2 <;> unfold field <;> omega
  | blkEnc n final =>
    cases he
    have hf := final.toNat_le
    simp only [Instr.wellFormed, decide_eq_true_eq] at hi
    refine ⟨by omega, ?_⟩
    simp (disch := omega) only [decodeCmd, BitVec.toNat_ofNat, Nat.mod_eq_of_lt, field_opcode_two]
    congr 2
    · unfold field
      omega
    · unfold fieldBit field
      cases final <;> simp <;> omega
  | _ => cases he

/-! ## Elements -/

theorem encode_of_decode_element {f : Format} {v : Nat} {i : Instr} (hc : f ≠ .cmd) (hp : f ≠ .pad)
    (h : decode f v = some i) : encode i = (f, v) := by
  cases f with
  | cmd => exact absurd rfl hc
  | pad => exact absurd rfl hp
  | bfinal =>
    obtain ⟨hv, h⟩ := Option.ite_none_right_eq_some.1 h
    cases h
    interval_cases v <;> rfl
  | hlit | hdist | hclen | cllen =>
    obtain ⟨_, h⟩ := Option.ite_none_right_eq_some.1 h
    cases h
    rfl
  | btype =>
    change decodeBtype v = some i at h
    unfold decodeBtype at h
    split at h <;> cases h <;> rfl
  | clsym =>
    change decodeClsym v = some i at h
    unfold decodeClsym at h
    split at h
    · cases h
      rfl
    · split at h <;> cases h <;> rfl
  | litlen =>
    change decodeLitlen v = some i at h
    unfold decodeLitlen at h
    split at h
    · cases h
      simp [encode, Nat.mod_eq_of_lt ‹_›]
    · unfold decodeLenSym at h
      split at h <;> cases h <;> rfl
  | dist =>
    change decodeDist v = some i at h
    unfold decodeDist at h
    split at h <;> cases h <;> rfl

theorem decode_encode_element {i : Instr} (hi : i.wellFormed = true) (h : (encode i).1 ≠ .cmd) :
    decode (encode i).1 (encode i).2 = some i := by
  cases i with
  | bfinal f => cases f <;> rfl
  | lit b =>
    have hb := b.isLt
    simp [encode, decode, decodeLitlen, hb]
  | hlit a | hdist a | hclen a | cllen a | clLen a =>
    simp only [Instr.wellFormed, decide_eq_true_eq] at hi
    exact if_pos hi
  | coreReset | coreStatus | bsWbit | bsWbits | bsWcode | bsFlush | bsRbit | bsRbits | tblLensym | tblDistsym
  | tblLenval | tblDistval | lzReset | lzInsert | lzFind | lzEncode | lzDecode | hufBuild | hufCanon | symDec | rleEnc
  | rleDec | hdrSize | hdrBuild | hdrWrite | hdrRead | blkFreq | symEmit | blkEnc | blkDec | strmDec | strmClose =>
    exact absurd rfl h
  | _ => rfl

/-- Settles O1: a command word by its fields, an element by its row. -/
theorem decodeEncode : Obligations.DecodeEncode := by
  intro i hi
  by_cases hc : (encode i).1 = .cmd
  · obtain ⟨hlt, hdec⟩ := decodeCmd_encode hi (v := (encode i).2) (by rw [← hc])
    rw [hc]
    exact (if_pos hlt).trans hdec
  · exact decode_encode_element hi hc

/-- The operation of a word is one whose own word has the same bits 7:0 (R106). -/
theorem decodeCmd_opcode {w : Word} {i : Instr} (h : decodeCmd w = some i) :
    ∃ v, encode i = (.cmd, v) ∧ v % 2 ^ 8 = w.toNat % 2 ^ 8 := by
  unfold decodeCmd at h
  dsimp only at h
  split at h
  all_goals cases h
  all_goals
    rename_i hop
    refine ⟨_, rfl, ?_⟩
    unfold field at hop
    omega

/-- Settles O2: a command word's encoding has its opcode and decodes by O1; an element's bits are read back. -/
theorem encodeDecode : Obligations.EncodeDecode := by
  refine ⟨fun w i h => ?_, fun f v i hc hp h => ⟨Machine.decode_wellFormed h, encode_of_decode_element hc hp h⟩⟩
  have hi := Machine.decodeCmd_wellFormed h
  obtain ⟨v, he, hop⟩ := decodeCmd_opcode h
  obtain ⟨hlt, hdec⟩ := decodeCmd_encode hi he
  exact ⟨hi, v, he, hlt, hop, hdec⟩

/-! ## The command port -/

open Machine

/-- The row is selected on the opcode alone (R107): the host's, the sequencer's, or none. -/
theorem decodeCmd_hostIssuable (w : Word) :
    (decodeCmd w).map Instr.hostIssuable =
      if w.toNat % 2 ^ 8 ∈ hostOpcodes then some true
      else if w.toNat % 2 ^ 8 ∈ sequencerOpcodes then some false else none := by
  have hop : field w.toNat 0 8 = w.toNat % 2 ^ 8 := by simp [field]
  unfold decodeCmd
  dsimp only
  rw [hop]
  generalize w.toNat % 2 ^ 8 = op
  split
  case h_33 =>
    simp only [imp_false] at *
    simp [hostOpcodes, sequencerOpcodes, *]
  all_goals rfl

/-- No opcode is both the host's and the sequencer's. -/
theorem sequencerOpcodes_disjoint : ∀ op ∈ sequencerOpcodes, op ∉ hostOpcodes := by decide

/-- Settles O3: the opcode decides whether the word decodes and whether the host may issue it. -/
theorem commandPort : Obligations.CommandPort := by
  intro s w rest hp
  have hrow := decodeCmd_hostIssuable w
  refine ⟨fun hh hs => ?_, fun hs => ?_, fun hh => ?_⟩
  · rw [if_neg hh, if_neg hs, Option.map_eq_none_iff] at hrow
    exact step_of_settled hp (by simp only [serve, fetchCommand, hrow])
  · rw [if_neg (sequencerOpcodes_disjoint _ hs), if_pos hs] at hrow
    obtain ⟨i, hd, hi⟩ := Option.map_eq_some_iff.1 hrow
    exact step_of_settled hp (by simp [serve, fetchCommand, hd, hi])
  · rw [if_pos hh] at hrow
    obtain ⟨i, hd, hi⟩ := Option.map_eq_some_iff.1 hrow
    exact ⟨i, hd, step_of_run hp (by simp [serve, fetchCommand, hd, hi])⟩

/-- Settles O4: the decoder evaluated on the ten words. -/
theorem specWordsDecode : Obligations.SpecWordsDecode := by
  unfold Obligations.SpecWordsDecode
  decide

end Sys2Proof
end

section
/-! SUPPORT. The wire elements one by one: what each does at its place, from the operations it shares with BLK.DEC. -/

namespace Sys2Proof.Machine

/-! ## Outcomes of an element -/

/-- An element that raises answers the state R312 leaves. -/
theorem element_raise (c : Cause) (v : Nat) (s : State) :
    ∃ t, element (raise c v s) = .next t ∧ Raised c v s t := ⟨_, rfl, raised_takeFault c v s⟩

/-- Where a fault was met counts only as far as it is `Stored` or not (R312, log 21). -/
theorem Raised.of_dstate {c : Cause} {v : Nat} {u t : State} {d : DState} (h : Raised c v { u with dstate := d } t)
    (hd : d ≠ .stored) (hu : u.dstate ≠ .stored) : Raised c v u t := by
  obtain ⟨herr, hpos, hval, hds, hrest⟩ := h
  refine ⟨herr, hpos, hval, ?_, hrest⟩
  unfold DState.FaultsTo at hds ⊢
  rw [hds, if_neg hd, if_neg hu]

/-! ## Block header -/

theorem btypeElement_ready {v : Nat} {s : State} (he : s.err = none) (hp : s.place = .btype) :
    btypeElement v s = element (
      if v = 0 then goTo .bfinal { s with btype := 0, dstate := .stored }
      else if v = 1 then raise .fixedHuffman 1 { s with btype := 1, dstate := .fixedHuffman }
      else if v = 3 then raise .reservedType 3 { s with btype := 3 }
      else goTo .hlit { s with btype := 2, dstate := .dynamicHuffman }) := by
  rw [btypeElement, unlessPending_ready he, if_pos hp]

theorem setClLen_at {k c v : Nat} {s : State} (hc : s.cfg.clperm[k]? = some c) (hl : c < s.clLen.length) :
    setClLen k v s = .ok () { s with clLen := s.clLen.set c v } := by
  simp only [setClLen, hc, if_pos hl]

theorem execCllen_ready {k c l : Nat} {s : State} (he : s.err = none) (hp : s.place = .cllen k)
    (hc : s.cfg.clperm[k]? = some c) (hl : c < s.clLen.length) :
    execCllen l s = element (afterClLen k { s with clLen := s.clLen.set c l }) := by
  rw [execCllen, unlessPending_ready he]
  simp only [hp, setClLen_at hc hl, Act.bind_ok]

/-- The free value of `rle` is in the ranges of R231 (log 29). -/
theorem drawBuffers_rle_inRange (k : Nat) : ∀ p ∈ (drawBuffers k).rle, p.inRange = true := by
  intro p hp
  obtain ⟨q, _, rfl⟩ := List.mem_map.1 hp
  exact q.cut_inRange

/-- Settles O50: each header element's clause of its meaning. -/
theorem headerElements : Obligations.HeaderElements := by
  intro s he
  refine ⟨fun f hd hp => ?_, fun hd hp => ⟨?_, ?_, ?_, ?_⟩, fun v hp => ?_, fun v hp => ?_, fun v hp => ?_,
    fun k c l hp hc hl => ⟨fun hk => ?_, fun hk => ?_⟩⟩
  · change execBfinal f s = _
    rw [execBfinal, unlessPending_ready he, atBlockStart_ready hd hp]
    rfl
  · exact btypeElement_ready he hp
  · exact btypeElement_ready he hp
  · exact ⟨_, btypeElement_ready he hp,
      (raised_takeFault ..).of_dstate (u := { s with btype := 1 }) nofun (by simp [hd])⟩
  · exact ⟨_, btypeElement_ready he hp, raised_takeFault ..⟩
  · change execHlit v s = _
    rw [execHlit, unlessPending_ready he, if_pos hp]
    rfl
  · change execHdist v s = _
    rw [execHdist, unlessPending_ready he, if_pos hp]
    rfl
  · change execHclen v s = _
    rw [execHclen, unlessPending_ready he, if_pos hp]
    rfl
  · change execCllen l s = _
    rw [execCllen_ready he hp hc hl, afterClLen, if_pos hk]
    rfl
  · have hlast : exec (.cllen l) s = element (goTo .clsym (beginSeq { s with clLen := s.clLen.set c l })) :=
      (execCllen_ready he hp hc hl).trans (by rw [afterClLen, if_neg (not_lt.2 hk)])
    exact ⟨_, hlast, rfl, drawBuffers_rle_inRange s.fresh⟩

/-! ## Code-length symbols -/

theorem clElement_ready {c : Nat} {s : State} (he : s.err = none) (hp : s.place = .clsym) :
    clElement c s = element ((clSymbol c s).bind fun _ t => afterClSymbol t) := by
  rw [clElement, unlessPending_ready he, if_pos hp]

/-- What follows a sequence that has grown to `ls` (R245). -/
theorem element_afterClSymbol (ls : List Nat) (s : State) :
    element (afterClSymbol { s with seq := ls }) = .next (afterLengths ls s) := by
  have hlit : (ls.take s.total).take (s.hlit + 257) = ls.take (s.hlit + 257) := by
    rw [List.take_take, min_eq_left]
    exact Nat.le_add_right (s.hlit + 257) (s.hdist + 1)
  unfold afterClSymbol afterLengths
  rw [hlit]
  change element (if ls.length < s.total then _ else _) = _
  split <;> rfl

theorem appendRun_fits {sym r v : Nat} {s : State} (h : s.seq.length + r ≤ s.total) :
    appendRun s.total sym r v s = .ok () { s with seq := s.seq ++ List.replicate r v } := by
  rw [appendRun, if_neg (not_lt.2 h)]

theorem appendRun_overruns {sym r v : Nat} {s : State} (h : s.total < s.seq.length + r) :
    appendRun s.total sym r v s = raise .repeatOverrun sym s := by
  rw [appendRun, if_pos h]

/-- A repeat of `base` entries `v` or more: its extra bits are read, then it is appended, or it overruns (R234). -/
def IsRepeat (s : State) (i : Instr) (sym width base v : Nat) : Prop :=
  exec i s = element (((readBits width s).bind fun x t => appendRun t.total sym (base + x) v t).bind
    fun _ t => afterClSymbol t)

theorem repeatElement_clauses {s : State} {i : Instr} {sym width base v : Nat} (h : IsRepeat s i sym width base v) :
    (width ≤ s.unread.length →
      let r := base + fieldValue (s.unread.take width)
      let after := { s with bitPos := s.bitPos + width }
      (s.seq.length + r ≤ s.total → exec i s = .next (afterLengths (s.seq ++ List.replicate r v) after)) ∧
      (s.total < s.seq.length + r → ∃ t, exec i s = .next t ∧ Raised .repeatOverrun sym after t)) ∧
    (s.unread.length < width →
      ∃ t, exec i s = .next t ∧ Raised .endOfSource 0 { s with bitPos := s.bitPos + s.unread.length } t) := by
  refine ⟨fun hw => ⟨fun hfit => ?_, fun hover => ?_⟩, fun hw => ?_⟩
  · rw [h, readBits_ok _ _ hw, Act.bind_ok, appendRun_fits (s := { s with bitPos := s.bitPos + width }) hfit]
    exact element_afterClSymbol _ { s with bitPos := s.bitPos + width }
  · rw [h, readBits_ok _ _ hw, Act.bind_ok, appendRun_overruns (s := { s with bitPos := s.bitPos + width }) hover]
    exact element_raise ..
  · rw [h, readBits_raised _ _ hw]
    exact element_raise ..

/-- CL.REP repeats the last length; its extra bits leave the sequence as it is (R234). -/
theorem clRep_isRepeat {s : State} {v : Nat} (he : s.err = none) (hp : s.place = .clsym)
    (hv : s.seq.getLast? = some v) : IsRepeat s .clRep 16 2 3 v := by
  have hne : s.seq ≠ [] := fun h => by simp [h] at hv
  refine (clElement_ready (c := 16) he hp).trans ?_
  simp only [clSymbol, Nat.reduceLeDiff, if_true, if_false, hne]
  rcases readBits_cases 2 s with ⟨_, h⟩ | ⟨_, h⟩
  · simp only [h, Act.bind_ok, rleStep, hv]
  · rw [h]
    rfl

/-- Settles O51: a length is appended, a repeat reads its extra bits first. -/
theorem codeLengthElements : Obligations.CodeLengthElements := by
  intro s he hp
  refine ⟨fun v hv => ?_, fun hs => ?_, fun i sym width base value hmem v hval => repeatElement_clauses ?_⟩
  · change clElement v s = _
    rw [clElement_ready he hp, clSymbol, if_pos hv]
    exact element_afterClSymbol ..
  · change ∃ t, clElement 16 s = _ ∧ _
    rw [clElement_ready he hp]
    simp only [clSymbol, hs, if_true]
    exact element_raise ..
  · simp only [List.mem_cons, Prod.mk.injEq, List.not_mem_nil, or_false] at hmem
    rcases hmem with ⟨rfl, rfl, rfl, rfl, rfl⟩ | ⟨rfl, rfl, rfl, rfl, rfl⟩ | ⟨rfl, rfl, rfl, rfl, rfl⟩
    · exact clRep_isRepeat he hp hval
    · cases hval
      exact clElement_ready he hp
    · cases hval
      exact clElement_ready he hp

/-! ## Literal/length and distance symbols -/

/-- Settles O52: both elements are pushes onto the records and the output, at either place. -/
theorem literalAndEndOfBlock : Obligations.LiteralAndEndOfBlock := by
  intro s he
  refine ⟨fun b hp => ?_, fun b len dist hp => ?_, fun hp => ?_, fun len dist hp => ?_⟩
  · change litElement b s = _
    simp only [litElement, unlessPending_ready he, hp, element, goTo, pushLiteral, MatchRecord.literal, Act.outcome_ok]
  · change litElement b s = _
    rw [litElement, unlessPending_ready he, hp]
    rfl
  · change eobElement s = _
    rw [eobElement, unlessPending_ready he, hp]
    rfl
  · change eobElement s = _
    rw [eobElement, unlessPending_ready he, hp]
    simp [element, endBlock, pushMatch, MatchRecord.ofMatch]

/-- The elements of a list, each with its symbol's meaning, against the rows of a table of those symbols. -/
theorem exec_of_mem_zip {is : List Instr} {table : List Config.CodeRow} {syms : List Nat} {m : Nat → State → Out}
    (hexec : is.map exec = syms.map m) (hsyms : table.map Config.CodeRow.sym = syms) {i : Instr}
    {row : Config.CodeRow} (h : (i, row) ∈ is.zip table) : exec i = m row.sym ∧ row ∈ table := by
  obtain ⟨k, hk⟩ := List.mem_iff_getElem?.1 h
  obtain ⟨hi, hrow⟩ := List.getElem?_zip_eq_some.1 hk
  have h1 : (is.map exec)[k]? = some (exec i) := by rw [List.getElem?_map, hi, Option.map_some]
  have h2 : (syms.map m)[k]? = some (m row.sym) := by simp [← hsyms, hrow]
  exact ⟨Option.some.inj (h1.symm.trans (hexec ▸ h2)), List.mem_of_getElem? hrow⟩

theorem lengthElements_exec : lengthElements.map exec = (List.range' 257 29).map lenElement := rfl

theorem distanceElements_exec : distanceElements.map exec = (List.range 30).map distElement := rfl

/-- A base value plus the extra bits read, of a symbol with a row (R98). -/
theorem readExtra_row {table : List Config.CodeRow} {row : Config.CodeRow} (h : rowOf table row.sym = some row)
    (s : State) : readExtra table row.sym s = (readBits row.extra s).bind fun e t => .ok (row.base + e) t := by
  simp only [readExtra, h]

/-- Settles O53: the element of a row runs the shared meaning on the row's symbol. -/
theorem lengthElements_read : Obligations.LengthElements := by
  intro s i row hc hmem he
  obtain ⟨hexec, hrow⟩ := exec_of_mem_zip lengthElements_exec hc.lenTable.1 hmem
  have hextra := readExtra_row ((rowOf_mem hc).1 row hrow)
  rw [hexec]
  refine ⟨fun hp hw => ?_, fun hp hw => ?_, fun len dist hp => ?_⟩
  · rw [lenElement, unlessPending_ready he, hp]
    dsimp only
    rw [hextra, readBits_ok _ _ hw]
    rfl
  · rw [lenElement, unlessPending_ready he, hp]
    dsimp only
    rw [hextra, readBits_raised _ _ hw]
    exact element_raise ..
  · rw [lenElement, unlessPending_ready he, hp]
    exact element_raise ..

/-- Along a table without gaps the bases rise. -/
theorem base_le_of_gapless {bound : Nat} {r : Config.CodeRow} {rest : List Config.CodeRow}
    (h : Config.Gapless bound (r :: rest) = true) : ∀ q ∈ r :: rest, r.base ≤ q.base := by
  induction rest generalizing r with
  | nil => simp
  | cons p rest ih =>
    simp only [Config.Gapless, Bool.and_eq_true, decide_eq_true_eq] at h
    obtain ⟨⟨hlt, _⟩, hrest⟩ := h
    intro q hq
    rcases List.mem_cons.1 hq with rfl | hq
    · exact le_rfl
    · exact hlt.le.trans (ih hrest q hq)

/-- No distance symbol stands for the distance 0 (R152). -/
theorem distTable_base_pos {c : Config.Params} (hc : c.Ok) {row : Config.CodeRow} (h : row ∈ c.distTable) :
    1 ≤ row.base := by
  obtain ⟨_, hfirst, _, hgap, _⟩ := hc.distTable
  cases ht : c.distTable with
  | nil => simp [ht] at h
  | cons r rest =>
    rw [ht] at h hfirst hgap
    have hone : r.base = 1 := by simpa using hfirst
    exact hone.symm.le.trans (base_le_of_gapless hgap row h)

/-- Settles O54: as the length elements; a distance is at least 1, so one within the output is copied. -/
theorem distanceElements_copy : Obligations.DistanceElements := by
  intro s i row len hc hmem he hp
  obtain ⟨hexec, hrow⟩ := exec_of_mem_zip distanceElements_exec hc.distTable.1 hmem
  have hextra := readExtra_row ((rowOf_mem hc).2 row hrow)
  have hready : exec i s = element (((readBits row.extra s).bind fun e t => .ok (row.base + e) t).bind fun dist t =>
      if t.out.length < dist then raise .distanceTooFar dist t
      else goTo (.trailing len dist) (copyMatch dist len t)) := by
    rw [hexec, distElement, unlessPending_ready he, hp]
    dsimp only
    rw [hextra]
  refine ⟨fun hw => ⟨fun hnear => ?_, fun hfar => ?_⟩, fun hw => ?_⟩
  · have hpos := distTable_base_pos hc hrow
    obtain ⟨copy, hlen, hcopy, hmatch⟩ := copyMatch_spec (row.base + fieldValue (s.unread.take row.extra)) len
      { s with bitPos := s.bitPos + row.extra } (by omega) hnear
    refine ⟨copy, hlen, hcopy, ?_⟩
    rw [hready, readBits_ok _ _ hw]
    simp only [Act.bind_ok, if_neg (not_lt.2 hnear), hmatch]
    rfl
  · rw [hready, readBits_ok _ _ hw]
    simp only [Act.bind_ok, if_pos hfar]
    exact element_raise ..
  · rw [hready, readBits_raised _ _ hw]
    exact element_raise ..

/-- Settles O55: the illegal symbols raise at once. -/
theorem illegalSymbolsAndPad : Obligations.IllegalSymbolsAndPad := by
  intro s he
  refine ⟨fun i sym hmem => ?_, fun i sym len hmem hp => ?_, fun hd => ?_⟩
  · have hexec : exec i = litlenIllegalElement sym := by
      simp only [List.mem_cons, Prod.mk.injEq, List.not_mem_nil, or_false] at hmem
      rcases hmem with ⟨rfl, rfl⟩ | ⟨rfl, rfl⟩ <;> rfl
    rw [hexec, litlenIllegalElement, unlessPending_ready he]
    exact ⟨fun hp => by rw [hp]; exact element_raise .., fun len dist hp => by rw [hp]; exact element_raise ..⟩
  · have hexec : exec i = distIllegalElement sym := by
      simp only [List.mem_cons, Prod.mk.injEq, List.not_mem_nil, or_false] at hmem
      rcases hmem with ⟨rfl, rfl⟩ | ⟨rfl, rfl⟩ <;> rfl
    rw [hexec, distIllegalElement, unlessPending_ready he, hp]
    exact element_raise ..
  · change execPad s = _
    rw [execPad, unlessPending_ready he, if_pos hd]
    rfl

end Sys2Proof.Machine
end

section
/-! SUPPORT. No operation of the decoder or the encoder looks at the element's place, the requests still to be served or
the result word of the operation before: each runs the same on a state with these three fields changed. -/

namespace Sys2Proof.Machine

/-- A change of the three fields that are no business of an operation's inner steps. -/
structure Dressing where
  place  : Place → Place
  port   : List Request → List Request
  result : Result → Result

def State.dress (s : State) (d : Dressing) : State :=
  { s with place := d.place s.place, port := d.port s.port, result := d.result s.result }

/-- A fault writes the place and the result word itself (R312). -/
def Act.dress {α : Type} (x : Act α) (d : Dressing) : Act α :=
  match x with
  | .ok a s => .ok a (s.dress d)
  | .raised s => .raised { s with port := d.port s.port }
  | .fault e => .fault e

/-- A step that runs the same under the change. -/
def Blind {α : Type} (d : Dressing) (f : State → Act α) : Prop := ∀ s, f (s.dress d) = (f s).dress d

section
variable {α β : Type} {d : Dressing}

theorem Blind.of_update {u : State → State} {a : α} (hu : ∀ s, u (s.dress d) = (u s).dress d) :
    Blind d fun s => .ok a (u s) := fun s => congrArg (Act.ok a) (hu s)

theorem Blind.ok (a : α) : Blind d fun s => .ok a s := fun _ => rfl

theorem Blind.fault (e : Fault) : Blind d fun _ => (.fault e : Act α) := fun _ => rfl

theorem Blind.raise (c : Cause) (v : Nat) : Blind d fun s => (raise c v s : Act α) := fun _ => rfl

theorem Blind.bind {f : State → Act α} {g : α → State → Act β} (hf : Blind d f) (hg : ∀ a, Blind d (g a)) :
    Blind d fun s => (f s).bind g := fun s => by
  dsimp only
  rw [hf s]
  cases f s with
  | ok a t => exact hg a t
  | raised t => rfl
  | fault e => rfl

/-- A step begun in a state with some other field written. -/
theorem Blind.after {f : State → Act α} {u : State → State} (hf : Blind d f)
    (hu : ∀ s, u (s.dress d) = (u s).dress d) : Blind d fun s => f (u s) := fun s => by
  dsimp only
  rw [hu, hf]

theorem Blind.ite {c : State → Prop} [∀ s, Decidable (c s)] {f g : State → Act α} (hc : ∀ s, c (s.dress d) ↔ c s)
    (hf : Blind d f) (hg : Blind d g) : Blind d fun s => if c s then f s else g s := fun s => by
  dsimp only
  by_cases h : c s
  · rw [if_pos h, if_pos ((hc s).2 h), hf]
  · rw [if_neg h, if_neg (mt (hc s).1 h), hg]

/-! ## Reading -/

theorem readBit_blind : Blind d readBit := fun s => by
  unfold readBit
  change (match s.source[s.bitPos / 8]? with | none => _ | some b => _) = _
  cases s.source[s.bitPos / 8]? <;> rfl

theorem readBits_blind (n : Nat) : Blind d (readBits n) := by
  induction n with
  | zero => exact .ok 0
  | succ n ih => exact readBit_blind.bind fun b => ih.bind fun v => .ok _

theorem symDecLoop_blind (codes : CodeArray) (fuel : Nat) : Blind d (symDecLoop codes fuel) := by
  induction fuel with
  | zero => exact fun _ => rfl
  | succ fuel ih =>
    refine readBit_blind.bind fun b t => ?_
    dsimp only
    change (match findCode codes (2 * t.acc + b.toNat) (t.accLen + 1) with | some sym => _ | none => _) = _
    cases findCode codes (2 * t.acc + b.toNat) (t.accLen + 1) with
    | some sym => rfl
    | none => exact ih { t with acc := 2 * t.acc + b.toNat, accLen := t.accLen + 1 }

theorem symDec_blind (a : Alphabet) : Blind d (symDec a) := fun s => by
  have hcodes : (s.dress d).codes a = s.codes a := by cases a <;> rfl
  unfold symDec
  rw [hcodes]
  exact symDecLoop_blind (s.codes a) s.cfg.decodeMaxbits { s with acc := 0, accLen := 0 }

theorem setClLen_blind (k v : Nat) : Blind d (setClLen k v) := fun s => by
  unfold setClLen
  change (match s.cfg.clperm[k]? with | none => _ | some c => _) = _
  cases s.cfg.clperm[k]? with
  | none => rfl
  | some c =>
    exact Blind.ite (c := fun s => c < s.clLen.length) (fun _ => .rfl)
      (.of_update (u := fun s => { s with clLen := s.clLen.set c v }) fun _ => rfl) (.fault _) s

theorem readClLens_blind (k count : Nat) : Blind d (readClLens k count) := by
  induction count generalizing k with
  | zero => exact .ok ()
  | succ count ih => exact (readBits_blind 3).bind fun v => (setClLen_blind k v).bind fun _ => ih (k + 1)

theorem appendRun_blind (total sym r v : Nat) : Blind d (appendRun total sym r v) :=
  .ite (c := fun s => total < s.seq.length + r) (fun _ => .rfl) (.raise _ _) (.of_update fun _ => rfl)

theorem rleStep_blind (total : Nat) (p : ClPair) : Blind d (rleStep total p) := by
  cases p with
  | len v => exact .of_update fun _ => rfl
  | rep x =>
    intro s
    unfold rleStep
    change (match s.seq.getLast? with | none => _ | some v => _) = _
    cases s.seq.getLast? with
    | none => rfl
    | some v => exact appendRun_blind ..
  | z3 x => exact appendRun_blind _ _ _ _
  | z11 x => exact appendRun_blind _ _ _ _

/-- The total is a field of the header registers. -/
theorem rleStep_total_blind (p : ClPair) : Blind d fun s => rleStep s.total p s := fun s =>
  rleStep_blind s.total p s

theorem clSymbol_blind (c : Nat) : Blind d (clSymbol c) := by
  unfold clSymbol
  have extra (width : Nat) (pair : Nat → ClPair) :
      Blind d fun s => (readBits width s).bind fun x t => rleStep t.total (pair x) t :=
    (readBits_blind width).bind fun x => rleStep_total_blind (pair x)
  exact .ite (fun _ => .rfl) (rleStep_total_blind _) <|
    .ite (fun _ => .rfl) (.ite (fun _ => .rfl) (.raise _ _) (extra 2 .rep)) <|
    .ite (fun _ => .rfl) (extra 3 .z3) (extra 7 .z11)

theorem readSeq_blind (fuel : Nat) : Blind d (readSeq fuel) := by
  induction fuel with
  | zero => exact .ok ()
  | succ fuel ih =>
    exact .ite (c := fun s => s.seq.length < s.total) (fun _ => .rfl)
      ((symDec_blind .cl).bind fun c => (clSymbol_blind c).bind fun _ => ih) (.ok ())

theorem beginSeq_dress (s : State) : beginSeq (s.dress d) = (beginSeq s).dress d := rfl

theorem readSeq_total_blind : Blind d fun s => readSeq s.total (beginSeq s) := fun s => by
  dsimp only
  rw [beginSeq_dress]
  exact readSeq_blind s.total (beginSeq s)

theorem hdrRead_blind : Blind d hdrRead :=
  (readBits_blind 5).bind fun v => ((readBits_blind 5).after (u := setHlit v) fun _ => rfl).bind fun v =>
  ((readBits_blind 4).after (u := setHdist v) fun _ => rfl).bind fun v =>
  ((readClLens_blind 0 (v + 4)).after (u := setHclen v) fun _ => rfl).bind fun _ =>
  readSeq_total_blind.bind fun _ => .of_update (u := splitSeq) fun _ => rfl

theorem readExtra_blind (table : List Config.CodeRow) (sym : Nat) : Blind d (readExtra table sym) := by
  unfold readExtra
  cases rowOf table sym with
  | none => exact .fault _
  | some r => exact (readBits_blind r.extra).bind fun e => .ok _

/-! ## Whole blocks -/

theorem beginData_dress (s : State) : beginData (s.dress d) = (beginData s).dress d := rfl

theorem symbolLoop_blind (fuel : Nat) : Blind d (symbolLoop fuel) := by
  induction fuel with
  | zero => exact .raise _ _
  | succ fuel ih =>
    refine (symDec_blind .litlen).bind fun sym => ?_
    refine .ite (fun _ => .rfl) (ih.after fun _ => rfl) (.ite (c := fun s => sym = s.cfg.eob) (fun _ => .rfl) (.ok ())
      (.ite (c := fun s => s.cfg.nlit ≤ sym) (fun _ => .rfl) (.raise _ _) ?_))
    refine Blind.bind (f := fun s => readExtra s.cfg.lenTable sym s) (fun s => readExtra_blind s.cfg.lenTable sym s)
      fun len => (symDec_blind .dist).bind fun d => .ite (c := fun s => s.cfg.ndist ≤ d) (fun _ => .rfl) (.raise _ _) ?_
    refine Blind.bind (f := fun s => readExtra s.cfg.distTable d s) (fun s => readExtra_blind s.cfg.distTable d s)
      fun dist => .ite (c := fun s => s.out.length < dist) (fun _ => .rfl) (.raise _ _) ?_
    refine ((symDec_blind .litlen).after (u := copyMatch dist len) fun _ => rfl).bind fun t => ?_
    exact .ite (fun _ => .rfl) (ih.after fun _ => rfl)
      (.ite (c := fun s => t = s.cfg.eob) (fun _ => .rfl) (.of_update fun _ => rfl) (.raise _ _))

theorem endBlock_dress (h : d.place = id) (s : State) : endBlock (s.dress d) = (endBlock s).dress d := by
  simp [endBlock, State.dress, h]

theorem symbolLoop_bitsLeft_blind : Blind d fun s => symbolLoop (beginData s).bitsLeft (beginData s) := fun s => by
  dsimp only
  rw [beginData_dress]
  exact symbolLoop_blind (beginData s).bitsLeft (beginData s)

theorem dynamicBlock_blind (h : d.place = id) : Blind d dynamicBlock :=
  (hdrRead_blind.after fun _ => rfl).bind fun _ => symbolLoop_bitsLeft_blind.bind fun _ => .of_update (endBlock_dress h)

theorem blkDec_blind (h : d.place = id) : Blind d blkDec :=
  (readBits_blind 1).bind fun _ => ((readBits_blind 2).after fun _ => rfl).bind fun _ =>
    .ite (fun _ => .rfl) (.of_update fun _ => rfl) <| .ite (fun _ => .rfl) (fun _ => rfl) <|
    .ite (fun _ => .rfl) (fun _ => rfl) (dynamicBlock_blind h)

theorem strmDec_blind (h : d.place = id) (fuel : Nat) : Blind d (strmDec fuel) := by
  induction fuel with
  | zero => exact .raise _ _
  | succ fuel ih =>
    exact (blkDec_blind h).bind fun _ => .ite (c := fun t => t.dstate = .expectHeader) (fun _ => .rfl) ih (.ok ())

end

end Sys2Proof.Machine
end

section
/-! SUPPORT. STRM.DEC is its blocks one after another: every block consumes a bit, so the bits left are passes enough,
and where none is left another pass answers what running out of passes answers (R351). -/

namespace Sys2Proof.Machine

theorem Act.bind_congr {α β : Type} {x : Act α} {f g : α → State → Act β} (h : ∀ a t, x = .ok a t → f a t = g a t) :
    x.bind f = x.bind g := by
  cases x with
  | ok a t => exact h a t rfl
  | raised t => rfl
  | fault e => rfl

/-- A block after its BFINAL (R273 to R276). -/
def blockBody (s : State) : Act Unit :=
  (readBits 2 s).bind fun t s =>
    if t = 0 then .ok () { s with btype := 0, dstate := .stored }
    else if t = 1 then raise .fixedHuffman 1 { s with btype := 1, dstate := .fixedHuffman }
    else if t = 3 then raise .reservedType 3 { s with btype := 3 }
    else dynamicBlock s

theorem blkDec_eq (s : State) : blkDec s = (readBits 1 s).bind fun f t => blockBody { t with bfinal := f = 1 } := rfl

theorem blockBody_reads (s : State) : (blockBody s).Reads s := by
  refine (readBits_reads ..).bind fun t s _ => ?_
  split
  · exact ⟨le_rfl, rfl⟩
  split
  · exact (raise_reads ..).of_advances (t := { s with btype := 1, dstate := .fixedHuffman }) ⟨le_rfl, rfl⟩
  split
  · exact (raise_reads ..).of_advances (t := { s with btype := 3 }) ⟨le_rfl, rfl⟩
  · exact dynamicBlock_reads s

theorem bitsLeft_eq (s : State) : s.bitsLeft = s.unread.length := (unread_length s).symm

/-- A block that ends has consumed a bit. -/
theorem blkDec_bitsLeft {s t : State} (h : blkDec s = .ok () t) : t.bitsLeft < s.bitsLeft := by
  rw [blkDec_eq] at h
  obtain ⟨f, u, hu, h⟩ := Act.bind_eq_ok h
  rcases readBits_cases 1 s with ⟨hlen, hr⟩ | ⟨_, hr⟩ <;> rw [hr] at hu <;> cases hu
  have hbody := blockBody_reads { s with bitPos := s.bitPos + 1, bfinal := fieldValue (s.unread.take 1) = 1 }
  have hadv : Advances _ t := h ▸ hbody
  have hpos : s.bitPos + 1 ≤ t.bitPos := hadv.1
  have hsource : t.source = s.source := by rw [hadv.2]
  rw [unread_length] at hlen
  rw [State.bitsLeft, State.bitsLeft, hsource]
  omega

/-- At the end of the source a block raises at its first bit. -/
theorem blkDec_noBits {s : State} (h : s.unread = []) : blkDec s = raise .endOfSource 0 s := by
  rw [blkDec_eq, readBits_raised 1 s (by simp [h]), h]
  rfl

theorem strmDec_succ {fuel : Nat} {s : State} (h : s.bitsLeft ≤ fuel) : strmDec (fuel + 1) s = strmDec fuel s := by
  induction fuel generalizing s with
  | zero =>
    have hu : s.unread = [] := List.length_eq_zero_iff.1 (by rw [← bitsLeft_eq]; omega)
    rw [strmDec, strmDec, blkDec_noBits hu]
    rfl
  | succ fuel ih =>
    rw [strmDec, strmDec]
    refine Act.bind_congr fun _ t ht => ?_
    have hlt := blkDec_bitsLeft ht
    split
    · exact ih (by omega)
    · rfl

/-- More passes than bits left change nothing. -/
theorem strmDec_fuel {fuel : Nat} {s : State} (h : s.bitsLeft ≤ fuel) : strmDec fuel s = strmDec s.bitsLeft s :=
  Nat.le_induction rfl (fun _ hle ih => (strmDec_succ hle).trans ih) fuel h

/-- STRM.DEC begins with a block (R282). -/
theorem strmDec_eq (s : State) :
    strmDec s.bitsLeft s =
      (blkDec s).bind fun _ t => if t.dstate = .expectHeader then strmDec t.bitsLeft t else .ok () t := by
  rw [← strmDec_succ le_rfl, strmDec]
  refine Act.bind_congr fun _ t ht => ?_
  rw [strmDec_fuel (blkDec_bitsLeft ht).le]

/-- STRM.DEC completes only outside `ExpectHeader`. -/
theorem strmDec_leaves {fuel : Nat} {s t : State} (h : strmDec fuel s = .ok () t) : t.dstate ≠ .expectHeader := by
  induction fuel generalizing s with
  | zero => cases h
  | succ fuel ih =>
    obtain ⟨_, u, _, h⟩ := Act.bind_eq_ok h
    split at h
    · exact ih h
    · cases h
      assumption

/-- What a block or a stream decoded, or a fault met in it, leaves alone (R137). -/
def DecodesOnly (s q : State) : Prop :=
  q = { s with
    toBuffers := q.toBuffers, hlit := q.hlit, hdist := q.hdist, hclen := q.hclen, bitPos := q.bitPos
    dstate := q.dstate, bfinal := q.bfinal, btype := q.btype, err := q.err, errBitPos := q.errBitPos
    errValue := q.errValue, out := q.out, decoded := q.decoded, result := q.result, place := .bfinal
    filled := q.filled, fresh := q.fresh }

/-- Decoding between two blocks completes or raises, and leaves the rest of the core alone. -/
theorem decoding_completes {x : Act Unit} {s : State} (hc : s.cfg.Ok)
    (hx : x.Meets (BlockEnds s) (FaultsAt s) (¬ s.cfg.Ok)) :
    (∃ w, x = .ok () w ∧ BlockEnds s w ∧ DecodesOnly s { w with result := .none }) ∨
    (∃ c v u, x = .raised (takeFault c v u) ∧ FaultsAt s u ∧ DecodesOnly s (takeFault c v u)) := by
  cases x with
  | ok a w =>
    have hw : BlockEnds s w := hx
    have hadv := hw.advances.2
    rw [hw.place] at hadv
    refine .inl ⟨w, rfl, hw, ?_⟩
    unfold DecodesOnly
    rw [hadv]
  | raised t =>
    obtain ⟨c, v, u, hu, rfl⟩ := hx
    refine .inr ⟨c, v, u, rfl, hu, ?_⟩
    unfold DecodesOnly
    rw [hu.advances.2]
    rfl
  | fault e => exact absurd hc hx

theorem FaultsAt.failed {s u : State} (hd : s.dstate = .expectHeader) (h : FaultsAt s u) :
    u.dstate.afterFault = .failed := by
  rcases h.dstate with h | ⟨_, h⟩
  · rw [h, hd]
    rfl
  · cases hu : u.dstate <;> simp_all [DState.afterFault]

/-- The result word of the operation before does not count. -/
theorem strmDec_outcome_result (w : State) (r : Result) :
    (strmDec w.bitsLeft { w with result := r }).outcome (fun _ => .none) =
      (strmDec w.bitsLeft w).outcome fun _ => .none := by
  rw [show { w with result := r } = w.dress ⟨id, id, fun _ => r⟩ from rfl, strmDec_blind rfl]
  cases strmDec w.bitsLeft w <;> rfl

theorem execBlkDec_ready {s : State} (he : s.err = none) (hd : s.dstate = .expectHeader) (hp : s.place = .bfinal) :
    exec .blkDec s = (blkDec s).outcome fun _ => .none := by
  change execBlkDec s = _
  rw [execBlkDec, unlessPending_ready he, atBlockStart_ready hd hp]

theorem execStrmDec_ready {s : State} (he : s.err = none) (hd : s.dstate = .expectHeader) (hp : s.place = .bfinal) :
    exec .strmDec s = (strmDec s.bitsLeft s).outcome fun _ => .none := by
  change execStrmDec s = _
  rw [execStrmDec, unlessPending_ready he, atBlockStart_ready hd hp]

theorem strmDec_ends {s : State} (hc : s.cfg.Ok) (he : s.err = none) (hd : s.dstate = .expectHeader)
    (hp : s.place = .bfinal) :
    ∃ u, exec .strmDec s = .next u ∧ u.dstate ∈ [DState.done, .stored, .failed] ∧ DecodesOnly s u := by
  rw [execStrmDec_ready he hd hp]
  rcases decoding_completes hc (strmDec_meets (fuel := s.bitsLeft) hd hp) with
    ⟨w, hx, hw, hframe⟩ | ⟨c, v, u, hx, hu, hframe⟩ <;> rw [hx]
  · refine ⟨_, rfl, ?_, hframe⟩
    rcases hw.dstate with h | ⟨h, _⟩ | ⟨h, _⟩
    · exact absurd h (strmDec_leaves hx)
    · simp [h]
    · simp [h]
  · exact ⟨_, rfl, by simp [hu.failed hd], hframe⟩

/-- Settles O46: STRM.DEC unrolled once is BLK.DEC; the blocks after it do not see the result word between. -/
theorem streamDecodeRepeatsBlocks : Obligations.StreamDecodeRepeatsBlocks := by
  intro s hc he hd hp
  obtain ⟨u, hstrm, hends, hframe⟩ := strmDec_ends hc he hd hp
  have both : ∀ {t : State}, DecodesOnly s t → ∀ q ∈ [t, u], DecodesOnly s q := fun ht q hq => by
    rcases List.mem_cons.1 hq with rfl | hq
    · exact ht
    · exact List.mem_singleton.1 hq ▸ hframe
  have hunroll := execStrmDec_ready he hd hp
  rw [strmDec_eq] at hunroll
  rw [execBlkDec_ready he hd hp]
  rcases decoding_completes hc (blkDec_meets hd hp) with ⟨w, hx, hw, ht⟩ | ⟨c, v, f, hx, hf, ht⟩ <;>
    rw [hx] at hunroll ⊢
  · refine ⟨_, rfl, fun hne => ?_, fun heq => ?_, u, hstrm, hends, both ht⟩
    · rw [hunroll, Act.bind_ok, if_neg hne]
      rfl
    · have heq : w.dstate = .expectHeader := heq
      have hwe : w.err = none := hw.advances.frame.2.2.2.1.trans he
      rw [hunroll, Act.bind_ok, if_pos heq, execStrmDec_ready (s := { w with result := .none }) hwe heq hw.place]
      exact (strmDec_outcome_result w .none).symm
  · refine ⟨_, rfl, fun _ => hunroll, fun heq => ?_, u, hstrm, hends, both ht⟩
    have hfail : (takeFault c v f).dstate = .failed := hf.failed hd
    rw [hfail] at heq
    cases heq

end Sys2Proof.Machine
end

section
/-! SUPPORT. BLK.DEC is the run of its wire elements. Each element is written once more as a step that names the place
it leads to; the step of the core runs it, and what BLK.DEC does from a place on is that element and then what it does
from the next place on. Every element consumes a bit, so the run ends. -/

namespace Sys2Proof.Machine

/-! ## One element as a step to the next place -/

/-- The format of the element at a place. -/
def Place.format : Place → Format
  | .bfinal => .bfinal
  | .btype => .btype
  | .hlit => .hlit
  | .hdist => .hdist
  | .hclen => .hclen
  | .cllen _ => .cllen
  | .clsym => .clsym
  | .record | .trailing _ _ => .litlen
  | .dist _ => .dist

/-- The reading of the element's field or symbol (R90, R105). -/
def elementHead : Place → State → Act Nat
  | .bfinal => readBits 1
  | .btype => readBits 2
  | .hlit | .hdist => readBits 5
  | .hclen => readBits 4
  | .cllen _ => readBits 3
  | .clsym => symDec .cl
  | .record | .trailing _ _ => symDec .litlen
  | .dist _ => symDec .dist

/-- What the element does with the value read, and the place it leads to: `bfinal` where the block is over. -/
def elementTail : Place → Nat → State → Act Place
  | .bfinal, v, s => .ok .btype { s with bfinal := v = 1 }
  | .btype, v, s =>
    if v = 0 then .ok .bfinal { s with btype := 0, dstate := .stored }
    else if v = 1 then raise .fixedHuffman 1 { s with btype := 1, dstate := .fixedHuffman }
    else if v = 3 then raise .reservedType 3 { s with btype := 3 }
    else .ok .hlit { s with btype := 2, dstate := .dynamicHuffman }
  | .hlit, v, s => .ok .hdist (setHlit v s)
  | .hdist, v, s => .ok .hclen (setHdist v s)
  | .hclen, v, s => .ok (.cllen 0) (setHclen v s)
  | .cllen k, v, s =>
    (setClLen k v s).bind fun _ t => if k + 1 < t.hclen + 4 then .ok (.cllen (k + 1)) t else .ok .clsym (beginSeq t)
  | .clsym, c, s =>
    (clSymbol c s).bind fun _ t =>
      if t.seq.length < t.total then .ok .clsym t else .ok .record (beginData (splitSeq t))
  | .record, sym, s =>
    if sym ≤ 255 then .ok .record (pushLiteral (BitVec.ofNat 8 sym) s)
    else if sym = s.cfg.eob then .ok .bfinal (endBlock s)
    else if s.cfg.nlit ≤ sym then raise .symbolOutOfRange sym s
    else (readExtra s.cfg.lenTable sym s).bind fun len t => .ok (.dist len) t
  | .dist len, d, s =>
    if s.cfg.ndist ≤ d then raise .symbolOutOfRange d s
    else
      (readExtra s.cfg.distTable d s).bind fun dist t =>
        if t.out.length < dist then raise .distanceTooFar dist t
        else .ok (.trailing len dist) (copyMatch dist len t)
  | .trailing len dist, sym, s =>
    if sym ≤ 255 then .ok .record (pushMatch dist len (some (BitVec.ofNat 8 sym)) s)
    else if sym = s.cfg.eob then .ok .bfinal (endBlock (pushMatch dist len none s))
    else raise .trailingNotLiteral sym s

def elementAct (p : Place) (s : State) : Act Place := (elementHead p s).bind (elementTail p)

/-! ## Where an element can stand -/

/-- What an earlier element of the block has set up for the one at this place. -/
def Place.Prepared : Place → State → Prop
  | .bfinal, s | .btype, s => s.dstate = .expectHeader
  | .hlit, s => s.dstate = .dynamicHuffman
  | .hdist, s => s.dstate = .dynamicHuffman ∧ s.hlit < 32
  | .hclen, s => s.dstate = .dynamicHuffman ∧ s.hlit < 32 ∧ s.hdist < 32
  | .cllen k, s =>
    s.dstate = .dynamicHuffman ∧ s.hlit < 32 ∧ s.hdist < 32 ∧ k < s.hclen + 4 ∧ s.clLen.length = s.cfg.ncl
  | .clsym, s =>
    s.dstate = .dynamicHuffman ∧ s.hlit < 32 ∧ s.hdist < 32 ∧ s.seq.length < s.total ∧ s.filled.clCode = true ∧
      s.clCode.length = s.cfg.ncl
  | .record, s | .dist _, s | .trailing _ _, s =>
    s.dstate = .dynamicHuffman ∧ s.filled.litCode = true ∧ s.filled.distCode = true ∧ s.litCode.length ≤ 288 ∧
      s.distCode.length ≤ 32

/-- The decoder stands at the place, no error pending. -/
structure StandsAt (p : Place) (s : State) : Prop where
  cfg      : s.cfg.Ok
  err      : s.err = none
  prepared : p.Prepared s

/-- The symbol decoded is one of the code array's; a register moved, no more. -/
theorem symDec_ok {a : Alphabet} {s t : State} {sym : Nat} (h : symDec a s = .ok sym t) :
    sym < (s.codes a).length ∧
      ∃ l, 1 ≤ l ∧ l ≤ s.unread.length ∧ t = { s with bitPos := s.bitPos + l, acc := t.acc, accLen := t.accLen } := by
  rcases symDecLoop_cases (s.codes a) s.cfg.decodeMaxbits { s with acc := 0, accLen := 0 } with
    ⟨sym', l, h1, _, hl, hfind, _, h'⟩ | ⟨_, ⟨_, h'⟩ | ⟨_, v, k, h'⟩⟩ <;> cases h'.symm.trans h
  exact ⟨(List.findIdx?_eq_some_iff_findIdx_eq.1 hfind).1, l, h1, hl, rfl⟩

/-- The reading of an element moves the cursor and the decode registers. -/
theorem elementHead_ok {p : Place} {s t : State} {v : Nat} (h : elementHead p s = .ok v t) :
    ∃ l, 1 ≤ l ∧ l ≤ s.unread.length ∧ t = { s with bitPos := s.bitPos + l, acc := t.acc, accLen := t.accLen } := by
  have bits : ∀ n, 1 ≤ n → readBits n s = .ok v t →
      ∃ l, 1 ≤ l ∧ l ≤ s.unread.length ∧ t = { s with bitPos := s.bitPos + l, acc := t.acc, accLen := t.accLen } := by
    intro n hn h
    rcases readBits_cases n s with ⟨hl, h'⟩ | ⟨_, h'⟩ <;> cases h'.symm.trans h
    exact ⟨n, hn, hl, rfl⟩
  cases p with
  | bfinal | btype | hlit | hdist | hclen | cllen => exact bits _ (by decide) h
  | clsym | record | dist | trailing => exact (symDec_ok h).2

/-- The setup of a place does not speak of what the reading moves. -/
theorem Place.Prepared.read {p : Place} {s t : State} {l : Nat} (h : p.Prepared s)
    (ht : t = { s with bitPos := s.bitPos + l, acc := t.acc, accLen := t.accLen }) : p.Prepared t := by
  rw [ht]
  cases p <;> exact h

theorem StandsAt.read {p : Place} {s t : State} {v : Nat} (h : StandsAt p s) (hv : elementHead p s = .ok v t) :
    StandsAt p t := by
  obtain ⟨l, _, _, ht⟩ := elementHead_ok hv
  refine ⟨?_, ?_, h.prepared.read ht⟩
  · rw [ht]
    exact h.cfg
  · rw [ht]
    exact h.err

/-- A pair stands for at least one entry (R231). -/
theorem expandPairs_single_length {p : ClPair} {ls ms : List Nat} (h : expandPairs [p] ls = some ms) :
    ls.length < ms.length := by
  cases p with
  | rep x =>
    simp only [expandPairs] at h
    split at h <;> cases h
    simp
  | len v | z3 x | z11 x =>
    cases h
    simp

theorem rleStep_ok {total : Nat} {p : ClPair} {s t : State} (h : rleStep total p s = .ok () t) :
    s.seq.length < t.seq.length ∧ t = { s with seq := t.seq } := by
  rcases rleStep_cases total p s with ⟨ls, hls, _, h'⟩ | ⟨_, h'⟩ | ⟨_, _, _, _, h'⟩ <;> cases h'.symm.trans h
  exact ⟨expandPairs_single_length hls, rfl⟩

/-- A code-length symbol adds to the sequence and moves the cursor. -/
theorem clSymbol_ok {c : Nat} {s t : State} (h : clSymbol c s = .ok () t) :
    s.seq.length < t.seq.length ∧ t = { s with bitPos := t.bitPos, seq := t.seq } := by
  have extra : ∀ (width : Nat) (pair : Nat → ClPair),
      ((readBits width s).bind fun x u => rleStep u.total (pair x) u) = .ok () t →
      s.seq.length < t.seq.length ∧ t = { s with bitPos := t.bitPos, seq := t.seq } := by
    intro width pair h
    obtain ⟨x, u, hu, h⟩ := Act.bind_eq_ok h
    rcases readBits_cases width s with ⟨_, h'⟩ | ⟨_, h'⟩ <;> cases h'.symm.trans hu
    obtain ⟨hlen, ht⟩ := rleStep_ok h
    exact ⟨hlen, by rw [ht]⟩
  unfold clSymbol at h
  split at h
  · obtain ⟨hlen, ht⟩ := rleStep_ok h
    exact ⟨hlen, by rw [ht]⟩
  split at h
  · split at h
    · cases h
    · exact extra 2 .rep h
  split at h
  · exact extra 3 .z3 h
  · exact extra 7 .z11 h

theorem readExtra_ok {table : List Config.CodeRow} {sym v : Nat} {s t : State} (h : readExtra table sym s = .ok v t) :
    t = { s with bitPos := t.bitPos } := by
  rcases readExtra_cases table sym s with ⟨_, k, h'⟩ | ⟨k, h'⟩ | ⟨_, h'⟩ <;> cases h'.symm.trans h
  rfl

theorem elementAct_stands {p p' : Place} {s u : State} (hs : StandsAt p s) (h : elementAct p s = .ok p' u)
    (hp : p' ≠ .bfinal) : StandsAt p' u := by
  obtain ⟨v, t, hv, h⟩ := Act.bind_eq_ok h
  obtain ⟨hcfg, herr, hprep⟩ := hs.read hv
  cases p with
  | bfinal =>
    cases h
    exact ⟨hcfg, herr, hprep⟩
  | btype =>
    rw [elementTail] at h
    split at h
    · cases h
      exact absurd rfl hp
    split at h
    · cases h
    split at h
    · cases h
    · cases h
      exact ⟨hcfg, herr, rfl⟩
  | hlit =>
    cases h
    exact ⟨hcfg, herr, hprep, readBits_lt hv⟩
  | hdist =>
    cases h
    obtain ⟨hd, hlit⟩ := hprep
    exact ⟨hcfg, herr, hd, hlit, readBits_lt hv⟩
  | hclen =>
    cases h
    obtain ⟨hd, hlit, hdist⟩ := hprep
    exact ⟨hcfg, herr, hd, hlit, hdist, Nat.succ_pos _, List.length_replicate⟩
  | cllen k =>
    obtain ⟨hd, hlit, hdist, _, hlen⟩ := hprep
    obtain ⟨_, w, hset, h⟩ := Act.bind_eq_ok h
    rcases setClLen_cases k v t with ⟨c, _, _, h'⟩ | ⟨_, h'⟩ <;> cases h'.symm.trans hset
    have hlen' : (t.clLen.set c v).length = t.cfg.ncl := by rw [List.length_set, hlen]
    split at h <;> cases h
    · exact ⟨hcfg, herr, hd, hlit, hdist, ‹_›, hlen'⟩
    · exact ⟨hcfg, herr, hd, hlit, hdist, Nat.zero_lt_succ _, rfl, (canonCodes_length _).trans hlen'⟩
  | clsym =>
    obtain ⟨hd, hlit, hdist, hlt, hfill, hlen⟩ := hprep
    obtain ⟨_, w, hsym, h⟩ := Act.bind_eq_ok h
    obtain ⟨_, hw⟩ := clSymbol_ok hsym
    rw [hw] at h
    split at h <;> cases h
    · exact ⟨hcfg, herr, hd, hlit, hdist, ‹_›, hfill, hlen⟩
    · refine ⟨hcfg, herr, hd, rfl, rfl, (canonCodes_length _).trans_le ?_, (canonCodes_length _).trans_le ?_⟩
      · change (w.seq.take (t.hlit + 257)).length ≤ 288
        rw [List.length_take]
        omega
      · change ((w.seq.take (t.hlit + 257 + t.hdist + 1)).drop (t.hlit + 257)).length ≤ 32
        rw [List.length_drop, List.length_take]
        omega
  | record =>
    rw [elementTail] at h
    split at h
    · cases h
      exact ⟨hcfg, herr, hprep⟩
    split at h
    · cases h
      exact absurd rfl hp
    split at h
    · cases h
    · obtain ⟨len, w, hlen, h⟩ := Act.bind_eq_ok h
      cases h
      rw [readExtra_ok hlen]
      exact ⟨hcfg, herr, hprep⟩
  | dist len =>
    rw [elementTail] at h
    split at h
    · cases h
    · obtain ⟨dist, w, hdist, h⟩ := Act.bind_eq_ok h
      split at h
      · cases h
      · cases h
        rw [readExtra_ok hdist]
        exact ⟨hcfg, herr, hprep⟩
  | trailing len dist =>
    rw [elementTail] at h
    split at h
    · cases h
      exact ⟨hcfg, herr, hprep⟩
    split at h
    · cases h
      exact absurd rfl hp
    · cases h

/-! ## Every element consumes a bit -/

theorem elementTail_reads (p : Place) (v : Nat) (s : State) : (elementTail p v s).Reads s := by
  cases p with
  | bfinal | hlit | hdist | hclen => exact ⟨le_rfl, rfl⟩
  | btype =>
    rw [elementTail]
    split
    · exact ⟨le_rfl, rfl⟩
    split
    · exact (raise_reads ..).of_advances (t := { s with btype := 1, dstate := .fixedHuffman }) ⟨le_rfl, rfl⟩
    split
    · exact (raise_reads ..).of_advances (t := { s with btype := 3 }) ⟨le_rfl, rfl⟩
    · exact ⟨le_rfl, rfl⟩
  | cllen k =>
    rw [elementTail]
    rcases setClLen_cases k v s with ⟨c, _, _, h⟩ | ⟨_, h⟩ <;> rw [h]
    · rw [Act.bind_ok]
      split <;> exact ⟨le_rfl, rfl⟩
    · trivial
  | clsym =>
    refine (clSymbol_reads v s).bind fun _ t _ => ?_
    split <;> exact ⟨le_rfl, rfl⟩
  | record =>
    rw [elementTail]
    split
    · exact ⟨le_rfl, rfl⟩
    split
    · exact ⟨le_rfl, rfl⟩
    split
    · exact raise_reads ..
    · exact (readExtra_reads ..).bind fun _ t _ => .refl t
  | dist len =>
    rw [elementTail]
    split
    · exact raise_reads ..
    refine (readExtra_reads ..).bind fun _ t _ => ?_
    split
    · exact raise_reads ..
    · exact ⟨le_rfl, rfl⟩
  | trailing len dist =>
    rw [elementTail]
    split
    · exact ⟨le_rfl, rfl⟩
    split
    · exact ⟨le_rfl, rfl⟩
    · exact raise_reads ..

theorem elementAct_bitsLeft {p p' : Place} {s u : State} (h : elementAct p s = .ok p' u) : u.bitsLeft < s.bitsLeft := by
  obtain ⟨v, t, hv, h⟩ := Act.bind_eq_ok h
  obtain ⟨l, h1, hl, ht⟩ := elementHead_ok hv
  have hadv := elementTail_reads p v t
  rw [h] at hadv
  have hpos : s.bitPos + l ≤ u.bitPos := by
    have := hadv.1
    rw [ht] at this
    exact this
  have hsource : u.source = s.source := by rw [hadv.2, ht]
  rw [unread_length] at hl
  rw [State.bitsLeft, State.bitsLeft, hsource]
  omega

/-! ## The step runs the element -/

/-- The outcome of an element in a core with the requests `q` still to serve. -/
def Act.settle (q : List Request) (x : Act Place) : Out :=
  match x with
  | .ok p t => .next { t with place := p, port := q, result := .none }
  | .raised t => .next { t with port := q }
  | .fault e => .fault e

/-- The state the core has where the element at `p` is next: BLK.DEC's own, with the model's fields for elements. -/
def stepping (p : Place) (q : List Request) (r : Result) : Dressing := ⟨fun _ => p, fun _ => q, fun _ => r⟩

section
variable {α : Type} {p : Place} {q : List Request} {r : Result}

/-- An element's meaning in terms of the step it is. -/
theorem element_settle {f : State → Act α} {g : α → State → Act Unit} {m : α → State → Act Place} {s : State}
    (hf : Blind (stepping p q r) f)
    (h : ∀ a t, f s = .ok a t → element (g a (t.dress (stepping p q r))) = (m a t).settle q) :
    element ((f (s.dress (stepping p q r))).bind g) = ((f s).bind m).settle q := by
  rw [hf s]
  cases hx : f s with
  | ok a t => exact h a t hx
  | raised t => rfl
  | fault e => rfl

/-- The instruction of a code-length symbol (R102). -/
theorem exec_clsym {c : Nat} (h : c < 19) : ∃ i, decode .clsym c = some i ∧ exec i = clElement c := by
  by_cases hc : c < 16
  · exact ⟨.clLen c, if_pos hc, rfl⟩
  · interval_cases c <;> exact ⟨_, rfl, rfl⟩

/-- The instruction of a literal/length symbol (R100). -/
theorem exec_litlen {v : Nat} (h : v < 288) :
    ∃ i, decode .litlen v = some i ∧ exec i =
      if v ≤ 255 then litElement (BitVec.ofNat 8 v) else if v = 256 then eobElement
      else if v < 286 then lenElement v else litlenIllegalElement v := by
  by_cases hv : v < 256
  · exact ⟨.lit (BitVec.ofNat 8 v), if_pos hv, by rw [if_pos (Nat.lt_succ_iff.1 hv)]; rfl⟩
  · interval_cases v <;> exact ⟨_, rfl, rfl⟩

/-- The instruction of a distance symbol (R101). -/
theorem exec_dist {v : Nat} (h : v < 32) :
    ∃ i, decode .dist v = some i ∧ exec i = if v < 30 then distElement v else distIllegalElement v := by
  interval_cases v <;> exact ⟨_, rfl, rfl⟩

theorem exec_elementTail {s t : State} {v : Nat} (hs : StandsAt p s) (hv : elementHead p s = .ok v t) :
    ∃ i, decode p.format v = some i ∧ exec i (t.dress (stepping p q r)) = (elementTail p v t).settle q := by
  obtain ⟨hcfg, herr, hprep⟩ := hs.read hv
  have he : (t.dress (stepping p q r)).err = none := herr
  obtain ⟨hnlit, hndist, hncl, heob⟩ := hcfg.symbols
  cases p with
  | bfinal =>
    have hlt : v < 2 := readBits_lt hv
    refine ⟨.bfinal (fieldBit v 0), if_pos hlt, ?_⟩
    change execBfinal _ _ = _
    rw [execBfinal, unlessPending_ready he, atBlockStart_ready (by exact hprep) (by rfl)]
    interval_cases v <;> rfl
  | btype =>
    have hlt : v < 4 := readBits_lt hv
    interval_cases v <;> exact ⟨_, rfl, btypeElement_ready he rfl⟩
  | hlit =>
    refine ⟨.hlit v, if_pos (readBits_lt hv), ?_⟩
    change execHlit _ _ = _
    rw [execHlit, unlessPending_ready he]
    rfl
  | hdist =>
    refine ⟨.hdist v, if_pos (readBits_lt hv), ?_⟩
    change execHdist _ _ = _
    rw [execHdist, unlessPending_ready he]
    rfl
  | hclen =>
    refine ⟨.hclen v, if_pos (readBits_lt hv), ?_⟩
    change execHclen _ _ = _
    rw [execHclen, unlessPending_ready he]
    rfl
  | cllen k =>
    refine ⟨.cllen v, if_pos (readBits_lt hv), ?_⟩
    change execCllen _ _ = _
    rw [execCllen, unlessPending_ready he]
    refine element_settle (setClLen_blind k v) fun _ w _ => ?_
    change element (if k + 1 < w.hclen + 4 then _ else _) = (if k + 1 < w.hclen + 4 then _ else _ : Act Place).settle q
    split <;> rfl
  | clsym =>
    obtain ⟨_, _, _, _, _, hlen⟩ := hs.prepared
    have hlt : v < 19 := by
      have hsym : v < s.clCode.length := (symDec_ok hv).1
      have := hs.cfg.symbols.2.2.1
      omega
    obtain ⟨i, hi, hexec⟩ := exec_clsym hlt
    refine ⟨i, hi, ?_⟩
    rw [hexec, clElement_ready he rfl]
    refine element_settle (clSymbol_blind v) fun _ w _ => ?_
    change element (if w.seq.length < w.total then _ else _) =
      (if w.seq.length < w.total then _ else _ : Act Place).settle q
    split <;> rfl
  | record =>
    obtain ⟨_, _, _, hlen, _⟩ := hs.prepared
    have hlt : v < 288 := lt_of_lt_of_le (symDec_ok hv).1 hlen
    obtain ⟨i, hi, hexec⟩ := exec_litlen hlt
    refine ⟨i, hi, ?_⟩
    rw [hexec, elementTail, heob, hnlit]
    split
    · exact unlessPending_ready he _
    split
    · exact unlessPending_ready he _
    split
    · rw [if_neg (by omega), lenElement, unlessPending_ready he]
      exact element_settle (readExtra_blind t.cfg.lenTable v) fun _ w _ => rfl
    · rw [if_pos (by omega), litlenIllegalElement, unlessPending_ready he]
      rfl
  | dist len =>
    obtain ⟨_, _, _, _, hlen⟩ := hs.prepared
    have hlt : v < 32 := lt_of_lt_of_le (symDec_ok hv).1 hlen
    obtain ⟨i, hi, hexec⟩ := exec_dist hlt
    refine ⟨i, hi, ?_⟩
    rw [hexec, elementTail, hndist]
    split
    · rw [if_neg (by omega), distElement, unlessPending_ready he]
      refine element_settle (readExtra_blind t.cfg.distTable v) fun dist w _ => ?_
      change element (if w.out.length < dist then _ else _) =
        (if w.out.length < dist then _ else _ : Act Place).settle q
      split <;> rfl
    · rw [if_pos (by omega), distIllegalElement, unlessPending_ready he]
      rfl
  | trailing len dist =>
    obtain ⟨_, _, _, hlen, _⟩ := hs.prepared
    have hlt : v < 288 := lt_of_lt_of_le (symDec_ok hv).1 hlen
    obtain ⟨i, hi, hexec⟩ := exec_litlen hlt
    refine ⟨i, hi, ?_⟩
    rw [hexec, elementTail, heob]
    split
    · exact unlessPending_ready he _
    split
    · exact unlessPending_ready he _
    split
    · exact unlessPending_ready he _
    · exact unlessPending_ready he _

theorem elementHead_blind (d : Dressing) (p : Place) : Blind d (elementHead p) := by
  cases p with
  | bfinal | btype | hlit | hdist | hclen | cllen => exact readBits_blind _
  | clsym | record | dist | trailing => exact symDec_blind _

/-- The fetch reads the element at the place. -/
theorem fetchElement_head {s : State} (hs : StandsAt p s) :
    fetchElement (s.dress (stepping p q r)) = elementOf p.format ((elementHead p s).dress (stepping p q r)) := by
  obtain ⟨_, herr, hprep⟩ := hs
  have hd : s.dstate ≠ .done ∧ s.dstate ≠ .stored := by cases p <;> simp_all [Place.Prepared]
  rw [← elementHead_blind]
  rw [fetchElement_reading (s := s.dress _) herr hd.1 hd.2]
  cases p with
  | bfinal | btype | hlit | hdist | hclen | cllen => rfl
  | clsym => exact if_pos hprep.2.2.2.2.1
  | record | trailing => exact if_pos hprep.2.1
  | dist => exact if_pos hprep.2.2.1

/-- The step of the core at an element's place is that element. -/
theorem step_element {s : State} (hs : StandsAt p s) :
    step { s with place := p, port := .element :: q, result := r } = (elementAct p s).settle q := by
  have hserve : serve .element (s.dress (stepping p q r)) = _ := fetchElement_head hs
  unfold elementAct
  cases hv : elementHead p s with
  | ok v t =>
    obtain ⟨i, hi, hexec⟩ := exec_elementTail (q := q) (r := r) hs hv
    rw [hv] at hserve
    refine (step_of_run rfl (hserve.trans ?_)).trans hexec
    simp only [Act.dress, elementOf, hi]
  | raised t =>
    rw [hv] at hserve
    exact step_of_settled rfl hserve
  | fault e =>
    rw [hv] at hserve
    exact step_of_settled rfl hserve

end

/-! ## The loops of BLK.DEC do not depend on their passes -/

theorem symDec_frame {a : Alphabet} {s t : State} {sym : Nat} (h : symDec a s = .ok sym t) :
    t = { s with bitPos := t.bitPos, acc := t.acc, accLen := t.accLen } := by
  obtain ⟨_, l, _, _, ht⟩ := symDec_ok h
  rw [ht]

theorem readSeq_succ {fuel : Nat} {s : State} (h : s.total - s.seq.length ≤ fuel) :
    readSeq (fuel + 1) s = readSeq fuel s := by
  induction fuel generalizing s with
  | zero => rw [readSeq, readSeq, if_neg (by omega)]
  | succ fuel ih =>
    rw [readSeq, readSeq]
    split
    · refine Act.bind_congr fun c t ht => Act.bind_congr fun _ u hu => ih ?_
      obtain ⟨hlen, hu⟩ := clSymbol_ok hu
      have htotal : u.total = s.total := by
        rw [hu, symDec_frame ht]
        rfl
      have hseq : t.seq = s.seq := by rw [symDec_frame ht]
      rw [htotal]
      rw [hseq] at hlen
      omega
    · rfl

/-- More passes than entries missing change nothing. -/
theorem readSeq_fuel {fuel : Nat} {s : State} (h : s.total - s.seq.length ≤ fuel) :
    readSeq fuel s = readSeq (s.total - s.seq.length) s :=
  Nat.le_induction rfl (fun _ hle ih => (readSeq_succ hle).trans ih) fuel h

/-- Decoding tries one bit at least (R40). -/
theorem decodeMaxbits_pos {c : Config.Params} (h : c.Ok) : 0 < c.decodeMaxbits := by
  obtain ⟨_, _, hncl, _, _, hcl, _⟩ := h.caps
  rw [h.symbols.2.2.1] at hncl
  refine Nat.pos_of_ne_zero fun h0 => ?_
  rw [Nat.le_zero.1 (hcl.trans_eq h0)] at hncl
  exact absurd hncl (by decide)

/-- With no bit left a symbol raises at its first one. -/
theorem symDec_noBits {a : Alphabet} {s : State} (hc : s.cfg.Ok) (h : s.bitsLeft = 0) :
    symDec a s = raise .endOfSource 0 s := by
  obtain ⟨n, hn⟩ := Nat.exists_eq_add_one.2 (decodeMaxbits_pos hc)
  have hu : s.unread = [] := List.length_eq_zero_iff.1 (by rw [← bitsLeft_eq, h])
  have hbit := readBit_nil { s with acc := 0, accLen := 0 } hu
  rw [symDec, hn, symDecLoop, hbit]
  rfl

theorem Act.Reads.advances {α : Type} {s t : State} {x : Act α} {a : α} (hx : x.Reads s) (h : x = .ok a t) :
    Advances s t := by
  rw [h] at hx
  exact hx

theorem bitsLeft_lt_of_advances {s t u : State} (ht : t.bitsLeft < s.bitsLeft) (hu : Advances t u) :
    u.bitsLeft < s.bitsLeft := by
  obtain ⟨hpos, hframe⟩ := hu
  have hsource : u.source = t.source := by rw [hframe]
  rw [State.bitsLeft, hsource]
  rw [State.bitsLeft] at ht
  omega

theorem symDec_bitsLeft {a : Alphabet} {s t : State} {sym : Nat} (h : symDec a s = .ok sym t) :
    t.bitsLeft < s.bitsLeft := by
  obtain ⟨_, l, h1, hl, ht⟩ := symDec_ok h
  rw [unread_length] at hl
  rw [ht, State.bitsLeft, State.bitsLeft]
  change 8 * s.source.length - (s.bitPos + l) < _
  omega

/-- A match read up to its trailing element. -/
theorem match_advances {sym len d dist sym' : Nat} {t u v w x : State} {lenTable distTable : List Config.CodeRow}
    (hu : readExtra lenTable sym t = .ok len u) (hv : symDec .dist u = .ok d v)
    (hw : readExtra distTable d v = .ok dist w) (hx : symDec .litlen (copyMatch dist len w) = .ok sym' x) :
    Advances t x := by
  have hlen := (readExtra_reads ..).advances hu
  have hdist := ((symDec_reads ..).advances hv).trans ((readExtra_reads ..).advances hw)
  have hcopy : Advances w (copyMatch dist len w) := ⟨le_rfl, rfl⟩
  exact (hlen.trans hdist).trans (hcopy.trans ((symDec_reads ..).advances hx))

theorem symbolLoop_succ {fuel : Nat} {s : State} (hc : s.cfg.Ok) (h : s.bitsLeft ≤ fuel) :
    symbolLoop (fuel + 1) s = symbolLoop fuel s := by
  induction fuel generalizing s with
  | zero =>
    rw [symbolLoop, symbolLoop, symDec_noBits hc (Nat.le_zero.1 h)]
    rfl
  | succ fuel ih =>
    have next : ∀ {t u : State}, t.bitsLeft < s.bitsLeft → t.cfg = s.cfg → Advances t u →
        symbolLoop (fuel + 1) u = symbolLoop fuel u := fun {t u} hlt hcfg hadv =>
      ih (by rw [hadv.2]; exact hcfg ▸ hc) (Nat.le_of_lt_succ ((bitsLeft_lt_of_advances hlt hadv).trans_le h))
    rw [symbolLoop, symbolLoop]
    refine Act.bind_congr fun sym t ht => ?_
    have hlt := symDec_bitsLeft ht
    have hcfg : t.cfg = s.cfg := by rw [symDec_frame ht]
    split
    · exact next hlt hcfg ⟨le_rfl, rfl⟩
    split
    · rfl
    split
    · rfl
    refine Act.bind_congr fun len u hu => Act.bind_congr fun d v hv => ?_
    split
    · rfl
    refine Act.bind_congr fun dist w hw => ?_
    split
    · rfl
    refine Act.bind_congr fun t' x hx => ?_
    split
    · exact next hlt hcfg ((match_advances hu hv hw hx).trans ⟨le_rfl, rfl⟩)
    · rfl

/-- More passes than bits left change nothing. -/
theorem symbolLoop_fuel {fuel : Nat} {s : State} (hc : s.cfg.Ok) (h : s.bitsLeft ≤ fuel) :
    symbolLoop fuel s = symbolLoop s.bitsLeft s :=
  Nat.le_induction rfl (fun _ hle ih => (symbolLoop_succ hc hle).trans ih) fuel h

/-! ## What BLK.DEC does from a place on -/

def recordRest (s : State) : Act Unit := (symbolLoop s.bitsLeft s).bind fun _ t => .ok () (endBlock t)

def trailingRest (len dist : Nat) (s : State) : Act Unit :=
  (symDec .litlen s).bind fun sym t =>
    if sym ≤ 255 then recordRest (pushMatch dist len (some (BitVec.ofNat 8 sym)) t)
    else if sym = t.cfg.eob then .ok () (endBlock (pushMatch dist len none t))
    else raise .trailingNotLiteral sym t

def distRest (len : Nat) (s : State) : Act Unit :=
  (symDec .dist s).bind fun d t =>
    if t.cfg.ndist ≤ d then raise .symbolOutOfRange d t
    else
      (readExtra t.cfg.distTable d t).bind fun dist u =>
        if u.out.length < dist then raise .distanceTooFar dist u else trailingRest len dist (copyMatch dist len u)

def clsymRest (s : State) : Act Unit :=
  (readSeq s.total s).bind fun _ t => recordRest (beginData (splitSeq t))

def cllenRest (k : Nat) (s : State) : Act Unit :=
  (readClLens k (s.hclen + 4 - k) s).bind fun _ t => clsymRest (beginSeq t)

def hclenRest (s : State) : Act Unit := (readBits 4 s).bind fun v t => cllenRest 0 (setHclen v t)

def hdistRest (s : State) : Act Unit := (readBits 5 s).bind fun v t => hclenRest (setHdist v t)

def hlitRest (s : State) : Act Unit := (readBits 5 s).bind fun v t => hdistRest (setHlit v t)

/-- What is left of the block from a place on; at `bfinal` the block is over. -/
def blockRest : Place → State → Act Unit
  | .bfinal, s => .ok () s
  | .btype, s => blockBody s
  | .hlit, s => hlitRest s
  | .hdist, s => hdistRest s
  | .hclen, s => hclenRest s
  | .cllen k, s => cllenRest k s
  | .clsym, s => clsymRest s
  | .record, s => recordRest s
  | .dist len, s => distRest len s
  | .trailing len dist, s => trailingRest len dist s

theorem blkDec_elements (s : State) : blkDec s = (elementAct .bfinal s).bind blockRest := by
  rw [elementAct, Act.bind_assoc]
  rfl

theorem dynamicBlock_rest (s : State) :
    dynamicBlock s = hlitRest { s with btype := 2, dstate := .dynamicHuffman } := by
  simp only [dynamicBlock, hdrRead, hlitRest, hdistRest, hclenRest, cllenRest, clsymRest, Act.bind_assoc, Act.bind_ok]
  rfl

/-- From every place on BLK.DEC does the element there and then what is left from the next place on. -/
theorem blockRest_elements {p : Place} {s : State} (hs : StandsAt p s) (hp : p ≠ .bfinal) :
    blockRest p s = (elementAct p s).bind blockRest := by
  rw [elementAct, Act.bind_assoc]
  cases p with
  | bfinal => exact absurd rfl hp
  | btype =>
    refine Act.bind_congr fun v t ht => ?_
    rw [elementTail]
    split
    · rfl
    split
    · rfl
    split
    · rfl
    · exact dynamicBlock_rest t
  | hlit | hdist | hclen => exact Act.bind_congr fun v t ht => rfl
  | cllen k =>
    obtain ⟨_, _, _, hk, _⟩ := hs.prepared
    change cllenRest k s = _
    rw [cllenRest, show s.hclen + 4 - k = s.hclen + 4 - (k + 1) + 1 by omega, readClLens, Act.bind_assoc]
    refine Act.bind_congr fun v t ht => ?_
    rw [elementTail, Act.bind_assoc, Act.bind_assoc]
    refine Act.bind_congr fun _ u hu => ?_
    have hclen : s.hclen = u.hclen := by
      rcases setClLen_cases k v t with ⟨c, _, _, h⟩ | ⟨_, h⟩ <;> cases h.symm.trans hu
      obtain ⟨_, _, _, ht⟩ := elementHead_ok (p := .cllen k) ht
      rw [ht]
    rw [hclen]
    split
    · rfl
    · rw [Nat.sub_eq_zero_of_le (not_lt.1 ‹_›)]
      rfl
  | clsym =>
    obtain ⟨_, _, _, hlt, _⟩ := hs.prepared
    change clsymRest s = _
    rw [clsymRest, ← readSeq_succ (Nat.sub_le _ _), readSeq, if_pos hlt, Act.bind_assoc]
    refine Act.bind_congr fun c t ht => ?_
    rw [elementTail, Act.bind_assoc, Act.bind_assoc]
    refine Act.bind_congr fun _ u hu => ?_
    have htotal : s.total = u.total := by
      rw [(clSymbol_ok hu).2, symDec_frame ht]
      rfl
    rw [htotal, readSeq_fuel (Nat.sub_le _ _)]
    split
    · rw [← readSeq_fuel (Nat.sub_le _ _)]
      rfl
    · rw [Nat.sub_eq_zero_of_le (not_lt.1 ‹_›)]
      rfl
  | record =>
    change recordRest s = _
    rw [recordRest, ← symbolLoop_succ hs.cfg le_rfl, symbolLoop, Act.bind_assoc]
    refine Act.bind_congr fun sym t ht => ?_
    have hlt := symDec_bitsLeft ht
    have loop : ∀ {u : State}, Advances t u →
        ((symbolLoop s.bitsLeft u).bind fun _ w => .ok () (endBlock w)) = recordRest u := fun {u} hadv => by
      have hcfg : u.cfg.Ok := by
        rw [hadv.cfg, symDec_frame ht]
        exact hs.cfg
      rw [symbolLoop_fuel hcfg (bitsLeft_lt_of_advances hlt hadv).le]
      rfl
    rw [elementTail]
    split
    · exact loop ⟨le_rfl, rfl⟩
    split
    · rfl
    split
    · rfl
    rw [Act.bind_assoc, Act.bind_assoc]
    refine Act.bind_congr fun len u hu => ?_
    rw [Act.bind_assoc]
    refine Act.bind_congr fun d v hv => ?_
    split
    · rfl
    rw [Act.bind_assoc]
    refine Act.bind_congr fun dist w hw => ?_
    split
    · rfl
    rw [Act.bind_assoc]
    refine Act.bind_congr fun sym' x hx => ?_
    split
    · exact loop ((match_advances hu hv hw hx).trans ⟨le_rfl, rfl⟩)
    split <;> rfl
  | dist len =>
    refine Act.bind_congr fun d t ht => ?_
    rw [elementTail]
    split
    · rfl
    rw [Act.bind_assoc]
    refine Act.bind_congr fun dist u hu => ?_
    split <;> rfl
  | trailing len dist =>
    refine Act.bind_congr fun v t ht => ?_
    rw [elementTail]
    split
    · rfl
    split <;> rfl

/-! ## The run of the elements -/

/-- The element at `p` and what is left after it, as so many steps of the core. -/
theorem elements_reach {p : Place} {q : List Request} {s t : State} (hs : StandsAt p s)
    (h : (((elementAct p s).bind blockRest).bind fun _ u => .ok Place.bfinal u).settle q = .next t) :
    ∃ k, ∀ r, StepsTo k { s with place := p, port := List.replicate k .element ++ q, result := r } t := by
  induction hn : s.bitsLeft using Nat.strong_induction_on generalizing p s with
  | _ n ih =>
    cases hx : elementAct p s with
    | ok p' u =>
      rw [hx, Act.bind_ok] at h
      by_cases hp : p' = .bfinal
      · subst hp
        refine ⟨1, fun r => ⟨_, (step_element hs).trans ?_, rfl⟩⟩
        rw [hx]
        exact h
      · have hu := elementAct_stands hs hx hp
        rw [blockRest_elements hu hp] at h
        obtain ⟨k, hk⟩ := ih _ (hn ▸ elementAct_bitsLeft hx) hu h rfl
        refine ⟨k + 1, fun r => ⟨_, (step_element (q := List.replicate k .element ++ q) hs).trans ?_, hk .none⟩⟩
        rw [hx]
        rfl
    | raised u =>
      rw [hx] at h
      refine ⟨1, fun r => ⟨_, (step_element hs).trans ?_, rfl⟩⟩
      rw [hx]
      exact h
    | fault e =>
      rw [hx] at h
      cases h

/-- Settles O45: a block's answer is the one its elements settle on. -/
theorem blockDecodeIsElementRun : Obligations.BlockDecodeIsElementRun := by
  intro s t hc he hd hp h
  have hport : t.port = s.port := (unitsAreSeparate _ _ _ h).2.2.1
  have hstands : StandsAt .bfinal s := ⟨hc, he, hd⟩
  rw [execBlkDec_ready he hd hp] at h
  have hsettle : ((blkDec s).bind fun _ u => .ok Place.bfinal u).settle s.port = .next t := by
    rcases decoding_completes hc (blkDec_meets hd hp) with ⟨w, hx, hw, _⟩ | ⟨c, v, u, hx, _, _⟩ <;> rw [hx] at h ⊢ <;>
      cases h
    · rw [Act.bind_ok, Act.settle, ← hport, ← hw.place]
    · rw [Act.bind_raised, Act.settle, ← hport]
  rw [blkDec_elements] at hsettle
  obtain ⟨k, hk⟩ := elements_reach hstands hsettle
  refine ⟨k, ?_⟩
  have := hk s.result
  rwa [← hp] at this

end Sys2Proof.Machine
end

section
/-! SUPPORT. What the encoder writes, bit for bit: each writing step is one `writeList` of the bits the wire format
gives its elements. -/

namespace Sys2Proof.Machine

theorem emitCode_bits {a : Alphabet} {sym : Nat} {s : State} (h : hasCode (s.codes a) sym) :
    emitCode a sym s = .ok () (writeList (symbolBits (s.codes a) sym) s) := by
  obtain ⟨c, l, hcl⟩ := h
  simp only [emitCode, symbolBits, hcl, writeCode]

/-- A code after bits already written. -/
theorem emitCode_writeList {a : Alphabet} {sym : Nat} {s : State} (h : hasCode (s.codes a) sym) (bits : List Bool) :
    emitCode a sym (writeList bits s) = .ok () (writeList (bits ++ symbolBits (s.codes a) sym) s) := by
  have hcodes := (writeList_appends bits s).codes a
  rw [emitCode_bits (hcodes ▸ h), hcodes, writeList_append]

/-! ## The header -/

/-- The stream bits of a run-length pair (R95, R243). -/
def pairBits (codes : CodeArray) (p : ClPair) : List Bool := symbolBits codes p.sym ++ p.repeatBits

theorem writePairs_bits {ps : List ClPair} {s : State} (h : ∀ p ∈ ps, hasCode s.clCode p.sym) :
    writePairs ps s = .ok () (writeList (ps.flatMap (pairBits s.clCode)) s) := by
  induction ps generalizing s with
  | nil => rfl
  | cons p ps ih =>
    have hcodes (bits : List Bool) : (writeList bits s).clCode = s.clCode := (writeList_appends bits s).codes .cl
    rw [writePairs, emitCode_bits (a := .cl) (h p (List.mem_cons_self ..)), Act.bind_ok, ← writeList_append,
      ih fun q hq => by rw [hcodes]; exact h q (List.mem_cons_of_mem p hq), hcodes, ← writeList_append]
    rfl

/-- The stream bits of the CLLEN fields of the symbols `cs` (R94, R243). -/
def clLenBits (ls : List Nat) (cs : List Nat) : List Bool := cs.flatMap fun c => fieldBits 3 (ls[c]?.getD 0)

theorem writeClLens_bits {cs : List Nat} {s : State} (h : ∀ c ∈ cs, c < s.clLen.length) :
    writeClLens cs s = .ok () (writeList (clLenBits s.clLen cs) s) := by
  induction cs generalizing s with
  | nil => rfl
  | cons c cs ih =>
    have hlt := h c (List.mem_cons_self ..)
    have hlen (bits : List Bool) : (writeList bits s).clLen = s.clLen := (writeList_appends bits s).clLen
    rw [writeClLens, List.getElem?_eq_getElem hlt]
    change writeClLens cs (writeList (fieldBits 3 s.clLen[c]) s) = _
    rw [ih fun d hd => by rw [hlen]; exact h d (List.mem_cons_of_mem c hd), hlen, ← writeList_append, clLenBits,
      clLenBits, List.flatMap_cons, List.getElem?_eq_getElem hlt]
    rfl

theorem headerBits_eq (s : State) :
    headerBits s = fieldBits 1 s.bfinal.toNat ++ fieldBits 2 2 ++ fieldBits 5 s.hlit ++ fieldBits 5 s.hdist ++
      fieldBits 4 s.hclen ++ clLenBits s.clLen (s.cfg.clperm.take (s.hclen + 4)) ++
      s.rle.flatMap (pairBits s.clCode) := by
  have hpair : (fun p => symbolBits s.clCode p.sym ++ match p with
      | .len _ => [] | .rep x => fieldBits 2 x | .z3 x => fieldBits 3 x | .z11 x => fieldBits 7 x) =
      pairBits s.clCode := by
    funext p
    cases p <;> rfl
  rw [← hpair]
  rfl

theorem hdrWrite_bits {s : State} (hlen : ∀ c ∈ s.cfg.clperm.take (s.hclen + 4), c < s.clLen.length)
    (hcode : ∀ p ∈ s.rle, hasCode s.clCode p.sym) : hdrWrite s = .ok () (writeList (headerBits s) s) := by
  have hcl (bits : List Bool) : (writeList bits s).clLen = s.clLen := (writeList_appends bits s).clLen
  have hcodes (bits : List Bool) : (writeList bits s).clCode = s.clCode := (writeList_appends bits s).codes .cl
  rw [hdrWrite]
  simp only [writeBits, ← writeList_append]
  rw [writeClLens_bits fun c hc => by rw [hcl]; exact hlen c hc, Act.bind_ok, ← writeList_append,
    writePairs_bits fun p hp => by rw [hcodes]; exact hcode p hp, ← writeList_append, hcl, hcodes, headerBits_eq]

theorem exec_hdrWrite {s : State} (he : s.err = none) (hl : s.filled.clLen = true) (hr : s.filled.rle = true)
    (hc : s.rle ≠ [] → s.filled.clCode = true) : exec .hdrWrite s = (hdrWrite s).outcome fun _ => .none := by
  have hpairs : ∀ b ∈ (if s.rle = [] then [] else [Buffer.clCode]), s.filled.has b = true := by
    split
    · nofun
    · intro b hb
      rw [List.mem_singleton.1 hb]
      exact hc ‹_›
  change execHdrWrite s = _
  rw [execHdrWrite, unlessPending_ready he, needs_filled (by simp [Filled.has, hl, hr]), needs_filled hpairs]

/-- Settles O37: HDR.WRITE is one list of bits. -/
theorem headerWrite : Obligations.HeaderWrite := by
  intro s he hw hcl hrle hclCode hlen hcode
  refine ⟨_, ?_, wrote_writeList (headerBits s) s hw⟩
  rw [exec_hdrWrite he hcl hrle hclCode, hdrWrite_bits hlen hcode]
  rfl

/-! ## The records -/

/-- The stream bits of a record's trailing literal (R264). -/
def literalBits (s : State) (r : MatchRecord) : List Bool :=
  if r.hasLit then symbolBits s.litCode r.lit.toNat else []

theorem emitLiteral_bits {r : MatchRecord} {s : State} (h : r.hasLit = true → hasCode s.litCode r.lit.toNat)
    (bits : List Bool) :
    (if r.hasLit then emitCode .litlen r.lit.toNat (writeList bits s) else .ok () (writeList bits s) : Act Unit) =
      .ok () (writeList (bits ++ literalBits s r) s) := by
  unfold literalBits
  split
  · exact emitCode_writeList (a := .litlen) (h ‹_›) bits
  · rw [List.append_nil]

theorem emitRecord_bits {r : MatchRecord} {s : State} (h : RecordCoded s r) :
    emitRecord r s = .ok () (writeList (recordBits s r) s) := by
  obtain ⟨hmatch, hlit⟩ := h
  unfold emitRecord recordBits
  dsimp only
  split
  · rename_i h0
    obtain ⟨l, d, hl, hd, hlc, hdc⟩ := hmatch h0
    simp only [hl, hd]
    rw [emitCode_bits (a := .litlen) hlc, Act.bind_ok, writeBits, ← writeList_append,
      emitCode_writeList (a := .dist) hdc, Act.bind_ok, writeBits, ← writeList_append]
    exact emitLiteral_bits hlit _
  · exact emitLiteral_bits hlit []

theorem recordBits_of_appends {s t : State} (h : Appends s t) (r : MatchRecord) : recordBits t r = recordBits s r := by
  rw [h.2.2]
  rfl

theorem emitRecords_bits {rs : List MatchRecord} {s : State} (h : ∀ r ∈ rs, RecordCoded s r) :
    emitRecords rs s = .ok () (writeList (rs.flatMap (recordBits s)) s) := by
  induction rs generalizing s with
  | nil => rfl
  | cons r rs ih =>
    have hw := writeList_appends (recordBits s r) s
    rw [emitRecords, emitRecord_bits (h r (List.mem_cons_self ..)), Act.bind_ok,
      ih fun q hq => (h q (List.mem_cons_of_mem r hq)).of_appends hw, funext (recordBits_of_appends hw),
      ← writeList_append]
    rfl

theorem exec_symEmit {s : State} {k : Nat} {r : MatchRecord} (he : s.err = none) (hrecs : s.filled.recs = true)
    (hlit : 0 < r.length ∨ r.hasLit = true → s.filled.litCode = true)
    (hdist : 0 < r.length → s.filled.distCode = true) (hr : s.recs[k]? = some r) :
    exec (.symEmit k) s = (emitRecord r s).outcome fun _ => .none := by
  have hcodes : ∀ b ∈ (if 0 < r.length then [Buffer.litCode, .distCode] else if r.hasLit then [.litCode] else []),
      s.filled.has b = true := by
    split
    · simp [Filled.has, hlit (.inl ‹_›), hdist ‹_›]
    split
    · simp [Filled.has, hlit (.inr ‹_›)]
    · nofun
  change execSymEmit k s = _
  rw [execSymEmit, unlessPending_ready he, needs_filled (by simp [Filled.has, hrecs])]
  simp only [hr]
  rw [needs_filled hcodes]

/-- Settles O40: SYM.EMIT is one list of bits. -/
theorem symbolEmit : Obligations.SymbolEmit := by
  intro s k r he hw hrecs hlit hdist hr hcoded
  refine ⟨_, ?_, wrote_writeList (recordBits s r) s hw⟩
  rw [exec_symEmit he hrecs hlit hdist hr, emitRecord_bits hcoded]
  rfl

end Sys2Proof.Machine
end

section
/-! SUPPORT. Runs of instructions that complete, and HDR.BUILD as one of them. -/

namespace Sys2Proof.Machine

theorem runAll_cons_next {i : Instr} {is : List Instr} {s t : State} (h : exec i s = .next t) :
    runAll (i :: is) s = runAll is t := by
  rw [runAll, h]

/-- The state an instruction leaves whose only result is what it wrote. -/
def State.finished (s : State) : State := { s with result := .none }

theorem exec_rleEnc {s : State} (he : s.err = none) (hf : s.filled.seq = true) :
    exec .rleEnc s = .next (rleEnc s).finished := by
  change execRleEnc s = _
  rw [execRleEnc, unlessPending_ready he, needs_filled (by simp [Filled.has, hf])]
  rfl

theorem exec_hufBuild {a : Nat} {x : Alphabet} {s : State} (ha : Alphabet.ofOperand a = some x) (he : s.err = none)
    (hf : s.filled.has x.freqBuffer = true) : exec (.hufBuild a) s = .next (hufBuild x s).finished := by
  change execHufBuild a s = _
  rw [execHufBuild, unlessPending_ready he, onAlphabet_some ha, needs_filled (by simpa using hf)]
  rfl

theorem exec_hufCanon {a : Nat} {x : Alphabet} {s : State} (ha : Alphabet.ofOperand a = some x) (he : s.err = none)
    (hf : s.filled.has x.lenBuffer = true) : exec (.hufCanon a) s = .next (hufCanon x s).finished := by
  change execHufCanon a s = _
  rw [execHufCanon, unlessPending_ready he, onAlphabet_some ha, needs_filled (by simpa using hf)]
  rfl

theorem exec_hdrBuild {s : State} (he : s.err = none) (hl : s.filled.litLen = true) (hd : s.filled.distLen = true) :
    exec .hdrBuild s = (hdrBuild s).outcome fun _ => .none := by
  change execHdrBuild s = _
  rw [execHdrBuild, unlessPending_ready he, needs_filled (by simp [Filled.has, hl, hd])]

/-- The two operations that make the codes of the code-length alphabet (R241). -/
theorem run_clCodes {s : State} (he : s.err = none) (hf : s.filled.clFreq = true) :
    runAll [.hufBuild 2, .hufCanon 2] s = .next (hufCanon .cl (hufBuild .cl s).finished).finished :=
  (runAll_cons_next (exec_hufBuild (x := .cl) rfl he hf)).trans
    (runAll_cons_next (exec_hufCanon (x := .cl) (s := (hufBuild .cl s).finished) rfl he rfl))

/-- The count of R241, symbol by symbol. -/
theorem clCounts_eq (c : Config.Params) (ps : List ClPair) :
    clCounts c ps = (List.range c.ncl).map fun k => (ps.filter fun p => p.sym = k).length := by
  refine List.map_congr_left fun k _ => ?_
  rw [List.count, List.countP_map, List.countP_eq_length_filter]
  rfl

/-- `hclen` by the last entry sent that is not 0 (R240). -/
theorem hclenOf_of_last {c : Config.Params} {ls : List Nat} {lastK sym : Nat} (hk : c.clperm[lastK]? = some sym)
    (hne : ls[sym]?.getD 0 ≠ 0)
    (hz : ∀ k q, lastK < k → c.clperm[k]? = some q → ls[q]?.getD 0 = 0) : hclenOf c ls = max (lastK + 1) 4 - 4 := by
  have hlast : lastNonzero (c.clperm.map fun k => ls[k]?.getD 0) = some lastK := by
    refine lastNonzero_eq_of_last ?_ (by simp [hk, hne]) fun j hj hlt => ?_
    · rw [List.length_map]
      exact (List.getElem?_eq_some_iff.1 hk).1
    · rw [List.length_map] at hlt
      have hq := List.getElem?_eq_getElem hlt
      rw [List.getElem?_map, hq, Option.map_some, hz j _ hj hq]
  rw [hclenOf, hlast, Option.getD_some]
  omega

/-- The state HDR.BUILD has sized (R241). -/
def headerSized (s : State) : State :=
  sizeTo (sizeLit s).1 ((lastNonzero (s.distLen.take s.cfg.ndist)).getD 0)
    { s with btype := 2, fresh := s.fresh + (sizeLit s).2 }

theorem hdrSize_dynamic {s : State} (hl : s.cfg.nlit ≤ s.litLen.length) (hd : s.cfg.ndist ≤ s.distLen.length) :
    hdrSize { s with btype := 2 } = .ok () (headerSized s) := hdrSize_covered (s := { s with btype := 2 }) hl hd

/-- The state with the code-length symbols of its pairs counted (R241). -/
def countPairs (s : State) : State :=
  { s with
    clFreq := (List.range s.cfg.ncl).map fun c => (s.rle.filter fun p => p.sym = c).length
    filled := { s.filled with clFreq := true } }

theorem countPairs_eq (s : State) : countPairs s = setFreqs .cl (clCounts s.cfg s.rle) s := by
  rw [clCounts_eq]
  rfl

def writeHclen (s : State) : State := { s with hclen := hclenOf s.cfg s.clLen }

theorem hdrBuild_sized {s : State} (hl : s.cfg.nlit ≤ s.litLen.length) (hd : s.cfg.ndist ≤ s.distLen.length) :
    hdrBuild s =
      .ok () (writeHclen (hufCanon .cl (hufBuild .cl (countPairs (rleEnc (headerSized s)))))) := by
  rw [hdrBuild, hdrSize_dynamic hl hd, countPairs_eq]
  rfl

/-- Settles O36: HDR.BUILD is its parts one after another; only `hclen` and the result word are written after them. -/
theorem headerBuild : Obligations.HeaderBuild := by
  intro s hc he hfl hfd hlit hdist
  have hsize : exec .hdrSize { s with btype := 2 } = .next (headerSized s).finished :=
    (execHdrSize_ready (s := { s with btype := 2 }) he hfl hfd).trans (by rw [hdrSize_dynamic hlit hdist]; rfl)
  have hbuild := exec_hdrBuild he hfl hfd
  rw [hdrBuild_sized hlit hdist] at hbuild
  have hpairs := exec_rleEnc (s := (headerSized s).finished) he rfl
  exact ⟨_, _, _, (runAll_cons_next hsize).trans (runAll_cons_next hpairs),
    run_clCodes (s := countPairs (rleEnc (headerSized s).finished).finished) he rfl, hbuild, rfl,
    fun _ _ => hclenOf_of_last, Nat.le_of_lt_succ (hclenOf_lt hc _)⟩

end Sys2Proof.Machine
end

section
/-! SUPPORT. BLK.ENC is its expansion: the instructions run one after another differ from the inner steps of BLK.ENC in
the result word each leaves, and no step of the encoder looks at it. -/

namespace Sys2Proof.Machine

/-! ## The encoder does not look at the result word -/

section
variable {d : Dressing}

theorem writeBit_dress (b : Bool) (s : State) : writeBit b (s.dress d) = (writeBit b s).dress d := by
  by_cases h : s.wCnt = 7
  · have h' : (s.dress d).wCnt = 7 := h
    rw [writeBit, writeBit, if_pos h, if_pos h']
    rfl
  · have h' : (s.dress d).wCnt ≠ 7 := h
    rw [writeBit, writeBit, if_neg h, if_neg h']
    rfl

theorem writeList_dress (bits : List Bool) (s : State) : writeList bits (s.dress d) = (writeList bits s).dress d := by
  induction bits generalizing s with
  | nil => rfl
  | cons b bits ih => rw [writeList_cons, writeList_cons, writeBit_dress, ih]

theorem emitCode_blind (a : Alphabet) (sym : Nat) : Blind d (emitCode a sym) := fun s => by
  have hcodes : (s.dress d).codes a = s.codes a := by cases a <;> rfl
  unfold emitCode
  rw [hcodes]
  split
  · exact congrArg (Act.ok ()) (writeList_dress ..)
  · rfl

theorem writePairs_blind (ps : List ClPair) : Blind d (writePairs ps) := by
  induction ps with
  | nil => exact .ok ()
  | cons p ps ih => exact (emitCode_blind .cl p.sym).bind fun _ => ih.after (writeList_dress p.repeatBits)

theorem writeClLens_blind (cs : List Nat) : Blind d (writeClLens cs) := by
  induction cs with
  | nil => exact .ok ()
  | cons c cs ih =>
    intro s
    unfold writeClLens
    change (match s.clLen[c]? with | none => _ | some l => _) = _
    cases s.clLen[c]? with
    | none => rfl
    | some l => exact ih.after (writeList_dress (fieldBits 3 l)) s

theorem hdrWrite_blind : Blind d hdrWrite := fun s => by
  have hfields := ((writeClLens_blind (d := d) (s.cfg.clperm.take (s.hclen + 4))).bind fun _ =>
    writePairs_blind s.rle).after fun t => writeList_dress (fieldBits 4 s.hclen) t
  have hsizes := (hfields.after fun t => writeList_dress (fieldBits 5 s.hdist) t).after
    fun t => writeList_dress (fieldBits 5 s.hlit) t
  exact (hsizes.after fun t => writeList_dress (fieldBits 2 2) t).after
    (fun t => writeList_dress (fieldBits 1 s.bfinal.toNat) t) s

theorem emitLiteral_blind (r : MatchRecord) :
    Blind d fun t => if r.hasLit then emitCode .litlen r.lit.toNat t else .ok () t :=
  .ite (c := fun _ => r.hasLit = true) (fun _ => .rfl) (emitCode_blind _ _) (.ok ())

theorem emitRecord_blind (r : MatchRecord) : Blind d (emitRecord r) := by
  refine .ite (c := fun _ => 0 < r.length) (fun _ => .rfl) (fun s => ?_) (emitLiteral_blind r)
  change (match lenRow s.cfg r.length, distRow s.cfg r.offset with | some l, some d => _ | _, _ => _) = _
  cases lenRow s.cfg r.length with
  | none => rfl
  | some l =>
    cases distRow s.cfg r.offset with
    | none => rfl
    | some e =>
      exact ((emitCode_blind .litlen l.sym).bind fun _ =>
        ((emitCode_blind .dist e.sym).after (writeList_dress (fieldBits l.extra (r.length - l.base)))).bind fun _ =>
          (emitLiteral_blind r).after (writeList_dress (fieldBits e.extra (r.offset - e.base)))) s

theorem blkFreq_blind : Blind d blkFreq := fun s => by
  unfold blkFreq
  change (match countRecords s.cfg s.recs (List.replicate s.cfg.nlit 0, List.replicate s.cfg.ndist 0) with
    | none => _ | some (lf, df) => _) = _
  cases countRecords s.cfg s.recs (List.replicate s.cfg.nlit 0, List.replicate s.cfg.ndist 0) <;> rfl

theorem hdrSize_blind : Blind d hdrSize :=
  .ite (c := fun s => s.litLen.length < s.cfg.nlit) (fun _ => .rfl) (fun _ => rfl) <|
    .ite (c := fun s => s.distLen.length < s.cfg.ndist) (fun _ => .rfl) (fun _ => rfl) (.of_update fun _ => rfl)

theorem hdrBuild_blind : Blind d hdrBuild :=
  (hdrSize_blind.after (u := fun s => { s with btype := 2 }) fun _ => rfl).bind fun _ => .of_update fun _ => rfl

end

/-! ## Instructions one after another -/

/-- The result word of an instruction that only writes. -/
def quiet : Dressing := ⟨id, id, fun _ => .none⟩

theorem finished_eq_dress (s : State) : s.finished = s.dress quiet := rfl

/-- An instruction after another one: what its step does to the state without the result word between. -/
theorem exec_finished {i : Instr} {f : State → Act Unit} {s t : State} (hf : Blind quiet f)
    (hexec : exec i s.finished = (f s.finished).outcome fun _ => .none) (h : f s = .ok () t) :
    exec i s.finished = .next t.finished := by
  rw [hexec, finished_eq_dress, hf s, h]
  rfl

theorem Appends.err {s t : State} (h : Appends s t) : t.err = s.err := by rw [h.2.2]

theorem Appends.filled {s t : State} (h : Appends s t) : t.filled = s.filled := by rw [h.2.2]

theorem appends_of_writes {α : Type} {s t : State} {x : Act α} {a : α} (hx : x.Writes s) (h : x = .ok a t) :
    Appends s t := by
  rw [h] at hx
  exact hx

theorem blkFreq_ok {s t : State} (h : blkFreq s = .ok () t) :
    ∃ lf df, t = setFreqs .dist df (setFreqs .litlen lf s) := by
  rcases blkFreq_cases s with ⟨lf, df, _, h'⟩ | ⟨e, h'⟩ <;> cases h'.symm.trans h
  exact ⟨_, df, rfl⟩

theorem hdrBuild_ok {s t : State} (h : hdrBuild s = .ok () t) :
    t.err = s.err ∧ t.cfg = s.cfg ∧ t.recs = s.recs ∧ t.filled =
      { s.filled with seq := true, rle := true, clFreq := true, clLen := true, clCode := true } := by
  rcases hdrBuild_cases s with ⟨a, d, q, k, _, h'⟩ | ⟨k, h'⟩ <;> cases h'.symm.trans h
  exact ⟨rfl, rfl, rfl, rfl⟩

/-- No error pending, the records and both data codes filled: what SYM.EMIT of any record needs. -/
structure EmitReady (s : State) : Prop where
  err      : s.err = none
  recs     : s.filled.recs = true
  litCode  : s.filled.litCode = true
  distCode : s.filled.distCode = true

theorem EmitReady.of_appends {s t : State} (hs : EmitReady s) (h : Appends s t) : EmitReady t := by
  obtain ⟨he, hr, hl, hd⟩ := hs
  constructor
  · rw [h.err, he]
  all_goals rwa [h.filled]

/-- The records from the `k`-th on. -/
theorem run_symEmits {s t : State} {k : Nat} {rs : List MatchRecord} (hs : EmitReady s) (hrs : s.recs.drop k = rs)
    (h : emitRecords rs s = .ok () t) :
    runAll ((List.range' k rs.length).map .symEmit) s.finished = .next t.finished := by
  induction rs generalizing s k with
  | nil =>
    cases h
    rfl
  | cons r rs ih =>
    obtain ⟨_, u, hu, h⟩ := Act.bind_eq_ok h
    have happ := appends_of_writes (emitRecord_writes r s) hu
    have hr : s.recs[k]? = some r := by rw [← List.head?_drop, hrs, List.head?_cons]
    have hdrop : u.recs.drop (k + 1) = rs := by rw [happ.recs, ← List.tail_drop, hrs, List.tail_cons]
    have hexec := exec_symEmit (s := s.finished) hs.err hs.recs (fun _ => hs.litCode) (fun _ => hs.distCode) hr
    rw [List.length_cons, List.range'_succ, List.map_cons,
      runAll_cons_next (exec_finished (emitRecord_blind r) hexec hu)]
    exact ih (hs.of_appends happ) hdrop h

theorem exec_blkFreq {s : State} (he : s.err = none) (hf : s.filled.recs = true) :
    exec .blkFreq s = (blkFreq s).outcome fun _ => .none := by
  change execBlkFreq s = _
  rw [execBlkFreq, unlessPending_ready he, needs_filled (by simp [Filled.has, hf])]

theorem exec_lzEncode {s : State} {n : Nat} (he : s.err = none) (hn : n ≤ s.cfg.chunkMax) (hd : n ≤ s.data.length) :
    exec (.lzEncode n) s = .next (lzEncode n s).finished := by
  change execLzEncode n s = _
  rw [execLzEncode, unlessPending_ready he, withChunk_placed hn hd]
  rfl

/-- The two code sets of the data part (R262). -/
def buildCodes (s : State) : State := hufCanon .dist (hufCanon .litlen (hufBuild .dist (hufBuild .litlen s)))

theorem run_buildCodes {s : State} (is : List Instr) (he : s.err = none) (hl : s.filled.litFreq = true)
    (hd : s.filled.distFreq = true) :
    runAll (.hufBuild 0 :: .hufBuild 1 :: .hufCanon 0 :: .hufCanon 1 :: is) s.finished =
      runAll is (buildCodes s).finished :=
  (runAll_cons_next (exec_hufBuild (x := .litlen) (s := s.finished) rfl he hl)).trans <|
    (runAll_cons_next (exec_hufBuild (x := .dist) (s := (hufBuild .litlen s).finished) rfl he hd)).trans <|
    (runAll_cons_next (exec_hufCanon (x := .litlen) (s := (hufBuild .dist (hufBuild .litlen s)).finished) rfl he
      rfl)).trans <|
    runAll_cons_next (exec_hufCanon (x := .dist)
      (s := (hufCanon .litlen (hufBuild .dist (hufBuild .litlen s))).finished) rfl he rfl)

/-- What an answer of BLK.ENC's own steps consists of. -/
theorem blkEnc_ok {n : Nat} {final : Bool} {s t : State} (h : blkEnc n final s = .ok () t) :
    ∃ f b x y, blkFreq (lzEncode n { s with bfinal := final }) = .ok () f ∧ hdrBuild (buildCodes f) = .ok () b ∧
      hdrWrite b = .ok () x ∧ emitRecords x.recs x = .ok () y ∧ emitCode .litlen y.cfg.eob y = .ok () t := by
  obtain ⟨_, f, hf, h⟩ := Act.bind_eq_ok h
  obtain ⟨_, b, hb, h⟩ := Act.bind_eq_ok h
  obtain ⟨_, x, hx, h⟩ := Act.bind_eq_ok h
  obtain ⟨_, y, hy, h⟩ := Act.bind_eq_ok h
  exact ⟨f, b, x, y, hf, hb, hx, hy, h⟩

/-- Settles O41: the inner steps of BLK.ENC, each as the instruction it is. -/
theorem blockEncodeExpands : Obligations.BlockEncodeExpands := by
  intro s t n final h
  obtain ⟨he, h⟩ := unlessPending_eq h nofun
  obtain ⟨hn, hd, h⟩ := withChunk_eq h nofun
  rcases Act.outcome_eq_next h with ⟨_, w, hok, rfl⟩ | h
  case inr =>
    have := blkEnc_encodes n final s
    rw [h] at this
    exact this.elim
  obtain ⟨f, b, x, y, hf, hb, hx, hy, hz⟩ := blkEnc_ok hok
  obtain ⟨_, _, _, _, _, _, _, _, _, _, hframe⟩ := lzEncode_frame n { s with bfinal := final }
  have hexec := exec_lzEncode (s := { s with bfinal := final }) he hn hd
  generalize lzEncode n { s with bfinal := final } = e at hf hframe hexec
  have ecfg : e.cfg = s.cfg := by rw [hframe]
  have eerr : e.err = none := by rw [hframe]; exact he
  have erecs : e.filled.recs = true := by rw [hframe]
  obtain ⟨lf, df, rfl⟩ := blkFreq_ok hf
  obtain ⟨berr, bcfg, _, bfilled⟩ := hdrBuild_ok hb
  have happ := appends_of_writes (hdrWrite_writes b) hx
  have hready : EmitReady x := by
    refine EmitReady.of_appends ⟨berr.trans eerr, ?_, ?_, ?_⟩ happ <;> rw [bfilled]
    · exact erecs
    · rfl
    · rfl
  have happ' := appends_of_writes (emitRecords_writes x.recs x) hy
  have ycfg : y.cfg = s.cfg := by rw [happ'.cfg, happ.cfg, bcfg]; exact ecfg
  rcases emitCode_cases .litlen y.cfg.eob y with ⟨c, l, hcl, hw⟩ | ⟨_, hw⟩ <;> cases hw.symm.trans hz
  rw [ycfg] at hcl
  refine ⟨x.finished, y.finished, c, l, ?_, ?_, hcl, ?_⟩
  · obtain ⟨hl, hr, hc⟩ : b.filled.clLen = true ∧ b.filled.rle = true ∧ b.filled.clCode = true := by
      rw [bfilled]
      exact ⟨rfl, rfl, rfl⟩
    have hwrite : exec .hdrWrite b.finished = _ :=
      exec_hdrWrite (s := b.finished) (berr.trans eerr) hl hr fun _ => hc
    rw [runAll_cons_next hexec, runAll_cons_next (exec_finished blkFreq_blind (exec_blkFreq eerr erecs) hf)]
    refine (run_buildCodes _ ?_ rfl rfl).trans ?_
    · exact eerr
    rw [runAll_cons_next (exec_finished hdrBuild_blind (exec_hdrBuild ?_ rfl rfl) hb),
      runAll_cons_next (exec_finished hdrWrite_blind hwrite hx)]
    · rfl
    · exact eerr
  · rw [List.range_eq_range']
    exact run_symEmits hready rfl hy
  · have hw : (writeCode c l y).finished = writeCode c l y.finished := (writeList_dress (d := quiet) _ y).symm
    rw [← hw]
    rfl

end Sys2Proof.Machine
end

section
/-! SUPPORT. LZ.ENCODE is its passes: LZ.FIND and LZ.INSERT as instructions leave a result word, and no step of the
matcher looks at it. -/

namespace Sys2Proof.Machine

/-! ## The matcher does not look at the result word -/

section
variable {d : Dressing}

theorem ite_dress (c : Prop) [Decidable c] (s t : State) :
    (if c then s else t).dress d = if c then s.dress d else t.dress d := apply_ite (State.dress · d) c s t

theorem examine_dress (chunk : List Byte) (i c : Nat) (s : State) :
    examine chunk i c (s.dress d) = (examine chunk i c s).dress d := by
  unfold examine
  rw [ite_dress, ite_dress, ite_dress]
  rfl

/-- One step of the walk, in terms of the candidate examined. -/
theorem walk_cand {s t : State} {c : Nat} (hc : s.cand = some c) {chunk : List Byte} {i : Nat} (fuel : Nat)
    (ht : examine chunk i c { s with visited := s.visited + 1 } = t) :
    walk chunk i (fuel + 1) s =
      if s.cfg.maxMatch ≤ t.bestLen then t
      else walk chunk i fuel { t with cand := t.prev.read (c % s.cfg.prevSize) } := by
  rw [← ht, walk]
  split
  · rename_i hnone
    cases hc.symm.trans hnone
  · rename_i c' hc'
    cases hc.symm.trans hc'
    rfl

theorem walk_dress (chunk : List Byte) (i fuel : Nat) (s : State) :
    walk chunk i fuel (s.dress d) = (walk chunk i fuel s).dress d := by
  induction fuel generalizing s with
  | zero => rfl
  | succ fuel ih =>
    cases hc : s.cand with
    | none =>
      have hc' : (s.dress d).cand = none := hc
      rw [walk_of_none hc', walk_of_none hc]
    | some c =>
      have hc' : (s.dress d).cand = some c := hc
      have hex := examine_dress (d := d) chunk i c { s with visited := s.visited + 1 }
      rw [walk_cand hc' fuel hex, walk_cand hc fuel rfl, ite_dress, ← ih]
      rfl

theorem lzFind_dress (chunk : List Byte) (i h : Nat) (s : State) :
    lzFind chunk i h (s.dress d) = (lzFind chunk i h s).dress d := by
  unfold lzFind
  exact walk_dress chunk i s.cfg.maxChain { s with
    cap := min s.cfg.maxMatch (s.n - i), bestLen := 0, bestDist := 0, h := h, cand := s.hashHead.read h, visited := 0 }

theorem searchAt_dress (chunk : List Byte) (s : State) :
    searchAt chunk (s.dress d) = (searchAt chunk s).dress d := by
  unfold searchAt
  change (match hashAt s.cfg chunk s.i with | some h => _ | none => _) = _
  cases hashAt s.cfg chunk s.i with
  | none => rfl
  | some h => exact lzFind_dress chunk s.i h s

theorem lzInsert_dress (chunk : List Byte) (p : Nat) (s : State) :
    lzInsert chunk p (s.dress d) = (lzInsert chunk p s).dress d := by
  unfold lzInsert
  change (match hashAt s.cfg chunk p with | none => _ | some v => _) = _
  cases hashAt s.cfg chunk p <;> rfl

theorem insertFrom_dress (chunk : List Byte) (p k : Nat) (s : State) :
    insertFrom chunk p k (s.dress d) = (insertFrom chunk p k s).dress d := by
  induction k generalizing p s with
  | zero => rfl
  | succ k ih => rw [insertFrom, insertFrom, lzInsert_dress, ih]

end

/-! ## One pass -/

theorem exec_lzInsert {s : State} (p : Nat) (he : s.err = none) (hd : s.n ≤ s.data.length) :
    exec (.lzInsert p) s = .next (lzInsert s.chunk p s).finished := by
  change execLzInsert p s = _
  rw [execLzInsert, unlessPending_ready he]
  split
  · rw [withBytes_placed (by omega)]
    rfl
  · have hlen : s.chunk.length = s.n := List.length_take_of_le hd
    have hnone : hashAt s.cfg s.chunk p = none := by
      rw [← Option.not_isSome_iff_eq_none, hashAt_isSome, hlen]
      assumption
    rw [lzInsert, hnone]
    rfl

/-- LZ.INSERT of one position after another (R177, step 5). -/
theorem run_lzInserts {s : State} (p k : Nat) (he : s.err = none) (hd : s.n ≤ s.data.length) :
    runAll ((List.range' p (k + 1)).map .lzInsert) s = .next (insertFrom s.chunk p (k + 1) s).finished := by
  induction k generalizing p s with
  | zero => exact runAll_cons_next (exec_lzInsert p he hd)
  | succ k ih =>
    obtain ⟨hh, pr, hframe⟩ := lzInsert_frame s.chunk p s
    have hchunk : (lzInsert s.chunk p s).finished.chunk = s.chunk := by
      rw [hframe]
      rfl
    rw [List.range'_succ, List.map_cons, runAll_cons_next (exec_lzInsert p he hd), ih, hchunk,
      finished_eq_dress (lzInsert s.chunk p s), insertFrom_dress]
    · rfl
    · rw [hframe]
      exact he
    · rw [hframe]
      exact hd

/-- The record of a pass, by its match (R177, steps 4 and 5). -/
def passRecord (chunk : List Byte) (b : Byte) (t : State) : MatchRecord :=
  if t.bestLen < t.cfg.minMatch then .literal b else .ofMatch t.bestDist t.bestLen chunk[t.i + t.bestLen]?

/-- The positions a pass covers. -/
def passSpan (t : State) : Nat := if t.bestLen < t.cfg.minMatch then 1 else t.bestLen + 1

/-- The end of a pass: its record, and every position it covers inserted. -/
def endPass (chunk : List Byte) (b : Byte) (t : State) : State :=
  let u := insertFrom chunk t.i (passSpan t) { t with recs := t.recs ++ [passRecord chunk b t] }
  { u with i := t.i + passSpan t }

theorem endPass_frame (chunk : List Byte) (b : Byte) (t : State) :
    ∃ hh pr, endPass chunk b t =
      { t with
        recs := t.recs ++ [passRecord chunk b t], i := t.i + passSpan t, hashHead := hh, prev := pr } := by
  obtain ⟨hh, pr, h⟩ := insertFrom_frame chunk t.i (passSpan t)
    { t with recs := t.recs ++ [passRecord chunk b t] }
  refine ⟨hh, pr, ?_⟩
  rw [endPass, h]

theorem endPass_dress {d : Dressing} (chunk : List Byte) (b : Byte) (t : State) :
    endPass chunk b (t.dress d) = (endPass chunk b t).dress d := by
  have h := insertFrom_dress (d := d) chunk t.i (passSpan t) { t with recs := t.recs ++ [passRecord chunk b t] }
  exact congrArg (fun u : State => { u with i := t.i + passSpan t }) h

theorem endPass_eq (chunk : List Byte) (b : Byte) (t : State) :
    endPass chunk b t = if t.bestLen < t.cfg.minMatch then encodeLiteral chunk b t else encodeMatch chunk t := by
  unfold endPass passSpan passRecord
  split <;> rfl

theorem encodeLoop_pass {chunk : List Byte} {fuel : Nat} {s : State} {b : Byte} (hb : chunk[s.i]? = some b) :
    encodeLoop chunk (fuel + 1) s = encodeLoop chunk fuel (endPass chunk b (searchAt chunk s)) := by
  have hcfg : (searchAt chunk s).cfg = s.cfg := by
    obtain ⟨_, _, _, _, _, _, hf⟩ := searchAt_frame chunk s
    rw [hf]
  rw [encodeLoop, hb, endPass_eq, hcfg]

/-- A byte of the chunk is a byte placed, below the chunk's end. -/
theorem chunk_get (s : State) (p : Nat) : s.chunk[p]? = s.data[p]?.filter fun _ => p < s.n := by
  rw [State.chunk, List.getElem?_take]
  by_cases hp : p < s.n
  · cases s.data[p]? with
    | none => simp
    | some x => simp [hp, Option.filter]
  · simp [hp]

/-- A pass as the instructions of R109, its search done. -/
def passOn (fuel : Nat) (t : State) : Out :=
  match runAll ((List.range' t.i (passSpan t)).map .lzInsert)
    { t with recs := t.recs ++ [passRecord t.chunk (t.data[t.i]?.getD 0#8) t] } with
  | .fault f => .fault f
  | .refused r => .refused r
  | .next u => encodePasses fuel { u with i := u.i + passSpan t }

theorem encodePasses_pass {fuel : Nat} {s t : State} (hi : s.i < s.n)
    (ht : (if s.i + 2 < s.n then exec (.lzFind s.i) s else .next { s with bestLen := 0, bestDist := 0 } : Out) =
      .next t) : encodePasses (fuel + 1) s = passOn fuel t := by
  rw [encodePasses, if_neg (not_le.2 hi), ht, passOn, passRecord, chunk_get]
  rfl

/-- The search of a pass as an instruction (R174). -/
theorem exec_search {s : State} (he : s.err = none) (hd : s.n ≤ s.data.length) :
    ∃ r, (if s.i + 2 < s.n then exec (.lzFind s.i) s else .next { s with bestLen := 0, bestDist := 0 } : Out) =
      .next { searchAt s.chunk s with result := r } := by
  have hlen : s.chunk.length = s.n := List.length_take_of_le hd
  have hsome := hashAt_isSome s.cfg s.chunk s.i
  rw [hlen] at hsome
  unfold searchAt
  split
  · obtain ⟨h, hh⟩ := Option.isSome_iff_exists.1 (hsome.2 ‹_›)
    refine ⟨.found (lzFind s.chunk s.i h s).bestLen (lzFind s.chunk s.i h s).bestDist, ?_⟩
    change execLzFind s.i s = _
    rw [execLzFind, unlessPending_ready he, if_pos ‹_›, withBytes_placed (by omega), hh]
    rfl
  · rw [Option.not_isSome_iff_eq_none.1 (mt hsome.1 ‹_›)]
    exact ⟨s.result, rfl⟩

/-- The same after an instruction. -/
theorem exec_search_finished {s : State} (he : s.err = none) (hd : s.n ≤ s.data.length) :
    ∃ r, (if s.finished.i + 2 < s.finished.n then exec (.lzFind s.finished.i) s.finished
      else .next { s.finished with bestLen := 0, bestDist := 0 } : Out) =
        .next ((searchAt s.chunk s).dress ⟨id, id, fun _ => r⟩) := by
  obtain ⟨r, hr⟩ := exec_search (s := s.finished) he hd
  refine ⟨r, hr.trans (congrArg Host.Outcome.next ?_)⟩
  have hsearch : searchAt s.chunk s.finished = (searchAt s.chunk s).finished := searchAt_dress (d := quiet) s.chunk s
  exact congrArg (fun t : State => { t with result := r }) hsearch

theorem passOn_eq {fuel : Nat} {t : State} {b : Byte} (he : t.err = none) (hd : t.n ≤ t.data.length)
    (hb : t.data[t.i]? = some b) : passOn fuel t = encodePasses fuel (endPass t.chunk b t).finished := by
  obtain ⟨k, hk⟩ : ∃ k, passSpan t = k + 1 := by
    unfold passSpan
    split
    · exact ⟨0, rfl⟩
    · exact ⟨_, rfl⟩
  have hrun := run_lzInserts (s := { t with recs := t.recs ++ [passRecord t.chunk b t] }) t.i k he hd
  obtain ⟨hh, pr, hframe⟩ := insertFrom_frame t.chunk t.i (k + 1) { t with recs := t.recs ++ [passRecord t.chunk b t] }
  have hi : (insertFrom t.chunk t.i (k + 1) { t with recs := t.recs ++ [passRecord t.chunk b t] }).i = t.i := by
    rw [hframe]
  rw [passOn, hb, Option.getD_some, hk, hrun, endPass, hk]
  exact congrArg (fun i => encodePasses fuel
    { (insertFrom t.chunk t.i (k + 1) { t with recs := t.recs ++ [passRecord t.chunk b t] }).finished with
      i := i + (k + 1) }) hi

/-- The passes of LZ.ENCODE, whatever result word the state has. -/
theorem encodePasses_eq {fuel : Nat} {s : State} (he : s.err = none) (hd : s.n ≤ s.data.length) :
    encodePasses fuel s.finished = .next (encodeLoop s.chunk fuel s).finished := by
  induction fuel generalizing s with
  | zero => rfl
  | succ fuel ih =>
    have hlen : s.chunk.length = s.n := List.length_take_of_le hd
    by_cases hi : s.i < s.n
    · obtain ⟨b, hb⟩ : ∃ b, s.chunk[s.i]? = some b := ⟨_, List.getElem?_eq_getElem (hlen ▸ hi)⟩
      obtain ⟨r, hr⟩ := exec_search_finished he hd
      obtain ⟨_, _, _, _, _, _, hframe⟩ := searchAt_frame s.chunk s
      have hdata : s.data[s.i]? = some b := by
        rw [State.chunk, List.getElem?_take_of_lt hi] at hb
        exact hb
      obtain ⟨_, _, hend⟩ := endPass_frame s.chunk b (searchAt s.chunk s)
      have hchunk : (endPass s.chunk b (searchAt s.chunk s)).chunk = s.chunk := by
        rw [hend, hframe]
        rfl
      have hpass : ((searchAt s.chunk s).dress ⟨id, id, fun _ => r⟩).chunk = s.chunk := by
        rw [hframe]
        rfl
      rw [encodePasses_pass (s := s.finished) hi hr, encodeLoop_pass hb, passOn_eq (b := b)
        (by rw [hframe]; exact he) (by rw [hframe]; exact hd) (by rw [hframe]; exact hdata), hpass, endPass_dress]
      have := ih (s := endPass s.chunk b (searchAt s.chunk s)) (by rw [hend, hframe]; exact he)
        (by rw [hend, hframe]; exact hd)
      rw [hchunk] at this
      exact this
    · have hnone : s.chunk[s.i]? = none := List.getElem?_eq_none (hlen ▸ not_lt.1 hi)
      rw [encodeLoop, hnone]
      exact if_pos (not_lt.1 hi)

/-- Settles O60: LZ.ENCODE's loop as the instructions of each pass. -/
theorem encodeExpands : Obligations.EncodeExpands := by
  intro s n he hn hd
  refine ⟨(lzReset s).finished, (lzEncode n s).finished, ?_, ?_, exec_lzEncode he hn hd⟩
  · change execLzReset s = _
    rw [execLzReset, unlessPending_ready he]
    rfl
  · exact encodePasses_eq (s := { setRecs [] (lzReset s) with n := n, i := 0 }) he hd

end Sys2Proof.Machine
end

section
/-! SUPPORT. BLK.ENC completes with the bits of the whole block: the records of LZ.ENCODE cover the chunk, every symbol
they need was counted, so it has a code, and the header is sized by the end-of-block code. -/

namespace Sys2Proof.Machine

/-! ## The records cover the chunk -/

/-- No candidate at a greater distance than the position is taken (R174). -/
theorem examine_bestDist_le {chunk : List Byte} {i c : Nat} {s : State} (h : s.bestDist ≤ i) :
    (examine chunk i c s).bestDist ≤ i := by
  unfold examine
  split
  · split
    · dsimp only
      split
      · exact Nat.sub_le i c
      · exact h
    · exact h
  · exact h

theorem walk_bestDist_le {chunk : List Byte} {i fuel : Nat} {s : State} (h : s.bestDist ≤ i) :
    (walk chunk i fuel s).bestDist ≤ i := by
  induction fuel generalizing s with
  | zero => exact h
  | succ fuel ih =>
    cases hc : s.cand with
    | none => rwa [walk_of_none hc]
    | some c =>
      have hex : (examine chunk i c { s with visited := s.visited + 1 }).bestDist ≤ i := examine_bestDist_le h
      rw [walk_cand hc fuel rfl]
      split
      · exact hex
      · exact ih hex

/-- The search of a pass stays within the chunk on both sides. -/
theorem searchAt_within (chunk : List Byte) (s : State) :
    (searchAt chunk s).bestLen ≤ s.n - s.i ∧ (searchAt chunk s).bestDist ≤ s.i := by
  unfold searchAt
  split
  · rename_i h _
    obtain ⟨hlen, _⟩ : SearchOk (lzFind chunk s.i h s) := walk_searchOk ⟨Nat.zero_le _, by simp⟩
    obtain ⟨_, _, _, _, hf⟩ := lzFind_frame chunk s.i h s
    have hcap : (lzFind chunk s.i h s).cap = min s.cfg.maxMatch (s.n - s.i) := by rw [hf]
    rw [hcap] at hlen
    exact ⟨hlen.trans (min_le_right ..), walk_bestDist_le (Nat.zero_le _)⟩
  · exact ⟨Nat.zero_le _, Nat.zero_le _⟩

/-- What one record must satisfy to stand at position `i` of a chunk of `n` bytes (R178). -/
def RecordFits (c : Config.Params) (n i : Nat) (r : MatchRecord) : Prop :=
  r.wellFormed c = true ∧
    (0 < r.length → 1 ≤ r.offset ∧ r.offset ≤ min c.wsize i ∧ c.minMatch ≤ r.length ∧
      r.length ≤ min c.maxMatch (n - i))

/-- The record of a pass fits where it stands; it covers the pass, or the chunk is at its end. -/
theorem passRecord_fits {chunk : List Byte} {b : Byte} {s : State} (hc : s.cfg.Ok) (hn : chunk.length = s.n)
    (hi : s.i < s.n) :
    let t := searchAt chunk s
    RecordFits s.cfg s.n s.i (passRecord chunk b t) ∧
      (((passRecord chunk b t).hasLit = true ∧ (passRecord chunk b t).span = passSpan t ∧ s.i + passSpan t ≤ s.n) ∨
        ((passRecord chunk b t).hasLit = false ∧ s.i + (passRecord chunk b t).span = s.n ∧
          s.n < s.i + passSpan t)) := by
  intro t
  obtain ⟨hmax, hbest⟩ := searchAt_best chunk s
  obtain ⟨hlen, hdist⟩ := searchAt_within chunk s
  obtain ⟨_, _, _, _, _, _, hframe⟩ := searchAt_frame chunk s
  have hcfg : t.cfg = s.cfg := by
    change (searchAt chunk s).cfg = _
    rw [hframe]
  have hti : t.i = s.i := by
    change (searchAt chunk s).i = _
    rw [hframe]
  unfold passRecord passSpan
  rw [hcfg, hti]
  split
  · exact ⟨⟨literal_wellFormed .., nofun⟩, .inl ⟨rfl, rfl, hi⟩⟩
  · rename_i hmin
    have hmin : s.cfg.minMatch ≤ t.bestLen := not_lt.1 hmin
    have h3 := hc.ranges.1
    obtain ⟨h1, hw⟩ := hbest (by change 0 < t.bestLen; omega)
    refine ⟨⟨ofMatch_wellFormed _ ⟨h1, hw⟩ ⟨hmin, hmax⟩, fun _ => ⟨h1, le_min hw hdist, hmin, le_min hmax hlen⟩⟩, ?_⟩
    cases hnext : chunk[s.i + t.bestLen]? with
    | some x =>
      have hlt := (List.getElem?_eq_some_iff.1 hnext).1
      exact .inl ⟨rfl, rfl, by omega⟩
    | none =>
      have hle := List.getElem?_eq_none_iff.1 hnext
      have hlen : t.bestLen ≤ s.n - s.i := hlen
      refine .inr ⟨rfl, ?_, by omega⟩
      change s.i + (t.bestLen + 0) = s.n
      omega

theorem encodeLoop_past {chunk : List Byte} {s : State} (h : chunk.length ≤ s.i) (fuel : Nat) :
    encodeLoop chunk fuel s = s := by
  cases fuel with
  | zero => rfl
  | succ fuel => rw [encodeLoop, List.getElem?_eq_none h]

/-- The loop of LZ.ENCODE from position `i` on covers the rest of the chunk (R178, R179). -/
theorem encodeLoop_covers {chunk : List Byte} {fuel : Nat} {s : State} (hc : s.cfg.Ok) (hn : chunk.length = s.n)
    (hi : s.i ≤ s.n) (hfuel : s.n ≤ s.i + fuel) :
    ∃ rs, (encodeLoop chunk fuel s).recs = s.recs ++ rs ∧ CoverFrom s.cfg s.n s.i rs := by
  induction fuel generalizing s with
  | zero => exact ⟨[], (List.append_nil _).symm, by change s.i = s.n; omega⟩
  | succ fuel ih =>
    rcases hi.eq_or_lt with hend | hlt
    · rw [encodeLoop_past (by omega)]
      exact ⟨[], (List.append_nil _).symm, hend⟩
    obtain ⟨b, hb⟩ : ∃ b, chunk[s.i]? = some b := ⟨_, List.getElem?_eq_getElem (hn ▸ hlt)⟩
    rw [encodeLoop_pass hb]
    obtain ⟨⟨hwf, hmatch⟩, hspan⟩ := passRecord_fits (b := b) hc hn hlt
    obtain ⟨_, _, _, _, _, _, hsearch⟩ := searchAt_frame chunk s
    obtain ⟨_, _, hpass⟩ := endPass_frame chunk b (searchAt chunk s)
    have hrecs : (endPass chunk b (searchAt chunk s)).recs = s.recs ++ [passRecord chunk b (searchAt chunk s)] := by
      rw [hpass]
      exact congrArg (· ++ _) (by rw [hsearch])
    have hat : (endPass chunk b (searchAt chunk s)).i = s.i + passSpan (searchAt chunk s) := by
      rw [hpass]
      exact congrArg (· + _) (by rw [hsearch])
    have hframe : (endPass chunk b (searchAt chunk s)).cfg = s.cfg ∧ (endPass chunk b (searchAt chunk s)).n = s.n := by
      rw [hpass]
      exact ⟨by rw [hsearch], by rw [hsearch]⟩
    obtain ⟨hcfg, hnn⟩ := hframe
    generalize passRecord chunk b (searchAt chunk s) = r at hwf hmatch hspan hrecs
    rcases hspan with ⟨hlit, hr, hle⟩ | ⟨hlit, hr, hgt⟩
    · have h1 : 1 ≤ passSpan (searchAt chunk s) := by
        unfold passSpan
        split <;> omega
      obtain ⟨rs, hrs, hcover⟩ := ih (s := endPass chunk b (searchAt chunk s)) (hcfg ▸ hc) (hnn ▸ hn) (by omega)
        (by omega)
      rw [hcfg, hnn, hat, ← hr] at hcover
      refine ⟨r :: rs, by rw [hrs, hrecs, List.append_assoc]; rfl, hwf, hmatch, ?_, hcover⟩
      rw [hlit]
      nofun
    · rw [encodeLoop_past (by omega)]
      exact ⟨[r], hrecs, hwf, hmatch, fun _ => rfl, hr⟩

theorem lzEncode_covers {n : Nat} {s : State} (hc : s.cfg.Ok) (hd : n ≤ s.data.length) :
    CoverFrom s.cfg n 0 (lzEncode n s).recs := by
  obtain ⟨rs, hrs, hcover⟩ := encodeLoop_covers (chunk := s.data.take n) (fuel := n)
    (s := { setRecs [] (lzReset s) with n := n, i := 0 }) hc (List.length_take_of_le hd) (Nat.zero_le _) (by simp)
  rw [lzEncode, hrs]
  exact hcover

/-! ## The header is sized by the end-of-block code -/

/-- A nonzero entry is at or below the last one. -/
theorem lastNonzero_of_ne {xs : List Nat} {k : Nat} (h : xs[k]?.getD 0 ≠ 0) : ∃ j, lastNonzero xs = some j ∧ k ≤ j := by
  have hk : k < xs.length := by
    by_contra hge
    exact h (by rw [List.getElem?_eq_none (not_lt.1 hge), Option.getD_none])
  have hmem : xs[Nat.findGreatest (fun j => xs[j]?.getD 0 ≠ 0) (xs.length - 1)]?.getD 0 ≠ 0 :=
    Nat.findGreatest_spec (P := fun j => xs[j]?.getD 0 ≠ 0) (Nat.le_sub_one_of_lt hk) h
  have hle : k ≤ Nat.findGreatest (fun j => xs[j]?.getD 0 ≠ 0) (xs.length - 1) :=
    Nat.le_findGreatest (Nat.le_sub_one_of_lt hk) h
  have hlast := Nat.findGreatest_le (P := fun j => xs[j]?.getD 0 ≠ 0) (xs.length - 1)
  refine ⟨_, lastNonzero_eq_of_last (by omega) (fun h0 => hmem (by rw [h0, Option.getD_some])) fun j hj hlt => ?_, hle⟩
  have hzero := not_not.1 (Nat.findGreatest_is_greatest (P := fun j => xs[j]?.getD 0 ≠ 0) hj (Nat.le_sub_one_of_lt hlt))
  rw [List.getElem?_eq_getElem hlt, Option.getD_some] at hzero
  rw [List.getElem?_eq_getElem hlt, hzero]

/-- With a code for the end of the block `hlit` is no free value (R238). -/
theorem sizeLit_of_eob {s : State} (h256 : 256 < s.cfg.nlit) (hne : s.litLen[256]?.getD 0 ≠ 0) : (sizeLit s).2 = 0 := by
  obtain ⟨j, hj, hle⟩ := lastNonzero_of_ne (xs := s.litLen.take s.cfg.nlit) (k := 256)
    (by rwa [List.getElem?_take_of_lt h256])
  simp only [sizeLit, hj, if_pos hle]

/-! ## The whole block -/

/-- The stream bits of a block (R243, R264). -/
def blockBits (s : State) : List Bool :=
  headerBits s ++ s.recs.flatMap (recordBits s) ++ symbolBits s.litCode s.cfg.eob

/-- The data part's arrays and codes are there: what BLK.ENC has when it comes to the header. -/
structure DataReady (s : State) : Prop where
  cfg     : s.cfg.Ok
  litLen  : s.litLen.length = s.cfg.nlit ∧ ∀ l ∈ s.litLen, l ≤ 15
  distLen : s.distLen.length = s.cfg.ndist ∧ ∀ l ∈ s.distLen, l ≤ 15
  eob     : s.litLen[s.cfg.eob]?.getD 0 ≠ 0 ∧ hasCode s.litCode s.cfg.eob
  recs    : ∀ r ∈ s.recs, RecordCoded s r

theorem dataReady_dataCodes {e : State} (hc : e.cfg.Ok) (hr : RecordsOk e) :
    ∃ lf df, blkFreq e = .ok () (setFreqs .dist df (setFreqs .litlen lf e)) ∧ DataReady (dataCodes lf df e) := by
  obtain ⟨lf, df, hfreq, hlf, hdf, heob, hcounted⟩ := blkFreq_completes hc hr
  obtain ⟨hcap1, hcap15⟩ : 1 ≤ e.cfg.maxbitsLd ∧ e.cfg.maxbitsLd ≤ 15 := caps_range hc .litlen
  have hcl := coreLengths_covers e.cfg lf hcap1
  have hcd := coreLengths_covers e.cfg df hcap1
  have hlit : ∀ sym : Nat, 0 < lf[sym]?.getD 0 → hasCode (dataCodes lf df e).litCode sym := fun sym h =>
    hasCode_coreLengths e.cfg hcap1 hcap15 h
  have hdist : ∀ sym : Nat, 0 < df[sym]?.getD 0 → hasCode (dataCodes lf df e).distCode sym := fun sym h =>
    hasCode_coreLengths e.cfg hcap1 hcap15 h
  refine ⟨lf, df, hfreq, hc, ⟨hcl.1.trans hlf, fun l hl => (hcl.le l hl).trans hcap15⟩,
    ⟨hcd.1.trans hdf, fun l hl => (hcd.le l hl).trans hcap15⟩, ⟨?_, hlit _ heob⟩,
    fun r hr => RecordCounted.coded (hcounted r hr) hlit hdist⟩
  cases hf : lf[e.cfg.eob]? with
  | none => simp [hf] at heob
  | some f =>
    obtain ⟨l, hl, _, hpos⟩ := hcl.2 _ f hf
    have h1 := (hpos (by simpa [hf] using heob)).1
    change (coreLengths e.cfg lf e.cfg.maxbitsLd)[e.cfg.eob]?.getD 0 ≠ 0
    rw [hl, Option.getD_some]
    omega

/-- The header of the block, then its records and its end, once the data part's codes are there. -/
theorem DataReady.block {w : State} (h : DataReady w) :
    ∃ b, hdrBuild w = .ok () b ∧
      b = { w with
        btype := 2, hlit := b.hlit, hdist := b.hdist, hclen := b.hclen, seq := b.seq, rle := b.rle, clFreq := b.clFreq
        clLen := b.clLen, clCode := b.clCode, filled := b.filled } ∧
      ((hdrWrite b).bind fun _ t => (emitRecords t.recs t).bind fun _ t => emitCode .litlen t.cfg.eob t) =
        .ok () (writeList (blockBits b) b) := by
  obtain ⟨hlit, hlit15⟩ := h.litLen
  obtain ⟨hdist, hdist15⟩ := h.distLen
  obtain ⟨hne, heob⟩ := h.eob
  obtain ⟨hnlit, _, hncl, h256⟩ := h.cfg.symbols
  obtain ⟨b, hb, hcfg, hrecs, hlitCode, hdistCode, hclLen, hpairs⟩ :=
    hdrBuild_completes h.cfg hlit hdist hlit15 hdist15
  have hfree : (sizeLit w).2 = 0 := sizeLit_of_eob (by omega) (h256 ▸ hne)
  have hbuilt := hdrBuild_sized hlit.ge hdist.ge
  refine ⟨b, hb, ?_, ?_⟩
  · have hb' := (Act.ok.inj (hb.symm.trans hbuilt)).2
    have hfresh : b.fresh = w.fresh := by
      rw [hb']
      exact congrArg (w.fresh + ·) hfree
    have hframe : b = { w with
        btype := 2, hlit := b.hlit, hdist := b.hdist, hclen := b.hclen, seq := b.seq, rle := b.rle, clFreq := b.clFreq
        clLen := b.clLen, clCode := b.clCode, filled := b.filled, fresh := b.fresh } := by
      rw [hb']
      rfl
    rwa [hfresh] at hframe
  · have hcoded : ∀ r ∈ b.recs, RecordCoded b r := fun r hr => by
      have := h.recs r (hrecs ▸ hr)
      unfold RecordCoded at this ⊢
      rwa [hcfg, hlitCode, hdistCode]
    have happ := writeList_appends (headerBits b) b
    have hlens : ∀ c ∈ b.cfg.clperm.take (b.hclen + 4), c < b.clLen.length := fun c hmem => by
      rw [hclLen]
      exact clperm_lt h.cfg (hcfg ▸ List.mem_of_mem_take hmem)
    rw [hdrWrite_bits hlens hpairs, Act.bind_ok, happ.recs,
      emitRecords_bits fun r hr => (hcoded r hr).of_appends happ, Act.bind_ok, funext (recordBits_of_appends happ),
      ← writeList_append, (writeList_appends _ b).cfg, emitCode_writeList (a := .litlen)]
    · rfl
    · rw [hcfg]
      change hasCode b.litCode _
      rwa [hlitCode]

/-- The state BLK.ENC has when it begins to write: the decoder, the writer and the host's fields are untouched. -/
structure BuiltFrom (n : Nat) (final : Bool) (s b : State) : Prop where
  recs  : b.recs = (lzEncode n { s with bfinal := final }).recs
  eob   : hasCode b.litCode b.cfg.eob
  acc   : b.acc = s.acc ∧ b.accLen = s.accLen
  frame : b = { s with
    toBuffers := b.toBuffers, toWork := b.toWork, hashHead := b.hashHead, bfinal := final, btype := 2
    filled := b.filled }

theorem blkEnc_bits (n : Nat) (final : Bool) {s : State} (hc : s.cfg.Ok) :
    ∃ b, blkEnc n final s = .ok () (writeList (blockBits b) b) ∧ BuiltFrom n final s b := by
  obtain ⟨_, _, _, _, _, _, _, _, _, _, hlz⟩ := lzEncode_frame n { s with bfinal := final }
  have hcfg : (lzEncode n { s with bfinal := final }).cfg.Ok := by
    rw [hlz]
    exact hc
  obtain ⟨lf, df, hfreq, hready⟩ := dataReady_dataCodes hcfg (lzEncode_recordsOk n (s := { s with bfinal := final }) hc)
  obtain ⟨b, hb, hframe, hwrite⟩ := hready.block
  refine ⟨b, ?_, ?_, ?_, ?_, ?_⟩
  · rw [blkEnc, hfreq, Act.bind_ok]
    change ((hdrBuild (dataCodes lf df _)).bind fun _ t => _) = _
    rw [hb]
    exact hwrite
  · rw [hframe]
    rfl
  · rw [hframe]
    exact hready.eob.2
  · rw [hframe, hlz]
    exact ⟨rfl, rfl⟩
  · rw [hframe, hlz]
    rfl

/-- Settles O42: the block's bits, the records' cover, and the frame of an instruction that leaves the decoder alone. -/
theorem blockEncodeCompletes : Obligations.BlockEncodeCompletes := by
  intro s n final hc he hw
  have hexec : exec (.blkEnc n final) s = withChunk n s ((blkEnc n final s).outcome fun _ => .none) :=
    unlessPending_ready he _
  refine ⟨fun hn hd => ?_, fun hn => hexec.trans (withChunk_long hn _)⟩
  obtain ⟨b, hok, hrecs, heob, ⟨hacc, haccLen⟩, hb⟩ := blkEnc_bits n final hc
  have hcover := lzEncode_covers (s := { s with bfinal := final }) hc hd
  rw [← hrecs] at hcover
  have hcfg : b.cfg = s.cfg := by rw [hb]
  have hwb : WriterOk b := by
    rw [hb]
    exact hw
  have hwritten : b.written = s.written := by
    rw [hb]
    rfl
  obtain ⟨hwt, hbits, ht⟩ := wrote_writeList (blockBits b) b hwb
  refine ⟨{ writeList (blockBits b) b with result := .none }, ?_, hwt, ?_⟩
  · rw [hexec, withChunk_placed hn hd, hok]
    rfl
  generalize ({ writeList (blockBits b) b with result := .none } : State) = t at hbits ht
  have hheader : headerBits t = headerBits b := by
    rw [ht]
    rfl
  have hrecord : recordBits t = recordBits b := by
    rw [ht]
    rfl
  have hsame : t.recs = b.recs ∧ t.litCode = b.litCode := by
    rw [ht]
    exact ⟨rfl, rfl⟩
  obtain ⟨htrecs, htlit⟩ := hsame
  rw [hheader, hrecord, htrecs, htlit]
  refine ⟨hcover, ?_, hcfg ▸ heob, ?_⟩
  · rw [hbits, hwritten, blockBits, hcfg]
    simp only [List.append_assoc]
  · rw [ht, hb]
    exact ⟨rfl, rfl, rfl, he, rfl, rfl, rfl, rfl, rfl, rfl, rfl, rfl, hacc, haccLen, rfl, rfl, rfl, rfl⟩

end Sys2Proof.Machine
end

section
/-! SUPPORT. Canonical codes of lengths that satisfy the Kraft inequality begin no other code (R207). In units of
`2 ^ -cap` a code of `l` bits stands for an interval of `2 ^ (cap - l)` values; along the canonical order each code's
interval begins where the one before ends. SYM.DEC therefore reads a code back as its symbol (R211). -/

namespace Sys2Proof.Machine

/-! ## The canonical order -/

theorem mem_of_mem_symsOfLen {l k sym : Nat} {ls : List Nat} (h : sym ∈ symsOfLen l k ls) : l ∈ ls := by
  induction ls generalizing k with
  | nil => cases h
  | cons x xs ih =>
    unfold symsOfLen at h
    split at h
    · exact ‹x = l› ▸ List.mem_cons_self ..
    · exact List.mem_cons_of_mem x (ih h)

theorem symsOfLen_length (l k : Nat) (ls : List Nat) : (symsOfLen l k ls).length = ls.count l := by
  induction ls generalizing k with
  | nil => rfl
  | cons x xs ih =>
    unfold symsOfLen
    by_cases hx : x = l
    · rw [if_pos hx, List.length_cons, ih, hx, List.count_cons_self]
    · rw [if_neg hx, ih, List.count_cons_of_ne hx]

theorem of_mem_canonOrder {ls : List Nat} {e : Nat × Nat} (h : e ∈ canonOrder ls) : e.2 ∈ ls ∧ 1 ≤ e.2 := by
  obtain ⟨k, _, h⟩ := List.mem_flatMap.1 h
  obtain ⟨sym, hsym, rfl⟩ := List.mem_map.1 h
  exact ⟨mem_of_mem_symsOfLen hsym, Nat.succ_pos k⟩

/-- Along the canonical order lengths do not fall (R206). -/
theorem canonOrder_sorted (ls : List Nat) : (canonOrder ls).Pairwise fun a b => a.2 ≤ b.2 := by
  refine List.pairwise_flatMap.2 ⟨fun k _ => List.pairwise_map.2 ?_, ?_⟩
  · exact List.pairwise_of_forall fun _ _ => le_rfl
  · refine List.pairwise_lt_range.imp fun {j k} hjk a ha b hb => ?_
    obtain ⟨_, _, rfl⟩ := List.mem_map.1 ha
    obtain ⟨_, _, rfl⟩ := List.mem_map.1 hb
    exact Nat.succ_le_succ hjk.le

/-- The width of a code of `l` bits in units of `2 ^ -cap`. -/
def codeWidth (cap l : Nat) : Nat := 2 ^ (cap - l)

theorem kraft_cons (cap x : Nat) (xs : List Nat) :
    kraft cap (x :: xs) = (if 0 < x then codeWidth cap x else 0) + kraft cap xs := by
  unfold kraft codeWidth
  by_cases hx : 0 < x
  · simp [hx]
  · simp [hx]

/-- The part of the Kraft sum that the lengths `1 .. n` make. -/
theorem kraft_counts (cap n : Nat) (ls : List Nat) :
    ∑ k ∈ Finset.range n, ls.count (k + 1) * codeWidth cap (k + 1) ≤ kraft cap ls := by
  induction ls with
  | nil => simp
  | cons x xs ih =>
    have hone : ∑ k ∈ Finset.range n, (if x = k + 1 then codeWidth cap (k + 1) else 0) ≤
        if 0 < x then codeWidth cap x else 0 := by
      cases x with
      | zero => simp
      | succ x =>
        simp only [Nat.add_right_cancel_iff, Finset.sum_ite_eq]
        split <;> simp
    have hsplit : ∀ k, (x :: xs).count (k + 1) * codeWidth cap (k + 1) =
        (if x = k + 1 then codeWidth cap (k + 1) else 0) + xs.count (k + 1) * codeWidth cap (k + 1) := fun k => by
      by_cases hx : x = k + 1
      · rw [hx, List.count_cons_self, if_pos rfl]
        ring
      · rw [List.count_cons_of_ne hx, if_neg hx, Nat.zero_add]
    rw [Finset.sum_congr rfl fun k _ => hsplit k, Finset.sum_add_distrib, kraft_cons]
    exact Nat.add_le_add hone ih

theorem canonOrder_kraft (cap : Nat) (ls : List Nat) :
    ((canonOrder ls).map fun e => codeWidth cap e.2).sum ≤ kraft cap ls := by
  have hsum : ((canonOrder ls).map fun e => codeWidth cap e.2).sum =
      ((List.range 15).map fun k => ls.count (k + 1) * codeWidth cap (k + 1)).sum := by
    rw [canonOrder, List.map_flatMap, List.flatMap_def, List.sum_flatten, List.map_map]
    refine congrArg List.sum (List.map_congr_left fun k _ => ?_)
    have hconst : ((fun e : Nat × Nat => codeWidth cap e.2) ∘ fun s => (s, k + 1)) =
        Function.const Nat (codeWidth cap (k + 1)) := rfl
    rw [Function.comp_apply, List.map_map, hconst, List.map_const, List.sum_replicate, symsOfLen_length, smul_eq_mul]
  rw [hsum]
  exact kraft_counts cap 15 ls

/-! ## The intervals of the codes -/

/-- Where the interval of a code begins. -/
def codeStart (cap : Nat) (e : Nat × Nat) : Nat := e.1 * codeWidth cap e.2

/-- Where the next interval begins. -/
def nextStart (cap : Nat) : Option (Nat × Nat) → Nat
  | none => 0
  | some e => codeStart cap e + codeWidth cap e.2

theorem codeWidth_shift {cap l m : Nat} (hlm : l ≤ m) (hm : m ≤ cap) :
    codeWidth cap l = 2 ^ (m - l) * codeWidth cap m := by
  rw [codeWidth, codeWidth, ← pow_add, show m - l + (cap - m) = cap - l by omega]

/-- Every code's interval lies behind the ones before and within the sum of the widths. -/
theorem canonAssign_bounds {cap : Nat} {order : List (Nat × Nat)} {last : Option (Nat × Nat)}
    (hsorted : order.Pairwise fun a b => a.2 ≤ b.2) (hcap : ∀ e ∈ order, e.2 ≤ cap)
    (hlast : ∀ e, last = some e → ∀ f ∈ order, e.2 ≤ f.2) :
    ((canonAssign last order).Pairwise fun a b => codeStart cap a.2 + codeWidth cap a.2.2 ≤ codeStart cap b.2) ∧
    ∀ a ∈ canonAssign last order, nextStart cap last ≤ codeStart cap a.2 ∧
      codeStart cap a.2 + codeWidth cap a.2.2 ≤
        nextStart cap last + (order.map fun e => codeWidth cap e.2).sum := by
  induction order generalizing last with
  | nil => exact ⟨.nil, nofun⟩
  | cons e rest ih =>
    obtain ⟨s, l⟩ := e
    obtain ⟨hhead, htail⟩ := List.pairwise_cons.1 hsorted
    have hl : l ≤ cap := hcap _ (List.mem_cons_self ..)
    -- the code given here begins where the one before ends
    obtain ⟨c, hassign, hstart⟩ : ∃ c,
        canonAssign last ((s, l) :: rest) = (s, (c, l)) :: canonAssign (some (c, l)) rest ∧
        codeStart cap (c, l) = nextStart cap last := by
      refine ⟨_, rfl, ?_⟩
      cases last with
      | none => exact Nat.zero_mul _
      | some f =>
        have hshift := codeWidth_shift (hlast f rfl _ (List.mem_cons_self ..)) hl
        change (f.1 + 1) <<< (l - f.2) * codeWidth cap l = f.1 * codeWidth cap f.2 + codeWidth cap f.2
        rw [Nat.shiftLeft_eq, Nat.mul_assoc, ← hshift]
        ring
    obtain ⟨hpair, hbounds⟩ := ih (last := some (c, l)) htail (fun f hf => hcap f (List.mem_cons_of_mem _ hf))
      (fun f hf g hg => by cases hf; exact hhead g hg)
    have hnext : nextStart cap (some (c, l)) = nextStart cap last + codeWidth cap l := congrArg (· + _) hstart
    rw [hassign]
    refine ⟨List.pairwise_cons.2 ⟨fun b hb => (hbounds b hb).1, hpair⟩, fun a ha => ?_⟩
    rw [List.map_cons, List.sum_cons, ← Nat.add_assoc, ← hnext]
    rcases List.mem_cons.1 ha with rfl | ha
    · exact ⟨hstart.ge, Nat.le_add_right ..⟩
    · exact ⟨((Nat.le_add_right ..).trans_eq hnext.symm).trans (hbounds a ha).1, (hbounds a ha).2⟩

/-- The canonical order is the order of the assignment. -/
theorem canonAssign_lengths (last : Option (Nat × Nat)) (order : List (Nat × Nat)) :
    (canonAssign last order).map (fun a => (a.1, a.2.2)) = order := by
  induction order generalizing last with
  | nil => rfl
  | cons e rest ih => exact congrArg (e :: ·) (ih _)

/-- A code of the array was assigned along the order. -/
theorem canonCodes_mem {ls : List Nat} {sym : Nat} {e : Nat × Nat} (h : (canonCodes ls)[sym]? = some (some e)) :
    (sym, e) ∈ canonAssign none (canonOrder ls) := by
  have hlt : sym < ls.length := by
    rw [← canonCodes_length ls]
    exact (List.getElem?_eq_some_iff.1 h).1
  have hlookup : (canonAssign none (canonOrder ls)).lookup sym = some e := by simpa [canonCodes, hlt] using h
  obtain ⟨_, _, hsplit, _⟩ := List.lookup_eq_some_iff.1 hlookup
  rw [hsplit]
  exact List.mem_append_right _ (List.mem_cons_self ..)

/-- The array of lengths satisfies the Kraft inequality, no length above the cap. -/
structure KraftOk (cap : Nat) (ls : List Nat) : Prop where
  le    : ∀ l ∈ ls, l ≤ cap
  kraft : kraft cap ls ≤ 2 ^ cap

section
variable {cap : Nat} {ls : List Nat}

theorem KraftOk.bounds (h : KraftOk cap ls) :
    ((canonAssign none (canonOrder ls)).Pairwise
      fun a b => codeStart cap a.2 + codeWidth cap a.2.2 ≤ codeStart cap b.2) ∧
    ∀ a ∈ canonAssign none (canonOrder ls), codeStart cap a.2 + codeWidth cap a.2.2 ≤ 2 ^ cap := by
  obtain ⟨hpair, hbounds⟩ := canonAssign_bounds (last := none) (canonOrder_sorted ls)
    (fun e he => h.le _ (of_mem_canonOrder he).1) nofun
  refine ⟨hpair, fun a ha => ((hbounds a ha).2.trans ?_)⟩
  rw [nextStart, Nat.zero_add]
  exact (canonOrder_kraft cap ls).trans h.kraft

theorem canonCodes_length_mem {sym c l : Nat} (hs : (canonCodes ls)[sym]? = some (some (c, l))) : l ∈ ls ∧ 1 ≤ l := by
  refine of_mem_canonOrder (e := (sym, l)) ?_
  rw [← canonAssign_lengths none (canonOrder ls)]
  exact List.mem_map_of_mem (f := fun a : Nat × Nat × Nat => (a.1, a.2.2)) (canonCodes_mem hs)

theorem codeWidth_pos (cap l : Nat) : 0 < codeWidth cap l := Nat.two_pow_pos _

/-- A code fits its length (R207). -/
theorem KraftOk.code_lt {sym c l : Nat} (h : KraftOk cap ls) (hs : (canonCodes ls)[sym]? = some (some (c, l))) :
    c < 2 ^ l := by
  have hl := h.le l (canonCodes_length_mem hs).1
  have hbound : c * codeWidth cap l + codeWidth cap l ≤ 2 ^ cap := h.bounds.2 _ (canonCodes_mem hs)
  have hcap : 2 ^ cap = 2 ^ l * codeWidth cap l := by
    rw [codeWidth, ← pow_add, Nat.add_sub_of_le hl]
  rw [hcap, ← Nat.succ_mul] at hbound
  exact Nat.le_of_mul_le_mul_right hbound (codeWidth_pos cap l)

/-- Two assigned codes whose intervals do not meet. -/
def CodesApart (cap : Nat) (a b : Nat × Nat × Nat) : Prop :=
  codeStart cap a.2 + codeWidth cap a.2.2 ≤ codeStart cap b.2 ∨
    codeStart cap b.2 + codeWidth cap b.2.2 ≤ codeStart cap a.2

/-- The codes of two symbols stand for intervals apart. -/
theorem KraftOk.apart {j k : Nat} {e f : Nat × Nat} (h : KraftOk cap ls) (hne : j ≠ k)
    (hj : (canonCodes ls)[j]? = some (some e)) (hk : (canonCodes ls)[k]? = some (some f)) :
    codeStart cap e + codeWidth cap e.2 ≤ codeStart cap f ∨ codeStart cap f + codeWidth cap f.2 ≤ codeStart cap e := by
  have hsymm : Std.Symm (CodesApart cap) := ⟨fun _ _ => Or.symm⟩
  have hpair : (canonAssign none (canonOrder ls)).Pairwise (CodesApart cap) := h.bounds.1.imp Or.inl
  exact hpair.forall (canonCodes_mem hj) (canonCodes_mem hk) fun heq => hne (congrArg Prod.fst heq)

/-- No code begins with the code of another symbol (R207). -/
theorem KraftOk.prefixFree {j k c d l m : Nat} (h : KraftOk cap ls) (hne : j ≠ k)
    (hj : (canonCodes ls)[j]? = some (some (c, l))) (hk : (canonCodes ls)[k]? = some (some (d, m))) (hlm : l ≤ m) :
    d / 2 ^ (m - l) ≠ c := by
  rintro rfl
  have hshift := codeWidth_shift hlm (h.le m (canonCodes_length_mem hk).1)
  have hw := codeWidth_pos cap m
  have hlow : d / 2 ^ (m - l) * codeWidth cap l ≤ d * codeWidth cap m := by
    rw [hshift, ← Nat.mul_assoc]
    exact Nat.mul_le_mul_right _ (Nat.div_mul_le_self ..)
  have hhigh : d * codeWidth cap m < d / 2 ^ (m - l) * codeWidth cap l + codeWidth cap l := by
    rw [hshift, ← Nat.mul_assoc, ← Nat.add_mul]
    exact Nat.mul_lt_mul_of_pos_right (by
      have := Nat.div_add_mod d (2 ^ (m - l))
      have := Nat.mod_lt d (Nat.two_pow_pos (m - l))
      rw [Nat.mul_comm]
      omega) hw
  rcases h.apart hne hj hk with hapart | hapart
  · exact absurd hapart (not_le.2 hhigh)
  · have hapart : d * codeWidth cap m + codeWidth cap m ≤ d / 2 ^ (m - l) * codeWidth cap l := hapart
    omega

/-- The code of a symbol finds that symbol (R210). -/
theorem KraftOk.findCode_self {sym c l : Nat} (h : KraftOk cap ls) (hs : (canonCodes ls)[sym]? = some (some (c, l))) :
    findCode (canonCodes ls) c l = some sym := by
  obtain ⟨hlt, hget⟩ := List.getElem?_eq_some_iff.1 hs
  refine List.findIdx?_eq_some_iff_getElem.2 ⟨hlt, by simp [hget], fun j hj hfound => ?_⟩
  have hj' : (canonCodes ls)[j]? = some (some (c, l)) :=
    (List.getElem?_eq_getElem _).trans (congrArg some (of_decide_eq_true hfound))
  exact h.prefixFree hj.ne hj' hs le_rfl (by rw [Nat.sub_self, pow_zero, Nat.div_one])

/-- No shorter part of a code is a code. -/
theorem KraftOk.findCode_prefix {sym c l m : Nat} (h : KraftOk cap ls)
    (hs : (canonCodes ls)[sym]? = some (some (c, l))) (hm : m < l) :
    findCode (canonCodes ls) (c / 2 ^ (l - m)) m = none := by
  refine List.findIdx?_eq_none_iff.2 fun e he => decide_eq_false fun heq => ?_
  obtain ⟨j, hj⟩ := List.mem_iff_getElem?.1 he
  rw [heq] at hj
  have hne : j ≠ sym := by
    rintro rfl
    have hsame := Option.some.inj (Option.some.inj (hs.symm.trans hj))
    exact hm.ne' (congrArg Prod.snd hsame)
  exact h.prefixFree hne hj hs hm.le rfl

end

/-! ## Reading a code -/

theorem accumulate_codeBits {c l m : Nat} (hc : c < 2 ^ l) (hm : m ≤ l) :
    accumulate 0 ((codeBits c l).take m) = c / 2 ^ (l - m) := by
  induction m with
  | zero => exact (Nat.div_eq_of_lt hc).symm
  | succ m ih =>
    have hbit : (codeBits c l)[m]? = some (c.testBit (l - 1 - m)) := by
      rw [codeBits_eq, List.getElem?_map, List.getElem?_range hm, Option.map_some]
    have hdiv : c / 2 ^ (l - m) = c / 2 ^ (l - (m + 1)) / 2 := by
      rw [Nat.div_div_eq_div_mul, ← pow_succ, show l - (m + 1) + 1 = l - m by omega]
    rw [List.take_add_one, hbit, accumulate, List.foldl_append]
    change 2 * accumulate 0 ((codeBits c l).take m) + (c.testBit (l - 1 - m)).toNat = _
    rw [ih (by omega), hdiv, Nat.toNat_testBit, show l - 1 - m = l - (m + 1) by omega]
    omega

/-- SYM.DEC reads a symbol's code as that symbol (R211). -/
theorem symDec_code {a : Alphabet} {cap sym c l : Nat} {ls : List Nat} {s : State} (h : KraftOk cap ls)
    (hcodes : s.codes a = canonCodes ls) (hs : (canonCodes ls)[sym]? = some (some (c, l)))
    (hl : l ≤ s.cfg.decodeMaxbits) (hbits : codeBits c l <+: s.unread) :
    symDec a s = .ok sym { s with bitPos := s.bitPos + l, acc := c, accLen := l } := by
  have hlen : (codeBits c l).length = l := by simp [codeBits]
  have hll : l ≤ s.unread.length := hlen ▸ hbits.length_le
  have h1 := (canonCodes_length_mem hs).2
  have hacc : ∀ m ≤ l, accumulate 0 (s.unread.take m) = c / 2 ^ (l - m) := fun m hm => by
    rw [← accumulate_codeBits (h.code_lt hs) hm]
    obtain ⟨rest, hrest⟩ := hbits
    rw [← hrest, List.take_append_of_le_length (by omega)]
  have hfound : findCode (s.codes a) (accumulate 0 (s.unread.take l)) (0 + l) = some sym := by
    rw [hacc l le_rfl, hcodes, Nat.sub_self, pow_zero, Nat.div_one, Nat.zero_add]
    exact h.findCode_self hs
  have hbefore : ∀ m, m < l → findCode (s.codes a) (accumulate 0 (s.unread.take m)) (0 + m) = none := fun m hm => by
    rw [hacc m hm.le, hcodes, Nat.zero_add]
    exact h.findCode_prefix hs hm
  rcases symDecLoop_cases (s.codes a) s.cfg.decodeMaxbits { s with acc := 0, accLen := 0 } with
    ⟨sym', l', _, _, _, hfind, hnone, heq⟩ | ⟨hnone, _⟩
  · have hl' : l' = l := by
      rcases lt_trichotomy l' l with hlt | heq | hgt
      · exact absurd (hfind.symm.trans (hbefore l' hlt)) nofun
      · exact heq
      · exact absurd (hfound.symm.trans (hnone l h1 hgt)) nofun
    subst hl'
    obtain rfl := Option.some.inj (hfind.symm.trans hfound)
    have hc : accumulate 0 (s.unread.take l') = c := by
      rw [hacc l' le_rfl, Nat.sub_self, pow_zero, Nat.div_one]
    rw [symDec, heq]
    change Act.ok _ { s with
      bitPos := s.bitPos + l', acc := accumulate 0 (s.unread.take l'), accLen := 0 + l' } = _
    rw [hc, Nat.zero_add]
  · exact absurd (hfound.symm.trans (hnone l h1 (le_min hl hll))) nofun

end Sys2Proof.Machine
end

section
/-! SUPPORT. HDR.READ reads a header back from its bits: the fields one after another, the code-length lengths at their
places of CLPERM, and every pair as its symbol's code and its repeat field. -/

namespace Sys2Proof.Machine

/-! ## Fields -/

theorem Act.bind_of_ok {α β : Type} {x : Act α} {a : α} {t : State} {f : α → State → Act β} (h : x = .ok a t) :
    x.bind f = f a t := by
  rw [h, Act.bind_ok]

@[simp] theorem fieldBits_length (n v : Nat) : (fieldBits n v).length = n := by simp [fieldBits]

/-- A field next in the stream is read as its value, and what follows it is next then. -/
theorem readBits_field {n v : Nat} {bits : List Bool} {s : State} (hv : v < 2 ^ n)
    (h : fieldBits n v ++ bits <+: s.unread) :
    readBits n s = .ok v { s with bitPos := s.bitPos + n } ∧
      bits <+: ({ s with bitPos := s.bitPos + n } : State).unread := by
  obtain ⟨rest, hrest⟩ := h
  rw [List.append_assoc] at hrest
  have hlen : n ≤ s.unread.length := by
    rw [← hrest, List.length_append, fieldBits_length]
    exact Nat.le_add_right ..
  have htake : s.unread.take n = fieldBits n v := by rw [← hrest, List.take_left' (fieldBits_length n v)]
  have hdrop : s.unread.drop n = bits ++ rest := by rw [← hrest, List.drop_left' (fieldBits_length n v)]
  refine ⟨?_, rest, by rw [unread_advance, hdrop]⟩
  rw [readBits_ok n s hlen, htake, fieldValue_fieldBits, Nat.mod_eq_of_lt hv]

/-! ## Code-length lengths -/

/-- The entries at the places `cs` written from `vals`. -/
def setEach (vals cs ls : List Nat) : List Nat := cs.foldl (fun ls c => ls.set c (vals[c]?.getD 0)) ls

theorem setEach_get (vals cs ls : List Nat) (j : Nat) (hj : j < ls.length) :
    (setEach vals cs ls)[j]? = if j ∈ cs then some (vals[j]?.getD 0) else ls[j]? := by
  induction cs generalizing ls with
  | nil => rfl
  | cons c cs ih =>
    change (setEach vals cs (ls.set c (vals[c]?.getD 0)))[j]? = _
    rw [ih _ (by rwa [List.length_set])]
    by_cases hc : c = j
    · subst hc
      simp [hj]
    · simp [List.getElem?_set_ne hc, Ne.symm hc]

theorem setEach_length (vals cs ls : List Nat) : (setEach vals cs ls).length = ls.length := by
  induction cs generalizing ls with
  | nil => rfl
  | cons c cs ih => exact (ih _).trans (List.length_set ..)

/-- Written from zeros on, an array whose other entries are 0. -/
theorem setEach_zeros {vals cs : List Nat} {n : Nat} (hlen : vals.length = n)
    (hz : ∀ j < n, j ∉ cs → vals[j]? = some 0) : setEach vals cs (List.replicate n 0) = vals := by
  refine List.ext_getElem? fun j => ?_
  by_cases hj : j < n
  · rw [setEach_get _ _ _ _ (by simpa using hj)]
    split
    · rw [List.getElem?_eq_getElem (hlen ▸ hj), Option.getD_some]
    · rw [hz j hj ‹_›, List.getElem?_replicate, if_pos hj]
  · rw [List.getElem?_eq_none (by rw [setEach_length, List.length_replicate]; omega),
      List.getElem?_eq_none (by omega)]

theorem readClLens_bits {k count : Nat} {vals : List Nat} {bits : List Bool} {s : State} (hv : ∀ l ∈ vals, l < 8)
    (hlt : ∀ c ∈ s.cfg.clperm, c < s.clLen.length) (hcount : k + count ≤ s.cfg.clperm.length)
    (h : clLenBits vals ((s.cfg.clperm.drop k).take count) ++ bits <+: s.unread) :
    readClLens k count s = .ok () { s with
      bitPos := s.bitPos + 3 * count, clLen := setEach vals ((s.cfg.clperm.drop k).take count) s.clLen } ∧
    bits <+: ({ s with bitPos := s.bitPos + 3 * count } : State).unread := by
  induction count generalizing k s with
  | zero => exact ⟨rfl, h⟩
  | succ count ih =>
    have hk : k < s.cfg.clperm.length := by omega
    have hsplit : (s.cfg.clperm.drop k).take (count + 1) =
        s.cfg.clperm[k] :: (s.cfg.clperm.drop (k + 1)).take count := by
      rw [List.drop_eq_getElem_cons hk, List.take_succ_cons]
    have hvk : vals[s.cfg.clperm[k]]?.getD 0 < 2 ^ 3 := by
      cases hc : vals[s.cfg.clperm[k]]? with
      | none => exact Nat.two_pow_pos 3
      | some l => exact hv l (List.mem_of_getElem? hc)
    rw [hsplit, clLenBits, List.flatMap_cons, List.append_assoc] at h
    obtain ⟨hread, hnext⟩ := readBits_field hvk h
    have hset := setClLen_at (k := k) (v := vals[s.cfg.clperm[k]]?.getD 0)
      (s := { s with bitPos := s.bitPos + 3 }) (List.getElem?_eq_getElem hk) (hlt _ (List.getElem_mem hk))
    obtain ⟨hrest, hbits⟩ := ih (k := k + 1)
      (s := { s with
        bitPos := s.bitPos + 3
        clLen := s.clLen.set s.cfg.clperm[k] (vals[s.cfg.clperm[k]]?.getD 0) })
      (by simpa using hlt) (by change k + 1 + count ≤ s.cfg.clperm.length; omega) hnext
    have hpos : s.bitPos + 3 * (count + 1) = s.bitPos + 3 + 3 * count := by omega
    rw [readClLens, hread, Act.bind_ok, hset, Act.bind_ok, hrest, hsplit, hpos]
    exact ⟨rfl, hbits⟩

/-! ## Pairs -/

theorem rleStep_fits {total : Nat} {p : ClPair} {s : State} {ms : List Nat} (h : expandPairs [p] s.seq = some ms)
    (hlen : ms.length ≤ total) : rleStep total p s = .ok () { s with seq := ms } := by
  rcases rleStep_cases total p s with ⟨ls, hls, _, h'⟩ | ⟨hnone, _⟩ | ⟨ls, hls, hlong, _⟩
  · cases hls.symm.trans h
    exact h'
  · cases hnone.symm.trans h
  · cases hls.symm.trans h
    omega

/-- The repeat field of a pair after its symbol (R245). -/
theorem clSymbol_bits {p : ClPair} {ms : List Nat} {bits : List Bool} {s : State} (hr : p.inRange = true)
    (hexp : expandPairs [p] s.seq = some ms) (hlen : ms.length ≤ s.total) (h : p.repeatBits ++ bits <+: s.unread) :
    clSymbol p.sym s = .ok () { s with bitPos := s.bitPos + p.repeatBits.length, seq := ms } ∧
      bits <+: ({ s with bitPos := s.bitPos + p.repeatBits.length } : State).unread := by
  have field : ∀ (n x : Nat) (pair : Nat → ClPair), p = pair x → p.repeatBits = fieldBits n x → x < 2 ^ n →
      ((readBits n s).bind fun y t => rleStep t.total (pair y) t) =
        .ok () { s with bitPos := s.bitPos + p.repeatBits.length, seq := ms } ∧
      bits <+: ({ s with bitPos := s.bitPos + p.repeatBits.length } : State).unread := by
    intro n x pair hp hbits hx
    rw [hbits] at h ⊢
    obtain ⟨hread, hnext⟩ := readBits_field hx h
    rw [hread, Act.bind_ok, ← hp, fieldBits_length]
    exact ⟨rleStep_fits (s := { s with bitPos := s.bitPos + n }) hexp hlen, hnext⟩
  cases p with
  | len v =>
    change clSymbol v s = _ ∧ _
    rw [clSymbol, if_pos (of_decide_eq_true hr), rleStep_fits hexp hlen]
    exact ⟨rfl, h⟩
  | rep x =>
    have hseq : s.seq ≠ [] := fun hnil => by
      rw [hnil] at hexp
      cases hexp
    change clSymbol 16 s = _ ∧ _
    rw [clSymbol, if_neg (by decide), if_pos rfl, if_neg hseq]
    exact field 2 x .rep rfl rfl (Nat.lt_succ_of_le (of_decide_eq_true hr))
  | z3 x =>
    change clSymbol 17 s = _ ∧ _
    rw [clSymbol, if_neg (by decide), if_neg (by decide), if_pos rfl]
    exact field 3 x .z3 rfl rfl (Nat.lt_succ_of_le (of_decide_eq_true hr))
  | z11 x =>
    change clSymbol 18 s = _ ∧ _
    rw [clSymbol, if_neg (by decide), if_neg (by decide), if_neg (by decide)]
    exact field 7 x .z11 rfl rfl (Nat.lt_succ_of_le (of_decide_eq_true hr))

theorem expandPairs_cons (p : ClPair) (ps : List ClPair) (ls : List Nat) :
    expandPairs (p :: ps) ls = (expandPairs [p] ls).bind (expandPairs ps) := by
  cases p with
  | rep x =>
    simp only [expandPairs]
    split <;> rfl
  | len v | z3 x | z11 x => rfl

theorem expandPairs_length_le {ps : List ClPair} {ls ms : List Nat} (h : expandPairs ps ls = some ms) :
    ls.length ≤ ms.length := by
  induction ps generalizing ls with
  | nil =>
    cases h
    exact le_rfl
  | cons p ps ih =>
    rw [expandPairs_cons] at h
    obtain ⟨ns, hns, h⟩ := Option.bind_eq_some_iff.1 h
    exact (expandPairs_single_length hns).le.trans (ih h)

/-- The code-length codes in use: canonical codes that decoding reads far enough for (R207, R210). -/
structure ReadsCodes (cap : Nat) (lens : List Nat) (s : State) : Prop where
  kraft : KraftOk cap lens
  codes : s.clCode = canonCodes lens
  max   : ∀ l ∈ lens, l ≤ s.cfg.decodeMaxbits

/-- A symbol's code is next in the stream. -/
theorem symDec_bits {cap sym : Nat} {lens : List Nat} {bits : List Bool} {s : State} (hc : ReadsCodes cap lens s)
    (hsym : hasCode s.clCode sym) (h : symbolBits s.clCode sym ++ bits <+: s.unread) :
    ∃ c l, symDec .cl s = .ok sym { s with
        bitPos := s.bitPos + (symbolBits s.clCode sym).length, acc := c, accLen := l } ∧
      bits <+: ({ s with bitPos := s.bitPos + (symbolBits s.clCode sym).length } : State).unread := by
  obtain ⟨c, l, hcl⟩ := hsym
  have hbits : symbolBits s.clCode sym = codeBits c l := by simp only [symbolBits, hcl]
  have hlen : (codeBits c l).length = l := by simp [codeBits]
  rw [hc.codes] at hcl
  rw [hbits] at h ⊢
  have hl := hc.max l (canonCodes_length_mem hcl).1
  refine ⟨c, l, ?_, ?_⟩
  · rw [symDec_code (a := .cl) hc.kraft hc.codes hcl hl ((List.prefix_append ..).trans h), hlen]
  · obtain ⟨rest, hrest⟩ := h
    rw [List.append_assoc] at hrest
    exact ⟨rest, by rw [unread_advance, ← hrest, List.drop_left]⟩

theorem readSeq_bits {cap : Nat} {lens : List Nat} {ps : List ClPair} {ls : List Nat} {s : State} {fuel : Nat}
    (hc : ReadsCodes cap lens s) (hps : ∀ p ∈ ps, p.inRange = true ∧ hasCode s.clCode p.sym)
    (hexp : expandPairs ps s.seq = some ls) (hlen : ls.length = s.total) (hfuel : s.total ≤ s.seq.length + fuel)
    (h : ps.flatMap (pairBits s.clCode) <+: s.unread) :
    ∃ a n, readSeq fuel s = .ok () { s with
      bitPos := s.bitPos + (ps.flatMap (pairBits s.clCode)).length, seq := ls, acc := a, accLen := n } := by
  induction ps generalizing s fuel with
  | nil =>
    cases hexp
    refine ⟨s.acc, s.accLen, ?_⟩
    cases fuel with
    | zero => rfl
    | succ fuel => rw [readSeq, if_neg (by omega)]; rfl
  | cons p ps ih =>
    rw [expandPairs_cons] at hexp
    obtain ⟨ms, hms, hexp⟩ := Option.bind_eq_some_iff.1 hexp
    have hgrow := expandPairs_single_length hms
    have hle := expandPairs_length_le hexp
    obtain ⟨fuel, rfl⟩ : ∃ f, fuel = f + 1 := Nat.exists_eq_add_one.2 (by omega)
    obtain ⟨hr, hsym⟩ := hps p (List.mem_cons_self ..)
    rw [List.flatMap_cons, pairBits, List.append_assoc] at h
    obtain ⟨c, l, hdec, hnext⟩ := symDec_bits hc hsym h
    obtain ⟨hpair, hrest⟩ := clSymbol_bits (s := { s with
        bitPos := s.bitPos + (symbolBits s.clCode p.sym).length, acc := c, accLen := l })
      hr hms (hlen ▸ hle) hnext
    obtain ⟨a, n, hread⟩ := ih (fuel := fuel) (s := { s with
        bitPos := s.bitPos + (symbolBits s.clCode p.sym).length + p.repeatBits.length, acc := c, accLen := l
        seq := ms })
      ⟨hc.kraft, hc.codes, hc.max⟩ (fun q hq => hps q (List.mem_cons_of_mem p hq)) hexp hlen
      (by change s.total ≤ ms.length + fuel; omega) hrest
    have hpos : s.bitPos + ((p :: ps).flatMap (pairBits s.clCode)).length =
        s.bitPos + (symbolBits s.clCode p.sym).length + p.repeatBits.length +
          (ps.flatMap (pairBits s.clCode)).length := by
      rw [List.flatMap_cons, pairBits, List.length_append, List.length_append]
      omega
    refine ⟨a, n, ?_⟩
    rw [readSeq, if_pos (by omega), hdec, Act.bind_ok, hpair, Act.bind_ok, hread, hpos]

/-! ## The header -/

/-- The header's bits after BFINAL and BTYPE. -/
def headerRest (s : State) : List Bool :=
  fieldBits 5 s.hlit ++ (fieldBits 5 s.hdist ++ (fieldBits 4 s.hclen ++
    (clLenBits s.clLen (s.cfg.clperm.take (s.hclen + 4)) ++ s.rle.flatMap (pairBits s.clCode))))

theorem headerBits_drop (s : State) : (headerBits s).drop 3 = headerRest s := by
  have hsplit : headerBits s = (fieldBits 1 s.bfinal.toNat ++ fieldBits 2 2) ++ headerRest s := by
    simp only [headerBits_eq, headerRest, List.append_assoc]
  rw [hsplit, List.drop_left' (by simp)]

theorem clLenBits_length (ls cs : List Nat) : (clLenBits ls cs).length = 3 * cs.length := by
  induction cs with
  | nil => rfl
  | cons c cs ih =>
    rw [clLenBits, List.flatMap_cons, List.length_append, fieldBits_length, List.length_cons, ← clLenBits, ih]
    omega

/-- A header that a stream can hold: fields in range, code-length lengths at the places sent, a code set that satisfies
the Kraft inequality, and pairs for exactly the total (R231, R236, R243). -/
structure HeaderHeld (t : State) (ls : List Nat) : Prop where
  cfg    : t.cfg.Ok
  fields : t.hlit < 32 ∧ t.hdist < 32 ∧ t.hclen < 16
  clLen  : t.clLen.length = t.cfg.ncl ∧ ∀ l ∈ t.clLen, l < 8
  sent   : ∀ k c, t.hclen + 4 ≤ k → t.cfg.clperm[k]? = some c → t.clLen[c]? = some 0
  kraft  : KraftOk 7 t.clLen
  clCode : t.clCode = canonCodes t.clLen
  max    : ∀ l ∈ t.clLen, l ≤ t.cfg.decodeMaxbits
  pairs  : ∀ p ∈ t.rle, p.inRange = true ∧ hasCode t.clCode p.sym
  total  : expandPairs t.rle [] = some ls ∧ ls.length = t.total

theorem HeaderHeld.sent_length {t : State} {ls : List Nat} (h : HeaderHeld t ls) :
    (t.cfg.clperm.take (t.hclen + 4)).length = t.hclen + 4 := by
  have hclen := h.fields.2.2
  have hn := h.cfg.clperm.1
  have hncl := h.cfg.symbols.2.2.1
  rw [List.length_take]
  omega

theorem HeaderHeld.rest_length {t : State} {ls : List Nat} (h : HeaderHeld t ls) :
    (headerRest t).length = 5 + 5 + 4 + 3 * (t.hclen + 4) + (t.rle.flatMap (pairBits t.clCode)).length := by
  rw [headerRest]
  simp only [List.length_append, fieldBits_length, clLenBits_length, h.sent_length]
  omega

/-- The code-length lengths written at their places from zeros on (R245). -/
theorem HeaderHeld.setEach_eq {t : State} {ls : List Nat} (h : HeaderHeld t ls) :
    setEach t.clLen (t.cfg.clperm.take (t.hclen + 4)) (List.replicate t.cfg.ncl 0) = t.clLen := by
  refine setEach_zeros h.clLen.1 fun j hj hnot => ?_
  have hmem := h.cfg.clperm.2 j hj
  rw [← List.take_append_drop (t.hclen + 4) t.cfg.clperm, List.mem_append] at hmem
  obtain ⟨k, hk⟩ := List.mem_iff_getElem?.1 (hmem.resolve_left hnot)
  rw [List.getElem?_drop] at hk
  exact h.sent _ j (Nat.le_add_right ..) hk

/-- The state of HDR.READ when the header's fields and code-length lengths have been read. -/
def fieldsRead (t r : State) : State :=
  { setHclen t.hclen (setHdist t.hdist (setHlit t.hlit r)) with
    bitPos := r.bitPos + 5 + 5 + 4 + 3 * (t.hclen + 4), clLen := t.clLen }

theorem hdrRead_fields {r t : State} {ls : List Nat} (h : HeaderHeld t ls) (hcfg : t.cfg = r.cfg)
    (hbits : headerRest t <+: r.unread) :
    hdrRead r = ((readSeq (fieldsRead t r).total (beginSeq (fieldsRead t r))).bind fun _ s => .ok () (splitSeq s)) ∧
      t.rle.flatMap (pairBits t.clCode) <+: (fieldsRead t r).unread := by
  obtain ⟨hlit, hdist, hclen⟩ := h.fields
  obtain ⟨h1, hb1⟩ := readBits_field hlit hbits
  obtain ⟨h2, hb2⟩ := readBits_field (s := setHlit t.hlit { r with bitPos := r.bitPos + 5 }) hdist hb1
  obtain ⟨h3, hb3⟩ := readBits_field
    (s := setHdist t.hdist { setHlit t.hlit r with bitPos := r.bitPos + 5 + 5 }) hclen hb2
  have hlens : ∀ c ∈ r.cfg.clperm, c < (List.replicate r.cfg.ncl 0).length := fun c hmem => by
    rw [List.length_replicate, ← hcfg]
    exact clperm_lt h.cfg (by rw [hcfg]; exact hmem)
  have hcount : 0 + (t.hclen + 4) ≤ r.cfg.clperm.length := by
    have := h.sent_length
    rw [hcfg, List.length_take] at this
    omega
  rw [hcfg] at hb3
  obtain ⟨h4, hb4⟩ := readClLens_bits
    (s := setHclen t.hclen (setHdist t.hdist { setHlit t.hlit r with bitPos := r.bitPos + 5 + 5 + 4 })) h.clLen.2
    hlens hcount hb3
  have hset := h.setEach_eq
  rw [hcfg] at hset
  change readClLens 0 (t.hclen + 4) _ = .ok () { setHclen t.hclen (setHdist t.hdist (setHlit t.hlit r)) with
    bitPos := r.bitPos + 5 + 5 + 4 + 3 * (t.hclen + 4)
    clLen := setEach t.clLen (r.cfg.clperm.take (t.hclen + 4)) (List.replicate r.cfg.ncl 0) } at h4
  rw [hset] at h4
  refine ⟨?_, hb4⟩
  exact (Act.bind_of_ok h1).trans <| (Act.bind_of_ok h2).trans <| (Act.bind_of_ok h3).trans <| Act.bind_of_ok h4

/-- A complete sequence split (R236). -/
theorem splitSeq_total {s : State} (h : s.seq.length = s.total) :
    splitSeq s = setLens .dist (s.seq.drop (s.hlit + 257)) (setLens .litlen (s.seq.take (s.hlit + 257)) s) := by
  rw [splitSeq, List.take_of_length_le h.le]

/-- The state of HDR.READ when the pairs have been read, `ls` the sequence they stand for. -/
def pairsRead (t r : State) (ls : List Nat) (a n : Nat) : State :=
  { beginSeq (fieldsRead t r) with
    bitPos := r.bitPos + (headerRest t).length, clCode := t.clCode, seq := ls, acc := a, accLen := n }

theorem hdrRead_held {r t : State} {ls : List Nat} (h : HeaderHeld t ls) (hcfg : t.cfg = r.cfg)
    (hbits : headerRest t <+: r.unread) :
    ∃ a n, hdrRead r = .ok () (setLens .dist (ls.drop (t.hlit + 257))
      (setLens .litlen (ls.take (t.hlit + 257)) (pairsRead t r ls a n))) := by
  obtain ⟨hread, hpairs⟩ := hdrRead_fields h hcfg hbits
  have hcode : (beginSeq (fieldsRead t r)).clCode = t.clCode := h.clCode.symm
  have hcodes : ReadsCodes 7 t.clLen (beginSeq (fieldsRead t r)) := ⟨h.kraft, rfl, fun l hl => hcfg ▸ h.max l hl⟩
  obtain ⟨a, n, hseq⟩ := readSeq_bits (ps := t.rle) (ls := ls) (fuel := (fieldsRead t r).total) hcodes
    (by rw [hcode]; exact h.pairs) h.total.1 h.total.2 (Nat.le_add_left ..) (by rw [hcode]; exact hpairs)
  have hpos : r.bitPos + (headerRest t).length =
      r.bitPos + 5 + 5 + 4 + 3 * (t.hclen + 4) + (t.rle.flatMap (pairBits t.clCode)).length := by
    rw [h.rest_length]
    omega
  have hsplit := splitSeq_total (s := pairsRead t r ls a n) h.total.2
  refine ⟨a, n, ?_⟩
  rw [hread, hseq, hcode]
  refine Eq.trans ?_ (congrArg (Act.ok ()) hsplit)
  rw [pairsRead, hpos]
  rfl

/-- Settles O59: the header read from its bits, its arrays split off the sequence. -/
theorem headerRead : Obligations.HeaderRead := by
  intro r t ls hc htcfg he hlit hdist hclen hlen h8 hsent hkraft hcode hmax hpairs hexp htotal hbits
  have h : HeaderHeld t ls := ⟨htcfg ▸ hc, ⟨hlit, hdist, hclen⟩, ⟨hlen, h8⟩, hsent,
    ⟨fun l hl => Nat.le_of_lt_succ (h8 l hl), hkraft⟩, hcode, hmax, hpairs, hexp, htotal⟩
  rw [← List.length_drop, headerBits_drop]
  rw [headerBits_drop] at hbits
  obtain ⟨a, n, hread⟩ := hdrRead_held h htcfg hbits
  have hexec : exec .hdrRead r = (hdrRead r).outcome fun _ => .none := unlessPending_ready he _
  rw [hread] at hexec
  refine ⟨_, hexec, ?_⟩
  unfold pairsRead fieldsRead
  rfl

end Sys2Proof.Machine
end

section
/-! SUPPORT. The bit-stream operations one by one: a write leaves what `writeList` of its bits leaves, a flush what
`flush` does, a read the next bits or the fault of R311. -/

namespace Sys2Proof.Machine

/-! ## Writes -/

/-- The operations that append to the stream and may come in any order (R130 to R132), each with its bits. -/
inductive WritesBits (c : Config.Params) : Instr → List Bool → Prop
  | bit (b : Bool) : WritesBits c (.bsWbit b) [b]
  | field (n v : Nat) (h : n ≤ c.nbitsMax) : WritesBits c (.bsWbits n v) (fieldBits n v)
  | code (l v : Nat) (h1 : 1 ≤ l) (h15 : l ≤ 15) (h : v < 2 ^ l) : WritesBits c (.bsWcode l v) (codeBits v l)

theorem exec_writesBits {i : Instr} {bits : List Bool} {s : State} (h : WritesBits s.cfg i bits) (he : s.err = none) :
    exec i s = .next (writeList bits s).finished := by
  cases h with
  | bit b => exact unlessPending_ready he _
  | field n v h => exact (unlessPending_ready he _).trans (if_neg (not_lt.2 h))
  | code l v h1 h15 h => exact (unlessPending_ready he _).trans (if_neg (by omega))

theorem exec_writesBits_wrote {i : Instr} {bits : List Bool} {s : State} (h : WritesBits s.cfg i bits)
    (he : s.err = none) (hw : WriterOk s) : ∃ t, exec i s = .next t ∧ Wrote bits s t :=
  ⟨_, exec_writesBits h he, wrote_writeList bits s hw⟩

/-- Settles O14: the eighth bit is the one that meets seven pending ones. -/
theorem writeBit_completesByte : Obligations.WriteBit := by
  intro s b he
  have hexec : exec (.bsWbit b) s = .next (writeBit b s).finished := exec_writesBits (.bit b) he
  refine ⟨fun hlt => ?_, fun h7 => ?_, exec_writesBits_wrote (.bit b) he⟩
  · rw [hexec, writeBit, if_neg hlt.ne]
    rfl
  · rw [hexec, writeBit, if_pos h7, h7]
    rfl

/-- Settles O15: the bits of a field and of a code are those of R131 and R132, the guards refuse the rest. -/
theorem writeFieldsAndCodes : Obligations.WriteFieldsAndCodes := by
  intro s he hw
  refine ⟨fun n v hn => exec_writesBits_wrote (.field n v hn) he hw, fun n v hn => ?_, fun l c h1 h15 hc => ?_,
    fun l c hc => ?_⟩
  · exact (unlessPending_ready he _).trans (if_pos hn)
  · rw [← codeBits_eq]
    exact exec_writesBits_wrote (.code l c h1 h15 hc) he hw
  · exact (unlessPending_ready he _).trans (if_pos hc)

/-! ## Flush -/

theorem exec_bsFlush {s : State} (he : s.err = none) : exec .bsFlush s = .next (flush s).finished :=
  unlessPending_ready he _

theorem exec_strmClose {s : State} (he : s.err = none) : exec .strmClose s = .next (flush s).finished :=
  unlessPending_ready he _

theorem flush_aligned {s : State} (h : s.wCnt = 0) : flush s = s := by
  rw [flush, h, if_neg (lt_irrefl 0)]

/-- A flush, as a statement sees it. -/
theorem wrote_flush {s : State} (h : WriterOk s) :
    Wrote (List.replicate ((8 - s.wCnt) % 8) s.cfg.padBit) s (flush s).finished := by
  obtain ⟨hok, hwritten, _⟩ := flush_spec s h
  refine ⟨hok, hwritten, ?_⟩
  obtain ⟨w, c, k, hf⟩ := flush_frame s
  rw [hf]
  rfl

/-- Settles O16: both operations flush. -/
theorem flushAndClose : Obligations.FlushAndClose := by
  intro s he hw i hi
  obtain ⟨_, _, hbuf, hcnt⟩ := flush_spec s hw
  have hexec : exec i s = .next (flush s).finished := by
    rcases List.mem_pair.1 hi with rfl | rfl
    · exact exec_bsFlush he
    · exact exec_strmClose he
  exact ⟨_, hexec, wrote_flush hw, hbuf, hcnt, fun h => congrArg State.finished (flush_aligned h)⟩

/-! ## Reads -/

theorem exec_bsRbit_cons {s : State} {b : Bool} {bs : List Bool} (he : s.err = none) (h : s.unread = b :: bs) :
    exec .bsRbit s = .next { s with bitPos := s.bitPos + 1, result := .bits b.toNat } := by
  change execBsRbit s = _
  rw [execBsRbit, unlessPending_ready he, readBit_cons s b bs h, Act.outcome_ok]

theorem exec_bsRbit_nil {s : State} (he : s.err = none) (h : s.unread = []) :
    exec .bsRbit s = .next (takeFault .endOfSource 0 s) := by
  change execBsRbit s = _
  rw [execBsRbit, unlessPending_ready he, readBit_nil s h, Act.outcome_raised]

theorem exec_bsRbits_guarded {n : Nat} {s : State} (he : s.err = none) (h : n ≤ s.cfg.nbitsMax) :
    exec (.bsRbits n) s = (readBits n s).outcome .bits :=
  (unlessPending_ready he _).trans (if_neg (not_lt.2 h))

theorem exec_bsRbits {n : Nat} {s : State} (he : s.err = none) (h : n ≤ s.cfg.nbitsMax) (hn : n ≤ s.unread.length) :
    exec (.bsRbits n) s =
      .next { s with bitPos := s.bitPos + n, result := .bits (fieldValue (s.unread.take n)) } := by
  rw [exec_bsRbits_guarded he h, readBits_ok n s hn, Act.outcome_ok]

/-- Settles O17: the bits not yet read decide, a fault is R312's. -/
theorem readBitsAndFields : Obligations.ReadBitsAndFields := by
  intro s he
  refine ⟨fun b bs h => exec_bsRbit_cons he h, fun h => ⟨_, exec_bsRbit_nil he h, raised_takeFault ..⟩,
    fun n hn h => exec_bsRbits he hn h, fun n hn h => ?_, fun n hn => ?_⟩
  · rw [exec_bsRbits_guarded he hn, readBits_raised n s h]
    exact ⟨_, rfl, raised_takeFault ..⟩
  · exact (unlessPending_ready he _).trans (if_pos hn)

end Sys2Proof.Machine
end

section
/-! SUPPORT. A fault is recorded from the state to which the instruction had read on, so the cursor has not moved back
and the units that do not read are as before. -/

namespace Sys2Proof.Machine

/-- An instruction that leaves an error where none was pending is one of the decoder's, and has raised. -/
theorem exec_raised {i : Instr} {s t : State} {c : Cause} (he : s.err = none) (h : exec i s = .next t)
    (hc : t.err = some c) : ∃ v u, Failing s u ∧ t = takeFault c v u := by
  have hr : i ≠ .coreReset := by
    rintro rfl
    obtain rfl : coreReset s = t := Host.Outcome.next.inj h
    cases hc
  cases hi : i.leavesDecoder with
  | true =>
    obtain ⟨_, _, _, _, _, herr, _⟩ := (exec_encodes hi h).decoder
    cases hc.symm.trans (herr.trans he)
  | false =>
    rcases (exec_decoded hi hr h).2 with ⟨u, q, ⟨hu, _⟩, rfl⟩ | ⟨c', v, u, hu, rfl⟩
    · obtain ⟨_, _, _, herr, _⟩ := hu.frame
      cases hc.symm.trans (herr.trans he)
    · cases hc
      exact ⟨v, u, hu, rfl⟩

/-- Only where the control state is `Stored` from the start does a fault leave it `Stored` (R275, log 21). -/
theorem Failing.faultsTo {s u : State} (hs : Inv s) (hu : Failing s u) :
    s.dstate.FaultsTo u.dstate.afterFault := by
  rcases hu.dstate with hd | ⟨hp, hd⟩
  · rw [hd]
    exact DState.faultsTo_afterFault s.dstate
  · have hfaults := DState.faultsTo_afterFault u.dstate
    rw [DState.FaultsTo, if_neg hd] at hfaults
    rw [DState.FaultsTo, hs.expectHeader hp, hfaults]
    rfl

/-- Settles O11: the fault is recorded in the state to which the instruction had advanced. -/
theorem faultEntry : Obligations.FaultEntry := by
  intro i s t c hs he h hc
  obtain ⟨v, u, hu, rfl⟩ := exec_raised he h hc
  obtain ⟨⟨hsource, hdata, hport, hcfg⟩, ⟨hsink, hbuf, hcnt⟩, ⟨hhead, hprev⟩, _⟩ := hu.advances.frame
  exact ⟨hu.faultsTo hs, rfl, hu.advances.1, rfl, rfl, rfl, hbuf, hcnt, hsink, hsource, hdata, hport, hhead, hprev,
    hcfg⟩

end Sys2Proof.Machine
end

section
/-! SUPPORT. Write-then-read (R136): a run of writes and a flush is one list of bits written and padded, the sink's bytes
are that list, and a reader attached to them reads it bit by bit to its end. -/

namespace Sys2Proof.Machine

/-! ## A run of writes -/

theorem finished_writeList (bits : List Bool) (s : State) : writeList bits s.finished = (writeList bits s).finished :=
  writeList_dress (d := quiet) bits s

theorem finished_flush (s : State) : flush s.finished = (flush s).finished := by
  by_cases h : 0 < s.wCnt
  · have h' : 0 < s.finished.wCnt := h
    rw [flush, flush, if_pos h, if_pos h']
    rfl
  · have h' : ¬ 0 < s.finished.wCnt := h
    rw [flush, flush, if_neg h, if_neg h']

theorem run_writes {ops : List (Instr × List Bool)} {s : State} (he : s.err = none)
    (hops : ∀ o ∈ ops, WritesBits s.cfg o.1 o.2) :
    runAll (ops.map Prod.fst ++ [.bsFlush]) s = .next (flush (writeList (ops.flatMap Prod.snd) s)).finished := by
  induction ops generalizing s with
  | nil => exact runAll_cons_next (exec_bsFlush he)
  | cons o ops ih =>
    have hexec := exec_writesBits (hops o (List.mem_cons_self ..)) he
    obtain ⟨w, c, k, hframe⟩ := writeList_frame o.2 s
    have hrest : ∀ p ∈ ops, WritesBits (writeList o.2 s).finished.cfg p.1 p.2 := by
      rw [hframe]
      exact fun p hp => hops p (List.mem_cons_of_mem o hp)
    have herr : (writeList o.2 s).finished.err = none := by
      rw [hframe]
      exact he
    rw [List.map_cons, List.cons_append, runAll_cons_next hexec, ih herr hrest, finished_writeList, finished_flush,
      List.flatMap_cons, writeList_append]
    rfl

/-! ## The sink -/

/-- The bits of a flushed stream: `PAD_BIT` up to the byte boundary (R133). -/
def padded (c : Config.Params) (bits : List Bool) : List Bool :=
  bits ++ List.replicate ((8 - bits.length % 8) % 8) c.padBit

theorem padded_length (c : Config.Params) (bits : List Bool) :
    (padded c bits).length = 8 * ((bits.length + 7) / 8) := by
  rw [padded, List.length_append, List.length_replicate]
  omega

theorem padded_get {c : Config.Params} {bits : List Bool} {k : Nat} (h : k < (padded c bits).length) :
    (padded c bits)[k]? = some (bits[k]?.getD c.padBit) := by
  rw [padded] at h ⊢
  by_cases hk : k < bits.length
  · rw [List.getElem?_append_left hk, List.getElem?_eq_getElem hk, Option.getD_some]
  · rw [List.length_append, List.length_replicate] at h
    rw [List.getElem?_append_right (not_lt.1 hk), List.getElem?_replicate, if_pos (by omega),
      List.getElem?_eq_none (not_lt.1 hk), Option.getD_none]

/-- From a reset writer the sink holds the bits written, padded. -/
theorem flush_writeList_sink {s : State} (hbuf : s.wBuf = 0#8) (hcnt : s.wCnt = 0) (hsink : s.sink = [])
    (bits : List Bool) :
    bytesBits s.cfg.bitOrder (flush (writeList bits s)).sink = padded s.cfg bits := by
  have hreset : s.written = [] := by rw [State.written, hsink, hcnt]; rfl
  obtain ⟨hok, hwritten⟩ := writeList_spec bits s (by simp [WriterOk, hbuf, hcnt])
  obtain ⟨_, hflush, _, hempty⟩ := flush_spec _ hok
  obtain ⟨w, c, k, hframe⟩ := writeList_frame bits s
  have hcfg : (writeList bits s).cfg = s.cfg := by rw [hframe]
  obtain ⟨w', c', k', hframe'⟩ := flush_frame (writeList bits s)
  have hcfg' : (flush (writeList bits s)).cfg = s.cfg := by rw [hframe', hcfg]
  have hpending : (writeList bits s).wCnt = bits.length % 8 := by
    have hlen := congrArg List.length hwritten
    rw [hreset, State.written, List.length_append, bytesBits_length, byteBits_length, List.nil_append] at hlen
    have := hok.1
    omega
  rw [State.written, hempty, hcfg', hwritten, hreset, hcfg, hpending] at hflush
  simpa [byteBits, padded] using hflush

/-- A byte from its bits in stream order: bit `k` of the stream at bit `k` LSB-first, at bit `7 - k` MSB-first (R60,
U4). -/
theorem byte_toNat_eq_sum (c : Config.Params) (b : Byte) :
    b.toNat = ((List.range 8).map fun k => ((c.streamOrder b).getLsbD k).toNat *
      2 ^ (if c.bitOrder = .lsbFirst then k else 7 - k)).sum := by
  have hvalue : fieldValue (fieldBits 8 b.toNat) = b.toNat :=
    (fieldValue_fieldBits 8 b.toNat).trans (Nat.mod_eq_of_lt b.isLt)
  rw [← hvalue]
  unfold Config.Params.streamOrder
  cases c.bitOrder with
  | lsbFirst =>
    simp [fieldBits, fieldValue, List.range_succ, BitVec.testBit_toNat]
    omega
  | msbFirst =>
    simp [fieldBits, fieldValue, List.range_succ, BitVec.testBit_toNat, BitVec.getLsbD_reverse, BitVec.getMsbD]
    omega

/-- A byte of a sequence from the eight bits `f` it has in the stream. -/
theorem byte_of_bytesBits {c : Config.Params} {bytes : List Byte} {j : Nat} {f : Nat → Bool} (hj : j < bytes.length)
    (hf : ∀ k < 8, (bytesBits c.bitOrder bytes)[8 * j + k]? = some (f k)) :
    ∃ b, bytes[j]? = some b ∧
      b.toNat = ((List.range 8).map fun k => (f k).toNat * 2 ^ (if c.bitOrder = .lsbFirst then k else 7 - k)).sum := by
  refine ⟨bytes[j], List.getElem?_eq_getElem hj, ?_⟩
  rw [byte_toNat_eq_sum c]
  congr 1
  refine List.map_congr_left fun k hk => ?_
  have hk := List.mem_range.1 hk
  have hdiv : (8 * j + k) / 8 = j := by omega
  have hmod : (8 * j + k) % 8 = k := by omega
  have hbit := hf k hk
  rw [bytesBits_get, hdiv, hmod, List.getElem?_eq_getElem hj, Option.map_some] at hbit
  rw [Option.some.inj hbit]

/-! ## Reading to the end -/

/-- BS.RBIT `n` times, then more: the result word aside, the cursor has moved by `n`. -/
theorem run_bsRbits {n : Nat} {s : State} (is : List Instr) (he : s.err = none) (h : n ≤ s.unread.length) :
    ∃ q, runAll (List.replicate n .bsRbit ++ is) s = runAll is { s with bitPos := s.bitPos + n, result := q } := by
  induction n generalizing s with
  | zero => exact ⟨s.result, rfl⟩
  | succ n ih =>
    obtain ⟨b, bs, hu⟩ := List.exists_cons_of_length_pos (Nat.zero_lt_of_lt h)
    have hnext := unread_advance s 1
    obtain ⟨q, hq⟩ := ih (s := { s with bitPos := s.bitPos + 1, result := .bits b.toNat }) he (by
      change n ≤ ({ s with bitPos := s.bitPos + 1 } : State).unread.length
      rw [hnext, List.length_drop]
      omega)
    refine ⟨q, ?_⟩
    rw [List.replicate_succ, List.cons_append, runAll_cons_next (exec_bsRbit_cons he hu), hq, Nat.add_right_comm]
    rfl

theorem run_bsRbits_get {k : Nat} {b : Bool} {s : State} (he : s.err = none) (h : s.unread[k]? = some b) :
    runAll (List.replicate (k + 1) .bsRbit) s =
      .next { s with bitPos := s.bitPos + k + 1, result := .bits b.toNat } := by
  obtain ⟨hk, hb⟩ := List.getElem?_eq_some_iff.1 h
  obtain ⟨q, hq⟩ := run_bsRbits [.bsRbit] he hk.le
  have hu : ({ s with bitPos := s.bitPos + k, result := q } : State).unread = b :: s.unread.drop (k + 1) := by
    rw [← hb, ← List.drop_eq_getElem_cons hk]
    exact unread_advance s k
  rw [List.replicate_succ', hq]
  exact runAll_cons_next (exec_bsRbit_cons he hu)

theorem run_bsRbits_end {s : State} (he : s.err = none) :
    ∃ q, runAll (List.replicate (s.unread.length + 1) .bsRbit) s = .next q ∧ q.err = some .endOfSource := by
  obtain ⟨q, hq⟩ := run_bsRbits [.bsRbit] he le_rfl
  have hu : ({ s with bitPos := s.bitPos + s.unread.length, result := q } : State).unread = [] :=
    (unread_advance s s.unread.length).trans List.drop_length
  rw [List.replicate_succ', hq]
  exact ⟨_, runAll_cons_next (exec_bsRbit_nil he hu), rfl⟩

/-- A field is read where its bits stand in the source. -/
theorem exec_bsRbits_field {n v : Nat} {before : List Bool} {s : State} (he : s.err = none)
    (hn : n ≤ s.cfg.nbitsMax) (h : before ++ fieldBits n v <+: s.sourceBits) :
    exec (.bsRbits n) { s with bitPos := before.length } =
      .next { s with bitPos := before.length + n, result := .bits (v % 2 ^ n) } := by
  obtain ⟨after, hsource⟩ := h
  have hu : ({ s with bitPos := before.length } : State).unread = fieldBits n v ++ after := by
    change s.sourceBits.drop before.length = _
    rw [← hsource, List.append_assoc, List.drop_left]
  have hlen : n ≤ ({ s with bitPos := before.length } : State).unread.length := by
    rw [hu, List.length_append, fieldBits_length]
    exact Nat.le_add_right ..
  rw [exec_bsRbits (s := { s with bitPos := before.length }) he hn hlen, hu,
    List.take_left' (fieldBits_length n v), fieldValue_fieldBits]

/-- Settles O18: the sink holds the padded stream, which is what the reader has before it. -/
theorem writeThenRead : Obligations.WriteThenRead := by
  intro s t r ops he hbuf hcnt hsink hops hrun hre hpos hsource hcfg bits
  have hwrites : ∀ o ∈ ops, WritesBits s.cfg o.1 o.2 := by
    intro o ho
    rcases hops o ho with ⟨b, rfl⟩ | ⟨n, v, hn, rfl⟩ | ⟨l, c, h1, h15, hc, rfl⟩
    · exact .bit b
    · exact .field n v hn
    · rw [← codeBits_eq]
      exact .code l c h1 h15 hc
  have hstream : bytesBits s.cfg.bitOrder t.sink = padded s.cfg bits := by
    rw [← Host.Outcome.next.inj ((run_writes he hwrites).symm.trans hrun)]
    exact flush_writeList_sink hbuf hcnt hsink bits
  have hlen : (padded s.cfg bits).length = 8 * t.sink.length := by rw [← hstream, bytesBits_length]
  have hbits : r.sourceBits = padded s.cfg bits := by rw [State.sourceBits, hcfg, hsource, hstream]
  have hunread : r.unread = padded s.cfg bits := by rw [State.unread, hpos, hbits, List.drop_zero]
  refine ⟨?_, fun j hj => byte_of_bytesBits hj fun k hk => ?_, fun k hk => ?_, ?_,
    fun before after n v hsplit => ?_⟩
  · rw [padded_length] at hlen
    omega
  · rw [hstream]
    exact padded_get (by omega)
  · rw [run_bsRbits_get hre (by rw [hunread]; exact padded_get (hlen ▸ hk)), hpos, Nat.zero_add]
    exact ⟨_, rfl, rfl, rfl⟩
  · rw [← hlen, ← hunread]
    exact run_bsRbits_end hre
  · have hn : n ≤ s.cfg.nbitsMax := by
      have hwrite := hwrites _ (hsplit ▸ List.mem_append_right before (List.mem_cons_self ..))
      cases hwrite with
      | field _ _ h => exact h
    have hfield : before.flatMap Prod.snd ++ fieldBits n v <+: bits := by
      refine ⟨after.flatMap Prod.snd, ?_⟩
      change _ = ops.flatMap Prod.snd
      rw [hsplit, List.flatMap_append, List.flatMap_cons, List.append_assoc]
      rfl
    exact exec_bsRbits_field hre (hcfg ▸ hn) (hbits ▸ hfield.trans (List.prefix_append ..))

end Sys2Proof.Machine
end

section
/-! SUPPORT. The table operations (R153 to R157): reverse search gives the row of the greatest symbol whose base is at
most the value, so a value inside a row's range that no later row starts at or below has that row. -/

namespace Sys2Proof.Machine

/-! ## Reverse search -/

theorem lenTable_syms_lt {c : Config.Params} (hc : c.Ok) : (c.lenTable.map Config.CodeRow.sym).Pairwise (· < ·) :=
  hc.lenTable.1 ▸ List.pairwise_lt_range' _

theorem distTable_syms_lt {c : Config.Params} (hc : c.Ok) : (c.distTable.map Config.CodeRow.sym).Pairwise (· < ·) :=
  hc.distTable.1 ▸ List.pairwise_lt_range

/-- In a table in ascending symbols, reverse search gives the greatest symbol whose base is at most the value. -/
theorem rowFor_greatest {table : List Config.CodeRow} (hs : (table.map Config.CodeRow.sym).Pairwise (· < ·)) {v : Nat}
    {r : Config.CodeRow} (h : rowFor table v = some r) : ∀ q ∈ table, q.base ≤ v → q.sym ≤ r.sym := by
  intro q hq hb
  have hmem : q ∈ table.filter fun r => r.base ≤ v := List.mem_filter.2 ⟨hq, by simpa using hb⟩
  have hle : (table.filter fun r => r.base ≤ v).Pairwise fun p q => p.sym ≤ q.sym :=
    ((List.pairwise_map.1 hs).imp Nat.le_of_lt).filter _
  rw [← (List.getLast_eq_iff_getLast?_eq_some (List.ne_nil_of_mem hmem)).2 h]
  exact hle.rel_getLast_of_rel_getLast_getLast hmem le_rfl

/-- Reverse search gives the row whose base the value has reached where every row of a greater symbol starts later. -/
theorem rowFor_eq_of_later {table : List Config.CodeRow} (hs : (table.map Config.CodeRow.sym).Pairwise (· < ·))
    {v : Nat} {r q : Config.CodeRow} (hq : rowFor table v = some q) (hr : r ∈ table) (hb : r.base ≤ v)
    (h : ∀ p ∈ table, r.sym < p.sym → v < p.base) : q = r := by
  obtain ⟨hmem, hbase⟩ := rowFor_eq_some hq
  have hge : r.sym ≤ q.sym := rowFor_greatest hs hq r hr hb
  have hle : ¬ r.sym < q.sym := fun hlt => absurd hbase (h q hmem hlt).not_ge
  exact List.inj_on_of_nodup_map (hs.imp Nat.ne_of_lt) hmem hr (by omega)

theorem lenRow_eq_some {c : Config.Params} {len : Nat} {r : Config.CodeRow} (h : lenRow c len = some r) :
    rowFor c.lenTable len = some r :=
  (Option.ite_none_right_eq_some.1 h).2

theorem distRow_eq_some {c : Config.Params} {dist : Nat} {r : Config.CodeRow} (h : distRow c dist = some r) :
    rowFor c.distTable dist = some r :=
  (Option.ite_none_right_eq_some.1 h).2

theorem lenRow_out_of_range {c : Config.Params} {len : Nat} (h : len < c.minMatch ∨ c.maxMatch < len) :
    lenRow c len = none :=
  if_neg (by omega)

theorem distRow_out_of_range {c : Config.Params} {dist : Nat} (h : dist < 1 ∨ c.wsize < dist) :
    distRow c dist = none :=
  if_neg (by omega)

/-- No length symbol stands for less than MIN_MATCH (R11, R151). -/
theorem minMatch_le_base {c : Config.Params} (hc : c.Ok) {r : Config.CodeRow} (h : r ∈ c.lenTable) :
    c.minMatch ≤ r.base := by
  obtain ⟨_, hfirst, _, hgap, _⟩ := hc.lenTable
  cases ht : c.lenTable with
  | nil => simp [ht] at h
  | cons q rest =>
    rw [ht] at h hfirst hgap
    have hmin : q.base = c.minMatch := by simpa using hfirst
    exact hmin.symm.le.trans (base_le_of_gapless hgap r h)

/-- Reverse search finds the row of a length in its range that no later row has reached. -/
theorem lenRow_base_add {c : Config.Params} (hc : c.Ok) {r : Config.CodeRow} (hr : r ∈ c.lenTable) {x : Nat}
    (hx : x < 2 ^ r.extra) (h : ∀ q ∈ c.lenTable, r.sym < q.sym → r.base + x < q.base) :
    lenRow c (r.base + x) = some r := by
  have hmin : c.minMatch ≤ r.base := minMatch_le_base hc hr
  obtain ⟨_, _, _, _, hfits⟩ := hc.lenTable
  have hmax : r.base + 2 ^ r.extra ≤ c.maxMatch + 1 := hfits r hr
  obtain ⟨q, hq, _⟩ := lenRow_spec hc (r.base + x) (by omega) (by omega)
  rwa [rowFor_eq_of_later (lenTable_syms_lt hc) (lenRow_eq_some hq) hr (Nat.le_add_right ..) h] at hq

/-- Reverse search finds the row of a distance in its range that no later row has reached. -/
theorem distRow_base_add {c : Config.Params} (hc : c.Ok) {r : Config.CodeRow} (hr : r ∈ c.distTable) {x : Nat}
    (hx : x < 2 ^ r.extra) (h : ∀ q ∈ c.distTable, r.sym < q.sym → r.base + x < q.base) :
    distRow c (r.base + x) = some r := by
  have hmin : 1 ≤ r.base := distTable_base_pos hc hr
  obtain ⟨_, _, _, _, hfits⟩ := hc.distTable
  have hmax : r.base + 2 ^ r.extra ≤ c.wsize + 1 := hfits r hr
  obtain ⟨q, hq, _⟩ := distRow_spec hc (r.base + x) (by omega) (by omega)
  rwa [rowFor_eq_of_later (distTable_syms_lt hc) (distRow_eq_some hq) hr (Nat.le_add_right ..) h] at hq

/-! ## Forward lookup -/

theorem rowOf_eq_none {table : List Config.CodeRow} {sym : Nat} (h : sym ∉ table.map Config.CodeRow.sym) :
    rowOf table sym = none :=
  List.find?_eq_none.2 fun r hr heq => h (List.mem_map.2 ⟨r, hr, by simpa using heq⟩)

theorem rowOf_lenTable_none {c : Config.Params} (hc : c.Ok) {sym : Nat} (h : sym < 257 ∨ 285 < sym) :
    rowOf c.lenTable sym = none :=
  rowOf_eq_none (by rw [hc.lenTable.1, List.mem_range'_1]; omega)

theorem rowOf_distTable_none {c : Config.Params} (hc : c.Ok) {d : Nat} (h : 29 < d) : rowOf c.distTable d = none :=
  rowOf_eq_none (by rw [hc.distTable.1, List.mem_range]; omega)

/-- What reverse search answers with a row found for `v`, or without one. -/
def searchAnswer (why : Refusal) (v : Nat) (s : State) : Option Config.CodeRow → Out
  | none => .refused why
  | some r => .next { s with result := .code r.sym (v - r.base) r.extra }

/-- What forward lookup answers with the row of the symbol and the extra value `x`, or without one. -/
def lookupAnswer (why : Refusal) (x : Nat) (s : State) : Option Config.CodeRow → Out
  | none => .refused why
  | some r => if x < 2 ^ r.extra then .next { s with result := .value (r.base + x) } else .refused why

/-- Forward lookup answers only for an extra value that fits the row. -/
theorem lookupAnswer_eq_next {why : Refusal} {x v : Nat} {s : State} {row : Option Config.CodeRow}
    (h : lookupAnswer why x s row = .next { s with result := .value v }) :
    ∃ r, row = some r ∧ x < 2 ^ r.extra ∧ v = r.base + x := by
  cases row with
  | none => cases h
  | some r =>
    obtain ⟨hx, h⟩ := ite_else_refused_eq h nofun
    exact ⟨r, rfl, hx, (Result.value.inj (congrArg State.result (Host.Outcome.next.inj h))).symm⟩

/-! ## The operations -/

theorem exec_tblLensym {s : State} (he : s.err = none) (len : Nat) :
    exec (.tblLensym len) s = searchAnswer .badLength len s (lenRow s.cfg len) := by
  refine (unlessPending_ready he _).trans ?_
  cases lenRow s.cfg len <;> rfl

theorem exec_tblDistsym {s : State} (he : s.err = none) (dist : Nat) :
    exec (.tblDistsym dist) s = searchAnswer .badDistance dist s (distRow s.cfg dist) := by
  refine (unlessPending_ready he _).trans ?_
  cases distRow s.cfg dist <;> rfl

theorem exec_tblLenval {s : State} (he : s.err = none) (sym x : Nat) :
    exec (.tblLenval sym x) s = lookupAnswer .badLength x s (rowOf s.cfg.lenTable sym) := by
  refine (unlessPending_ready he _).trans ?_
  cases rowOf s.cfg.lenTable sym with
  | none => rfl
  | some r => simp only [lookupAnswer, ← Nat.not_lt, ite_not, complete]

theorem exec_tblDistval {s : State} (he : s.err = none) (d x : Nat) :
    exec (.tblDistval d x) s = lookupAnswer .badDistance x s (rowOf s.cfg.distTable d) := by
  refine (unlessPending_ready he _).trans ?_
  cases rowOf s.cfg.distTable d with
  | none => rfl
  | some r => simp only [lookupAnswer, ← Nat.not_lt, ite_not, complete]

/-- Settles O19: each operation answers by the row found; a value or symbol out of range has none. -/
theorem tableLookups : Obligations.TableLookups := by
  intro s hc he
  refine ⟨fun len h h' => ?_, fun len h => ?_, fun dist h h' => ?_, fun dist h => ?_, fun r hr x => ?_,
    fun sym x h => ?_, fun r hr x => ?_, fun d x h => ?_⟩
  · obtain ⟨r, hrow, hr, hb, _⟩ := lenRow_spec hc len h h'
    refine ⟨r, hr, hb, rowFor_greatest (lenTable_syms_lt hc) (lenRow_eq_some hrow), ?_⟩
    rw [exec_tblLensym he, hrow, searchAnswer]
  · rw [exec_tblLensym he, lenRow_out_of_range h, searchAnswer]
  · obtain ⟨r, hrow, hr, hb, _⟩ := distRow_spec hc dist h h'
    refine ⟨r, hr, hb, rowFor_greatest (distTable_syms_lt hc) (distRow_eq_some hrow), ?_⟩
    rw [exec_tblDistsym he, hrow, searchAnswer]
  · rw [exec_tblDistsym he, distRow_out_of_range h, searchAnswer]
  · rw [exec_tblLenval he, (rowOf_mem hc).1 r hr, lookupAnswer]
  · rw [exec_tblLenval he, rowOf_lenTable_none hc h, lookupAnswer]
  · rw [exec_tblDistval he, (rowOf_mem hc).2 r hr, lookupAnswer]
  · rw [exec_tblDistval he, rowOf_distTable_none hc h, lookupAnswer]

/-! ## The laws -/

/-- Forward lookup of the row found, and of what its base leaves of the value, is the value (R157). -/
theorem lookupAnswer_of_search {why : Refusal} {v : Nat} {s : State} {r : Config.CodeRow} (hb : r.base ≤ v)
    (hx : v - r.base < 2 ^ r.extra) :
    lookupAnswer why (v - r.base) s (some r) = .next { s with result := .value v } := by
  rw [lookupAnswer, if_pos hx, Nat.add_sub_cancel' hb]

/-- Reverse search of a row's value, where it finds the row, is the pair (R157). -/
theorem searchAnswer_of_lookup {why : Refusal} {x : Nat} {s : State} {r : Config.CodeRow} :
    searchAnswer why (r.base + x) s (some r) = .next { s with result := .code r.sym x r.extra } := by
  rw [searchAnswer, Nat.add_sub_cancel_left]

/-- The ranges of the length symbols are apart, but for the last value of 284, where 285 starts (R151). -/
theorem lenTable_apart : ∀ r ∈ Config.lenTable, ∀ q ∈ Config.lenTable, r.sym < q.sym →
    r.base + 2 ^ r.extra ≤ q.base ∨ r.sym = 284 ∧ r.base + 31 = q.base ∧ 2 ^ r.extra = 32 := by decide

/-- The ranges of the distance symbols are apart (R152). -/
theorem distTable_apart : ∀ r ∈ Config.distTable, ∀ q ∈ Config.distTable, r.sym < q.sym →
    r.base + 2 ^ r.extra ≤ q.base := by decide

/-- With the table of R151, a length symbol and its extra value are found again, except (284, 31) (R157). -/
theorem lenRow_inverse {c : Config.Params} (hc : c.Ok) (ht : c.lenTable = Config.lenTable) {r : Config.CodeRow}
    (hr : r ∈ Config.lenTable) {x : Nat} (hx : x < 2 ^ r.extra) (hne : (r.sym, x) ≠ (284, 31)) :
    lenRow c (r.base + x) = some r := by
  refine lenRow_base_add hc (ht ▸ hr) hx fun q hq hlt => ?_
  rcases lenTable_apart r hr q (ht ▸ hq) hlt with h | ⟨hsym, hbase, hextra⟩
  · omega
  · have : x ≠ 31 := fun h => hne (by rw [hsym, h])
    omega

/-- With the table of R152, a distance symbol and its extra value are found again (R157). -/
theorem distRow_inverse {c : Config.Params} (hc : c.Ok) (ht : c.distTable = Config.distTable) {r : Config.CodeRow}
    (hr : r ∈ Config.distTable) {x : Nat} (hx : x < 2 ^ r.extra) : distRow c (r.base + x) = some r := by
  refine distRow_base_add hc (ht ▸ hr) hx fun q hq hlt => ?_
  have := distTable_apart r hr q (ht ▸ hq) hlt
  omega

/-- Settles O20: the row found holds the value; the row looked up is found again, since the ranges are apart. -/
theorem tableLaws : Obligations.TableLaws := by
  intro s hc he
  refine ⟨fun len h h' => ?_, fun dist h h' => ?_, fun ht => ⟨fun sym x v h hne => ?_, 258, ?_, ?_⟩,
    fun ht d x v h => ?_⟩
  · obtain ⟨r, hrow, hr, hb, hx⟩ := lenRow_spec hc len h h'
    refine ⟨r.sym, len - r.base, r.extra, by rw [exec_tblLensym he, hrow, searchAnswer], ?_⟩
    rw [exec_tblLenval he, (rowOf_mem hc).1 r hr, lookupAnswer_of_search hb hx]
  · obtain ⟨r, hrow, hr, hb, hx⟩ := distRow_spec hc dist h h'
    refine ⟨r.sym, dist - r.base, r.extra, by rw [exec_tblDistsym he, hrow, searchAnswer], ?_⟩
    rw [exec_tblDistval he, (rowOf_mem hc).2 r hr, lookupAnswer_of_search hb hx]
  · rw [exec_tblLenval he, ht] at h
    obtain ⟨r, hrow, hx, rfl⟩ := lookupAnswer_eq_next h
    obtain ⟨hr, rfl⟩ := rowOf_eq_some hrow
    refine ⟨r, hr, rfl, ?_⟩
    rw [exec_tblLensym he, lenRow_inverse hc ht hr hx hne, searchAnswer_of_lookup]
  · have hrow : rowOf Config.lenTable 284 = some ⟨284, 227, 5⟩ := by decide
    rw [exec_tblLenval he, ht, hrow, lookupAnswer, if_pos (by decide)]
  · have hrow : lenRow s.cfg 258 = some ⟨285, 258, 0⟩ :=
      lenRow_inverse (r := ⟨285, 258, 0⟩) (x := 0) hc ht (by decide) (by decide) (by decide)
    rw [exec_tblLensym he, hrow]
    rfl
  · rw [exec_tblDistval he, ht] at h
    obtain ⟨r, hrow, hx, rfl⟩ := lookupAnswer_eq_next h
    obtain ⟨hr, rfl⟩ := rowOf_eq_some hrow
    refine ⟨r, hr, rfl, ?_⟩
    rw [exec_tblDistsym he, distRow_inverse hc ht hr hx, searchAnswer_of_lookup]

end Sys2Proof.Machine
end

section
/-! SUPPORT. The records of LZ.ENCODE stand for the chunk (R183): a match found at a position repeats the bytes its
distance behind, so each pass appends to the bytes before it exactly the bytes it covers. -/

namespace Sys2Proof.Machine

/-! ## The bytes of a pass -/

/-- The match of a pass repeats the chunk's own bytes (R174). -/
theorem searchAt_matches {s : State} (hd : s.n ≤ s.data.length) (k : Nat) (hk : k < (searchAt s.chunk s).bestLen) :
    s.chunk[s.i - (searchAt s.chunk s).bestDist + k]? = s.chunk[s.i + k]? := by
  have hlen : s.chunk.length = s.n := List.length_take_of_le hd
  obtain ⟨hwithin, _⟩ := searchAt_within s.chunk s
  unfold searchAt at hk hwithin ⊢
  split at hk
  case h_2 => exact absurd hk (Nat.not_lt_zero k)
  rename_i h hash
  have hi : s.i + 2 < s.n := by
    rw [← hlen, ← hashAt_isSome s.cfg, hash]
    rfl
  simp only [hash] at hwithin ⊢
  have hbest : BestAmong (lzFind s.chunk s.i h s) s.i (s.candidates h) := lzFind_bestAmong (by omega)
  obtain ⟨_, c, _, _, ⟨hlt, _, hbytes⟩, hdist, _⟩ := hbest.earliest (Nat.zero_lt_of_lt hk)
  have hbyte := hbytes k hk
  have hdata : (lzFind s.chunk s.i h s).data = s.data := by
    obtain ⟨_, _, _, _, hf⟩ := lzFind_frame s.chunk s.i h s
    rw [hf]
  rw [hdist, Nat.sub_sub_self hlt.le, chunk_getElem? (by omega), chunk_getElem? (by omega), ← hdata, hbyte]

/-- A range of a sequence that repeats the bytes `offset` before it is a copy onto what is before it. -/
theorem isCopy_take_drop {bytes : List Byte} {i offset len : Nat} (hi : i ≤ bytes.length) (ho : 1 ≤ offset ∧ offset ≤ i)
    (h : ∀ k, k < len → bytes[i - offset + k]? = bytes[i + k]?) :
    IsCopy offset (bytes.take i) ((bytes.drop i).take len) := by
  intro k hk
  have hk : k < len := hk.trans_le (List.length_take_le ..)
  rw [← List.take_add, List.length_take_of_le hi, List.getElem?_take_of_lt hk, List.getElem?_drop,
    List.getElem?_take_of_lt (by omega), h k hk]

/-- What the record of a pass appends to the bytes before the pass. -/
theorem passRecord_appends {s : State} {b : Byte} (hc : s.cfg.Ok) (hd : s.n ≤ s.data.length)
    (hb : s.chunk[s.i]? = some b) :
    let r := passRecord s.chunk b (searchAt s.chunk s)
    ∃ copy, copy.length = r.length ∧ IsCopy r.offset (s.chunk.take s.i) copy ∧
      s.chunk.take s.i ++ copy ++ (if r.hasLit then [r.lit] else []) = s.chunk.take (s.i + r.span) := by
  have hlen : s.chunk.length = s.n := List.length_take_of_le hd
  have hi : s.i < s.n := hlen ▸ (List.getElem?_eq_some_iff.1 hb).1
  have hmatch := searchAt_matches hd
  obtain ⟨_, hbest⟩ := searchAt_best s.chunk s
  obtain ⟨hwithin, hdist⟩ := searchAt_within s.chunk s
  obtain ⟨_, _, _, _, _, _, hframe⟩ := searchAt_frame s.chunk s
  have hat : (searchAt s.chunk s).i = s.i ∧ (searchAt s.chunk s).cfg = s.cfg := by
    rw [hframe]
    exact ⟨rfl, rfl⟩
  unfold passRecord
  rw [hat.1, hat.2]
  generalize searchAt s.chunk s = t at hmatch hbest hwithin hdist ⊢
  split
  · exact ⟨[], rfl, fun k hk => absurd hk (Nat.not_lt_zero k), by simp [MatchRecord.literal, MatchRecord.span,
      List.take_add_one, hb]⟩
  · rename_i hmin
    have h3 := hc.ranges.1
    have hcopy : ((s.chunk.drop s.i).take t.bestLen).length = t.bestLen :=
      List.length_take_of_le (by rw [List.length_drop]; omega)
    refine ⟨(s.chunk.drop s.i).take t.bestLen, hcopy,
      isCopy_take_drop (by omega) ⟨(hbest (by omega)).1, hdist⟩ hmatch, ?_⟩
    rw [← List.take_add]
    cases hnext : s.chunk[s.i + t.bestLen]? with
    | some x => simp [MatchRecord.ofMatch, MatchRecord.span, ← Nat.add_assoc, List.take_add_one, hnext]
    | none => simp [MatchRecord.ofMatch, MatchRecord.span]

/-! ## The records of the loop -/

/-- The loop of LZ.ENCODE from position `i` on emits records that expand the bytes before `i` to the chunk. -/
theorem encodeLoop_expands {fuel : Nat} {s : State} (hc : s.cfg.Ok) (hd : s.n ≤ s.data.length) (hi : s.i ≤ s.n)
    (hfuel : s.n ≤ s.i + fuel) :
    ∃ rs, (encodeLoop s.chunk fuel s).recs = s.recs ++ rs ∧ Expands rs (s.chunk.take s.i) s.chunk := by
  have hlen : s.chunk.length = s.n := List.length_take_of_le hd
  have hwhole {j : Nat} (hj : s.n ≤ j) : s.chunk.take j = s.chunk := List.take_of_length_le (hlen ▸ hj)
  induction fuel generalizing s with
  | zero => exact ⟨[], (List.append_nil _).symm, (hwhole hfuel).symm⟩
  | succ fuel ih =>
    rcases hi.eq_or_lt with hend | hlt
    · rw [encodeLoop_past (by omega)]
      exact ⟨[], (List.append_nil _).symm, (hwhole hend.ge).symm⟩
    obtain ⟨b, hb⟩ : ∃ b, s.chunk[s.i]? = some b := ⟨_, List.getElem?_eq_getElem (hlen ▸ hlt)⟩
    rw [encodeLoop_pass hb]
    obtain ⟨⟨_, hmatch⟩, hspan⟩ := passRecord_fits (b := b) hc hlen hlt
    obtain ⟨copy, hcopy, his, hbytes⟩ := passRecord_appends hc hd hb
    obtain ⟨_, _, _, _, _, _, hsearch⟩ := searchAt_frame s.chunk s
    obtain ⟨_, _, hpass⟩ := endPass_frame s.chunk b (searchAt s.chunk s)
    have hnext : ∃ p, p = endPass s.chunk b (searchAt s.chunk s) ∧
        p.recs = s.recs ++ [passRecord s.chunk b (searchAt s.chunk s)] ∧ p.i = s.i + passSpan (searchAt s.chunk s) ∧
        p.cfg = s.cfg ∧ p.n = s.n ∧ p.data = s.data := by
      refine ⟨_, rfl, ?_⟩
      rw [hpass]
      exact ⟨congrArg (· ++ _) (by rw [hsearch]), congrArg (· + _) (by rw [hsearch]), by rw [hsearch], by rw [hsearch],
        by rw [hsearch]⟩
    obtain ⟨p, hp, hrecs, hat, hcfg, hn, hdata⟩ := hnext
    have hchunk : p.chunk = s.chunk := by rw [State.chunk, State.chunk, hn, hdata]
    rw [← hp]
    generalize passRecord s.chunk b (searchAt s.chunk s) = r at hmatch hspan hcopy his hbytes hrecs
    have hreach : 0 < r.length → 1 ≤ r.offset ∧ r.offset ≤ (s.chunk.take s.i).length := fun h0 => by
      have := hmatch h0
      rw [List.length_take_of_le (by omega)]
      omega
    rcases hspan with ⟨_, hr, hle⟩ | ⟨_, hr, hgt⟩
    · have h1 : 1 ≤ passSpan (searchAt s.chunk s) := by
        unfold passSpan
        split <;> omega
      obtain ⟨rs, hrs, hexp⟩ := ih (s := p) (hcfg ▸ hc) (by rw [hn, hdata]; exact hd) (by omega) (by omega)
        (by rw [hchunk, hlen, hn]) (by rw [hchunk, hn]; exact hwhole)
      rw [hchunk] at hrs hexp
      refine ⟨r :: rs, by rw [hrs, hrecs, List.append_assoc]; rfl, hreach, copy, hcopy, his, ?_⟩
      rwa [hbytes, hr, ← hat]
    · rw [encodeLoop_past (by omega)]
      refine ⟨[r], hrecs, hreach, copy, hcopy, his, ?_⟩
      exact (hbytes.trans (hwhole hr.ge)).symm

/-- The records of LZ.ENCODE decode to the chunk. -/
theorem lzEncode_expands {n : Nat} {s : State} (hc : s.cfg.Ok) (hd : n ≤ s.data.length) :
    Expands (lzEncode n s).recs [] (s.data.take n) := by
  obtain ⟨rs, hrs, hexp⟩ := encodeLoop_expands (fuel := n)
    (s := { setRecs [] (lzReset s) with n := n, i := 0 }) hc hd (Nat.zero_le _) (by simp)
  have hrecs : (lzEncode n s).recs = rs := hrs
  rw [hrecs]
  exact hexp

/-- Settles O25: the records are well formed, and LZ.DECODE expands them to the chunk. -/
theorem matcherRoundTrip : Obligations.MatcherRoundTrip := by
  intro s n hc he hn hd
  obtain ⟨_, _, _, _, _, _, _, _, _, _, hframe⟩ := lzEncode_frame n s
  have hrecs : RecordsOk (lzEncode n s) := lzEncode_recordsOk n hc
  have hexp := lzEncode_expands hc hd
  have hready : (lzEncode n s).err = none ∧ (lzEncode n s).filled.recs = true := by
    rw [hframe]
    exact ⟨he, rfl⟩
  have hdecode := (decodeExpandsRecords (lzEncode n s).finished hready.1 hready.2).1 _ hrecs hexp
  exact ⟨_, _, exec_lzEncode he hn hd, hdecode, hready.1, rfl⟩

/-! ## The cover of the chunk -/

/-- Records that cover a chunk from position `i` on stand for its other bytes, at least one each (R179). -/
theorem CoverFrom.span_sum {c : Config.Params} (hc : c.Ok) {n i : Nat} {rs : List MatchRecord}
    (h : CoverFrom c n i rs) : i + (rs.map MatchRecord.span).sum = n ∧ rs.length ≤ (rs.map MatchRecord.span).sum := by
  induction rs generalizing i with
  | nil => exact ⟨h, le_rfl⟩
  | cons r rs ih =>
    obtain ⟨hwf, hmatch, _, hrest⟩ := h
    obtain ⟨hsum, hlen⟩ := ih hrest
    have h1 : 1 ≤ r.span := by
      rcases Nat.eq_zero_or_pos r.length with h0 | hpos
      · have hlit : r.hasLit = true := by
          have h3 : ¬ c.minMatch ≤ 0 := by
            have := hc.ranges.1
            omega
          simp only [MatchRecord.wellFormed, h0, h3, decide_false, Bool.and_false, Bool.false_and, Bool.or_false,
            Bool.and_eq_true] at hwf
          exact hwf.2
        rw [MatchRecord.span, hlit]
        exact Nat.le_add_left ..
      · exact Nat.le_add_right_of_le hpos
    rw [List.map_cons, List.sum_cons, List.length_cons]
    omega

/-- Settles O23: the cover of the chunk, its spans added up, and the frame of LZ.ENCODE. -/
theorem encodeCoversChunk : Obligations.EncodeCoversChunk := by
  intro s n hc he
  have hexec : exec (.lzEncode n) s = withChunk n s (complete .none (lzEncode n s)) := unlessPending_ready he _
  refine ⟨fun hn hd => ?_, fun hn => hexec.trans (withChunk_long hn _), fun hn hd =>
    hexec.trans (withChunk_missing hn hd _)⟩
  have hcover : CoverFrom s.cfg n 0 (lzEncode n s).recs := lzEncode_covers hc hd
  obtain ⟨hsum, hlen⟩ := hcover.span_sum hc
  rw [Nat.zero_add] at hsum
  obtain ⟨_, _, _, _, _, _, _, _, _, _, hframe⟩ := lzEncode_frame n s
  refine ⟨(lzEncode n s).finished, exec_lzEncode he hn hd, hcover, hsum, hlen.trans hsum.le, ?_⟩
  rw [hframe]
  rfl

/-! ## The chains -/

/-- Settles O21: LZ.RESET drops every entry, LZ.INSERT writes one entry of each array. -/
theorem chainResetAndInsert : Obligations.ChainResetAndInsert := by
  intro s he
  have hinsert (p : Nat) : exec (.lzInsert p) s = if p + 2 < s.n then
      withBytes (p + 3) s (complete .none (lzInsert s.chunk p s)) else complete .none s := unlessPending_ready he _
  refine ⟨⟨(lzReset s).finished, unlessPending_ready he _, fun _ => rfl, rfl⟩, fun hh hp =>
    ⟨fun p a b c hn ha hb hc => ?_, fun p hn => ?_, fun p hn hd => ?_⟩⟩
  · have hdata : p + 3 ≤ s.data.length := (List.getElem?_eq_some_iff.1 hc).1
    refine ⟨(lzInsert s.chunk p s).finished, ?_, ?_⟩
    · rw [hinsert, if_pos hn, withBytes_placed hdata]
      rfl
    · rw [lzInsert, hashAt_eq hn ha hb hc]
      exact ⟨fun k => Memory.read_write _ k _ _ hh, fun k => Memory.read_write _ k _ _ hp, rfl⟩
  · exact (hinsert p).trans (if_neg (by omega))
  · exact (hinsert p).trans ((if_pos hn).trans (withBytes_missing (by omega) _))

end Sys2Proof.Machine
end

section
/-! SUPPORT. The lengths of HUF.BUILD satisfy the Kraft inequality (R201, R204). After `k` rounds of package-merge an item
is `2 ^ (k - 1)` units wide. In the first `q` items a symbol that stands `c` times has one leaf of each of the widths
`2 ^ (k - 1)`, `2 ^ (k - 2)`, ..., `2 ^ (k - c)`, so it lacks `2 ^ (k - c)` of the width `2 ^ k`. What the present symbols
lack together is therefore known from `q`, and for the `2m - 2` items that are taken it is the Kraft sum. -/

namespace Sys2Proof.Machine

/-! ## Merging in ascending weight -/

/-- Weights do not fall along the list. -/
def Ascending (xs : List Item) : Prop := xs.Pairwise fun x y => x.weight ≤ y.weight

theorem insertItem_ascending {x : Item} {ys : List Item} (h : Ascending ys) : Ascending (insertItem x ys) := by
  induction ys with
  | nil => exact List.pairwise_singleton ..
  | cons y ys ih =>
    obtain ⟨hy, hys⟩ := List.pairwise_cons.1 h
    unfold insertItem
    split
    · rename_i hle
      refine List.pairwise_cons.2 ⟨fun z hz => ?_, h⟩
      rcases List.mem_cons.1 hz with rfl | hz
      · exact hle
      · exact hle.trans (hy z hz)
    · refine List.pairwise_cons.2 ⟨fun z hz => ?_, ih hys⟩
      rcases List.mem_cons.1 ((insertItem_perm x ys).mem_iff.1 hz) with rfl | hz
      · omega
      · exact hy z hz

theorem sortItems_ascending (xs : List Item) : Ascending (sortItems xs) := by
  induction xs with
  | nil => exact .nil
  | cons x xs ih => exact insertItem_ascending ih

/-- The first `q` items of a merge are the first `a` leaves and the first `p` packages; a leaf that is not among them is
heavier than every package that is. -/
structure MergeSplit (as bs : List Item) (q a p : Nat) : Prop where
  sum     : a + p = q
  le      : a ≤ as.length ∧ p ≤ bs.length
  perm    : ((mergeItems as bs).take q).Perm (as.take a ++ bs.take p)
  heavier : ∀ x ∈ as.drop a, ∀ y ∈ bs.take p, y.weight < x.weight

theorem exists_mergeSplit {as bs : List Item} {q : Nat} (has : Ascending as) (hq : q ≤ as.length + bs.length) :
    ∃ a p, MergeSplit as bs q a p := by
  induction as generalizing bs q with
  | nil => exact ⟨0, q, Nat.zero_add q, ⟨le_rfl, by simpa using hq⟩, .refl _, nofun⟩
  | cons x as iha =>
    obtain ⟨hx, has'⟩ := List.pairwise_cons.1 has
    induction bs generalizing q with
    | nil => exact ⟨q, 0, rfl, ⟨by simpa using hq, le_rfl⟩, by simp [mergeItems_nil_right], by simp⟩
    | cons b bs ihb =>
      cases q with
      | zero => exact ⟨0, 0, rfl, ⟨Nat.zero_le _, Nat.zero_le _⟩, .refl _, by simp⟩
      | succ q =>
        simp only [List.length_cons] at hq
        by_cases hle : x.weight ≤ b.weight
        · obtain ⟨a, p, hsum, ⟨ha, hp⟩, hperm, hheavy⟩ := iha (bs := b :: bs) (q := q) has'
            (by rw [List.length_cons]; omega)
          refine ⟨a + 1, p, by omega, ⟨Nat.succ_le_succ ha, hp⟩, ?_, hheavy⟩
          rw [mergeItems_cons, if_pos hle]
          exact hperm.cons x
        · obtain ⟨a, p, hsum, ⟨ha, hp⟩, hperm, hheavy⟩ := ihb (q := q) (by rw [List.length_cons]; omega)
          refine ⟨a, p + 1, by omega, ⟨ha, Nat.succ_le_succ hp⟩, ?_, fun z hz y hy => ?_⟩
          · rw [mergeItems_cons, if_neg hle]
            exact (hperm.cons b).trans List.perm_middle.symm
          · rcases List.mem_cons.1 hy with rfl | hy
            · rcases List.mem_cons.1 (List.mem_of_mem_drop hz) with rfl | hz
              · omega
              · have := hx z hz
                omega
            · exact hheavy z hz y hy

/-- The first `p` packages hold the symbols of the first `2p` items. -/
theorem tally_take_packages (sym : Nat) {p : Nat} {xs : List Item} (h : 2 * p ≤ xs.length) :
    tally sym ((packages xs).take p) = tally sym (xs.take (2 * p)) := by
  induction p generalizing xs with
  | zero => rfl
  | succ p ih =>
    match xs with
    | [] | [_] =>
      simp only [List.length_nil, List.length_singleton] at h
      omega
    | x :: y :: rest =>
      have hp : 2 * p ≤ rest.length := by
        simp only [List.length_cons] at h
        omega
      rw [packages, List.take_succ_cons, show 2 * (p + 1) = 2 * p + 1 + 1 by omega, List.take_succ_cons,
        List.take_succ_cons, tally_cons, tally_cons, tally_cons, ih hp, List.count_append, Nat.add_assoc]

theorem packages_length (xs : List Item) : (packages xs).length = xs.length / 2 := by
  induction xs using packages.induct with
  | case1 x y rest ih =>
    rw [packages, List.length_cons, ih, List.length_cons, List.length_cons]
    omega
  | case2 xs h =>
    match xs with
    | [] | [_] => simp [packages]
    | x :: y :: rest => exact absurd rfl (h x y rest)

/-! ## What the symbols lack -/

/-- No item is lighter than a leaf of one of its symbols. -/
def Heavy (freq : List Nat) (xs : List Item) : Prop := ∀ y ∈ xs, ∀ s ∈ y.syms, freq[s]?.getD 0 ≤ y.weight

theorem Heavy.packages {freq : List Nat} {xs : List Item} (h : Heavy freq xs) : Heavy freq (packages xs) := by
  induction xs using packages.induct with
  | case1 x y rest ih =>
    rw [Machine.packages]
    have hrest := ih fun z hz => h z (List.mem_cons_of_mem _ (List.mem_cons_of_mem _ hz))
    intro z hz s hs
    rcases List.mem_cons.1 hz with rfl | hz
    · rcases List.mem_append.1 hs with hs | hs
      · exact (h x (List.mem_cons_self ..) s hs).trans (Nat.le_add_right ..)
      · exact (h y (List.mem_cons_of_mem _ (List.mem_cons_self ..)) s hs).trans (Nat.le_add_left ..)
    · exact hrest z hz s hs
  | case2 xs hxs =>
    rw [Machine.packages]
    · nofun
    · exact hxs

theorem Heavy.merge {freq : List Nat} {as bs : List Item} (ha : Heavy freq as) (hb : Heavy freq bs) :
    Heavy freq (mergeItems as bs) := fun y hy =>
  (List.mem_append.1 ((mergeItems_perm as bs).mem_iff.1 hy)).elim (ha y) (hb y)

/-- The leaves of package-merge: one for each present symbol, ascending. -/
structure LeavesOf (freq : List Nat) (leaves : List Item) : Prop where
  ascending : Ascending leaves
  single    : ∀ x ∈ leaves, ∃ s, x = ⟨freq[s]?.getD 0, [s]⟩
  tally     : ∀ s, tally s leaves = if 0 < freq[s]?.getD 0 then 1 else 0

/-- The symbols of items. -/
def symsOf (xs : List Item) : List Nat := xs.flatMap Item.syms

theorem LeavesOf.heavy {freq : List Nat} {leaves : List Item} (h : LeavesOf freq leaves) : Heavy freq leaves := by
  intro y hy s hs
  obtain ⟨t, rfl⟩ := h.single y hy
  rw [List.mem_singleton.1 hs]

theorem symsOf_length {freq : List Nat} {xs : List Item} (h : ∀ x ∈ xs, ∃ s, x = ⟨freq[s]?.getD 0, [s]⟩) :
    (symsOf xs).length = xs.length := by
  induction xs with
  | nil => rfl
  | cons x xs ih =>
    obtain ⟨s, rfl⟩ := h x (List.mem_cons_self ..)
    exact congrArg Nat.succ (ih fun y hy => h y (List.mem_cons_of_mem _ hy))

/-- What the symbols `syms` lack of the width `2 ^ k` each in the items. -/
def lack (k : Nat) (syms : List Nat) (items : List Item) : Nat := (syms.map fun s => 2 ^ (k - tally s items)).sum

theorem lack_append (k : Nat) (as bs : List Nat) (items : List Item) :
    lack k (as ++ bs) items = lack k as items + lack k bs items := by
  rw [lack, List.map_append, List.sum_append, lack, lack]

/-- One more leaf of each symbol makes up for the next width. -/
theorem lack_more {k : Nat} {syms : List Nat} {items items' : List Item}
    (h : ∀ s ∈ syms, tally s items' = 1 + tally s items) : lack (k + 1) syms items' = lack k syms items := by
  refine congrArg List.sum (List.map_congr_left fun s hs => ?_)
  rw [h s hs, Nat.add_comm k, Nat.add_sub_add_left]

/-- A symbol without a leaf lacks the next width whole. -/
theorem lack_none {k : Nat} {syms : List Nat} {items items' : List Item}
    (h : ∀ s ∈ syms, tally s items = 0) (h' : ∀ s ∈ syms, tally s items' = 0) :
    lack (k + 1) syms items' = lack k syms items + syms.length * 2 ^ k := by
  have hall : ∀ (j : Nat) (xs : List Item), (∀ s ∈ syms, tally s xs = 0) → lack j syms xs = syms.length * 2 ^ j :=
    fun j xs hz => by
      rw [lack, List.map_congr_left (g := fun _ => 2 ^ j) fun s hs => by rw [hz s hs, Nat.sub_zero], List.map_const',
        List.sum_replicate, smul_eq_mul]
  rw [hall _ _ h, hall _ _ h', pow_succ]
  ring

/-- After `k` rounds: how many items there are at least, and what the symbols lack in the first `q` of them. -/
structure Balanced (freq : List Nat) (leaves : List Item) (k : Nat) (cur : List Item) : Prop where
  heavy : Heavy freq cur
  many  : 2 * leaves.length * 2 ^ k < 2 * leaves.length + (cur.length + 1) * 2 ^ k
  lack  : ∀ q ≤ cur.length, 2 * lack k (symsOf leaves) (cur.take q) + q * 2 ^ k = 2 * leaves.length * 2 ^ k

section
variable {freq : List Nat} {leaves : List Item} (hl : LeavesOf freq leaves)
include hl

theorem balanced_nil : Balanced freq leaves 0 [] where
  heavy := nofun
  many := by simp
  lack := fun q hq => by
    obtain rfl : q = 0 := by simpa using hq
    have hlen := symsOf_length hl.single
    simp [lack, hlen]

/-- A symbol of the first `a` leaves has its one leaf there. -/
theorem LeavesOf.tally_take {a s : Nat} (h : s ∈ symsOf (leaves.take a)) : Machine.tally s (leaves.take a) = 1 := by
  have h1 : 0 < Machine.tally s (leaves.take a) := List.count_pos_iff.2 h
  have h2 := (tally_sublist (sym := s) (List.take_sublist a leaves)).trans_eq (hl.tally s)
  split at h2 <;> omega

/-- A symbol of the other leaves has none there. -/
theorem LeavesOf.tally_take_zero {a s : Nat} (h : s ∈ symsOf (leaves.drop a)) :
    Machine.tally s (leaves.take a) = 0 := by
  have h1 : 0 < Machine.tally s (leaves.drop a) := List.count_pos_iff.2 h
  have h2 := hl.tally s
  rw [← List.take_append_drop a leaves, tally_append] at h2
  split at h2 <;> omega

/-- One round: a symbol whose leaf is not yet reached stands in no package that is, since the leaf is merged before the
packages of at least its weight. -/
theorem Balanced.round {k : Nat} {cur : List Item} (h : Balanced freq leaves k cur) :
    Balanced freq leaves (k + 1) (mergeItems leaves (packages cur)) := by
  have hlen : (mergeItems leaves (packages cur)).length = leaves.length + cur.length / 2 := by
    rw [(mergeItems_perm leaves (packages cur)).length_eq, List.length_append, packages_length]
  refine ⟨hl.heavy.merge h.heavy.packages, ?_, fun q hq => ?_⟩
  · have hmany := h.many
    have hhalf : (cur.length + 1) * 2 ^ k ≤ 2 * (cur.length / 2 + 1) * 2 ^ k := Nat.mul_le_mul_right _ (by omega)
    rw [hlen, pow_succ]
    nlinarith
  · rw [hlen, ← packages_length] at hq
    obtain ⟨a, p, hsum, ⟨ha, hp⟩, hperm, hheavy⟩ := exists_mergeSplit hl.ascending hq
    rw [packages_length] at hp
    have hold := h.lack (2 * p) (by omega)
    have htally : ∀ s, Machine.tally s ((mergeItems leaves (packages cur)).take q) =
        Machine.tally s (leaves.take a) + Machine.tally s (cur.take (2 * p)) := fun s => by
      rw [tally_perm hperm, tally_append, tally_take_packages s (by omega)]
    have hreached : ∀ s ∈ symsOf (leaves.take a),
        Machine.tally s ((mergeItems leaves (packages cur)).take q) = 1 + Machine.tally s (cur.take (2 * p)) :=
      fun s hs => by rw [htally, hl.tally_take hs]
    have hnot : ∀ s ∈ symsOf (leaves.drop a), Machine.tally s (cur.take (2 * p)) = 0 := fun s hs => by
      obtain ⟨x, hx, hsx⟩ := List.mem_flatMap.1 hs
      rw [← tally_take_packages s (by omega)]
      refine List.count_eq_zero.2 fun hmem => ?_
      obtain ⟨y, hy, hsy⟩ := List.mem_flatMap.1 hmem
      obtain ⟨t, rfl⟩ := hl.single x (List.mem_of_mem_drop hx)
      obtain rfl := List.mem_singleton.1 hsx
      exact (hheavy _ hx y hy).not_ge (h.heavy.packages y (List.mem_of_mem_take hy) s hsy)
    have hnot' : ∀ s ∈ symsOf (leaves.drop a), Machine.tally s ((mergeItems leaves (packages cur)).take q) = 0 :=
      fun s hs => by rw [htally, hl.tally_take_zero hs, hnot s hs]
    have hrest : (symsOf (leaves.drop a)).length = leaves.length - a := by
      rw [symsOf_length fun x hx => hl.single x (List.mem_of_mem_drop hx), List.length_drop]
    have hsplit : symsOf leaves = symsOf (leaves.take a) ++ symsOf (leaves.drop a) := by
      rw [symsOf, symsOf, symsOf, ← List.flatMap_append, List.take_append_drop]
    rw [hsplit, lack_append] at hold ⊢
    rw [lack_more hreached, lack_none hnot hnot', hrest, ← hsum, pow_succ]
    obtain ⟨d, hd⟩ := Nat.exists_eq_add_of_le ha
    rw [hd] at hold ⊢
    rw [Nat.add_sub_cancel_left]
    nlinarith

theorem balanced_packageRounds {j k : Nat} {cur : List Item} (h : Balanced freq leaves k cur) :
    Balanced freq leaves (k + j) (packageRounds leaves j cur) := by
  induction j generalizing k cur with
  | zero => exact h
  | succ j ih =>
    rw [show k + (j + 1) = k + 1 + j by omega]
    exact ih (h.round hl)

/-- What the present symbols lack in the items that are taken is one whole width (R204). -/
theorem lack_taken {cap : Nat} (hcap : 1 ≤ cap) (hm : 1 ≤ leaves.length) (hle : leaves.length ≤ 2 ^ cap) :
    lack cap (symsOf leaves) ((packageRounds leaves (cap - 1) leaves).take (2 * leaves.length - 2)) = 2 ^ cap := by
  have hone : Balanced freq leaves 1 leaves := by
    have := (balanced_nil hl).round hl
    rwa [packages, mergeItems_nil_right] at this
    nofun
  have h := balanced_packageRounds hl (j := cap - 1) hone
  rw [Nat.add_sub_of_le hcap] at h
  have hmany := h.many
  have henough : 2 * leaves.length - 2 ≤ (packageRounds leaves (cap - 1) leaves).length := by
    by_contra hlt
    have hshort := Nat.mul_le_mul_right (2 ^ cap) (show (packageRounds leaves (cap - 1) leaves).length + 1 + 2 ≤
      2 * leaves.length by omega)
    rw [Nat.add_mul] at hshort
    omega
  have hlack := h.lack _ henough
  have hsub : (2 * leaves.length - 2) * 2 ^ cap + 2 * 2 ^ cap = 2 * leaves.length * 2 ^ cap := by
    rw [← Nat.add_mul]
    congr 1
    omega
  omega

end

/-! ## The Kraft sum -/

theorem single_presentFrom {freq : List Nat} {k : Nat} {x : Item} (h : x ∈ presentFrom k freq) :
    ∃ s, k ≤ s ∧ x = ⟨freq[s - k]?.getD 0, [s]⟩ := by
  induction freq generalizing k with
  | nil => cases h
  | cons f fs ih =>
    have tail (h : x ∈ presentFrom (k + 1) fs) : ∃ s, k ≤ s ∧ x = ⟨(f :: fs)[s - k]?.getD 0, [s]⟩ := by
      obtain ⟨s, hs, rfl⟩ := ih h
      refine ⟨s, by omega, ?_⟩
      rw [show s - k = s - (k + 1) + 1 by omega, List.getElem?_cons_succ]
    unfold presentFrom at h
    split at h
    · rcases List.mem_cons.1 h with rfl | h
      · exact ⟨k, le_rfl, by simp⟩
      · exact tail h
    · exact tail h

theorem leavesOf_sortItems (freq : List Nat) : LeavesOf freq (sortItems (presentFrom 0 freq)) where
  ascending := sortItems_ascending _
  single := fun x hx => by
    obtain ⟨s, _, h⟩ := single_presentFrom ((sortItems_perm _).mem_iff.1 hx)
    exact ⟨s, h⟩
  tally := fun s => by
    rw [tally_perm (sortItems_perm _), tally_presentFrom]
    simp

theorem presentFrom_length (freq : List Nat) (k : Nat) : (presentFrom k freq).length = present freq := by
  induction freq generalizing k with
  | nil => rfl
  | cons f fs ih =>
    unfold presentFrom present
    by_cases hf : 0 < f
    · simp [hf, ih, present]
    · simp [hf, ih, present]

theorem leaves_length (freq : List Nat) : (sortItems (presentFrom 0 freq)).length = present freq :=
  (sortItems_perm _).length_eq.trans (presentFrom_length freq 0)

theorem buildLengths_of_two {freq : List Nat} (h : 2 ≤ present freq) (cap : Nat) :
    buildLengths freq cap =
      let leaves := sortItems (presentFrom 0 freq)
      occurrences freq.length
        (symsOf ((packageRounds leaves (cap - 1) leaves).take (2 * leaves.length - 2))) := by
  have hlen := leaves_length freq
  unfold buildLengths
  dsimp only
  generalize sortItems (presentFrom 0 freq) = leaves at hlen ⊢
  match leaves with
  | [] | [_] =>
    simp only [List.length_nil, List.length_singleton] at hlen
    omega
  | _ :: _ :: _ => rfl

/-- The symbols that the taken items hold are those of the leaves. -/
theorem symsOf_leaves_perm {freq : List Nat} (h : 2 ≤ present freq) (k : Nat) :
    let leaves := sortItems (presentFrom 0 freq)
    (symsOf leaves).Perm ((List.range freq.length).filter fun s =>
      0 < tally s ((packageRounds leaves k leaves).take (2 * leaves.length - 2))) := by
  intro leaves
  have hl : LeavesOf freq leaves := leavesOf_sortItems freq
  have hnodup : (symsOf leaves).Nodup := List.nodup_iff_count_le_one.2 fun s => by
    have := hl.tally s
    change tally s leaves ≤ 1
    split at this <;> omega
  refine (List.perm_ext_iff_of_nodup hnodup (List.nodup_range.filter _)).2 fun s => ?_
  rw [← List.count_pos_iff]
  change 0 < tally s leaves ↔ _
  simp only [List.mem_filter, List.mem_range, decide_eq_true_eq]
  constructor
  · intro hs
    refine ⟨?_, tally_taken_pos k (h.trans (leaves_length freq).ge) hs⟩
    by_contra hge
    rw [hl.tally s, List.getElem?_eq_none (not_lt.1 hge), Option.getD_none, if_neg (lt_irrefl 0)] at hs
    exact lt_irrefl 0 hs
  · rintro ⟨_, hs⟩
    have hsub := tally_sublist (sym := s)
      (List.take_sublist (2 * leaves.length - 2) (packageRounds leaves k leaves))
    have hrounds := tally_packageRounds s leaves k leaves
    by_contra hzero
    rw [Nat.eq_zero_of_not_pos hzero, Nat.mul_zero] at hrounds
    omega

/-- Package-merge saturates the Kraft inequality (R201, 3; R204). -/
theorem kraft_buildLengths {freq : List Nat} {cap : Nat} (hcap : 1 ≤ cap) (h2 : 2 ≤ present freq)
    (hle : present freq ≤ 2 ^ cap) : kraft cap (buildLengths freq cap) = 2 ^ cap := by
  have hl := leavesOf_sortItems freq
  have hlen := leaves_length freq
  have hsyms := symsOf_leaves_perm h2 (cap - 1)
  rw [buildLengths_of_two h2]
  dsimp only at hsyms ⊢
  generalize sortItems (presentFrom 0 freq) = leaves at hl hlen hsyms ⊢
  have hlack := lack_taken hl hcap (by omega) (by omega)
  rw [← hlack, lack, (hsyms.map _).sum_eq, kraft, occurrences, List.filter_map, List.map_map]
  rfl

/-- A length is at most the whole width, so few present symbols cannot exceed it. -/
theorem kraft_le_present {cap : Nat} {freq ls : List Nat} (h : Covers cap freq ls) :
    kraft cap ls ≤ present freq * 2 ^ cap := by
  induction freq generalizing ls with
  | nil =>
    obtain rfl : ls = [] := List.length_eq_zero_iff.1 h.1
    exact Nat.zero_le _
  | cons f fs ih =>
    obtain ⟨l, ls, rfl⟩ : ∃ l ms, ls = l :: ms := List.exists_cons_of_length_eq_add_one h.1
    obtain ⟨hlen, hall⟩ := h
    have hrest := ih ⟨Nat.succ.inj hlen, fun s g hg => hall (s + 1) g hg⟩
    obtain ⟨l', hl', hzero, hpos⟩ := hall 0 f rfl
    obtain rfl : l = l' := Option.some.inj hl'
    rw [kraft_cons]
    rcases Nat.eq_zero_or_pos f with rfl | hf
    · rw [hzero rfl, if_neg (lt_irrefl 0), Nat.zero_add]
      exact hrest
    · have hcount : present (f :: fs) = present fs + 1 := by simp [present, hf]
      have hw : codeWidth cap l ≤ 2 ^ cap := Nat.pow_le_pow_right (by decide) (Nat.sub_le ..)
      rw [if_pos (show 0 < l from (hpos hf).1), hcount, Nat.succ_mul]
      omega

/-- Whatever the construction, two or more lengths of the core saturate the Kraft inequality (R201, 3). -/
theorem kraft_coreLengths (c : Config.Params) {freq : List Nat} {cap : Nat} (hcap : 1 ≤ cap) (h2 : 2 ≤ present freq)
    (hle : present freq ≤ 2 ^ cap) : kraft cap (coreLengths c freq cap) = 2 ^ cap := by
  unfold coreLengths
  split
  · exact kraft_buildLengths hcap h2 hle
  · dsimp only
    split
    · rename_i hok
      simp only [lengthsOk, Bool.and_eq_true, h2, if_true, decide_eq_true_eq] at hok
      obtain ⟨⟨_, hkraft⟩, _⟩ := hok
      exact hkraft
    · exact kraft_buildLengths hcap h2 hle

/-- The lengths of the core are those of a code (R201, 2 and 3). -/
theorem kraftOk_coreLengths (c : Config.Params) {freq : List Nat} {cap : Nat} (hcap : 1 ≤ cap)
    (hle : present freq ≤ 2 ^ cap) : KraftOk cap (coreLengths c freq cap) := by
  have hcovers := coreLengths_covers c freq hcap
  refine ⟨hcovers.le, ?_⟩
  rcases Nat.lt_or_ge (present freq) 2 with h1 | h2
  · exact (kraft_le_present hcovers).trans ((Nat.mul_le_mul_right _ (Nat.le_of_lt_succ h1)).trans_eq (Nat.one_mul _))
  · exact (kraft_coreLengths c hcap h2 hle).le

end Sys2Proof.Machine
end

section
/-! SUPPORT. A header that HDR.BUILD built is one HDR.READ can read: the pairs of RLE.ENC stand for the sequence (R235),
the code set satisfies the Kraft inequality, and what the header leaves out of the arrays is 0, so the codes of the
trimmed arrays are those of the full ones (R247). -/

namespace Sys2Proof.Machine

/-! ## The run-length code -/

theorem expandPairs_append (ps qs : List ClPair) (ls : List Nat) :
    expandPairs (ps ++ qs) ls = (expandPairs ps ls).bind (expandPairs qs) := by
  induction ps generalizing ls with
  | nil => rfl
  | cons p ps ih =>
    rw [List.cons_append, expandPairs_cons, expandPairs_cons p ps, Option.bind_assoc]
    exact congrArg (Option.bind _) (funext ih)

/-- The pairs stand for `run` after `before`, each within its range (R231). -/
structure CodesRun (ps : List ClPair) (before run : List Nat) : Prop where
  expand  : expandPairs ps before = some (before ++ run)
  inRange : ∀ p ∈ ps, p.inRange = true

theorem CodesRun.nil (before : List Nat) : CodesRun [] before [] := ⟨by simp [expandPairs], nofun⟩

theorem CodesRun.append {ps qs : List ClPair} {before as bs : List Nat} (h : CodesRun ps before as)
    (h' : CodesRun qs (before ++ as) bs) : CodesRun (ps ++ qs) before (as ++ bs) :=
  ⟨by rw [expandPairs_append, h.expand, Option.bind_some, h'.expand, List.append_assoc],
    fun p hp => (List.mem_append.1 hp).elim (h.inRange p) (h'.inRange p)⟩

/-- A pair and the pairs of the rest of a run. -/
theorem CodesRun.cons {p : ClPair} {ps : List ClPair} {before : List Nat} {r m v : Nat} (hr : m ≤ r)
    (hp : p.inRange = true) (hexp : expandPairs [p] before = some (before ++ List.replicate m v))
    (h : CodesRun ps (before ++ List.replicate m v) (List.replicate (r - m) v)) :
    CodesRun (p :: ps) before (List.replicate r v) := by
  have hall := CodesRun.append (ps := [p]) ⟨hexp, fun q hq => List.mem_singleton.1 hq ▸ hp⟩ h
  rwa [List.replicate_append_replicate, Nat.add_sub_of_le hr] at hall

theorem codesRun_literals {v : Nat} (hv : v ≤ 15) (r : Nat) (before : List Nat) :
    CodesRun (List.replicate r (.len v)) before (List.replicate r v) := by
  induction r generalizing before with
  | zero => exact .nil before
  | succ r ih => exact .cons (m := 1) (Nat.le_add_left ..) (decide_eq_true hv) rfl (ih _)

theorem codesRun_zeroRun {fuel r : Nat} (h : r < fuel) (before : List Nat) :
    CodesRun (zeroRun fuel r) before (List.replicate r 0) := by
  induction fuel generalizing r before with
  | zero => omega
  | succ fuel ih =>
    unfold zeroRun
    split
    · refine .cons (m := min r 138) (min_le_left ..) (decide_eq_true (by omega)) ?_ (ih (by omega) _)
      rw [expandPairs, Nat.add_sub_of_le (by omega), expandPairs]
    · split
      · refine .cons (m := r) le_rfl (decide_eq_true (by omega)) ?_ (by rw [Nat.sub_self]; exact .nil _)
        rw [expandPairs, Nat.add_sub_of_le ‹_›, expandPairs]
      · exact codesRun_literals (Nat.zero_le _) r before

theorem codesRun_repeatRun {v fuel r : Nat} (hv : v ≤ 15) (h : r < fuel) {before : List Nat}
    (hlast : before.getLast? = some v) : CodesRun (repeatRun v fuel r) before (List.replicate r v) := by
  induction fuel generalizing r before with
  | zero => omega
  | succ fuel ih =>
    unfold repeatRun
    split
    · have hlast' : (before ++ List.replicate (min r 6) v).getLast? = some v := by
        rw [List.getLast?_append, List.getLast?_replicate, if_neg (by omega), Option.some_or]
      refine .cons (m := min r 6) (min_le_left ..) (decide_eq_true (by omega)) ?_ (ih (by omega) hlast')
      simp only [expandPairs, hlast, Nat.add_sub_of_le (show 3 ≤ min r 6 by omega)]
    · exact codesRun_literals hv r before

theorem codesRun_runPairs {v r : Nat} (hv : v ≤ 15) (hr : 1 ≤ r) (before : List Nat) :
    CodesRun (runPairs v r) before (List.replicate r v) := by
  unfold runPairs
  split
  · rename_i h0
    rw [h0]
    exact codesRun_zeroRun (Nat.lt_succ_self r) before
  · exact .cons (m := 1) hr (decide_eq_true hv) rfl (codesRun_repeatRun hv (by omega) (by simp))

/-- The runs are a sequence's entries, one run after another (R230). -/
theorem runs_entries (ls : List Nat) :
    (runs ls).flatMap (fun e => List.replicate e.2 e.1) = ls ∧ ∀ e ∈ runs ls, 1 ≤ e.2 := by
  induction ls with
  | nil => exact ⟨rfl, nofun⟩
  | cons v vs ih =>
    obtain ⟨hflat, hpos⟩ := ih
    unfold runs
    split
    · rename_i h
      rw [h] at hflat
      subst hflat
      exact ⟨rfl, fun e he => List.mem_singleton.1 he ▸ le_rfl⟩
    · rename_i w r rest h
      rw [h] at hflat hpos
      have hrest := fun e he => hpos e (List.mem_cons_of_mem _ he)
      subst hflat
      split
      · rename_i hvw
        exact ⟨by rw [hvw]; rfl, List.forall_mem_cons.2 ⟨Nat.le_add_left .., hrest⟩⟩
      · exact ⟨rfl, List.forall_mem_cons.2 ⟨le_rfl, hpos⟩⟩

/-- The pairs of RLE.ENC stand for the sequence they were made of (R235). -/
theorem codesRun_rlePairs {ls : List Nat} (h15 : ∀ l ∈ ls, l ≤ 15) : CodesRun (rlePairs ls) [] ls := by
  obtain ⟨hflat, hpos⟩ := runs_entries ls
  have hval : ∀ e ∈ runs ls, e.1 ≤ 15 := fun e he => h15 _ (mem_of_mem_runs he)
  have hall : ∀ (es : List (Nat × Nat)) (before : List Nat), (∀ e ∈ es, e.1 ≤ 15 ∧ 1 ≤ e.2) →
      CodesRun (es.flatMap fun e => runPairs e.1 e.2) before (es.flatMap fun e => List.replicate e.2 e.1) := by
    intro es
    induction es with
    | nil => exact fun before _ => .nil before
    | cons e es ih =>
      intro before he
      obtain ⟨⟨hv, hr⟩, hrest⟩ := List.forall_mem_cons.1 he
      exact (codesRun_runPairs hv hr before).append (ih _ hrest)
  have := hall (runs ls) [] fun e he => ⟨hval e he, hpos e he⟩
  rwa [hflat] at this

/-! ## Codes of a trimmed array -/

theorem symsOfLen_append (l k : Nat) (as bs : List Nat) :
    symsOfLen l k (as ++ bs) = symsOfLen l k as ++ symsOfLen l (k + as.length) bs := by
  induction as generalizing k with
  | nil => rfl
  | cons a as ih =>
    rw [List.cons_append, symsOfLen, symsOfLen, ih, List.length_cons, show k + 1 + as.length = k + (as.length + 1) by
      omega]
    split <;> rfl

theorem getElem?_of_mem_symsOfLen {l k sym : Nat} {ls : List Nat} (h : sym ∈ symsOfLen l k ls) :
    k ≤ sym ∧ ls[sym - k]? = some l := by
  induction ls generalizing k with
  | nil => cases h
  | cons x xs ih =>
    have tail (h : sym ∈ symsOfLen l (k + 1) xs) : k ≤ sym ∧ (x :: xs)[sym - k]? = some l := by
      obtain ⟨hle, hget⟩ := ih h
      refine ⟨by omega, ?_⟩
      rwa [show sym - k = sym - (k + 1) + 1 by omega, List.getElem?_cons_succ]
    unfold symsOfLen at h
    split at h
    · rcases List.mem_cons.1 h with rfl | h
      · exact ⟨le_rfl, by simpa using ‹x = l›⟩
      · exact tail h
    · exact tail h

/-- The code of a symbol has the symbol's length (R206). -/
theorem canonCodes_length_get {ls : List Nat} {sym c l : Nat} (h : (canonCodes ls)[sym]? = some (some (c, l))) :
    ls[sym]? = some l ∧ 1 ≤ l := by
  have hmem := List.mem_map_of_mem (f := fun a : Nat × Nat × Nat => (a.1, a.2.2)) (canonCodes_mem h)
  rw [canonAssign_lengths] at hmem
  obtain ⟨k, _, hk⟩ := List.mem_flatMap.1 hmem
  obtain ⟨sym', hsym, heq⟩ := List.mem_map.1 hk
  cases heq
  exact ⟨(getElem?_of_mem_symsOfLen hsym).2, Nat.le_add_left ..⟩

/-- Entries that are 0 have no part in the canonical order. -/
theorem canonOrder_take {ls : List Nat} {n : Nat} (hz : ∀ l ∈ ls.drop n, l = 0) :
    canonOrder (ls.take n) = canonOrder ls := by
  have hsyms : ∀ k, symsOfLen (k + 1) 0 (ls.take n) = symsOfLen (k + 1) 0 ls := fun k => by
    conv_rhs => rw [← List.take_append_drop n ls, symsOfLen_append]
    rw [List.eq_nil_iff_forall_not_mem.2 fun sym hsym =>
      Nat.succ_ne_zero k (hz _ (mem_of_mem_symsOfLen hsym)), List.append_nil]
  unfold canonOrder
  simp only [hsyms]

/-- The codes of a trimmed array are those of the full one (R247). -/
theorem canonCodes_take {ls : List Nat} {n : Nat} (hz : ∀ l ∈ ls.drop n, l = 0) :
    canonCodes (ls.take n) = (canonCodes ls).take n := by
  unfold canonCodes
  dsimp only
  rw [canonOrder_take hz, ← List.map_take, List.take_range, List.length_take]

theorem codes_eq_of_take {ls : List Nat} {n sym : Nat} {e : Nat × Nat} (hz : ∀ l ∈ ls.drop n, l = 0) :
    (canonCodes (ls.take n))[sym]? = some (some e) ↔ (canonCodes ls)[sym]? = some (some e) := by
  obtain ⟨c, l⟩ := e
  rw [canonCodes_take hz, List.getElem?_take]
  by_cases hs : sym < n
  · rw [if_pos hs]
  · rw [if_neg hs]
    refine ⟨nofun, fun h => ?_⟩
    obtain ⟨hget, h1⟩ := canonCodes_length_get h
    have hmem : l ∈ ls.drop n := List.mem_of_getElem? (i := sym - n) (by
      rwa [List.getElem?_drop, Nat.add_sub_of_le (not_lt.1 hs)])
    have := hz l hmem
    omega

theorem hasCode_take {ls : List Nat} {n sym : Nat} (hz : ∀ l ∈ ls.drop n, l = 0) :
    hasCode (canonCodes (ls.take n)) sym ↔ hasCode (canonCodes ls) sym :=
  exists₂_congr fun _ _ => codes_eq_of_take hz

theorem symbolBits_take {ls : List Nat} {n sym : Nat} (hz : ∀ l ∈ ls.drop n, l = 0)
    (h : hasCode (canonCodes ls) sym) : symbolBits (canonCodes (ls.take n)) sym = symbolBits (canonCodes ls) sym := by
  obtain ⟨c, l, hcl⟩ := h
  simp only [symbolBits, hcl, (codes_eq_of_take hz).2 hcl]

/-! ## Kraft sums of parts and in other units -/

theorem KraftOk.take {cap : Nat} {ls : List Nat} (h : KraftOk cap ls) (n : Nat) : KraftOk cap (ls.take n) where
  le := fun l hl => h.le l (List.mem_of_mem_take hl)
  kraft := (List.Sublist.sum_le_sum (((List.take_sublist n ls).filter _).map _) fun _ _ => Nat.zero_le _).trans h.kraft

/-- The Kraft sum in smaller units. -/
theorem kraft_shift {cap m : Nat} (hm : cap ≤ m) {ls : List Nat} (hle : ∀ l ∈ ls, l ≤ cap) :
    kraft m ls = 2 ^ (m - cap) * kraft cap ls := by
  induction ls with
  | nil => rfl
  | cons l ls ih =>
    obtain ⟨hl, hls⟩ := List.forall_mem_cons.1 hle
    have hw : codeWidth m l = 2 ^ (m - cap) * codeWidth cap l := by
      rw [codeWidth, codeWidth, ← pow_add, show m - cap + (cap - l) = m - l by omega]
    rw [kraft_cons, kraft_cons, ih hls, Nat.mul_add, hw, mul_ite, Nat.mul_zero]

theorem KraftOk.mono {cap m : Nat} {ls : List Nat} (h : KraftOk cap ls) (hm : cap ≤ m) : KraftOk m ls where
  le := fun l hl => (h.le l hl).trans hm
  kraft := by
    have hpow : 2 ^ m = 2 ^ (m - cap) * 2 ^ cap := by rw [← pow_add, Nat.sub_add_cancel hm]
    rw [kraft_shift hm h.le, hpow]
    exact Nat.mul_le_mul_left _ h.kraft

/-! ## A built header -/

theorem present_le_length (freq : List Nat) : present freq ≤ freq.length := List.length_filter_le ..

/-- The entries past the last one that is not 0 are 0. -/
theorem eq_zero_of_lastNonzero {xs : List Nat} {n : Nat} (h : ∀ k, lastNonzero xs = some k → k < n) :
    ∀ x ∈ xs.drop n, x = 0 := by
  intro x hx
  obtain ⟨j, hj⟩ := List.mem_iff_getElem?.1 hx
  rw [List.getElem?_drop] at hj
  by_contra hne
  obtain ⟨k, hk, hle⟩ := lastNonzero_of_ne (xs := xs) (k := n + j) (by rwa [hj, Option.getD_some])
  have := h k hk
  omega

/-- What the header's sizes leave out of the two arrays is 0 (R238). -/
theorem sizes_leave_zeros {s : State} (hlit : s.litLen.length = s.cfg.nlit) (hdist : s.distLen.length = s.cfg.ndist) :
    (∀ l ∈ s.litLen.drop ((sizeLit s).1 + 257), l = 0) ∧
      ∀ l ∈ s.distLen.drop ((lastNonzero (s.distLen.take s.cfg.ndist)).getD 0 + 1), l = 0 := by
  have hl : s.litLen.take s.cfg.nlit = s.litLen := List.take_of_length_le hlit.le
  have hd : s.distLen.take s.cfg.ndist = s.distLen := List.take_of_length_le hdist.le
  refine ⟨eq_zero_of_lastNonzero fun k hk => ?_, eq_zero_of_lastNonzero fun k hk => ?_⟩
  · simp only [sizeLit, hl, hk]
    split <;> dsimp only <;> omega
  · rw [hd, hk]
    exact Nat.lt_succ_self k

/-- The entries of CLPERM that `hclen` leaves out name lengths that are 0 (R240). -/
theorem hclenOf_leaves_zeros {c : Config.Params} {ls : List Nat} {k sym : Nat} (hk : hclenOf c ls + 4 ≤ k)
    (hsym : c.clperm[k]? = some sym) : ls[sym]?.getD 0 = 0 := by
  by_contra hne
  obtain ⟨j, hj, hle⟩ := lastNonzero_of_ne (xs := c.clperm.map fun q => ls[q]?.getD 0) (k := k) (by
    rwa [List.getElem?_map, hsym, Option.map_some, Option.getD_some])
  rw [hclenOf, hj, Option.getD_some] at hk
  omega

/-- What HDR.BUILD makes of the two arrays (R241). -/
structure Built (s t : State) : Prop where
  cfg      : t.cfg = s.cfg
  hlit     : t.hlit = (sizeLit s).1
  hdist    : t.hdist = (lastNonzero (s.distLen.take s.cfg.ndist)).getD 0
  seq      : t.seq = s.litLen.take (t.hlit + 257) ++ s.distLen.take (t.hdist + 1)
  rle      : t.rle = rlePairs t.seq
  clLen    : t.clLen = coreLengths t.cfg (clCounts t.cfg t.rle) t.cfg.maxbitsCl
  clCode   : t.clCode = canonCodes t.clLen
  hclen    : t.hclen = hclenOf t.cfg t.clLen
  litLen   : t.litLen = s.litLen
  distLen  : t.distLen = s.distLen
  litCode  : t.litCode = s.litCode
  distCode : t.distCode = s.distCode
  recs     : t.recs = s.recs

theorem built_of_hdrBuild {s t : State} (hl : s.cfg.nlit ≤ s.litLen.length) (hd : s.cfg.ndist ≤ s.distLen.length)
    (h : hdrBuild s = .ok () t) : Built s t := by
  rw [hdrBuild_sized hl hd, countPairs_eq] at h
  obtain rfl := (Act.ok.inj h).2
  exact ⟨rfl, rfl, rfl, rfl, rfl, rfl, rfl, rfl, rfl, rfl, rfl, rfl, rfl⟩

/-- A header built from full arrays of lengths up to 15 is one that HDR.READ can read (R247). -/
theorem headerHeld_of_hdrBuild {s t : State} (hc : s.cfg.Ok) (hlit : s.litLen.length = s.cfg.nlit)
    (hdist : s.distLen.length = s.cfg.ndist) (hlit15 : ∀ l ∈ s.litLen, l ≤ 15) (hdist15 : ∀ l ∈ s.distLen, l ≤ 15)
    (h : hdrBuild s = .ok () t) : HeaderHeld t t.seq := by
  obtain ⟨t', ht', _, _, _, _, hclLen, hcodes⟩ := hdrBuild_completes hc hlit hdist hlit15 hdist15
  obtain rfl : t' = t := (Act.ok.inj (ht'.symm.trans h)).2
  have hb := built_of_hdrBuild hlit.ge hdist.ge h
  have hct : t'.cfg.Ok := hb.cfg ▸ hc
  obtain ⟨hnlit, hndist, hncl, _⟩ := hc.symbols
  obtain ⟨_, _, hcapCl, hcap7, _, hcapMax, _⟩ := hct.caps
  obtain ⟨hcap1, _⟩ := caps_range hct .cl
  have hfitLit : t'.hlit ≤ 29 := hb.hlit ▸ sizeLit_le s hnlit
  have hfitDist : t'.hdist < 30 := by
    rw [hb.hdist]
    cases hlast : lastNonzero (s.distLen.take s.cfg.ndist) with
    | none => decide
    | some k => exact hndist ▸ (lastNonzero_eq_some hlast).1.trans_le (List.length_take_le ..)
  have h15 : ∀ l ∈ t'.seq, l ≤ 15 := fun l hl => by
    rw [hb.seq, List.mem_append] at hl
    exact hl.elim (fun h => hlit15 l (List.mem_of_mem_take h)) (fun h => hdist15 l (List.mem_of_mem_take h))
  have hrun : CodesRun t'.rle [] t'.seq := hb.rle ▸ codesRun_rlePairs h15
  have hpresent : present (clCounts t'.cfg t'.rle) ≤ 2 ^ t'.cfg.maxbitsCl :=
    (present_le_length _).trans ((occurrences_length ..).le.trans hcapCl)
  have hkraft : KraftOk t'.cfg.maxbitsCl t'.clLen := hb.clLen ▸ kraftOk_coreLengths t'.cfg hcap1 hpresent
  have hlen : t'.clLen.length = t'.cfg.ncl := by rw [hclLen, hb.cfg]
  exact {
    cfg := hct
    fields := ⟨by omega, by omega, hb.hclen ▸ hclenOf_lt hct _⟩
    clLen := ⟨hlen, fun l hl => Nat.lt_succ_of_le ((hkraft.le l hl).trans hcap7)⟩
    sent := fun k c hk hsym => by
      have hzero := hclenOf_leaves_zeros (hb.hclen ▸ hk) hsym
      have hlt : c < t'.clLen.length := hlen ▸ clperm_lt hct (List.mem_of_getElem? hsym)
      rw [List.getElem?_eq_getElem hlt] at hzero ⊢
      exact congrArg some hzero
    kraft := hkraft.mono hcap7
    clCode := hb.clCode
    max := fun l hl => (hkraft.le l hl).trans hcapMax
    pairs := fun p hp => ⟨hrun.inRange p hp, hcodes p hp⟩
    total := by
      refine ⟨hrun.expand, ?_⟩
      rw [hb.seq, List.length_append, List.length_take_of_le (by omega), List.length_take_of_le (by omega), State.total]
      omega }

end Sys2Proof.Machine
end

section
/-! SUPPORT. BLK.DEC reads a block of BLK.ENC back (R283). The decoder's codes are those of the trimmed arrays, which are
the encoder's; every record's elements are then read as that record, and its copy gives the bytes it stands for. -/

namespace Sys2Proof.Machine

/-! ## Reading what is next in the stream -/

/-- The state with the cursor moved on by `k` bits, whatever symbol decode has left in its registers. -/
def State.readOn (s : State) (k a n : Nat) : State := { s with bitPos := s.bitPos + k, acc := a, accLen := n }

/-- A step takes `bits`, when they are next in the stream, and goes on with `v`; the cursor and the registers of symbol
decode aside, it leaves `t`. -/
def Act.Takes {α : Type} (stream bits : List Bool) (v : α) (t : State) (x : Act α) : Prop :=
  bits <+: stream → ∃ a n, x = .ok v (t.readOn bits.length a n)

@[simp] theorem readOn_cfg (s : State) (k a n : Nat) : (s.readOn k a n).cfg = s.cfg := rfl

@[simp] theorem readOn_out (s : State) (k a n : Nat) : (s.readOn k a n).out = s.out := rfl

@[simp] theorem readOn_distCode (s : State) (k a n : Nat) : (s.readOn k a n).distCode = s.distCode := rfl

@[simp] theorem readOn_readOn (s : State) (k a n k' a' n' : Nat) :
    (s.readOn k a n).readOn k' a' n' = s.readOn (k + k') a' n' := by
  simp only [State.readOn, Nat.add_assoc]

theorem copyMatch_readOn (off len : Nat) (s : State) (k a n : Nat) :
    copyMatch off len (s.readOn k a n) = (copyMatch off len s).readOn k a n := rfl

theorem unread_readOn {bits more : List Bool} {s : State} (h : bits ++ more <+: s.unread) (a n : Nat) :
    more <+: (s.readOn bits.length a n).unread := by
  obtain ⟨rest, hrest⟩ := h
  refine ⟨rest, ?_⟩
  change _ = ({ s with bitPos := s.bitPos + bits.length } : State).unread
  rw [unread_advance, ← hrest, List.append_assoc, List.drop_left]

/-- One step after another takes the bits of the one, then those of the other. -/
theorem Act.Takes.bind {α β : Type} {bits more : List Bool} {v : α} {w : β} {s u : State} {x : Act α}
    {f : α → State → Act β} (hx : x.Takes s.unread bits v s)
    (hf : ∀ a n, (f v (s.readOn bits.length a n)).Takes (s.readOn bits.length a n).unread more w
      (u.readOn bits.length a n)) :
    (x.bind f).Takes s.unread (bits ++ more) w u := by
  intro h
  obtain ⟨a, n, hx⟩ := hx ((List.prefix_append ..).trans h)
  obtain ⟨a', n', hf⟩ := hf a n (unread_readOn h a n)
  refine ⟨a', n', ?_⟩
  rw [hx, Act.bind_ok, hf, readOn_readOn, List.length_append]

/-- A symbol's code in any of the three alphabets (R211). -/
theorem symDec_takes {a : Alphabet} {cap sym : Nat} {ls : List Nat} {s : State} (h : KraftOk cap ls)
    (hcodes : s.codes a = canonCodes ls) (hcap : cap ≤ s.cfg.decodeMaxbits) (hsym : hasCode (canonCodes ls) sym) :
    (symDec a s).Takes s.unread (symbolBits (canonCodes ls) sym) sym s := by
  obtain ⟨c, l, hcl⟩ := hsym
  have hbits : symbolBits (canonCodes ls) sym = codeBits c l := by simp only [symbolBits, hcl]
  have hlen : (codeBits c l).length = l := by simp [codeBits]
  intro hnext
  rw [hbits] at hnext ⊢
  refine ⟨c, l, ?_⟩
  have hle : l ≤ cap := h.le l (List.mem_of_getElem? (canonCodes_length_get hcl).1)
  rw [symDec_code h hcodes hcl (hle.trans hcap) hnext, State.readOn, hlen]

/-- The extra bits of a value after its symbol (R155, R156). -/
theorem readExtra_takes {table : List Config.CodeRow} {row : Config.CodeRow} {v : Nat}
    (h : rowOf table row.sym = some row) (hb : row.base ≤ v) (hv : v - row.base < 2 ^ row.extra) (s : State) :
    (readExtra table row.sym s).Takes s.unread (fieldBits row.extra (v - row.base)) v s := by
  intro hnext
  obtain ⟨hread, _⟩ := readBits_field (bits := []) hv (by rwa [List.append_nil])
  refine ⟨s.acc, s.accLen, ?_⟩
  rw [readExtra_row h, hread, Act.bind_ok, Nat.add_sub_of_le hb, fieldBits_length]
  rfl

/-! ## Records -/

/-- The decoder has the codes of these two arrays of lengths. -/
structure ReadsData (lit dist : List Nat) (s : State) : Prop where
  cfg       : s.cfg.Ok
  litKraft  : KraftOk s.cfg.maxbitsLd lit
  distKraft : KraftOk s.cfg.maxbitsLd dist
  litCode   : s.litCode = canonCodes lit
  distCode  : s.distCode = canonCodes dist

theorem ReadsData.lit_takes {lit dist : List Nat} {s : State} {sym : Nat} (h : ReadsData lit dist s)
    (hsym : hasCode s.litCode sym) : (symDec .litlen s).Takes s.unread (symbolBits s.litCode sym) sym s := by
  obtain ⟨_, _, _, _, hcap, _⟩ := h.cfg.caps
  rw [h.litCode] at hsym ⊢
  exact symDec_takes h.litKraft h.litCode hcap hsym

theorem ReadsData.dist_takes {lit dist : List Nat} {s : State} {sym : Nat} (h : ReadsData lit dist s)
    (hsym : hasCode s.distCode sym) : (symDec .dist s).Takes s.unread (symbolBits s.distCode sym) sym s := by
  obtain ⟨_, _, _, _, hcap, _⟩ := h.cfg.caps
  rw [h.distCode] at hsym ⊢
  exact symDec_takes h.distKraft h.distCode hcap hsym

/-- The codes stay while the stream is read. -/
theorem ReadsData.readOn {lit dist : List Nat} {s : State} (h : ReadsData lit dist s) (k a n : Nat) :
    ReadsData lit dist (s.readOn k a n) :=
  ⟨h.cfg, h.litKraft, h.distKraft, h.litCode, h.distCode⟩

/-- The codes stay while records are decoded. -/
theorem ReadsData.copied {lit dist : List Nat} {s : State} (h : ReadsData lit dist s) (off len : Nat) :
    ReadsData lit dist (copyMatch off len s) :=
  ⟨h.cfg, h.litKraft, h.distKraft, h.litCode, h.distCode⟩

theorem ReadsData.pushLiteral {lit dist : List Nat} {s : State} (h : ReadsData lit dist s) (b : Byte) :
    ReadsData lit dist (pushLiteral b s) :=
  ⟨h.cfg, h.litKraft, h.distKraft, h.litCode, h.distCode⟩

theorem ReadsData.pushMatch {lit dist : List Nat} {s : State} (h : ReadsData lit dist s) (off len : Nat)
    (lit' : Option Byte) : ReadsData lit dist (pushMatch off len lit' s) :=
  ⟨h.cfg, h.litKraft, h.distKraft, h.litCode, h.distCode⟩

/-- The state when these records more have been decoded, `bytes` the whole output. -/
def State.decodedTo (s : State) (rs : List MatchRecord) (bytes : List Byte) : State :=
  { s with recs := s.recs ++ rs, out := bytes }

theorem decodedTo_nil (s : State) : s.decodedTo [] s.out = s := by simp [State.decodedTo]

theorem pushLiteral_decodedTo (b : Byte) (s : State) (rs : List MatchRecord) (bytes : List Byte) :
    (pushLiteral b s).decodedTo rs bytes = s.decodedTo (MatchRecord.literal b :: rs) bytes := by
  simp [State.decodedTo, pushLiteral]

theorem pushMatch_decodedTo (off len : Nat) (lit : Option Byte) (s : State) (rs : List MatchRecord)
    (bytes : List Byte) :
    (pushMatch off len lit (copyMatch off len s)).decodedTo rs bytes =
      s.decodedTo (MatchRecord.ofMatch off len lit :: rs) bytes := by
  simp [State.decodedTo, pushMatch, copyMatch]

/-- What follows the copy of a match in the symbol loop (R277). -/
def afterCopy (fuel off len sym : Nat) (s : State) : Act Unit :=
  if sym ≤ 255 then symbolLoop fuel (pushMatch off len (some (BitVec.ofNat 8 sym)) s)
  else if sym = s.cfg.eob then .ok () (pushMatch off len none s)
  else raise .trailingNotLiteral sym s

/-- A byte's symbol is a literal (R100). -/
theorem byte_le (b : Byte) : b.toNat ≤ 255 := Nat.le_of_lt_succ b.isLt

theorem afterCopy_literal (fuel off len : Nat) (b : Byte) (s : State) :
    afterCopy fuel off len b.toNat s = symbolLoop fuel (pushMatch off len (some b) s) := by
  rw [afterCopy, if_pos (byte_le b), BitVec.ofNat_toNat, BitVec.setWidth_eq]

theorem afterCopy_eob (fuel off len : Nat) {s : State} (hc : s.cfg.Ok) :
    afterCopy fuel off len s.cfg.eob s = .ok () (pushMatch off len none s) := by
  obtain ⟨_, _, _, heob⟩ := hc.symbols
  rw [afterCopy, if_neg (by omega), if_pos rfl]

/-- The bits of a match record's length and distance (R264). -/
def matchBits (s : State) (l d : Config.CodeRow) (len off : Nat) : List Bool :=
  symbolBits s.litCode l.sym ++ (fieldBits l.extra (len - l.base) ++
    (symbolBits s.distCode d.sym ++ fieldBits d.extra (off - d.base)))

theorem recordBits_literal (s : State) (b : Byte) :
    recordBits s (MatchRecord.literal b) = symbolBits s.litCode b.toNat := rfl

theorem recordBits_ofMatch {s : State} {l d : Config.CodeRow} {len off : Nat} (lit : Option Byte) (h0 : 0 < len)
    (hl : lenRow s.cfg len = some l) (hd : distRow s.cfg off = some d) :
    recordBits s (MatchRecord.ofMatch off len lit) =
      matchBits s l d len off ++ lit.elim [] fun b => symbolBits s.litCode b.toNat := by
  cases lit <;> simp [recordBits, MatchRecord.ofMatch, matchBits, h0, hl, hd]

/-- A well-formed record is a literal's or a match's, as the decoder makes them (R34). -/
theorem wellFormed_kinds {c : Config.Params} (hc : c.Ok) {r : MatchRecord} (h : r.wellFormed c = true) :
    (∃ b, r = MatchRecord.literal b) ∨ ∃ off len lit, 0 < len ∧ r = MatchRecord.ofMatch off len lit := by
  obtain ⟨off, len, b, hasLit⟩ := r
  have hmin : 1 ≤ c.minMatch := (Nat.le_add_left 1 2).trans hc.ranges.1
  simp only [MatchRecord.wellFormed, Bool.or_eq_true, Bool.and_eq_true, decide_eq_true_eq] at h
  rcases h with ⟨⟨rfl, rfl⟩, rfl⟩ | ⟨⟨⟨_, hlen⟩, _⟩, hlit⟩
  · exact .inl ⟨b, rfl⟩
  · refine .inr ⟨off, len, if hasLit then some b else none, hmin.trans hlen, ?_⟩
    cases hasLit
    · simpa [MatchRecord.ofMatch] using hlit
    · rfl

/-- A length's row: its symbol stands after the end of the block's and reads back to it, the extra bits to the length
(R153, R155). -/
theorem lenRow_reads {c : Config.Params} (hc : c.Ok) {len : Nat} {l : Config.CodeRow} (hl : lenRow c len = some l) :
    rowOf c.lenTable l.sym = some l ∧ 257 ≤ l.sym ∧ l.sym < c.nlit ∧ l.base ≤ len ∧ len - l.base < 2 ^ l.extra := by
  obtain ⟨hmin, hmax⟩ := (Option.ite_none_right_eq_some.1 hl).1
  obtain ⟨l', hl', hmem, hbase, hextra⟩ := lenRow_spec hc len hmin hmax
  obtain rfl := Option.some.inj (hl'.symm.trans hl)
  have hsym := List.mem_map_of_mem (f := Config.CodeRow.sym) hmem
  rw [hc.lenTable.1, List.mem_range'_1] at hsym
  have hnlit : c.nlit = 286 := hc.symbols.1
  exact ⟨(rowOf_mem hc).1 _ hmem, hsym.1, by omega, hbase, hextra⟩

/-- A distance's row (R154, R156). -/
theorem distRow_reads {c : Config.Params} (hc : c.Ok) {off : Nat} {d : Config.CodeRow}
    (hd : distRow c off = some d) :
    rowOf c.distTable d.sym = some d ∧ d.sym < c.ndist ∧ d.base ≤ off ∧ off - d.base < 2 ^ d.extra := by
  obtain ⟨hmin, hmax⟩ := (Option.ite_none_right_eq_some.1 hd).1
  obtain ⟨d', hd', hmem, hbase, hextra⟩ := distRow_spec hc off hmin hmax
  obtain rfl := Option.some.inj (hd'.symm.trans hd)
  exact ⟨(rowOf_mem hc).2 _ hmem, distRow_sym_lt hc hmem, hbase, hextra⟩

section
variable {lit dist : List Nat} {s : State} (h : ReadsData lit dist s)
include h

/-- The end of the block (R277). -/
theorem symbolLoop_takes_eob (hcode : hasCode s.litCode s.cfg.eob) (fuel : Nat) :
    (symbolLoop (fuel + 1) s).Takes s.unread (symbolBits s.litCode s.cfg.eob) () s := by
  obtain ⟨_, _, _, heob⟩ := h.cfg.symbols
  rw [symbolLoop, ← List.append_nil (symbolBits _ _)]
  refine (h.lit_takes hcode).bind fun a n _ => ⟨a, n, ?_⟩
  exact (if_neg (by omega)).trans (if_pos rfl)

/-- A literal, then the rest of the block (R277). -/
theorem symbolLoop_takes_literal {b : Byte} {fuel : Nat} {bits : List Bool} {u : State}
    (hcode : hasCode s.litCode b.toNat)
    (hrest : ∀ k a n, (symbolLoop fuel (pushLiteral b (s.readOn k a n))).Takes (s.readOn k a n).unread bits ()
      (u.readOn k a n)) :
    (symbolLoop (fuel + 1) s).Takes s.unread (symbolBits s.litCode b.toNat ++ bits) () u := by
  rw [symbolLoop]
  refine (h.lit_takes hcode).bind fun a n => ?_
  rw [if_pos (byte_le b), BitVec.ofNat_toNat, BitVec.setWidth_eq]
  exact hrest _ a n

/-- A match's length and distance, then its copy, the symbol after it and the rest of the block (R277). -/
theorem symbolLoop_takes_match {l d : Config.CodeRow} {fuel len off sym : Nat} {bits : List Bool} {u : State}
    (hl : lenRow s.cfg len = some l) (hd : distRow s.cfg off = some d) (hlen : hasCode s.litCode l.sym)
    (hoff : hasCode s.distCode d.sym) (hfar : off ≤ s.out.length) (hsym : hasCode s.litCode sym)
    (hrest : ∀ k a n, (afterCopy fuel off len sym (copyMatch off len (s.readOn k a n))).Takes
      (s.readOn k a n).unread bits () (u.readOn k a n)) :
    (symbolLoop (fuel + 1) s).Takes s.unread (matchBits s l d len off ++ (symbolBits s.litCode sym ++ bits)) () u := by
  obtain ⟨hrowl, h257, hnlit, hlbase, hlextra⟩ := lenRow_reads h.cfg hl
  obtain ⟨hrowd, hndist, hdbase, hdextra⟩ := distRow_reads h.cfg hd
  obtain ⟨_, _, _, heob⟩ := h.cfg.symbols
  rw [symbolLoop, matchBits, List.append_assoc, List.append_assoc, List.append_assoc]
  refine (h.lit_takes hlen).bind fun a1 n1 => ?_
  rw [if_neg (by omega), readOn_cfg, if_neg (by omega), if_neg (not_le.2 hnlit)]
  refine (readExtra_takes hrowl hlbase hlextra _).bind fun a2 n2 => ?_
  rw [readOn_readOn, readOn_readOn]
  refine ((h.readOn _ a2 n2).dist_takes hoff).bind fun a3 n3 => ?_
  rw [readOn_readOn, readOn_readOn, readOn_distCode, readOn_cfg, if_neg (not_le.2 hndist)]
  refine (readExtra_takes hrowd hdbase hdextra _).bind fun a4 n4 => ?_
  rw [readOn_readOn, readOn_readOn, readOn_out, if_neg (not_lt.2 hfar), copyMatch_readOn]
  change Act.Takes ((copyMatch off len s).readOn _ a4 n4).unread _ _ _ _
  refine (((h.copied off len).readOn _ a4 n4).lit_takes hsym).bind fun a5 n5 => ?_
  rw [readOn_readOn, readOn_readOn]
  exact hrest _ a5 n5

end

/-- A literal record gives its byte. -/
theorem expands_literal {b : Byte} {rs : List MatchRecord} {before bytes : List Byte}
    (h : Expands (MatchRecord.literal b :: rs) before bytes) : Expands rs (before ++ [b]) bytes := by
  obtain ⟨_, copy, hlen, _, hrest⟩ := h
  obtain rfl := List.length_eq_zero_iff.1 hlen
  simpa [MatchRecord.literal] using hrest

/-- A match record gives its copy, then its literal (R181, R182). -/
theorem expands_match {off len : Nat} {lit : Option Byte} {rs : List MatchRecord} {s : State} {bytes : List Byte}
    (h0 : 0 < len) (h : Expands (MatchRecord.ofMatch off len lit :: rs) s.out bytes) :
    off ≤ s.out.length ∧ Expands rs (pushMatch off len lit (copyMatch off len s)).out bytes := by
  obtain ⟨hfar, copy, hlen, hcopy, hrest⟩ := h
  obtain ⟨h1, hle⟩ := hfar h0
  obtain ⟨copy', hlen', hcopy', heq⟩ := copyMatch_spec off len s h1 hle
  obtain rfl := isCopy_unique (fun _ => ⟨h1, hle⟩) (hlen'.trans hlen.symm) hcopy hcopy'
  refine ⟨hle, ?_⟩
  rw [heq]
  cases lit <;> simpa [MatchRecord.ofMatch, pushMatch] using hrest

/-- Records that cover the rest of a chunk, each of their symbols coded, are read back with the end of the block
(R277). -/
theorem symbolLoop_takes_records {lit dist : List Nat} {n i fuel : Nat} {rs : List MatchRecord} {s : State}
    {bytes : List Byte} (h : ReadsData lit dist s) (hcoded : ∀ r ∈ rs, RecordCoded s r)
    (hcover : CoverFrom s.cfg n i rs) (hexp : Expands rs s.out bytes) (heob : hasCode s.litCode s.cfg.eob)
    (hfuel : rs.length < fuel) :
    (symbolLoop fuel s).Takes s.unread (rs.flatMap (recordBits s) ++ symbolBits s.litCode s.cfg.eob) ()
      (s.decodedTo rs bytes) := by
  induction rs generalizing s i fuel with
  | nil =>
    obtain ⟨fuel, rfl⟩ := Nat.exists_eq_succ_of_ne_zero hfuel.ne_bot
    obtain rfl : bytes = s.out := hexp
    rw [decodedTo_nil]
    exact symbolLoop_takes_eob h heob fuel
  | cons r rs ih =>
    obtain ⟨fuel, rfl⟩ := Nat.exists_eq_succ_of_ne_zero hfuel.ne_bot
    replace hfuel : rs.length < fuel := Nat.lt_of_succ_lt_succ hfuel
    obtain ⟨hwf, _, hlast, hcover⟩ := hcover
    obtain ⟨hmatch, hlit⟩ := hcoded r (List.mem_cons_self ..)
    have hcoded' : ∀ q ∈ rs, RecordCoded s q := fun q hq => hcoded q (List.mem_cons_of_mem r hq)
    rw [List.flatMap_cons, List.append_assoc]
    rcases wellFormed_kinds h.cfg hwf with ⟨b, rfl⟩ | ⟨off, len, lit', h0, rfl⟩
    · rw [recordBits_literal]
      refine symbolLoop_takes_literal h (hlit rfl) fun k a m => ?_
      have hrest := ih ((h.readOn k a m).pushLiteral b) hcoded' hcover (expands_literal hexp) heob hfuel
      rwa [pushLiteral_decodedTo] at hrest
    · obtain ⟨l, d, hl, hd, hlen, hoff⟩ := hmatch h0
      obtain ⟨hfar, hexp⟩ := expands_match h0 hexp
      rw [recordBits_ofMatch (off := off) (len := len) lit' h0 hl hd, List.append_assoc]
      cases lit' with
      | none =>
        obtain rfl := hlast rfl
        have hend := symbolLoop_takes_match h (fuel := fuel) (bits := [])
          (u := s.decodedTo [MatchRecord.ofMatch off len none] bytes) hl hd hlen hoff hfar heob
        rw [List.append_nil] at hend
        refine hend fun k a m _ => ⟨a, m, ?_⟩
        obtain rfl : bytes = _ := hexp
        rw [← pushMatch_decodedTo, decodedTo_nil]
        exact afterCopy_eob _ off len (s := copyMatch off len (s.readOn k a m)) h.cfg
      | some b =>
        refine symbolLoop_takes_match h hl hd hlen hoff hfar (hlit rfl) fun k a m => ?_
        rw [afterCopy_literal]
        have hrest := ih (((h.readOn k a m).copied off len).pushMatch off len (some b)) hcoded' hcover hexp heob hfuel
        rwa [pushMatch_decodedTo] at hrest

/-! ## The block that BLK.ENC writes -/

/-- A state whose block a stream can hold: the header is its two arrays trimmed, and the codes are theirs (R241, R262). -/
structure BlockHeld (t : State) : Prop where
  header    : HeaderHeld t t.seq
  seq       : t.seq = t.litLen.take (t.hlit + 257) ++ t.distLen.take (t.hdist + 1)
  litSize   : t.hlit + 257 ≤ t.litLen.length
  litRest   : ∀ l ∈ t.litLen.drop (t.hlit + 257), l = 0
  distRest  : ∀ l ∈ t.distLen.drop (t.hdist + 1), l = 0
  litKraft  : KraftOk t.cfg.maxbitsLd t.litLen
  distKraft : KraftOk t.cfg.maxbitsLd t.distLen
  litCode   : t.litCode = canonCodes t.litLen
  distCode  : t.distCode = canonCodes t.distLen
  eob       : hasCode t.litCode t.cfg.eob
  coded     : ∀ r ∈ t.recs, RecordCoded t r

theorem RecordCoded.congr {s t : State} {r : MatchRecord} (h : RecordCoded s r) (hcfg : t.cfg = s.cfg)
    (hlit : t.litCode = s.litCode) (hdist : t.distCode = s.distCode) : RecordCoded t r := by
  unfold RecordCoded at h ⊢
  rwa [hcfg, hlit, hdist]

/-- The lengths built for an alphabet that fits its cap satisfy the Kraft inequality (R203). -/
theorem kraftOk_counted (c : Config.Params) {freq : List Nat} {cap n : Nat} (hcap : 1 ≤ cap)
    (hlen : (coreLengths c freq cap).length = n) (hn : n ≤ 2 ^ cap) : KraftOk cap (coreLengths c freq cap) :=
  kraftOk_coreLengths c hcap <| (present_le_length freq).trans <|
    ((coreLengths_covers c freq hcap).1.symm.trans hlen).le.trans hn

/-- HDR.BUILD makes such a state of the data part's lengths and codes. -/
theorem blockHeld_of_hdrBuild {lf df : List Nat} {e b : State} (hw : DataReady (dataCodes lf df e))
    (h : hdrBuild (dataCodes lf df e) = .ok () b) : BlockHeld b := by
  obtain ⟨hlit, hlit15⟩ := hw.litLen
  obtain ⟨hdist, hdist15⟩ := hw.distLen
  obtain ⟨hcapLit, hcapDist, _⟩ := hw.cfg.caps
  obtain ⟨hcap, _⟩ := caps_range hw.cfg .litlen
  have hb := built_of_hdrBuild hlit.ge hdist.ge h
  have hheader := headerHeld_of_hdrBuild hw.cfg hlit hdist hlit15 hdist15 h
  obtain ⟨hlitRest, hdistRest⟩ := sizes_leave_zeros hlit hdist
  have hfit : b.hlit + 257 ≤ b.litLen.length := by
    have := sizeLit_le (dataCodes lf df e) hw.cfg.symbols.1
    rw [hb.litLen, hlit, hw.cfg.symbols.1, hb.hlit]
    omega
  exact {
    header := hheader
    seq := by rw [hb.litLen, hb.distLen]; exact hb.seq
    litSize := hfit
    litRest := by rw [hb.litLen, hb.hlit]; exact hlitRest
    distRest := by rw [hb.distLen, hb.hdist]; exact hdistRest
    litKraft := by rw [hb.cfg, hb.litLen]; exact kraftOk_counted e.cfg hcap hlit hcapLit
    distKraft := by rw [hb.cfg, hb.distLen]; exact kraftOk_counted e.cfg hcap hdist hcapDist
    litCode := by rw [hb.litCode, hb.litLen]; rfl
    distCode := by rw [hb.distCode, hb.distLen]; rfl
    eob := by rw [hb.litCode, hb.cfg]; exact hw.eob.2
    coded := fun r hr => (hw.recs r (hb.recs ▸ hr)).congr hb.cfg hb.litCode hb.distCode }

/-- BLK.ENC is the block of such a state. -/
theorem blkEnc_held (n : Nat) (final : Bool) {s : State} (hc : s.cfg.Ok) :
    ∃ b, blkEnc n final s = .ok () (writeList (blockBits b) b) ∧ BlockHeld b ∧
      b.recs = (lzEncode n { s with bfinal := final }).recs := by
  have hcfg : (lzEncode n { s with bfinal := final }).cfg.Ok := by
    obtain ⟨_, _, _, _, _, _, _, _, _, _, hlz⟩ := lzEncode_frame n { s with bfinal := final }
    rw [hlz]
    exact hc
  obtain ⟨lf, df, hfreq, hready⟩ := dataReady_dataCodes hcfg (lzEncode_recordsOk n (s := { s with bfinal := final }) hc)
  obtain ⟨b, hb, hframe, hwrite⟩ := hready.block
  refine ⟨b, ?_, blockHeld_of_hdrBuild hready hb, by rw [hframe]; rfl⟩
  rw [blkEnc, hfreq, Act.bind_ok]
  change ((hdrBuild (dataCodes lf df _)).bind fun _ t => _) = _
  rw [hb]
  exact hwrite

/-! ## The decoder at that block -/

/-- The data part's codes as the decoder has them, trimmed. -/
structure ReadsBlock (t g : State) : Prop where
  cfg      : g.cfg = t.cfg
  litCode  : g.litCode = canonCodes (t.litLen.take (t.hlit + 257))
  distCode : g.distCode = canonCodes (t.distLen.take (t.hdist + 1))

section
variable {t g : State} (ht : BlockHeld t) (hg : ReadsBlock t g)
include ht hg

theorem ReadsBlock.lit_iff (sym : Nat) : hasCode g.litCode sym ↔ hasCode t.litCode sym := by
  rw [hg.litCode, ht.litCode, hasCode_take ht.litRest]

theorem ReadsBlock.dist_iff (sym : Nat) : hasCode g.distCode sym ↔ hasCode t.distCode sym := by
  rw [hg.distCode, ht.distCode, hasCode_take ht.distRest]

theorem ReadsBlock.lit_bits {sym : Nat} (h : hasCode t.litCode sym) :
    symbolBits g.litCode sym = symbolBits t.litCode sym := by
  rw [ht.litCode] at h ⊢
  rw [hg.litCode, symbolBits_take ht.litRest h]

theorem ReadsBlock.dist_bits {sym : Nat} (h : hasCode t.distCode sym) :
    symbolBits g.distCode sym = symbolBits t.distCode sym := by
  rw [ht.distCode] at h ⊢
  rw [hg.distCode, symbolBits_take ht.distRest h]

theorem ReadsBlock.readsData : ReadsData (t.litLen.take (t.hlit + 257)) (t.distLen.take (t.hdist + 1)) g := by
  refine ⟨hg.cfg ▸ ht.header.cfg, ?_, ?_, hg.litCode, hg.distCode⟩
  · rw [hg.cfg]
    exact ht.litKraft.take _
  · rw [hg.cfg]
    exact ht.distKraft.take _

theorem ReadsBlock.coded {r : MatchRecord} (h : RecordCoded t r) : RecordCoded g r := by
  simpa only [RecordCoded, hg.cfg, hg.lit_iff ht, hg.dist_iff ht] using h

/-- A record's bits are the same in the trimmed codes. -/
theorem ReadsBlock.recordBits_eq {r : MatchRecord} (h : RecordCoded t r) : recordBits g r = recordBits t r := by
  obtain ⟨hmatch, hlit⟩ := h
  rw [recordBits, recordBits, hg.cfg]
  congr 1
  · split
    · obtain ⟨l, d, hl, hd, hlen, hoff⟩ := hmatch ‹_›
      rw [hl, hd]
      dsimp only
      rw [hg.lit_bits ht hlen, hg.dist_bits ht hoff]
    · rfl
  · split
    · exact hg.lit_bits ht (hlit ‹_›)
    · rfl

/-- The bits of the block after its header. -/
theorem ReadsBlock.dataBits_eq : t.recs.flatMap (recordBits g) ++ symbolBits g.litCode g.cfg.eob =
    t.recs.flatMap (recordBits t) ++ symbolBits t.litCode t.cfg.eob := by
  rw [hg.cfg, hg.lit_bits ht ht.eob, List.flatMap_congr fun r hr => hg.recordBits_eq ht (ht.coded r hr)]

/-- The symbol loop at the first record reads all of them (R277). -/
theorem ReadsBlock.symbolLoop_takes {n : Nat} {bytes : List Byte} (hcover : CoverFrom t.cfg n 0 t.recs)
    (hexp : Expands t.recs g.out bytes) :
    (symbolLoop g.bitsLeft g).Takes g.unread (t.recs.flatMap (recordBits t) ++ symbolBits t.litCode t.cfg.eob) ()
      (g.decodedTo t.recs bytes) := by
  have hdata := hg.readsData ht
  rw [← symbolLoop_fuel (fuel := g.bitsLeft + (t.recs.length + 1)) hdata.cfg (Nat.le_add_right ..), ← hg.dataBits_eq ht]
  refine symbolLoop_takes_records hdata (fun r hr => hg.coded ht (ht.coded r hr)) (hg.cfg ▸ hcover) hexp ?_ (by omega)
  rw [hg.lit_iff ht, hg.cfg]
  exact ht.eob

end

theorem blockBits_eq (t : State) : blockBits t = fieldBits 1 t.bfinal.toNat ++ (fieldBits 2 2 ++ (headerRest t ++
    (t.recs.flatMap (recordBits t) ++ symbolBits t.litCode t.cfg.eob))) := by
  simp only [blockBits, headerBits_eq, headerRest, List.append_assoc]

/-- The header of the block read and split (R236, R273). -/
theorem BlockHeld.hdrRead_takes {t r : State} (ht : BlockHeld t) (hcfg : t.cfg = r.cfg)
    (hbits : headerRest t <+: r.unread) :
    ∃ a n, hdrRead r = .ok () (setLens .dist (t.distLen.take (t.hdist + 1))
      (setLens .litlen (t.litLen.take (t.hlit + 257)) (pairsRead t r t.seq a n))) := by
  obtain ⟨a, n, h⟩ := hdrRead_held ht.header hcfg hbits
  have hlen : (t.litLen.take (t.hlit + 257)).length = t.hlit + 257 := List.length_take_of_le ht.litSize
  have htake : t.seq.take (t.hlit + 257) = t.litLen.take (t.hlit + 257) := by rw [ht.seq, List.take_left' hlen]
  have hdrop : t.seq.drop (t.hlit + 257) = t.distLen.take (t.hdist + 1) := by rw [ht.seq, List.drop_left' hlen]
  exact ⟨a, n, by rw [h, htake, hdrop]⟩

/-- What BLK.DEC leaves when it has read the block of `t` from the cursor of `r`, `bytes` being what its records stand
for (R276 to R280). -/
structure BlockRead (t r : State) (bytes : List Byte) (q : State) : Prop where
  recs    : q.recs = t.recs
  out     : q.out = bytes
  decoded : q.decoded = r.decoded ++ bytes
  bfinal  : q.bfinal = t.bfinal
  dstate  : q.dstate = if t.bfinal then .done else .expectHeader
  place   : q.place = .bfinal
  bitPos  : q.bitPos = r.bitPos + (blockBits t).length
  err     : q.err = r.err
  host    : q.source = r.source ∧ q.cfg = r.cfg

/-- The state of BLK.DEC when it has read BFINAL and BTYPE. -/
def typeRead (f : Bool) (r : State) : State := { r with bitPos := r.bitPos + 1 + 2, bfinal := f }

/-- A block of BLK.ENC next in the stream is taken for a dynamic one (R273). -/
theorem blkDec_dynamic {f : Bool} {r : State} {bits : List Bool}
    (h : fieldBits 1 f.toNat ++ (fieldBits 2 2 ++ bits) <+: r.unread) :
    blkDec r = dynamicBlock (typeRead f r) ∧ bits <+: (typeRead f r).unread := by
  obtain ⟨hfinal, hnext⟩ := readBits_field (Bool.toNat_lt f) h
  obtain ⟨htype, hnext⟩ := readBits_field (s := { r with bitPos := r.bitPos + 1, bfinal := f }) (by decide) hnext
  refine ⟨?_, hnext⟩
  have hflag : decide (f.toNat = 1) = f := by cases f <;> rfl
  rw [blkDec, hfinal, Act.bind_ok, hflag, htype, Act.bind_ok]
  rfl

/-- The state of BLK.DEC at the first record: the header read, the codes made of the arrays, no record yet (R276). -/
def atRecords (t r : State) (a n : Nat) : State :=
  beginData (setLens .dist (t.distLen.take (t.hdist + 1)) (setLens .litlen (t.litLen.take (t.hlit + 257))
    (pairsRead t { typeRead t.bfinal r with btype := 2, dstate := .dynamicHuffman } t.seq a n)))

theorem atRecords_frame (t r : State) (a n : Nat) :
    (atRecords t r a n).recs = [] ∧ (atRecords t r a n).decoded = r.decoded ∧ (atRecords t r a n).bfinal = t.bfinal ∧
    (atRecords t r a n).bitPos = r.bitPos + 1 + 2 + (headerRest t).length ∧
    (atRecords t r a n).err = r.err ∧ (atRecords t r a n).source = r.source ∧ (atRecords t r a n).cfg = r.cfg :=
  ⟨rfl, rfl, rfl, rfl, rfl, rfl, rfl⟩

/-- From the first record on, the records and the end of the block give what BLK.DEC leaves (R277, R279). -/
theorem BlockRead.of_records {t r g : State} {bytes : List Byte} {k : Nat} (hrecs : g.recs = [])
    (hdecoded : g.decoded = r.decoded) (hfinal : g.bfinal = t.bfinal)
    (hpos : g.bitPos + k = r.bitPos + (blockBits t).length)
    (herr : g.err = r.err) (hhost : g.source = r.source ∧ g.cfg = r.cfg) (a n : Nat) :
    BlockRead t r bytes (endBlock ((g.decodedTo t.recs bytes).readOn k a n)) where
  recs    := congrArg (· ++ t.recs) hrecs
  out     := rfl
  decoded := congrArg (· ++ bytes) hdecoded
  bfinal  := hfinal
  dstate  := congrArg (fun f : Bool => if f then DState.done else .expectHeader) hfinal
  place   := rfl
  bitPos  := hpos
  err     := herr
  host    := hhost

/-- BLK.DEC reads back the block that BLK.ENC wrote, wherever it stands in the stream (R283). -/
theorem blkDec_held {t r : State} {n : Nat} {bytes : List Byte} (ht : BlockHeld t) (hcfg : t.cfg = r.cfg)
    (hcover : CoverFrom t.cfg n 0 t.recs) (hexp : Expands t.recs [] bytes) (hbits : blockBits t <+: r.unread) :
    ∃ q, blkDec r = .ok () q ∧ BlockRead t r bytes q := by
  rw [blockBits_eq] at hbits
  obtain ⟨hdec, hbits⟩ := blkDec_dynamic hbits
  obtain ⟨a, m, hread⟩ := ht.hdrRead_takes
    (r := { typeRead t.bfinal r with btype := 2, dstate := .dynamicHuffman }) hcfg ((List.prefix_append ..).trans hbits)
  have hg : ReadsBlock t (atRecords t r a m) := ⟨hcfg.symm, rfl, rfl⟩
  obtain ⟨a', m', hloop⟩ := hg.symbolLoop_takes ht hcover hexp (unread_readOn hbits a m)
  obtain ⟨hrecs, hdecoded, hfinal, hpos, herr, hhost⟩ := atRecords_frame t r a m
  have hend : (atRecords t r a m).bitPos + (t.recs.flatMap (recordBits t) ++ symbolBits t.litCode t.cfg.eob).length =
      r.bitPos + (blockBits t).length := by
    rw [hpos, blockBits_eq]
    simp only [List.length_append, fieldBits_length, Nat.add_assoc]
  refine ⟨_, ?_, BlockRead.of_records hrecs hdecoded hfinal hend herr hhost a' m'⟩
  exact (hdec.trans (Act.bind_of_ok hread)).trans (Act.bind_of_ok hloop)

/-! ## The round trip -/

/-- The reader of what STRM.CLOSE has written: the sink attached as the source (R283). -/
def closed (t : State) : State := { (flush t).finished with source := (flush t).sink }

/-- A reader at the start of the sink finds what was written, then padding (R133). -/
theorem unread_closed {t : State} (hw : WriterOk t) (hpos : t.bitPos = 0) : t.written <+: (closed t).unread := by
  obtain ⟨_, hwritten, hbuf, hcnt⟩ := flush_spec t hw
  have hbits : (flush t).written = (closed t).sourceBits := by
    rw [State.written, hcnt]
    exact List.append_nil _
  have hstart : (closed t).bitPos = 0 := by
    obtain ⟨w, c, k, hf⟩ := flush_frame t
    rw [closed, hf]
    exact hpos
  rw [State.unread, hstart, List.drop_zero, ← hbits, hwritten]
  exact List.prefix_append ..

/-- The writer aside, STRM.CLOSE leaves the state as it is. -/
theorem closed_frame (t : State) : (closed t).cfg = t.cfg ∧ (closed t).err = t.err ∧ (closed t).dstate = t.dstate ∧
    (closed t).place = t.place ∧ (closed t).decoded = t.decoded ∧ (closed t).bitPos = t.bitPos := by
  obtain ⟨w, c, k, hf⟩ := flush_frame t
  rw [closed, hf]
  exact ⟨rfl, rfl, rfl, rfl, rfl, rfl⟩

/-- Writing leaves the block as it is. -/
theorem block_of_appends {b t : State} (h : Appends b t) : blockBits t.finished = blockBits b ∧
    t.finished.recs = b.recs ∧ t.finished.cfg = b.cfg ∧ t.finished.bfinal = b.bfinal := by
  rw [h.2.2]
  exact ⟨rfl, rfl, rfl, rfl⟩

/-- `t` is BLK.ENC's answer in `s`: the block of `b` after what was written, its records the chunk's, and the reader not
touched (R183, R262). -/
structure BlockWritten (n : Nat) (final : Bool) (s b t : State) : Prop where
  held    : BlockHeld b
  covers  : CoverFrom b.cfg n 0 b.recs
  expands : Expands b.recs [] (s.data.take n)
  bfinal  : b.bfinal = final
  recs    : t.recs = b.recs
  bits    : t.written = s.written ++ blockBits b
  writer  : WriterOk t
  cfg     : b.cfg = s.cfg ∧ t.cfg = s.cfg
  err     : t.err = s.err
  place   : t.dstate = s.dstate ∧ t.place = s.place
  decoded : t.decoded = s.decoded
  bitPos  : t.bitPos = s.bitPos

theorem exec_blkEnc_written {n : Nat} (final : Bool) {s : State} (hc : s.cfg.Ok) (he : s.err = none) (hw : WriterOk s)
    (hn : n ≤ s.cfg.chunkMax) (hd : n ≤ s.data.length) :
    ∃ b t, exec (.blkEnc n final) s = .next t ∧ BlockWritten n final s b t := by
  have hcover := lzEncode_covers (s := { s with bfinal := final }) hc hd
  have hexp := lzEncode_expands (s := { s with bfinal := final }) hc hd
  obtain ⟨b, hok, hb, hrecs⟩ := blkEnc_held n final hc
  rw [← hrecs] at hcover hexp
  obtain ⟨t, hexec, hwt, _, hwritten, _, hfinal, _, _, herr, _, _, hdstate, hpos, _, _, _, hdecoded, _, _, hplace, _, _,
    hcfg⟩ := (blockEncodeCompletes s n final hc he hw).1 hn hd
  have hexec' : exec (.blkEnc n final) s = .next (writeList (blockBits b) b).finished :=
    (unlessPending_ready he _).trans <| (withChunk_placed hn hd _).trans <| by rw [hok]; rfl
  have ht : t = (writeList (blockBits b) b).finished := Host.Outcome.next.inj (hexec.symm.trans hexec')
  obtain ⟨hblock, htrecs, htcfg, htfinal⟩ := block_of_appends (writeList_appends (blockBits b) b)
  rw [← ht] at hblock htrecs htcfg htfinal
  have hbcfg : b.cfg = s.cfg := htcfg.symm.trans hcfg
  have hbits : t.written = s.written ++ blockBits b := by
    rw [hwritten, ← hblock, blockBits, hcfg]
    simp only [List.append_assoc]
  exact ⟨b, t, hexec, hb, hbcfg ▸ hcover, hexp, htfinal.symm.trans hfinal, htrecs, hbits, hwt, ⟨hbcfg, hcfg⟩,
    herr.trans he.symm, ⟨hdstate, hplace⟩, hdecoded, hpos⟩

/-- A reset core has nothing pending in the writer (R44). -/
theorem coreReset_writerOk (s : State) : WriterOk (coreReset s) := ⟨Nat.zero_lt_succ 7, Nat.zero_lt_one⟩

/-- Settles O48: the block written stands at the cursor of the reader, and BLK.DEC reads any such block back. -/
theorem blockRoundTrip : Obligations.BlockRoundTrip := by
  intro s₀ s n final hc hreset hn hd
  obtain rfl : coreReset s₀ = s := Host.Outcome.next.inj hreset
  obtain ⟨b, t, henc, ht⟩ := exec_blkEnc_written final (s := coreReset s₀) hc rfl (coreReset_writerOk s₀) hn hd
  obtain ⟨hcfg, herr, hdstate, hplace, hdecoded, hpos⟩ := closed_frame t
  have hblock : t.written = blockBits b := ht.bits
  have hready : (closed t).err = none := herr.trans ht.err
  obtain ⟨q, hdec, hq⟩ := blkDec_held ht.held (ht.cfg.1.trans (hcfg.trans ht.cfg.2).symm) ht.covers ht.expands
    (hblock ▸ unread_closed ht.writer ht.bitPos)
  have hexec : exec .blkDec (closed t) = .next q.finished := by
    rw [execBlkDec_ready hready (hdstate.trans ht.place.1) (hplace.trans ht.place.2), hdec]
    rfl
  refine ⟨t, (flush t).finished, q.finished, henc, exec_strmClose ht.err, hexec, hq.err.trans hready,
    hq.recs.trans ht.recs.symm, hq.out, ?_, hq.bfinal.trans ht.bfinal, ?_, ?_⟩
  · refine hq.decoded.trans ?_
    rw [hdecoded, ht.decoded]
    rfl
  · exact ht.bfinal ▸ hq.dstate
  · refine hq.bitPos.trans ?_
    rw [hpos, ht.bitPos, hblock]
    exact Nat.zero_add _

end Sys2Proof.Machine
end

section
/-! SUPPORT. HUF.BUILD: its lengths cover the present symbols (R201, R202), saturate the Kraft inequality (R204), and
break ties in symbol order (R203). Leaves of equal weight stand in the order of their symbols, and no round of
package-merge changes that: in the first items of any round the smaller of two such symbols stands at least as often.
-/

namespace Sys2Proof.Machine

/-! ## Ties among the leaves -/

/-- Every symbol of the one item is smaller than every symbol of the other. -/
def SymsBelow (x y : Item) : Prop := ∀ s ∈ x.syms, ∀ t ∈ y.syms, s < t

/-- Items of equal weight stand in the order of their symbols. -/
def TiesOrdered (xs : List Item) : Prop := xs.Pairwise fun x y => x.weight = y.weight → SymsBelow x y

theorem presentFrom_symsBelow (k : Nat) (freq : List Nat) : (presentFrom k freq).Pairwise SymsBelow := by
  induction freq generalizing k with
  | nil => exact .nil
  | cons f fs ih =>
    unfold presentFrom
    split
    · refine List.pairwise_cons.2 ⟨fun y hy s hs t ht => ?_, ih (k + 1)⟩
      obtain ⟨u, hu, rfl⟩ := single_presentFrom hy
      rw [List.mem_singleton.1 hs, List.mem_singleton.1 ht]
      exact hu
    · exact ih (k + 1)

theorem insertItem_tiesOrdered {x : Item} {ys : List Item} (h : TiesOrdered ys) (hx : ∀ y ∈ ys, SymsBelow x y) :
    TiesOrdered (insertItem x ys) := by
  induction ys with
  | nil => exact List.pairwise_singleton ..
  | cons y ys ih =>
    obtain ⟨hy, hys⟩ := List.pairwise_cons.1 h
    unfold insertItem
    split
    · exact List.pairwise_cons.2 ⟨fun z hz _ => hx z hz, h⟩
    · rename_i hheavier
      refine List.pairwise_cons.2 ⟨fun z hz hw => ?_, ih hys fun z hz => hx z (List.mem_cons_of_mem y hz)⟩
      rcases List.mem_cons.1 ((insertItem_perm x ys).mem_iff.1 hz) with rfl | hz
      · exact absurd hw.ge hheavier
      · exact hy z hz hw

/-- The insertion sort keeps the order of equal weights. -/
theorem sortItems_tiesOrdered {xs : List Item} (h : xs.Pairwise SymsBelow) : TiesOrdered (sortItems xs) := by
  induction xs with
  | nil => exact .nil
  | cons x xs ih =>
    obtain ⟨hx, hxs⟩ := List.pairwise_cons.1 h
    exact insertItem_tiesOrdered (ih hxs) fun y hy => hx y ((sortItems_perm xs).mem_iff.1 hy)

/-! ## Ties among the items of a round -/

/-- In every beginning of the list `j` stands at least as often as `k`. -/
def Leads (j k : Nat) (xs : List Item) : Prop := ∀ q, tally k (xs.take q) ≤ tally j (xs.take q)

/-- The leaf of the smaller symbol comes first. -/
theorem LeavesOf.leads {freq : List Nat} {leaves : List Item} {j k : Nat} (hl : LeavesOf freq leaves)
    (hties : TiesOrdered leaves) (hjk : j < k) (hf : freq[j]?.getD 0 = freq[k]?.getD 0) : Leads j k leaves := by
  intro q
  by_cases hk : k ∈ symsOf (leaves.take q)
  · rw [hl.tally_take hk, Nat.one_le_iff_ne_zero]
    intro hj
    -- then the leaf of `j` is further on, although it is no heavier
    have hone : Machine.tally j leaves = Machine.tally k leaves := by rw [hl.tally, hl.tally, hf]
    have hsplit : ∀ s, Machine.tally s leaves = Machine.tally s (leaves.take q) + Machine.tally s (leaves.drop q) :=
      fun s => by rw [← tally_append, List.take_append_drop]
    have hrest : 0 < Machine.tally j (leaves.drop q) := by
      have := hl.tally_take hk
      have := hsplit j
      have := hsplit k
      omega
    obtain ⟨y, hy, hjy⟩ := List.mem_flatMap.1 (List.count_pos_iff.1 hrest)
    obtain ⟨x, hx, hkx⟩ := List.mem_flatMap.1 hk
    obtain ⟨_, rfl⟩ := hl.single x (List.mem_of_mem_take hx)
    obtain ⟨_, rfl⟩ := hl.single y (List.mem_of_mem_drop hy)
    obtain rfl := List.mem_singleton.1 hkx
    obtain rfl := List.mem_singleton.1 hjy
    rw [TiesOrdered, ← List.take_append_drop q leaves] at hties
    obtain ⟨_, _, hcross⟩ := List.pairwise_append.1 hties
    exact absurd (hcross _ hx _ hy hf.symm _ hkx _ hjy) hjk.not_gt
  · exact (List.count_eq_zero.2 hk).trans_le (Nat.zero_le _)

/-- One round of package-merge keeps the lead: the first items are first leaves and the packages of first items. -/
theorem Leads.round {j k : Nat} {leaves cur : List Item} (has : Ascending leaves) (hl : Leads j k leaves)
    (hc : Leads j k cur) : Leads j k (mergeItems leaves (packages cur)) := by
  intro q
  have hlen : (mergeItems leaves (packages cur)).length = leaves.length + (packages cur).length := by
    rw [(mergeItems_perm leaves (packages cur)).length_eq, List.length_append]
  rw [List.take_eq_take_min, hlen]
  obtain ⟨a, p, _, ⟨_, hp⟩, hperm, _⟩ := exists_mergeSplit has (min_le_right q (leaves.length + (packages cur).length))
  have hp2 : 2 * p ≤ cur.length := by
    rw [packages_length] at hp
    omega
  rw [tally_perm hperm, tally_perm hperm, tally_append, tally_append, tally_take_packages k hp2,
    tally_take_packages j hp2]
  exact Nat.add_le_add (hl a) (hc (2 * p))

theorem Leads.packageRounds {j k : Nat} {leaves cur : List Item} (n : Nat) (has : Ascending leaves)
    (hl : Leads j k leaves) (hc : Leads j k cur) : Leads j k (packageRounds leaves n cur) := by
  induction n generalizing cur with
  | zero => exact hc
  | succ n ih => exact ih (hl.round has hc)

/-! ## The lengths -/

/-- Of two symbols of equal frequency the smaller never has the shorter length (R203). -/
theorem buildLengths_ties {freq : List Nat} {cap j k f lj lk : Nat} (h2 : 2 ≤ present freq) (hjk : j < k)
    (hj : freq[j]? = some f) (hk : freq[k]? = some f) (hlj : (buildLengths freq cap)[j]? = some lj)
    (hlk : (buildLengths freq cap)[k]? = some lk) : lk ≤ lj := by
  have hl := leavesOf_sortItems freq
  have hlead : Leads j k (sortItems (presentFrom 0 freq)) :=
    hl.leads (sortItems_tiesOrdered (presentFrom_symsBelow 0 freq)) hjk (by rw [hj, hk])
  rw [buildLengths_of_two h2, occurrences_get _ (List.getElem?_eq_some_iff.1 hj).1] at hlj
  rw [buildLengths_of_two h2, occurrences_get _ (List.getElem?_eq_some_iff.1 hk).1] at hlk
  obtain rfl := Option.some.inj hlj
  obtain rfl := Option.some.inj hlk
  exact hlead.packageRounds (cap - 1) hl.ascending hlead _

/-- A lone symbol gets one bit (R202). -/
theorem buildLengths_lone {freq : List Nat} (h : present freq = 1) (cap : Nat) :
    ∀ l ∈ buildLengths freq cap, l ≤ 1 := by
  obtain ⟨x, hx⟩ := List.length_eq_one_iff.1 ((leaves_length freq).trans h)
  obtain ⟨s, rfl⟩ := (leavesOf_sortItems freq).single x (hx ▸ List.mem_singleton_self x)
  have heq : buildLengths freq cap = occurrences freq.length [s] := by
    unfold buildLengths
    rw [hx]
  rw [heq]
  intro l hl
  obtain ⟨t, _, rfl⟩ := List.mem_map.1 hl
  exact List.count_le_length

theorem coreLengths_lone (c : Config.Params) {freq : List Nat} (h : present freq = 1) (cap : Nat) :
    ∀ l ∈ coreLengths c freq cap, l ≤ 1 := by
  unfold coreLengths
  split
  · exact buildLengths_lone h cap
  · dsimp only
    split
    · rename_i hok
      simp only [lengthsOk, h, Nat.reduceLeDiff, if_false, Bool.and_eq_true, List.all_eq_true, decide_eq_true_eq] at hok
      obtain ⟨⟨_, hall⟩, _⟩ := hok
      exact hall
    · exact buildLengths_lone h cap

/-! ## HUF.BUILD -/

/-- HUF.BUILD, when it completes, has written the core's lengths. -/
theorem exec_hufBuild_lens {a : Nat} {x : Alphabet} {s t : State} (ha : Alphabet.ofOperand a = some x)
    (h : exec (.hufBuild a) s = .next t) : t.lens x = coreLengths s.cfg (s.freqs x) (x.maxBits s.cfg) := by
  obtain ⟨_, h⟩ := unlessPending_eq h nofun
  rw [onAlphabet_some ha] at h
  rw [complete_eq_next (needs_eq h nofun)]
  exact lens_setLens ..

/-- Settles O27: the Kraft sum of package-merge and the lead that its rounds keep. -/
theorem buildSaturatesKraft : Obligations.BuildSaturatesKraft := by
  intro s t a x ha h h2 hle
  have hcap : 1 ≤ x.maxBits s.cfg := Nat.one_le_iff_ne_zero.2 fun h0 => by
    rw [h0, pow_zero] at hle
    omega
  rw [exec_hufBuild_lens ha h]
  refine ⟨kraft_coreLengths s.cfg hcap h2 hle, fun j k f lj lk hbuilder hjk hj hk hlj hlk => ?_⟩
  rw [coreLengths, hbuilder] at hlj hlk
  exact buildLengths_ties h2 hjk hj hk hlj hlk

/-- Settles O26: whatever the construction, the core's lengths cover the present symbols. -/
theorem buildCoversPresentSymbols : Obligations.BuildCoversPresentSymbols := by
  intro s hc he
  refine ⟨fun a x ha hf _ => ⟨_, exec_hufBuild ha he hf, ?_, fun h1 => coreLengths_lone s.cfg h1 _⟩, ?_⟩
  · exact coreLengths_covers s.cfg _ (caps_range hc x).1
  · exact (unlessPending_ready he _).trans (onAlphabet_three _)

end Sys2Proof.Machine
end

section
/-! SUPPORT. HUF.CANON and the counting formulation (R209): the codes of one length follow one another from the first
code of that length, which the lengths below determine. The properties of R207 are read off from it and from the
intervals of the codes. -/

namespace Sys2Proof.Machine

/-! ## The next code -/

/-- The code that a symbol of length `l` is given next is `c`, and no code given so far is longer than `l`. -/
def NextCode (l c : Nat) : Option (Nat × Nat) → Prop
  | none => c = 0
  | some (d, m) => m ≤ l ∧ c = (d + 1) <<< (l - m)

theorem canonAssign_cons {l c : Nat} {last : Option (Nat × Nat)} (h : NextCode l c last) (sym : Nat)
    (rest : List (Nat × Nat)) :
    canonAssign last ((sym, l) :: rest) = (sym, (c, l)) :: canonAssign (some (c, l)) rest := by
  cases last with
  | none =>
    obtain rfl : c = 0 := h
    rfl
  | some e =>
    obtain ⟨_, rfl⟩ := h
    rfl

theorem nextCode_self (c l : Nat) : NextCode l (c + 1) (some (c, l)) :=
  ⟨le_rfl, by rw [Nat.sub_self, Nat.shiftLeft_zero]⟩

/-- One bit more doubles the next code. -/
theorem NextCode.succ {l c : Nat} {last : Option (Nat × Nat)} (h : NextCode l c last) :
    NextCode (l + 1) (c * 2) last := by
  cases last with
  | none =>
    obtain rfl : c = 0 := h
    rfl
  | some e =>
    obtain ⟨hle, rfl⟩ := h
    refine ⟨by omega, ?_⟩
    rw [Nat.sub_add_comm hle, Nat.shiftLeft_succ]
    exact Nat.mul_comm ..

/-- The symbols of one length get consecutive codes; what is assigned after them finds the next code raised by their
number. -/
theorem mem_canonAssign_block {l k c : Nat} {ls : List Nat} {last : Option (Nat × Nat)} {rest : List (Nat × Nat)}
    {a : Nat × Nat × Nat} (h : NextCode l c last)
    (ha : a ∈ canonAssign last (((symsOfLen l k ls).map fun s => (s, l)) ++ rest)) :
    (∃ i, a = (k + i, (c + rankBelow ls l i, l))) ∨
      ∃ last', NextCode l (c + ls.count l) last' ∧ a ∈ canonAssign last' rest := by
  induction ls generalizing k c last with
  | nil => exact .inr ⟨last, h, ha⟩
  | cons x xs ih =>
    unfold symsOfLen at ha
    by_cases hx : x = l
    · rw [if_pos hx, List.map_cons, List.cons_append, canonAssign_cons h] at ha
      rcases List.mem_cons.1 ha with rfl | ha
      · exact .inl ⟨0, rfl⟩
      · rcases ih (nextCode_self c l) ha with ⟨i, rfl⟩ | ⟨last', hnext, ha⟩
        · refine .inl ⟨i + 1, ?_⟩
          rw [rankBelow, rankBelow, List.take_succ_cons, hx, List.count_cons_self, Nat.add_right_comm k,
            Nat.add_right_comm c]
          rfl
        · refine .inr ⟨last', ?_, ha⟩
          rwa [hx, List.count_cons_self, ← Nat.add_assoc, Nat.add_right_comm]
    · rw [if_neg hx] at ha
      rcases ih h ha with ⟨i, rfl⟩ | ⟨last', hnext, ha⟩
      · refine .inl ⟨i + 1, ?_⟩
        rw [rankBelow, rankBelow, List.take_succ_cons, List.count_cons_of_ne hx, Nat.add_right_comm k]
        rfl
      · exact .inr ⟨last', by rwa [List.count_cons_of_ne hx], ha⟩

/-- Along the lengths from `l + 1` on every symbol gets the first code of its length raised by its rank. -/
theorem mem_canonAssign_lengths {l n : Nat} {ls : List Nat} {last : Option (Nat × Nat)} {a : Nat × Nat × Nat}
    (h : NextCode (l + 1) (firstCode ls (l + 1)) last)
    (ha : a ∈ canonAssign last
      ((List.range' l n).flatMap fun k => (symsOfLen (k + 1) 0 ls).map fun s => (s, k + 1))) :
    a.2.1 = firstCode ls a.2.2 + rankBelow ls a.2.2 a.1 := by
  induction n generalizing l last with
  | zero => cases ha
  | succ n ih =>
    rw [List.range'_succ, List.flatMap_cons] at ha
    rcases mem_canonAssign_block h ha with ⟨i, rfl⟩ | ⟨last', hnext, ha⟩
    · rw [Nat.zero_add]
    · exact ih hnext.succ ha

/-- The canonical codes by counting (R209). -/
theorem canonCodes_get {ls : List Nat} {sym l : Nat} (h15 : ∀ m ∈ ls, m ≤ 15) (h : ls[sym]? = some l) :
    (canonCodes ls)[sym]? =
      some (if l = 0 then none else some (firstCode ls l + rankBelow ls l sym, l)) := by
  have hlen : sym < (canonCodes ls).length := (canonCodes_length ls).symm ▸ (List.getElem?_eq_some_iff.1 h).1
  rcases Nat.eq_zero_or_pos l with rfl | hl
  · rw [if_pos rfl]
    cases he : (canonCodes ls)[sym] with
    | none => exact List.getElem?_eq_some_iff.2 ⟨hlen, he⟩
    | some e =>
      obtain ⟨hget, h1⟩ := canonCodes_length_get (c := e.1) (l := e.2) (List.getElem?_eq_some_iff.2 ⟨hlen, he⟩)
      have hzero : 0 = e.2 := Option.some.inj (h.symm.trans hget)
      omega
  · rw [if_neg hl.ne']
    obtain ⟨c, m, hcode⟩ := hasCode_canonCodes h hl (h15 l (List.mem_of_getElem? h))
    obtain rfl : l = m := Option.some.inj (h.symm.trans (canonCodes_length_get hcode).1)
    have hmem := canonCodes_mem hcode
    rw [canonOrder, List.range_eq_range'] at hmem
    obtain rfl : c = firstCode ls l + rankBelow ls l sym := mem_canonAssign_lengths (l := 0) (last := none) rfl hmem
    exact hcode

/-- A code of the array, by counting. -/
theorem code_eq_counting {ls : List Nat} {sym c l : Nat} (h15 : ∀ m ∈ ls, m ≤ 15)
    (h : (canonCodes ls)[sym]? = some (some (c, l))) :
    ls[sym]? = some l ∧ 1 ≤ l ∧ c = firstCode ls l + rankBelow ls l sym := by
  obtain ⟨hget, h1⟩ := canonCodes_length_get h
  have heq := h.symm.trans (canonCodes_get h15 hget)
  rw [if_neg (by omega)] at heq
  exact ⟨hget, h1, congrArg Prod.fst (Option.some.inj (Option.some.inj heq))⟩

/-! ## Ranks and first codes -/

theorem rankBelow_succ {ls : List Nat} {l sym m : Nat} (h : ls[sym]? = some m) :
    rankBelow ls l (sym + 1) = rankBelow ls l sym + if m = l then 1 else 0 := by
  rw [rankBelow, List.take_add_one, h, List.count_append, rankBelow]
  simp [List.count_singleton]

theorem rankBelow_lt_count {ls : List Nat} {l sym : Nat} (h : ls[sym]? = some l) : rankBelow ls l sym < ls.count l := by
  have hle : rankBelow ls l (sym + 1) ≤ ls.count l := (List.take_sublist _ _).count_le l
  rw [rankBelow_succ h, if_pos rfl] at hle
  exact hle

/-- Between two symbols of a length with none of that length between them the rank goes up by one. -/
theorem rankBelow_next {ls : List Nat} {l j k : Nat} (hjk : j < k) (hk : k < ls.length) (hj : ls[j]? = some l)
    (hbetween : ∀ m, j < m → m < k → ls[m]? ≠ some l) : rankBelow ls l k = rankBelow ls l j + 1 := by
  induction k, hjk using Nat.le_induction with
  | base => rw [Nat.succ_eq_add_one, rankBelow_succ hj, if_pos rfl]
  | succ k hjk ih =>
    have hget := List.getElem?_eq_getElem (Nat.lt_of_succ_lt hk)
    have hne : ls[k] ≠ l := fun heq => hbetween k hjk (Nat.lt_succ_self k) (heq ▸ hget)
    rw [rankBelow_succ hget, if_neg hne]
    exact ih (Nat.lt_of_succ_lt hk) fun m h1 h2 => hbetween m h1 (Nat.lt_succ_of_lt h2)

theorem firstCode_succ (ls : List Nat) {l : Nat} (h : 1 ≤ l) :
    firstCode ls (l + 1) = (firstCode ls l + ls.count l) * 2 := by
  rw [firstCode, if_neg (by omega)]

/-- The codes of a length end below the prefixes of the longer ones. -/
theorem firstCode_longer (ls : List Nat) {l m : Nat} (h1 : 1 ≤ l) (hlm : l < m) :
    (firstCode ls l + ls.count l) * 2 ^ (m - l) ≤ firstCode ls m := by
  induction m, hlm using Nat.le_induction with
  | base => rw [firstCode_succ ls h1, Nat.succ_sub le_rfl, Nat.sub_self, pow_one]
  | succ m hlm ih =>
    rw [firstCode_succ ls (by omega), Nat.sub_add_comm (Nat.le_of_succ_le hlm), pow_succ, ← Nat.mul_assoc]
    exact Nat.mul_le_mul_right 2 (ih.trans (Nat.le_add_right ..))

theorem codeWidth_self (l : Nat) : codeWidth l l = 1 := by rw [codeWidth, Nat.sub_self, pow_zero]

theorem codeWidth_succ {cap l : Nat} (h : l ≤ cap) : codeWidth (cap + 1) l = codeWidth cap l * 2 := by
  rw [codeWidth, Nat.sub_add_comm h, pow_succ, codeWidth]

theorem firstCode_nil (l : Nat) : firstCode [] l = 0 := by
  induction l with
  | zero => rfl
  | succ l ih => rw [firstCode, ih, List.count_nil, ite_self]

/-- What a symbol adds to the first code of a longer length is its width in that length's units. -/
theorem firstCode_cons (x : Nat) (xs : List Nat) (l : Nat) :
    firstCode (x :: xs) l = firstCode xs l + if 0 < x ∧ x < l then codeWidth l x else 0 := by
  induction l with
  | zero => simp [firstCode]
  | succ l ih =>
    rw [firstCode, firstCode, ih]
    rcases lt_trichotomy x l with hlt | rfl | hgt
    · rw [List.count_cons_of_ne hlt.ne, codeWidth_succ hlt.le]
      simp only [hlt, hlt.trans (Nat.lt_succ_self l), and_true]
      split <;> ring
    · rw [List.count_cons_self, codeWidth_succ le_rfl, codeWidth_self]
      simp only [lt_irrefl, and_false, if_false, Nat.lt_succ_self, and_true]
      rcases Nat.eq_zero_or_pos x with rfl | hx
      · rfl
      · rw [if_neg hx.ne', if_neg hx.ne', if_pos hx]
        ring
    · rw [List.count_cons_of_ne hgt.ne']
      simp only [hgt.not_gt, (Nat.succ_le_of_lt hgt).not_gt, and_false, if_false, Nat.add_zero]

/-- The end of the codes of the greatest length is the Kraft sum in units of that length. -/
theorem firstCode_add_count {ls : List Nat} {l : Nat} (h1 : 1 ≤ l) (hle : ∀ x ∈ ls, x ≤ l) :
    firstCode ls l + ls.count l = kraft l ls := by
  induction ls with
  | nil => exact firstCode_nil l
  | cons x xs ih =>
    obtain ⟨hx, hxs⟩ := List.forall_mem_cons.1 hle
    rw [kraft_cons, ← ih hxs, firstCode_cons]
    rcases hx.lt_or_eq with hlt | rfl
    · rw [List.count_cons_of_ne hlt.ne]
      simp only [hlt, and_true]
      ring
    · rw [List.count_cons_self, if_neg (not_and_of_not_right _ (lt_irrefl x)), if_pos (Nat.lt_of_succ_le h1),
        codeWidth_self]
      ring

/-! ## The properties of R207 -/

/-- The last symbol of a length has the greatest rank. -/
theorem exists_last_rank {ls : List Nat} {l : Nat} (h : l ∈ ls) :
    ∃ j, ls[j]? = some l ∧ rankBelow ls l j + 1 = ls.count l := by
  induction ls with
  | nil => cases h
  | cons x xs ih =>
    by_cases hxs : l ∈ xs
    · obtain ⟨j, hj, hrank⟩ := ih hxs
      refine ⟨j + 1, hj, ?_⟩
      rw [rankBelow, List.take_succ_cons, List.count_cons, List.count_cons, ← hrank, rankBelow]
      exact Nat.add_right_comm ..
    · obtain rfl : l = x := (List.mem_cons.1 h).resolve_right hxs
      exact ⟨0, rfl, by rw [List.count_cons_self, List.count_eq_zero.2 hxs]; rfl⟩

theorem kraft_of_absent {cap : Nat} {ls : List Nat} (h : ∀ l ∈ ls, l = 0) : kraft cap ls = 0 := by
  have hnone : ls.filter (fun l => 0 < l) = [] := List.filter_eq_nil_iff.2 fun l hl => by simp [h l hl]
  rw [kraft, hnone]
  rfl

/-- With Kraft sum 1 the last symbol of the greatest length has the code of ones only. -/
theorem exists_code_ones {cap : Nat} {ls : List Nat} (hcap : cap ≤ 15) (hle : ∀ l ∈ ls, l ≤ cap)
    (hk : kraft cap ls = 2 ^ cap) :
    ∃ j l : Nat, (canonCodes ls)[j]? = some (some (2 ^ l - 1, l)) ∧ ∀ m ∈ ls, m ≤ l := by
  have hpresent : ¬ ∀ l ∈ ls, l = 0 := fun h => by
    rw [kraft_of_absent h] at hk
    exact (Nat.two_pow_pos cap).ne hk
  push Not at hpresent
  obtain ⟨p, hp, hp0⟩ := hpresent
  obtain ⟨l, hl, hmax⟩ := ls.toFinset.exists_max_image id ⟨p, List.mem_toFinset.2 hp⟩
  rw [List.mem_toFinset] at hl
  have hmax : ∀ m ∈ ls, m ≤ l := fun m hm => hmax m (List.mem_toFinset.2 hm)
  have h1 : 1 ≤ l := (Nat.one_le_iff_ne_zero.2 hp0).trans (hmax p hp)
  -- in units of the greatest length the Kraft sum is where the codes of that length end
  have hend : firstCode ls l + ls.count l = 2 ^ l := by
    rw [firstCode_add_count h1 hmax]
    refine Nat.eq_of_mul_eq_mul_left (Nat.two_pow_pos (cap - l)) ?_
    rw [← kraft_shift (hle l hl) hmax, hk, ← pow_add, Nat.sub_add_cancel (hle l hl)]
  obtain ⟨j, hj, hrank⟩ := exists_last_rank hl
  refine ⟨j, l, ?_, hmax⟩
  rw [canonCodes_get (fun m hm => (hle m hm).trans hcap) hj, if_neg (by omega)]
  congr 3
  omega

/-- Codes of one length are consecutive in symbol order. -/
theorem codes_consecutive {ls : List Nat} {j k c d l : Nat} (h15 : ∀ m ∈ ls, m ≤ 15) (hjk : j < k)
    (hj : (canonCodes ls)[j]? = some (some (c, l))) (hk : (canonCodes ls)[k]? = some (some (d, l)))
    (hbetween : ∀ m, j < m → m < k → ls[m]? ≠ some l) : d = c + 1 := by
  obtain ⟨hgetj, _, rfl⟩ := code_eq_counting h15 hj
  obtain ⟨hgetk, _, rfl⟩ := code_eq_counting h15 hk
  rw [rankBelow_next hjk (List.getElem?_eq_some_iff.1 hgetk).1 hgetj hbetween]
  rfl

/-- A shorter code precedes the prefixes of longer ones. -/
theorem code_lt_prefix {ls : List Nat} {j k c d l m : Nat} (h15 : ∀ n ∈ ls, n ≤ 15)
    (hj : (canonCodes ls)[j]? = some (some (c, l))) (hk : (canonCodes ls)[k]? = some (some (d, m))) (hlm : l < m) :
    c < d / 2 ^ (m - l) := by
  obtain ⟨hgetj, h1, rfl⟩ := code_eq_counting h15 hj
  obtain ⟨_, _, rfl⟩ := code_eq_counting h15 hk
  have hrank := rankBelow_lt_count hgetj
  refine (Nat.le_div_iff_mul_le (Nat.two_pow_pos _)).2 ?_
  calc (firstCode ls l + rankBelow ls l j).succ * 2 ^ (m - l)
      ≤ (firstCode ls l + ls.count l) * 2 ^ (m - l) := Nat.mul_le_mul_right _ (by omega)
    _ ≤ firstCode ls m := firstCode_longer ls h1 hlm
    _ ≤ firstCode ls m + rankBelow ls m k := Nat.le_add_right ..

/-! ## HUF.CANON -/

/-- HUF.CANON, when it completes, has written the canonical codes. -/
theorem exec_hufCanon_codes {a : Nat} {x : Alphabet} {s t : State} (ha : Alphabet.ofOperand a = some x)
    (h : exec (.hufCanon a) s = .next t) : t.codes x = canonCodes (s.lens x) := by
  obtain ⟨_, h⟩ := unlessPending_eq h nofun
  rw [onAlphabet_some ha] at h
  rw [complete_eq_next (needs_eq h nofun)]
  exact codes_setCodes ..

/-- Settles O28: along the canonical order the next code of a length is its first code raised by the symbols before. -/
theorem canonCountsCodes : Obligations.CanonCountsCodes := by
  intro s he
  refine ⟨fun a x ha hf h15 => ⟨_, exec_hufCanon ha he hf, canonCodes_length _, fun _ _ h => canonCodes_get h15 h⟩, ?_⟩
  exact (unlessPending_ready he _).trans (onAlphabet_three _)

/-- Settles O29: order and last code by counting; by their intervals the codes fit, and none begins another. -/
theorem canonCodesArePrefixFree : Obligations.CanonCodesArePrefixFree := by
  intro s t a x hc ha h hle hkraft
  rw [exec_hufCanon_codes ha h]
  have hok : KraftOk (x.maxBits s.cfg) (s.lens x) := ⟨hle, hkraft⟩
  have h15 : ∀ l ∈ s.lens x, l ≤ 15 := fun l hl => (hle l hl).trans (caps_range hc x).2
  refine ⟨fun j c l hj => ⟨hok.code_lt hj, hle l (canonCodes_length_mem hj).1⟩, ?_, ?_, ?_, ?_⟩
  · exact fun j k c d l hjk hj hk hbetween => codes_consecutive h15 hjk hj hk hbetween
  · exact fun j k c d l m hj hk hlm => code_lt_prefix h15 hj hk hlm
  · exact fun j k c d l m hne hj hk hlm => (hok.prefixFree hne hj hk hlm).symm
  · exact fun hone => exists_code_ones (caps_range hc x).2 hle hone

end Sys2Proof.Machine
end

section
/-! SUPPORT. SYM.DEC: the first length at which the bits read are a code (R210), and for canonical codes the symbol
whose code is next in the stream (R211). -/

namespace Sys2Proof.Machine

/-! ## Finding a code -/

theorem findCode_eq_none {codes : CodeArray} {c l : Nat} :
    findCode codes c l = none ↔ ∀ q : Nat, codes[q]? ≠ some (some (c, l)) := by
  rw [findCode, List.findIdx?_eq_none_iff]
  constructor
  · exact fun h q hq => of_decide_eq_false (h _ (List.mem_of_getElem? hq)) rfl
  · refine fun h e he => decide_eq_false fun heq => ?_
    obtain ⟨q, hq⟩ := List.mem_iff_getElem?.1 he
    exact h q (heq ▸ hq)

/-- The symbol found is the first with that code. -/
theorem findCode_eq_some {codes : CodeArray} {c l sym : Nat} :
    findCode codes c l = some sym ↔
      codes[sym]? = some (some (c, l)) ∧ ∀ q : Nat, q < sym → codes[q]? ≠ some (some (c, l)) := by
  rw [findCode, List.findIdx?_eq_some_iff_getElem]
  constructor
  · rintro ⟨hlt, hsym, hbefore⟩
    refine ⟨List.getElem?_eq_some_iff.2 ⟨hlt, of_decide_eq_true hsym⟩, fun q hq hget => ?_⟩
    exact hbefore q hq (decide_eq_true (List.getElem?_eq_some_iff.1 hget).2)
  · rintro ⟨hsym, hbefore⟩
    obtain ⟨hlt, hget⟩ := List.getElem?_eq_some_iff.1 hsym
    refine ⟨hlt, decide_eq_true hget, fun q hq hfound => hbefore q hq ?_⟩
    exact List.getElem?_eq_some_iff.2 ⟨hq.trans hlt, of_decide_eq_true hfound⟩

/-! ## SYM.DEC -/

theorem exec_symDec {a : Nat} {x : Alphabet} {s : State} (ha : Alphabet.ofOperand a = some x) (he : s.err = none)
    (hf : s.filled.has x.codeBuffer = true) : exec (.symDec a) s = (symDec x s).outcome .symbol := by
  change execSymDec a s = _
  rw [execSymDec, unlessPending_ready he, onAlphabet_some ha, needs_filled (by simpa using hf)]

/-- The symbol whose code the next `l` bits are. -/
def codeAt (x : Alphabet) (s : State) (l : Nat) : Option Nat := findCode (s.codes x) (codeValue (s.unread.take l)) l

/-- SYM.DEC after `l` bits, its accumulator holding them. -/
def readCode (s : State) (l : Nat) : State :=
  { s with bitPos := s.bitPos + l, acc := codeValue (s.unread.take l), accLen := l }

/-- The loop of SYM.DEC begins with no bits read (R210). -/
theorem symDec_cases (x : Alphabet) (s : State) :
    (∃ sym l, 1 ≤ l ∧ l ≤ min s.cfg.decodeMaxbits s.unread.length ∧ codeAt x s l = some sym ∧
      (∀ m, 1 ≤ m → m < l → codeAt x s m = none) ∧ symDec x s = .ok sym (readCode s l)) ∨
    ((∀ m, 1 ≤ m → m ≤ min s.cfg.decodeMaxbits s.unread.length → codeAt x s m = none) ∧
      ((s.cfg.decodeMaxbits ≤ s.unread.length ∧
        symDec x s = .raised (takeFault .noCodeMatch (codeValue (s.unread.take s.cfg.decodeMaxbits))
          (readCode s s.cfg.decodeMaxbits))) ∨
      (s.unread.length < s.cfg.decodeMaxbits ∧ ∃ v k,
        symDec x s = .raised (takeFault .endOfSource 0
          { s with bitPos := s.bitPos + s.unread.length, acc := v, accLen := k })))) := by
  have h := symDecLoop_cases (s.codes x) s.cfg.decodeMaxbits { s with acc := 0, accLen := 0 }
  simp only [Nat.zero_add, ← codeValue_eq] at h
  rcases h with ⟨sym, l, h1, hmax, hlen, hfound, hbefore, heq⟩ | h
  · exact .inl ⟨sym, l, h1, le_min hmax hlen, hfound, hbefore, heq⟩
  · exact .inr h

/-- The first length at which the bits are a code decides. -/
theorem symDec_found {x : Alphabet} {s : State} {l sym : Nat} (h1 : 1 ≤ l) (hmax : l ≤ s.cfg.decodeMaxbits)
    (hlen : l ≤ s.unread.length) (hfound : codeAt x s l = some sym)
    (hbefore : ∀ m, 1 ≤ m → m < l → codeAt x s m = none) :
    symDec x s = .ok sym (readCode s l) := by
  rcases symDec_cases x s with ⟨sym', l', h1', _, hfound', hbefore', heq⟩ | ⟨hnone, _⟩
  · obtain rfl : l' = l := by
      rcases lt_trichotomy l' l with hlt | heq | hgt
      · exact absurd (hfound'.symm.trans (hbefore l' h1' hlt)) nofun
      · exact heq
      · exact absurd (hfound.symm.trans (hbefore' l h1 hgt)) nofun
    obtain rfl := Option.some.inj (hfound'.symm.trans hfound)
    exact heq
  · exact absurd (hfound.symm.trans (hnone l h1 (le_min hmax hlen))) nofun

/-- Settles O30: the code is the first one that its own bits are. -/
theorem symbolDecodeInvertsCode : Obligations.SymbolDecodeInvertsCode := by
  intro s t r a x sym c l ha h h15 hkraft hcode he hf hcodes hmax hbits
  rw [← codeBits_eq] at hbits
  rw [exec_hufCanon_codes ha h] at hcode hcodes
  rw [exec_symDec ha he hf, symDec_code ⟨h15, hkraft⟩ hcodes hcode hmax hbits]
  rfl

/-- Settles O31: a length matches where the bits read are the code of a symbol. -/
theorem symbolDecodeFirstMatch : Obligations.SymbolDecodeFirstMatch := by
  intro s a x ha he hf matched
  have hmatched : ∀ {l sym}, l ≤ min s.cfg.decodeMaxbits s.unread.length → codeAt x s l = some sym → matched l sym :=
    fun hl h => ⟨hl.trans (min_le_right ..), (findCode_eq_some.1 h).1⟩
  rw [exec_symDec ha he hf]
  refine ⟨fun l sym h1 hmax ⟨hlen, hsym⟩ hbefore hfirst => ?_, fun hlen hno => ?_, fun hlen hno => ?_, ?_⟩
  · have hfound : codeAt x s l = some sym := findCode_eq_some.2 ⟨hsym, fun q hq hget => hfirst q hq ⟨hlen, hget⟩⟩
    have hnone : ∀ m, 1 ≤ m → m < l → codeAt x s m = none := fun m hm hml =>
      findCode_eq_none.2 fun q hq => hbefore m q hm hml ⟨hml.le.trans hlen, hq⟩
    rw [symDec_found h1 hmax hlen hfound hnone]
    rfl
  · rcases symDec_cases x s with ⟨q, m, h1, hm, hfound, _⟩ | ⟨_, ⟨_, heq⟩ | ⟨hlt, _⟩⟩
    · exact absurd (hmatched hm hfound) (hno m q h1 (hm.trans (min_le_left ..)))
    · exact ⟨_, congrArg (Act.outcome · .symbol) heq, raised_takeFault ..⟩
    · exact absurd hlen hlt.not_ge
  · rcases symDec_cases x s with ⟨q, m, h1, hm, hfound, _⟩ | ⟨_, ⟨hle, _⟩ | ⟨_, _, _, heq⟩⟩
    · exact absurd (hmatched hm hfound) (hno m q h1)
    · exact absurd hlen hle.not_gt
    · exact ⟨_, congrArg (Act.outcome · .symbol) heq, raised_takeFault ..⟩
  · exact (unlessPending_ready he _).trans (onAlphabet_three _)

end Sys2Proof.Machine
end

section
/-! SUPPORT. The run-length operations: the run policy of R230 in closed form, and RLE.DEC as the expansion of its
pairs. A repeat copies whatever stands before it, so the pairs stand for the sequence whatever its entries are, those above 15
that a load can bring too (log 16), of which `CodesRun` does not speak. -/

namespace Sys2Proof.Machine

/-! ## The run policy -/

/-- The pairs of a remainder of fewer than 138 zeros (R230). -/
def zeroRest (m : Nat) : List ClPair :=
  if 11 ≤ m then [.z11 (m - 11)] else if 3 ≤ m then [.z3 (m - 3)] else List.replicate m (.len 0)

/-- The pairs of a remainder of fewer than 6 further entries `v` (R230). -/
def repeatRest (v m : Nat) : List ClPair := if 3 ≤ m then [.rep (m - 3)] else List.replicate m (.len v)

/-- The pairs of a run in closed form: the greatest chunks first, the remainder last (R230, D15). -/
def runPolicy (v r : Nat) : List ClPair :=
  if v = 0 then List.replicate (r / 138) (.z11 127) ++ zeroRest (r % 138)
  else .len v :: List.replicate ((r - 1) / 6) (.rep 3) ++ repeatRest v ((r - 1) % 6)

theorem zeroRun_eq {fuel r : Nat} (h : r < fuel) :
    zeroRun fuel r = List.replicate (r / 138) (.z11 127) ++ zeroRest (r % 138) := by
  induction fuel generalizing r with
  | zero => omega
  | succ fuel ih =>
    by_cases h138 : 138 ≤ r
    · rw [zeroRun, if_pos (by omega), min_eq_right h138, ih (by omega), Nat.div_eq_sub_div (by decide) h138,
        Nat.mod_eq_sub_mod h138]
      rfl
    · rw [Nat.div_eq_of_lt (by omega), Nat.mod_eq_of_lt (by omega), List.replicate_zero, List.nil_append, zeroRun,
        zeroRest]
      split
      · rw [min_eq_left (by omega), Nat.sub_self, ih (by omega)]
        rfl
      · rfl

theorem repeatRun_eq {v fuel r : Nat} (h : r < fuel) :
    repeatRun v fuel r = List.replicate (r / 6) (.rep 3) ++ repeatRest v (r % 6) := by
  induction fuel generalizing r with
  | zero => omega
  | succ fuel ih =>
    by_cases h6 : 6 ≤ r
    · rw [repeatRun, if_pos (by omega), min_eq_right h6, ih (by omega), Nat.div_eq_sub_div (by decide) h6,
        Nat.mod_eq_sub_mod h6]
      rfl
    · rw [Nat.div_eq_of_lt (by omega), Nat.mod_eq_of_lt (by omega), List.replicate_zero, List.nil_append, repeatRun,
        repeatRest]
      split
      · rw [min_eq_left (by omega), Nat.sub_self, ih (by omega)]
        rfl
      · rfl

theorem runPairs_eq_runPolicy (v r : Nat) : runPairs v r = runPolicy v r := by
  unfold runPairs runPolicy
  split
  · exact zeroRun_eq (Nat.lt_succ_self r)
  · rw [repeatRun_eq (by omega), List.cons_append]

theorem runs_cons_eq (v : Nat) (vs : List Nat) : ∃ r es, runs (v :: vs) = (v, r) :: es := by
  unfold runs
  split
  · exact ⟨_, _, rfl⟩
  · split <;> exact ⟨_, _, rfl⟩

theorem runs_cons_of_ne {v : Nat} {rest : List Nat} (h : rest.head? ≠ some v) :
    runs (v :: rest) = (v, 1) :: runs rest := by
  cases rest with
  | nil => rfl
  | cons w ws =>
    obtain ⟨r, es, hruns⟩ := runs_cons_eq w ws
    rw [runs, hruns]
    exact if_neg fun hvw => h (congrArg some hvw.symm)

/-- A maximal run at the front is the first of the runs. -/
theorem runs_replicate_append {v r : Nat} {rest : List Nat} (hr : 1 ≤ r) (hrest : rest.head? ≠ some v) :
    runs (List.replicate r v ++ rest) = (v, r) :: runs rest := by
  induction r, hr using Nat.le_induction with
  | base => exact runs_cons_of_ne hrest
  | succ r _ ih =>
    rw [List.replicate_succ, List.cons_append, runs, ih]
    exact if_pos rfl

/-- The pairs of a sequence run by run (R230). -/
theorem rlePairs_replicate_append {v r : Nat} {rest : List Nat} (hr : 1 ≤ r) (hrest : rest.head? ≠ some v) :
    rlePairs (List.replicate r v ++ rest) = runPolicy v r ++ rlePairs rest := by
  rw [rlePairs, runs_replicate_append hr hrest, List.flatMap_cons, runPairs_eq_runPolicy]
  rfl

/-! ## The sequence the pairs stand for -/

theorem expandPairs_replicate_len (v r : Nat) (before : List Nat) :
    expandPairs (List.replicate r (.len v)) before = some (before ++ List.replicate r v) := by
  induction r generalizing before with
  | zero => simp [expandPairs]
  | succ r ih => rw [List.replicate_succ, expandPairs, ih, List.append_assoc]; rfl

theorem expandPairs_repeatRun {v fuel r : Nat} (h : r < fuel) {before : List Nat} (hlast : before.getLast? = some v) :
    expandPairs (repeatRun v fuel r) before = some (before ++ List.replicate r v) := by
  induction fuel generalizing r before with
  | zero => omega
  | succ fuel ih =>
    unfold repeatRun
    split
    · have hlast' : (before ++ List.replicate (min r 6) v).getLast? = some v := by
        rw [List.getLast?_append, List.getLast?_replicate, if_neg (by omega), Option.some_or]
      simp only [expandPairs, hlast, Nat.add_sub_of_le (show 3 ≤ min r 6 by omega)]
      rw [ih (by omega) hlast', List.append_assoc, List.replicate_append_replicate,
        Nat.add_sub_of_le (min_le_left ..)]
    · exact expandPairs_replicate_len v r before

theorem expandPairs_runPairs {v r : Nat} (hr : 1 ≤ r) (before : List Nat) :
    expandPairs (runPairs v r) before = some (before ++ List.replicate r v) := by
  unfold runPairs
  split
  · rename_i h0
    rw [h0]
    exact (codesRun_zeroRun (Nat.lt_succ_self r) before).expand
  · rw [expandPairs, expandPairs_repeatRun (by omega) (by simp), List.append_assoc, List.singleton_append,
      ← List.replicate_succ, Nat.sub_add_cancel hr]

theorem expandPairs_runs {es : List (Nat × Nat)} (h : ∀ e ∈ es, 1 ≤ e.2) (before : List Nat) :
    expandPairs (es.flatMap fun e => runPairs e.1 e.2) before =
      some (before ++ es.flatMap fun e => List.replicate e.2 e.1) := by
  induction es generalizing before with
  | nil => simp [expandPairs]
  | cons e es ih =>
    obtain ⟨he, hes⟩ := List.forall_mem_cons.1 h
    rw [List.flatMap_cons, expandPairs_append, expandPairs_runPairs he, Option.bind_some, ih hes, List.append_assoc]
    rfl

/-- The pairs of RLE.ENC stand for the sequence, its entries whatever they are (R232). -/
theorem expandPairs_rlePairs (ls : List Nat) : expandPairs (rlePairs ls) [] = some ls := by
  obtain ⟨hflat, hpos⟩ := runs_entries ls
  rw [rlePairs, expandPairs_runs hpos, hflat]
  rfl

/-! ## The pairs of a run -/

/-- A pair that a run of entries `v` may hold: the literal `v`, or a repeat whose extra value is in range (R231). -/
def ClPair.OfRun (v : Nat) : ClPair → Prop
  | .len w => w = v
  | .rep x => x ≤ 3
  | .z3 x => x ≤ 7
  | .z11 x => x ≤ 127

theorem ofRun_of_mem_zeroRest {m : Nat} (hm : m < 138) {p : ClPair} (h : p ∈ zeroRest m) : p.OfRun 0 := by
  unfold zeroRest at h
  split at h
  · obtain rfl := List.mem_singleton.1 h
    exact (by omega : m - 11 ≤ 127)
  · split at h
    · obtain rfl := List.mem_singleton.1 h
      exact (by omega : m - 3 ≤ 7)
    · obtain rfl := List.eq_of_mem_replicate h
      rfl

theorem ofRun_of_mem_repeatRest {v m : Nat} (hm : m < 6) {p : ClPair} (h : p ∈ repeatRest v m) : p.OfRun v := by
  unfold repeatRest at h
  split at h
  · obtain rfl := List.mem_singleton.1 h
    exact (by omega : m - 3 ≤ 3)
  · obtain rfl := List.eq_of_mem_replicate h
    rfl

theorem ofRun_of_mem_runPolicy {v r : Nat} {p : ClPair} (h : p ∈ runPolicy v r) : p.OfRun v := by
  unfold runPolicy at h
  split at h
  · subst v
    rcases List.mem_append.1 h with h | h
    · obtain rfl := List.eq_of_mem_replicate h
      exact le_rfl
    · exact ofRun_of_mem_zeroRest (Nat.mod_lt _ (by decide)) h
  · rw [List.cons_append, List.mem_cons, List.mem_append] at h
    rcases h with rfl | h | h
    · rfl
    · obtain rfl := List.eq_of_mem_replicate h
      exact le_rfl
    · exact ofRun_of_mem_repeatRest (Nat.mod_lt _ (by decide)) h

theorem ofRun_of_mem_rlePairs {ls : List Nat} {p : ClPair} (h : p ∈ rlePairs ls) : ∃ v ∈ ls, p.OfRun v := by
  obtain ⟨e, he, hp⟩ := List.mem_flatMap.1 h
  rw [runPairs_eq_runPolicy] at hp
  exact ⟨e.1, mem_of_mem_runs he, ofRun_of_mem_runPolicy hp⟩

/-- Settles O32: the closed form run by run; a leading symbol 16 would stand for nothing. -/
theorem runLengthEncode : Obligations.RunLengthEncode := by
  intro s he hf
  have hexp := expandPairs_rlePairs s.seq
  refine ⟨rlePairs s.seq, exec_rleEnc he hf, hexp, fun x hx => ?_, fun p hp => ?_, fun hnil => by rw [hnil]; rfl,
    fun v r rest hseq hr hrest => ⟨rlePairs rest, exec_rleEnc (s := { s with seq := rest }) he hf, ?_⟩⟩
  · obtain ⟨ps, hps⟩ := List.head?_eq_some_iff.1 hx
    rw [hps] at hexp
    cases hexp
  · obtain ⟨v, hv, hof⟩ := ofRun_of_mem_rlePairs hp
    cases p with
    | len w => exact (show w = v from hof) ▸ hv
    | rep x | z3 x | z11 x => exact hof
  · rw [hseq]
    exact rlePairs_replicate_append hr hrest

/-! ## RLE.DEC -/

theorem exec_rleDec {s : State} (total : Nat) (he : s.err = none) (hf : s.filled.rle = true) :
    exec (.rleDec total) s = rleDecLoop total s.rle (setSeq [] s) := by
  change execRleDec total s = _
  rw [execRleDec, unlessPending_ready he, needs_filled (by simp [Filled.has, hf])]

theorem rleDecLoop_ok {total : Nat} {p : ClPair} {s t : State} (h : s.seq.length < total)
    (hp : rleStep total p s = .ok () t) (ps : List ClPair) : rleDecLoop total (p :: ps) s = rleDecLoop total ps t := by
  rw [rleDecLoop, if_neg h.not_ge, hp]

theorem rleDecLoop_raised {total : Nat} {p : ClPair} {s t : State} (h : s.seq.length < total)
    (hp : rleStep total p s = .raised t) (ps : List ClPair) : rleDecLoop total (p :: ps) s = .next t := by
  rw [rleDecLoop, if_neg h.not_ge, hp]

/-- A pair that carries a sequence within `total` past it is a repeat that overruns (R234). -/
theorem rleStep_overruns {total : Nat} {p : ClPair} {s : State} {ms : List Nat} (h : expandPairs [p] s.seq = some ms)
    (hs : s.seq.length < total) (hlong : total < ms.length) :
    rleStep total p s = .raised (takeFault .repeatOverrun p.sym s) := by
  rcases rleStep_cases total p s with ⟨ls, hls, hfits, _⟩ | ⟨hnone, _⟩ | ⟨_, _, _, _, h'⟩
  · cases hls.symm.trans h
    rcases hfits with ⟨v, rfl⟩ | hfits
    · cases hls
      rw [List.length_append] at hlong
      exact absurd hlong (Nat.not_lt.2 hs)
    · omega
  · cases hnone.symm.trans h
  · exact h'

/-- The fold past pairs that stay within `total` (R234): each adds an entry, so `total` is not reached
before the last. -/
theorem rleDecLoop_expand {total : Nat} {ps : List ClPair} {ls : List Nat} {s : State}
    (h : expandPairs ps s.seq = some ls) (hlen : ls.length ≤ total) (qs : List ClPair) :
    rleDecLoop total (ps ++ qs) s = rleDecLoop total qs { s with seq := ls } := by
  induction ps generalizing s with
  | nil =>
    cases h
    rfl
  | cons p ps ih =>
    rw [expandPairs_cons] at h
    obtain ⟨ms, hp, hps⟩ := Option.bind_eq_some_iff.1 h
    have hms := expandPairs_length_le hps
    have hlt := expandPairs_single_length hp
    rw [List.cons_append, rleDecLoop_ok (by omega) (rleStep_fits hp (by omega))]
    exact ih (s := { s with seq := ms }) hps

/-- Settles O33: the pairs within `total` expanded, then what the next pair or the end answers. -/
theorem runLengthDecode : Obligations.RunLengthDecode := by
  intro s total he hf
  have run {ps qs : List ClPair} {ls : List Nat} (hrle : s.rle = ps ++ qs) (hexp : expandPairs ps [] = some ls)
      (hlen : ls.length ≤ total) : exec (.rleDec total) s = rleDecLoop total qs (setSeq ls s) := by
    rw [exec_rleDec total he hf, hrle]
    exact rleDecLoop_expand (s := setSeq [] s) hexp hlen qs
  have hall := (List.append_nil s.rle).symm
  refine ⟨fun ls hexp hlen => ?_, fun x ps hrle h0 => ?_, fun ps p qs ls more hrle hexp hlen hmore hlong => ?_,
    fun ls hexp hlen => ?_, fun ps p qs ls hrle hexp hlen => ?_⟩
  · rw [run hall hexp hlen.le, rleDecLoop]
    exact if_neg hlen.ge.not_gt
  · have hrun := run (ps := []) hrle rfl (Nat.zero_le _)
    exact ⟨_, hrun.trans (rleDecLoop_raised h0 rfl ps), raised_takeFault .repeatNoPrevious 16 (setSeq [] s)⟩
  · have hstep := rleStep_overruns (s := setSeq ls s) hmore hlen hlong
    exact ⟨_, (run hrle hexp hlen.le).trans (rleDecLoop_raised hlen hstep qs),
      raised_takeFault .repeatOverrun p.sym (setSeq ls s)⟩
  · rw [run hall hexp hlen.le, rleDecLoop]
    exact if_pos hlen
  · rw [run hrle hexp hlen.le, rleDecLoop]
    exact if_pos hlen.ge

/-- Settles O34: the pairs of RLE.ENC stand for the sequence, and RLE.DEC expands pairs that stand for its total. -/
theorem runLengthRoundTrip : Obligations.RunLengthRoundTrip := by
  intro s he hf _
  obtain ⟨hexpands, _⟩ := runLengthDecode (rleEnc s).finished s.seq.length he rfl
  have hdec := hexpands s.seq (expandPairs_rlePairs s.seq) rfl
  exact ⟨_, _, exec_rleEnc he hf, hdec, he, rfl⟩

end Sys2Proof.Machine
end

section
/-! SUPPORT. HDR.READ inverts HDR.WRITE (R247): the header HDR.BUILD built is one a stream can hold, so its bits are
read back, and the sequence splits into the two arrays as they were trimmed. -/

namespace Sys2Proof.Machine

/-- HDR.BUILD on full arrays of lengths up to 15 answers the header it builds. -/
theorem exec_hdrBuild_next {s t : State} (hc : s.cfg.Ok) (hlit : s.litLen.length = s.cfg.nlit)
    (hdist : s.distLen.length = s.cfg.ndist) (hlit15 : ∀ l ∈ s.litLen, l ≤ 15) (hdist15 : ∀ l ∈ s.distLen, l ≤ 15)
    (h : exec .hdrBuild s = .next t) : ∃ b, hdrBuild s = .ok () b ∧ t = b.finished := by
  obtain ⟨_, hrun⟩ := unlessPending_eq h nofun
  have hout := needs_eq hrun nofun
  obtain ⟨b, hb, _⟩ := hdrBuild_completes hc hlit hdist hlit15 hdist15
  rw [hb] at hout
  exact ⟨b, hb, (Host.Outcome.next.inj hout).symm⟩

/-- The built sequence splits into the two trimmed arrays (R236). -/
theorem Built.split_seq {s t : State} (h : Built s t) (hlit : t.hlit + 257 ≤ s.litLen.length) :
    t.seq.take (t.hlit + 257) = s.litLen.take (t.hlit + 257) ∧
      t.seq.drop (t.hlit + 257) = s.distLen.take (t.hdist + 1) := by
  have hlen : (s.litLen.take (t.hlit + 257)).length = t.hlit + 257 := List.length_take_of_le hlit
  rw [h.seq]
  exact ⟨List.take_left' hlen, List.drop_left' hlen⟩

theorem canonCodes_take_get {ls : List Nat} {n k : Nat} (hz : ∀ l ∈ ls.drop n, l = 0) (hk : k < n) :
    (canonCodes (ls.take n))[k]? = (canonCodes ls)[k]? := by
  rw [canonCodes_take hz, List.getElem?_take_of_lt hk]

/-- Settles O38: the built header read from its bits; what was trimmed is 0, which changes no code. -/
theorem headerReadInvertsWrite : Obligations.HeaderReadInvertsWrite := by
  intro s t r hc hcfg hexec hlit hdist hlit15 hdist15 he hbits
  obtain ⟨b, hb, rfl⟩ := exec_hdrBuild_next hc hlit hdist hlit15 hdist15 hexec
  have hbuilt := built_of_hdrBuild hlit.ge hdist.ge hb
  have hheld := headerHeld_of_hdrBuild hc hlit hdist hlit15 hdist15 hb
  obtain ⟨hlitZero, hdistZero⟩ := sizes_leave_zeros hlit hdist
  rw [← hbuilt.hlit] at hlitZero
  rw [← hbuilt.hdist] at hdistZero
  have hsize : b.hlit + 257 ≤ s.litLen.length := by
    have := sizeLit_le s hc.symbols.1
    rw [hlit, hc.symbols.1, hbuilt.hlit]
    omega
  obtain ⟨htake, hdrop⟩ := hbuilt.split_seq hsize
  rw [← List.length_drop, headerBits_drop]
  rw [headerBits_drop] at hbits
  obtain ⟨a, n, hread⟩ := hdrRead_held hheld (hbuilt.cfg.trans hcfg.symm) hbits
  rw [htake, hdrop] at hread
  have hrun : exec .hdrRead r = (hdrRead r).outcome fun _ => .none := unlessPending_ready he _
  rw [hread] at hrun
  refine ⟨_, hrun, ?_, fun k => canonCodes_take_get hlitZero, fun k => canonCodes_take_get hdistZero⟩
  unfold pairsRead fieldsRead
  rfl

end Sys2Proof.Machine
end

section
/-! SUPPORT. A stream of chunks read back (R283): each block stands in the stream after those before it, and STRM.DEC
goes on from one to the next until the final one. -/

namespace Sys2Proof.Machine

/-! ## The chunks on the wire -/

/-- `t` is `s` after encoding that appended `bits` to what was written and left the decoder alone. -/
structure Encoded (bits : List Bool) (s t : State) : Prop where
  bits    : t.written = s.written ++ bits
  writer  : WriterOk t
  cfg     : t.cfg = s.cfg
  err     : t.err = s.err
  place   : t.dstate = s.dstate ∧ t.place = s.place
  decoded : t.decoded = s.decoded
  bitPos  : t.bitPos = s.bitPos

theorem Encoded.trans {bits more : List Bool} {s t u : State} (h : Encoded bits s t) (h' : Encoded more t u) :
    Encoded (bits ++ more) s u where
  bits    := by rw [h'.bits, h.bits, List.append_assoc]
  writer  := h'.writer
  cfg     := h'.cfg.trans h.cfg
  err     := h'.err.trans h.err
  place   := ⟨h'.place.1.trans h.place.1, h'.place.2.trans h.place.2⟩
  decoded := h'.decoded.trans h.decoded
  bitPos  := h'.bitPos.trans h.bitPos

/-- Where the chunk was placed before the block does not matter to what the block appended. -/
theorem BlockWritten.encoded {n : Nat} {final : Bool} {s b t : State} {data : List Byte}
    (h : BlockWritten n final { s with data := data } b t) : Encoded (blockBits b) s t :=
  ⟨h.bits, h.writer, h.cfg.2, h.err, h.place, h.decoded, h.bitPos⟩

/-- Wherever a decoder with these parameters has `bits` next, it reads them as a whole stream that stands for `bytes`
(R282). -/
def ReadsAsStream (c : Config.Params) (bits : List Bool) (bytes : List Byte) : Prop :=
  ∀ r : State, r.cfg = c → bits <+: r.unread →
    ∃ q, strmDec r.bitsLeft r = .ok () q ∧ q.dstate = .done ∧ q.err = r.err ∧ q.decoded = r.decoded ++ bytes

/-- The source, the cursor and the bit order say what is next in the stream. -/
theorem unread_congr {s r : State} (hsource : r.source = s.source) (hcfg : r.cfg = s.cfg) (hpos : r.bitPos = s.bitPos) :
    r.unread = s.unread := by
  rw [State.unread, State.sourceBits, hsource, hcfg, hpos, State.unread, State.sourceBits]

theorem BlockRead.unread {t r q : State} {bytes : List Byte} {more : List Bool} (h : BlockRead t r bytes q)
    (hbits : blockBits t ++ more <+: r.unread) : more <+: q.unread := by
  obtain ⟨hsource, hcfg⟩ := h.host
  have hq : q.unread = r.unread.drop (blockBits t).length :=
    (unread_congr (s := { r with bitPos := r.bitPos + (blockBits t).length }) hsource hcfg h.bitPos).trans
      (unread_advance ..)
  obtain ⟨rest, hrest⟩ := hbits
  exact ⟨rest, by rw [hq, ← hrest, List.append_assoc, List.drop_left]⟩

section
variable {n : Nat} {s b t : State}

/-- BLK.DEC reads the block of BLK.ENC back, wherever it stands. -/
theorem BlockWritten.blkDec {final : Bool} {r : State} (h : BlockWritten n final s b t) (hcfg : r.cfg = s.cfg)
    (hbits : blockBits b <+: r.unread) : ∃ q, blkDec r = .ok () q ∧ BlockRead b r (s.data.take n) q :=
  blkDec_held h.held (h.cfg.1.trans hcfg.symm) h.covers h.expands hbits

/-- The final block ends the stream (R279, R280). -/
theorem BlockWritten.final_readsAsStream (h : BlockWritten n true s b t) :
    ReadsAsStream s.cfg (blockBits b) (s.data.take n) := by
  intro r hcfg hbits
  obtain ⟨q, hdec, hq⟩ := h.blkDec hcfg hbits
  have hdone : q.dstate = .done := by rw [hq.dstate, h.bfinal]; rfl
  refine ⟨q, ?_, hdone, hq.err, hq.decoded⟩
  rw [strmDec_eq, hdec, Act.bind_ok, if_neg (by rw [hdone]; nofun)]

/-- After any other block the stream goes on (R282). -/
theorem BlockWritten.readsAsStream_append {more : List Bool} {bytes : List Byte} (h : BlockWritten n false s b t)
    (hmore : ReadsAsStream s.cfg more bytes) :
    ReadsAsStream s.cfg (blockBits b ++ more) (s.data.take n ++ bytes) := by
  intro r hcfg hbits
  obtain ⟨q, hdec, hq⟩ := h.blkDec hcfg ((List.prefix_append ..).trans hbits)
  have hnext : q.dstate = .expectHeader := by rw [hq.dstate, h.bfinal]; rfl
  obtain ⟨u, hstrm, hdone, herr, hdecoded⟩ := hmore q (hq.host.2.trans hcfg) (hq.unread hbits)
  refine ⟨u, ?_, hdone, herr.trans hq.err, ?_⟩
  · rw [strmDec_eq, hdec, Act.bind_ok, if_pos hnext, hstrm]
  · rw [hdecoded, hq.decoded, List.append_assoc]

end

theorem encodeChunks_cons {c : List Byte} {cs : List (List Byte)} {s t : State}
    (h : exec (.blkEnc c.length cs.isEmpty) { s with data := c } = .next t) :
    encodeChunks (c :: cs) s = encodeChunks cs t := by
  rw [encodeChunks, h]

/-- The chunks encoded in order are appended as a stream that stands for their concatenation (R343, R344). -/
theorem encodeChunks_written {chunks : List (List Byte)} {s : State} (hne : chunks ≠ []) (hc : s.cfg.Ok)
    (he : s.err = none) (hw : WriterOk s) (hlen : ∀ c ∈ chunks, c.length ≤ s.cfg.chunkMax) :
    ∃ t bits, encodeChunks chunks s = .next t ∧ Encoded bits s t ∧ ReadsAsStream s.cfg bits chunks.flatten := by
  induction chunks generalizing s with
  | nil => exact absurd rfl hne
  | cons c cs ih =>
    obtain ⟨b, t, henc, ht⟩ := exec_blkEnc_written cs.isEmpty (s := { s with data := c }) hc he hw
      (hlen c List.mem_cons_self) le_rfl
    have htake : c.take c.length = c := List.take_length
    rw [encodeChunks_cons henc]
    cases cs with
    | nil =>
      have hread := ht.final_readsAsStream
      rw [htake] at hread
      exact ⟨t, _, rfl, ht.encoded, by simpa using hread⟩
    | cons c' cs =>
      have hcfg : t.cfg = s.cfg := ht.cfg.2
      obtain ⟨u, bits, hrest, hu, hread⟩ := ih nofun (hcfg ▸ hc) (ht.err.trans he) ht.writer
        fun d hd => hcfg ▸ hlen d (List.mem_cons_of_mem c hd)
      rw [hcfg] at hread
      have happ := ht.readsAsStream_append hread
      rw [htake] at happ
      exact ⟨u, _, hrest, ht.encoded.trans hu, happ⟩

/-- Settles O49: the chunks' stream stands at the cursor of the reader, by induction over the chunks; each block leads
the reader to the next, the final one to `Done`. -/
theorem streamRoundTrip : Obligations.StreamRoundTrip := by
  intro s₀ s chunks hc hreset hne hlen
  obtain rfl : coreReset s₀ = s := Host.Outcome.next.inj hreset
  obtain ⟨t, bits, henc, ht, hread⟩ := encodeChunks_written (s := coreReset s₀) hne hc rfl (coreReset_writerOk s₀) hlen
  obtain ⟨hcfg, herr, hdstate, hplace, hdecoded, _⟩ := closed_frame t
  have hstream : t.written = bits := ht.bits
  obtain ⟨q, hdec, hdone, hqerr, hqdecoded⟩ := hread (closed t) (hcfg.trans ht.cfg)
    (hstream ▸ unread_closed ht.writer ht.bitPos)
  have hready : (closed t).err = none := herr.trans ht.err
  have hexec : exec .strmDec (closed t) = .next q.finished := by
    rw [execStrmDec_ready hready (hdstate.trans ht.place.1) (hplace.trans ht.place.2), hdec]
    rfl
  refine ⟨t, (flush t).finished, q.finished, henc, exec_strmClose ht.err, hexec, hdone, hqerr.trans hready, ?_⟩
  refine hqdecoded.trans ?_
  rw [hdecoded, ht.decoded]
  rfl

end Sys2Proof.Machine
end

section
/-! SUPPORT. The guards of the decode operations (R272, R314): a pending error is refused first, then every control
state but `ExpectHeader`. -/

namespace Sys2Proof.Machine

theorem exec_decode_guarded {i : Instr} (hi : i ∈ [Instr.blkDec, .strmDec]) (s : State) :
    ∃ k, exec i s = unlessPending s (atBlockStart s k) := by
  rcases List.mem_pair.1 hi with rfl | rfl
  · exact ⟨_, rfl⟩
  · exact ⟨_, rfl⟩

theorem atBlockStart_done {s : State} (h : s.dstate = .done) (k : Out) :
    atBlockStart s k = .refused .streamDone := by rw [atBlockStart, h]

theorem atBlockStart_stored {s : State} (h : s.dstate = .stored) (k : Out) :
    atBlockStart s k = .refused .storedHandoff := by rw [atBlockStart, h]

theorem atBlockStart_dynamic {s : State} (h : s.dstate = .dynamicHuffman) (k : Out) :
    atBlockStart s k = .refused .blockInProgress := by rw [atBlockStart, h]

/-- Inside a dynamic block no error is pending: one rests in `Failed` or in `Stored` (R312). -/
theorem Inv.err_of_dynamic {s : State} (h : Inv s) (hd : s.dstate = .dynamicHuffman) : s.err = none := by
  by_contra hne
  rcases h.pending (Option.isSome_iff_ne_none.2 hne) with hs | hs <;> rw [hd] at hs <;> cases hs

/-- Settles O43, one guard after the other; the invariant ties `Failed` to the error and keeps errors out of a block. -/
theorem decodeGuards : Obligations.DecodeGuards := by
  intro i s hi hinv
  obtain ⟨k, hk⟩ := exec_decode_guarded hi s
  rw [hk]
  refine ⟨fun he hd => ?_, fun he hd => ?_, fun hp => ?_, fun hd => ?_⟩
  · rw [unlessPending_ready he, atBlockStart_done hd]
  · rw [unlessPending_ready he, atBlockStart_stored hd]
  · exact unlessPending_pending (hp.elim id hinv.failed) _
  · rw [unlessPending_ready (hinv.err_of_dynamic hd), atBlockStart_dynamic hd]

end Sys2Proof.Machine
end

section
/-! SUPPORT. BLK.FREQ counts occurrences (R260): the symbols of the records are written out as two lists, and a
frequency is how often its symbol stands there. What R261 says of sums and bounds is said of the lengths of these
lists. -/

namespace Sys2Proof.Machine

/-! ## Occurrences -/

/-- Counting a symbol is listing it once more. -/
theorem bump_occurrences (n : Nat) (syms : List Nat) (sym : Nat) :
    bump (occurrences n syms) sym = occurrences n (syms ++ [sym]) := by
  refine List.ext_getElem? fun k => ?_
  rw [bump, List.getElem?_set]
  by_cases hk : k < n
  · rw [occurrences_get _ hk, occurrences_get _ hk, List.count_append, occurrences_length]
    by_cases h : sym = k
    · subst h
      rw [if_pos rfl, if_pos hk, occurrences_get _ hk, Option.getD_some, List.count_singleton_self]
    · simp [h]
  · have hnone : ∀ l, (occurrences n l)[k]? = none := fun l => List.getElem?_eq_none (by simpa using hk)
    rw [hnone, hnone]
    split
    · rename_i h
      simp [h, hk]
    · rfl

theorem foldl_bump_occurrences (n : Nat) (syms more : List Nat) :
    more.foldl bump (occurrences n syms) = occurrences n (syms ++ more) := by
  induction more generalizing syms with
  | nil => simp
  | cons sym more ih => rw [List.foldl_cons, bump_occurrences, ih, List.append_assoc, List.singleton_append]

theorem occurrences_nil (n : Nat) : occurrences n [] = List.replicate n 0 := by
  simp [occurrences, List.map_const']

/-- Every listed symbol is counted at one place. -/
theorem occurrences_sum {n : Nat} {syms : List Nat} (h : ∀ sym ∈ syms, sym < n) :
    (occurrences n syms).sum = syms.length := by
  have hsum := Multiset.sum_count_eq_card (s := Finset.range n) (m := (syms : Multiset Nat)) (by simpa using h)
  simp only [Multiset.coe_count, Multiset.coe_card] at hsum
  exact hsum

theorem occurrences_le {n f : Nat} {syms : List Nat} (h : f ∈ occurrences n syms) : f ≤ syms.length := by
  obtain ⟨_, _, rfl⟩ := List.mem_map.1 h
  exact List.count_le_length

/-! ## The symbols of a record -/

/-- The literal/length symbols of a record (R260): its length's, and its byte. -/
def MatchRecord.litSyms (c : Config.Params) (r : MatchRecord) : List Nat :=
  (if 0 < r.length then ((lenRow c r.length).map (·.sym)).toList else []) ++ if r.hasLit then [r.lit.toNat] else []

/-- The distance symbol of a match record (R260). -/
def MatchRecord.distSyms (c : Config.Params) (r : MatchRecord) : List Nat :=
  if 0 < r.length then ((distRow c r.offset).map (·.sym)).toList else []

section
variable {c : Config.Params} (hc : c.Ok) {r : MatchRecord} (hr : r.wellFormed c = true)
include hc hr

theorem countRecord_eq (fs : List Nat × List Nat) :
    countRecord c r fs = some ((r.litSyms c).foldl bump fs.1, (r.distSyms c).foldl bump fs.2) := by
  by_cases h0 : 0 < r.length
  · obtain ⟨l, d, hl, _, hd, _⟩ := wellFormed_rows hc hr h0
    cases hlit : r.hasLit <;> simp [countRecord, MatchRecord.litSyms, MatchRecord.distSyms, h0, hl, hd, hlit]
  · cases hlit : r.hasLit <;> simp [countRecord, MatchRecord.litSyms, MatchRecord.distSyms, h0, hlit]

/-- No record has the end-of-block symbol (R100). -/
theorem MatchRecord.litSyms_range : ∀ sym ∈ r.litSyms c, sym < c.nlit ∧ sym ≠ 256 := by
  have hn : c.nlit = 286 := hc.symbols.1
  intro sym hsym
  rcases List.mem_append.1 hsym with hsym | hsym
  · split at hsym
    · rename_i h0
      obtain ⟨l, _, hl, _⟩ := wellFormed_rows hc hr h0
      obtain ⟨_, h257, hlt, _⟩ := lenRow_reads hc hl
      obtain rfl : sym = l.sym := by simpa [hl] using hsym
      omega
    · cases hsym
  · split at hsym
    · obtain rfl := List.mem_singleton.1 hsym
      have := byte_le r.lit
      omega
    · cases hsym

theorem MatchRecord.distSyms_range : ∀ sym ∈ r.distSyms c, sym < c.ndist := by
  intro sym hsym
  unfold MatchRecord.distSyms at hsym
  split at hsym
  · rename_i h0
    obtain ⟨_, d, _, _, hd, hlt⟩ := wellFormed_rows hc hr h0
    obtain rfl : sym = d.sym := by simpa [hd] using hsym
    exact hlt
  · cases hsym

/-- A record without a match is a literal's (R34). -/
theorem MatchRecord.hasLit_of_no_match (h0 : ¬ 0 < r.length) : r.hasLit = true := by
  rcases wellFormed_kinds hc hr with ⟨b, rfl⟩ | ⟨_, _, _, hpos, rfl⟩
  · rfl
  · exact absurd hpos h0

theorem MatchRecord.litSyms_length :
    (r.litSyms c).length = 1 + if 0 < r.length ∧ r.hasLit = true then 1 else 0 := by
  by_cases h0 : 0 < r.length
  · obtain ⟨l, _, hl, _⟩ := wellFormed_rows hc hr h0
    cases hlit : r.hasLit <;> simp [MatchRecord.litSyms, h0, hl, hlit]
  · simp [MatchRecord.litSyms, h0, MatchRecord.hasLit_of_no_match hc hr h0]

theorem MatchRecord.distSyms_length : (r.distSyms c).length = if 0 < r.length then 1 else 0 := by
  unfold MatchRecord.distSyms
  split
  · rename_i h0
    obtain ⟨_, d, _, _, hd, _⟩ := wellFormed_rows hc hr h0
    simp [hd]
  · rfl

/-- A record has no more symbols of an alphabet than it stands for bytes. -/
theorem MatchRecord.syms_le_span : (r.litSyms c).length ≤ r.span ∧ (r.distSyms c).length ≤ r.span := by
  rw [MatchRecord.litSyms_length hc hr, MatchRecord.distSyms_length hc hr, MatchRecord.span]
  by_cases h0 : 0 < r.length
  · cases r.hasLit <;> simp [h0] <;> omega
  · simp [h0, MatchRecord.hasLit_of_no_match hc hr h0]

end

theorem MatchRecord.litSyms_count (c : Config.Params) (r : MatchRecord) (k : Nat) :
    (r.litSyms c).count k = (if 0 < r.length ∧ (lenRow c r.length).map (·.sym) = some k then 1 else 0) +
      if r.hasLit = true ∧ r.lit.toNat = k then 1 else 0 := by
  rw [MatchRecord.litSyms, List.count_append]
  congr 1
  · cases h : lenRow c r.length <;> by_cases h0 : 0 < r.length <;> simp [h0, List.count_singleton]
  · cases r.hasLit <;> simp [List.count_singleton]

theorem MatchRecord.distSyms_count (c : Config.Params) (r : MatchRecord) (k : Nat) :
    (r.distSyms c).count k = if 0 < r.length ∧ (distRow c r.offset).map (·.sym) = some k then 1 else 0 := by
  unfold MatchRecord.distSyms
  cases h : distRow c r.offset <;> by_cases h0 : 0 < r.length <;> simp [h0, List.count_singleton]

/-! ## The symbols of the records -/

/-- The records with a property, counted one by one. -/
theorem length_filter_cons (p : MatchRecord → Bool) (r : MatchRecord) (rs : List MatchRecord) :
    ((r :: rs).filter p).length = (if p r = true then 1 else 0) + (rs.filter p).length := by
  rw [← List.countP_eq_length_filter, List.countP_cons, List.countP_eq_length_filter, Nat.add_comm]

theorem litSyms_count (c : Config.Params) (rs : List MatchRecord) (k : Nat) :
    (rs.flatMap (MatchRecord.litSyms c)).count k =
      (rs.filter fun r => 0 < r.length ∧ (lenRow c r.length).map (·.sym) = some k).length
        + (rs.filter fun r => r.hasLit = true ∧ r.lit.toNat = k).length := by
  induction rs with
  | nil => rfl
  | cons r rs ih =>
    rw [List.flatMap_cons, List.count_append, ih, MatchRecord.litSyms_count, length_filter_cons, length_filter_cons]
    simp only [decide_eq_true_eq]
    omega

theorem distSyms_count (c : Config.Params) (rs : List MatchRecord) (k : Nat) :
    (rs.flatMap (MatchRecord.distSyms c)).count k =
      (rs.filter fun r => 0 < r.length ∧ (distRow c r.offset).map (·.sym) = some k).length := by
  induction rs with
  | nil => rfl
  | cons r rs ih =>
    rw [List.flatMap_cons, List.count_append, ih, MatchRecord.distSyms_count, length_filter_cons]
    simp only [decide_eq_true_eq]

section
variable {c : Config.Params} (hc : c.Ok) {rs : List MatchRecord} (hrs : ∀ r ∈ rs, r.wellFormed c = true)
include hc hrs

theorem countRecords_eq (fs : List Nat × List Nat) :
    countRecords c rs fs = some ((rs.flatMap (MatchRecord.litSyms c)).foldl bump fs.1,
      (rs.flatMap (MatchRecord.distSyms c)).foldl bump fs.2) := by
  induction rs generalizing fs with
  | nil => rfl
  | cons r rs ih =>
    obtain ⟨hr, hrs⟩ := List.forall_mem_cons.1 hrs
    rw [countRecords, countRecord_eq hc hr, Option.bind_some, ih hrs]
    simp only [List.flatMap_cons, List.foldl_append]

theorem litSyms_range : ∀ sym ∈ rs.flatMap (MatchRecord.litSyms c), sym < c.nlit ∧ sym ≠ 256 := fun sym hsym => by
  obtain ⟨r, hr, hsym⟩ := List.mem_flatMap.1 hsym
  exact MatchRecord.litSyms_range hc (hrs r hr) sym hsym

theorem distSyms_range : ∀ sym ∈ rs.flatMap (MatchRecord.distSyms c), sym < c.ndist := fun sym hsym => by
  obtain ⟨r, hr, hsym⟩ := List.mem_flatMap.1 hsym
  exact MatchRecord.distSyms_range hc (hrs r hr) sym hsym

theorem litSyms_length : (rs.flatMap (MatchRecord.litSyms c)).length =
    rs.length + (rs.filter fun r => 0 < r.length ∧ r.hasLit = true).length := by
  induction rs with
  | nil => rfl
  | cons r rs ih =>
    obtain ⟨hr, hrs⟩ := List.forall_mem_cons.1 hrs
    rw [List.flatMap_cons, List.length_append, ih hrs, MatchRecord.litSyms_length hc hr, length_filter_cons,
      List.length_cons]
    simp only [decide_eq_true_eq]
    omega

theorem distSyms_length :
    (rs.flatMap (MatchRecord.distSyms c)).length = (rs.filter fun r => 0 < r.length).length := by
  induction rs with
  | nil => rfl
  | cons r rs ih =>
    obtain ⟨hr, hrs⟩ := List.forall_mem_cons.1 hrs
    rw [List.flatMap_cons, List.length_append, ih hrs, MatchRecord.distSyms_length hc hr, length_filter_cons]
    simp only [decide_eq_true_eq]

/-- The symbols of an alphabet are no more than the bytes the records stand for. -/
theorem syms_le_span : (rs.flatMap (MatchRecord.litSyms c)).length ≤ (rs.map MatchRecord.span).sum ∧
    (rs.flatMap (MatchRecord.distSyms c)).length ≤ (rs.map MatchRecord.span).sum := by
  rw [List.length_flatMap, List.length_flatMap]
  exact ⟨List.sum_le_sum fun r hr => (MatchRecord.syms_le_span hc (hrs r hr)).1,
    List.sum_le_sum fun r hr => (MatchRecord.syms_le_span hc (hrs r hr)).2⟩

end

/-! ## BLK.FREQ -/

/-- BLK.FREQ in closed form (R260). -/
theorem blkFreq_eq {s : State} (hc : s.cfg.Ok) (hrs : ∀ r ∈ s.recs, r.wellFormed s.cfg = true) :
    blkFreq s = .ok () (setFreqs .dist (occurrences s.cfg.ndist (s.recs.flatMap (MatchRecord.distSyms s.cfg)))
      (setFreqs .litlen (occurrences s.cfg.nlit (s.recs.flatMap (MatchRecord.litSyms s.cfg) ++ [s.cfg.eob])) s)) := by
  rw [blkFreq, countRecords_eq hc hrs]
  simp only [← occurrences_nil, foldl_bump_occurrences, bump_occurrences, List.nil_append]

/-- Settles O39: the frequencies are the occurrences of the records' symbols and of the end-of-block symbol. -/
theorem frequencyCount : Obligations.FrequencyCount := by
  intro s hc he hf hrs
  obtain ⟨hnlit, _, _, heob⟩ := hc.symbols
  have hlitRange := litSyms_range hc hrs
  obtain ⟨hlitSpan, hdistSpan⟩ := syms_le_span hc hrs
  have hexec : exec .blkFreq s = (blkFreq s).outcome fun _ => .none :=
    (unlessPending_ready he _).trans (needs_filled (by simpa [Filled.has] using hf) _)
  refine ⟨_, _, hexec.trans (by rw [blkFreq_eq hc hrs]; rfl), occurrences_length .., occurrences_length ..,
    fun k hk => ?_, fun k hk => ?_, ?_, ?_, ?_, fun f hmem => ?_⟩
  · rw [occurrences_get _ hk, List.count_append, litSyms_count, heob, List.count_singleton]
    simp only [beq_iff_eq, eq_comm (a := 256)]
  · rw [occurrences_get _ hk, distSyms_count]
  · have hnone : (s.recs.flatMap (MatchRecord.litSyms s.cfg)).count 256 = 0 :=
      List.count_eq_zero.2 fun h => (hlitRange 256 h).2 rfl
    rw [occurrences_get _ (by omega), List.count_append, hnone, heob]
    rfl
  · rw [occurrences_sum, List.length_append, litSyms_length hc hrs]
    · rfl
    · intro sym hsym
      rcases List.mem_append.1 hsym with h | h
      · exact (hlitRange sym h).1
      · have := List.mem_singleton.1 h
        omega
  · rw [occurrences_sum (distSyms_range hc hrs), distSyms_length hc hrs]
  · rcases List.mem_append.1 hmem with h | h
    · have hle := occurrences_le h
      rw [List.length_append, List.length_singleton] at hle
      omega
    · have hle := occurrences_le h
      omega

end Sys2Proof.Machine
end

section
/-! SUPPORT. A block decodes the same whatever was before it (R284, R349). Two runs of BLK.DEC, begun in states that
agree on the source, the cursor and the parameters, are followed side by side: each part of the header read makes more of
the two states agree, and nothing is read before both runs have written it. -/

namespace Sys2Proof.Machine

/-! ## Two runs side by side -/

/-- The frequency arrays can no longer be read (R349; log 29). -/
def Filled.FreqsDead (f : Filled) : Prop := f.litFreq = false ∧ f.distFreq = false ∧ f.clFreq = false

/-- What two runs begun in `s₀` and `r₀` have in common inside a block, before it has joined the stream's output. -/
structure Alike (s₀ r₀ s r : State) : Prop where
  source  : r.source = s.source
  cfg     : r.cfg = s.cfg
  bitPos  : r.bitPos = s.bitPos
  control : r.dstate = s.dstate ∧ r.bfinal = s.bfinal ∧ r.btype = s.btype
  err     : s.err = none ∧ r.err = none
  decoded : s.decoded = s₀.decoded ∧ r.decoded = r₀.decoded
  fresh   : r₀.fresh = s₀.fresh → r.fresh = s.fresh

/-- Both have read HLIT and HDIST, and HCLEN has cleared `clLen` (R245). -/
structure LengthsAlike (s₀ r₀ s r : State) : Prop extends Alike s₀ r₀ s r where
  hlit  : r.hlit = s.hlit
  hdist : r.hdist = s.hdist
  clLen : r.clLen = s.clLen

/-- Both have the code-length code and are at the length sequence (R245). -/
structure SeqAlike (s₀ r₀ s r : State) : Prop extends LengthsAlike s₀ r₀ s r where
  clCode : r.clCode = s.clCode
  seq    : r.seq = s.seq
  rle    : r₀.fresh = s₀.fresh → r.rle = s.rle
  freqs  : s.filled.FreqsDead ∧ r.filled.FreqsDead

/-- Both have split the sequence into the two length arrays (R236). -/
structure SplitAlike (s₀ r₀ s r : State) : Prop extends SeqAlike s₀ r₀ s r where
  litLen  : r.litLen = s.litLen
  distLen : r.distLen = s.distLen

/-- Both are in the data part of the block (R276, R277). -/
structure DataAlike (s₀ r₀ s r : State) : Prop extends SplitAlike s₀ r₀ s r where
  litCode  : r.litCode = s.litCode
  distCode : r.distCode = s.distCode
  recs     : r.recs = s.recs
  out      : r.out = s.out

/-- Two faults the host sees alike (R312). -/
structure SameFault (s r : State) : Prop where
  bitPos  : r.bitPos = s.bitPos
  control : r.dstate = s.dstate ∧ r.bfinal = s.bfinal ∧ r.btype = s.btype
  pending : s.err.isSome = true
  err     : r.err = s.err
  info    : r.errBitPos = s.errBitPos ∧ r.errValue = s.errValue

/-- Two steps that go on with one value in states with `R`, raise alike, or are the same fault of the model. -/
def Act.Agree {α : Type} (R : State → State → Prop) : Act α → Act α → Prop
  | .ok a s, .ok b r => b = a ∧ R s r
  | .raised s, .raised r => SameFault s r
  | .fault e, .fault f => f = e
  | _, _ => False

theorem Act.Agree.bind {α β : Type} {R R' : State → State → Prop} {x y : Act α} {f g : α → State → Act β}
    (h : x.Agree R y) (hfg : ∀ a s r, R s r → (f a s).Agree R' (g a r)) : (x.bind f).Agree R' (y.bind g) := by
  cases x <;> cases y
  case ok.ok a s b r =>
    obtain ⟨rfl, h⟩ := h
    exact hfg b s r h
  case raised.raised => exact h
  case fault.fault => exact h
  all_goals exact h.elim

section
variable {s₀ r₀ s r : State} {α : Type}

theorem Alike.raise {R : State → State → Prop} (h : Alike s₀ r₀ s r) (c : Cause) (v : Nat) :
    (raise c v s : Act α).Agree R (raise c v r) where
  bitPos  := h.bitPos
  control := ⟨congrArg DState.afterFault h.control.1, h.control.2⟩
  pending := rfl
  err     := rfl
  info    := ⟨h.bitPos, rfl⟩

theorem Alike.unread (h : Alike s₀ r₀ s r) : r.unread = s.unread := unread_congr h.source h.cfg h.bitPos

/-! ## Reading -/

/-- What two runs have in common stays so while both read on; the registers of symbol decode do not count. -/
structure ReadsTogether (s₀ r₀ : State) (R : State → State → Prop) : Prop where
  alike  : ∀ {s r}, R s r → Alike s₀ r₀ s r
  readOn : ∀ {s r}, R s r → ∀ j a n b m, R (s.readOn j a n) (r.readOn j b m)

theorem Alike.readsTogether : ReadsTogether s₀ r₀ (Alike s₀ r₀) where
  alike h := h
  readOn h j _ _ _ _ := { h with bitPos := congrArg (· + j) h.bitPos }

theorem LengthsAlike.readsTogether : ReadsTogether s₀ r₀ (LengthsAlike s₀ r₀) where
  alike h := h.toAlike
  readOn h j _ _ _ _ := { h with bitPos := congrArg (· + j) h.bitPos }

theorem SeqAlike.readsTogether : ReadsTogether s₀ r₀ (SeqAlike s₀ r₀) where
  alike h := h.toAlike
  readOn h j _ _ _ _ := { h with bitPos := congrArg (· + j) h.bitPos }

theorem DataAlike.readsTogether : ReadsTogether s₀ r₀ (DataAlike s₀ r₀) where
  alike h := h.toAlike
  readOn h j _ _ _ _ := { h with bitPos := congrArg (· + j) h.bitPos }

/-- A header register that both have read stays the same. -/
theorem ReadsTogether.and {R : State → State → Prop} (hR : ReadsTogether s₀ r₀ R) {f : State → Nat}
    (hf : ∀ s j a n, f (s.readOn j a n) = f s) : ReadsTogether s₀ r₀ fun s r => R s r ∧ f r = f s where
  alike h := hR.alike h.1
  readOn h j a n b m := ⟨hR.readOn h.1 j a n b m, by rw [hf, hf, h.2]⟩

section
variable {R : State → State → Prop} (hR : ReadsTogether s₀ r₀ R)
include hR

theorem ReadsTogether.readBits (h : R s r) (n : Nat) : (readBits n s).Agree R (readBits n r) := by
  have hu := (hR.alike h).unread
  by_cases hn : n ≤ s.unread.length
  · rw [readBits_ok n s hn, readBits_ok n r (hu ▸ hn), hu]
    exact ⟨rfl, hR.readOn h n s.acc s.accLen r.acc r.accLen⟩
  · rw [readBits_raised n s (not_le.1 hn), readBits_raised n r (hu ▸ not_le.1 hn), hu]
    exact (hR.alike (hR.readOn h s.unread.length s.acc s.accLen r.acc r.accLen)).raise ..

theorem ReadsTogether.symDecLoop {codes : CodeArray} (h : R s r) (hacc : r.acc = s.acc ∧ r.accLen = s.accLen)
    (fuel : Nat) : (symDecLoop codes fuel s).Agree R (symDecLoop codes fuel r) := by
  induction fuel generalizing s r with
  | zero =>
    rw [Machine.symDecLoop, Machine.symDecLoop, hacc.1]
    exact (hR.alike h).raise ..
  | succ fuel ih =>
    rw [Machine.symDecLoop, Machine.symDecLoop]
    have hnext := (hR.alike h).unread
    cases hu : s.unread with
    | nil =>
      rw [readBit_nil s hu, readBit_nil r (hnext.trans hu)]
      exact (hR.alike h).raise ..
    | cons b bs =>
      rw [readBit_cons s b bs hu, readBit_cons r b bs (hnext.trans hu), Act.bind_ok, Act.bind_ok]
      dsimp only
      rw [hacc.1, hacc.2]
      have hon := hR.readOn h 1 (2 * s.acc + b.toNat) (s.accLen + 1) (2 * s.acc + b.toNat) (s.accLen + 1)
      cases findCode codes (2 * s.acc + b.toNat) (s.accLen + 1) with
      | some sym => exact ⟨rfl, hon⟩
      | none => exact ih hon ⟨rfl, rfl⟩

theorem ReadsTogether.symDec {a : Alphabet} (h : R s r) (hcodes : r.codes a = s.codes a) :
    (symDec a s).Agree R (symDec a r) := by
  have hlimit : r.cfg.decodeMaxbits = s.cfg.decodeMaxbits := congrArg _ (hR.alike h).cfg
  rw [Machine.symDec, Machine.symDec, hcodes, hlimit]
  exact hR.symDecLoop (hR.readOn h 0 0 0 0 0) ⟨rfl, rfl⟩ _

theorem ReadsTogether.readExtra (h : R s r) (table : List Config.CodeRow) (sym : Nat) :
    (readExtra table sym s).Agree R (readExtra table sym r) := by
  unfold Machine.readExtra
  cases rowOf table sym with
  | none => rfl
  | some row => exact (hR.readBits h row.extra).bind fun e s r h => ⟨rfl, h⟩

end

/-! ## The header -/

theorem Alike.setHclen (h : Alike s₀ r₀ s r) (hlit : r.hlit = s.hlit) (hdist : r.hdist = s.hdist) (v : Nat) :
    LengthsAlike s₀ r₀ (setHclen v s) (setHclen v r) :=
  { h with hlit, hdist, clLen := congrArg (fun c : Config.Params => List.replicate c.ncl 0) h.cfg }

theorem LengthsAlike.setClLen (h : LengthsAlike s₀ r₀ s r) (j v : Nat) :
    (setClLen j v s).Agree (LengthsAlike s₀ r₀) (setClLen j v r) := by
  have hperm : r.cfg.clperm = s.cfg.clperm := congrArg _ h.cfg
  rw [Machine.setClLen, Machine.setClLen, hperm]
  cases s.cfg.clperm[j]? with
  | none => rfl
  | some c =>
    dsimp only
    rw [h.clLen]
    split
    · exact ⟨rfl, { h with clLen := rfl }⟩
    · rfl

theorem LengthsAlike.readClLens (h : LengthsAlike s₀ r₀ s r) (j count : Nat) :
    (readClLens j count s).Agree (LengthsAlike s₀ r₀) (readClLens j count r) := by
  induction count generalizing j s r with
  | zero => exact ⟨rfl, h⟩
  | succ count ih =>
    exact (LengthsAlike.readsTogether.readBits h 3).bind fun v s r h =>
      (h.setClLen j v).bind fun _ s r h => ih h (j + 1)

/-- The free value of `rle` is drawn with the counter, and the frequency arrays are dead (log 29). -/
theorem LengthsAlike.beginSeq (h : LengthsAlike s₀ r₀ s r) : SeqAlike s₀ r₀ (beginSeq s) (beginSeq r) :=
  { h with
    fresh  := fun h0 => congrArg (· + 1) (h.fresh h0)
    clCode := congrArg canonCodes h.clLen
    seq    := rfl
    rle    := fun h0 => congrArg (fun k => (drawBuffers k).rle) (h.fresh h0)
    freqs  := ⟨⟨rfl, rfl, rfl⟩, ⟨rfl, rfl, rfl⟩⟩ }

theorem LengthsAlike.total (h : LengthsAlike s₀ r₀ s r) : r.total = s.total := by
  rw [State.total, State.total, h.hlit, h.hdist]

theorem SeqAlike.setSeq (h : SeqAlike s₀ r₀ s r) (ls : List Nat) :
    SeqAlike s₀ r₀ { s with seq := ls } { r with seq := ls } :=
  { h with seq := rfl }

theorem SeqAlike.rleStep (h : SeqAlike s₀ r₀ s r) (total : Nat) (p : ClPair) :
    (rleStep total p s).Agree (SeqAlike s₀ r₀) (rleStep total p r) := by
  have run (sym n v : Nat) : (appendRun total sym n v s).Agree (SeqAlike s₀ r₀) (appendRun total sym n v r) := by
    rw [appendRun, appendRun, h.seq]
    split
    · exact h.raise ..
    · exact ⟨rfl, h.setSeq _⟩
  cases p with
  | len v =>
    rw [Machine.rleStep, Machine.rleStep, h.seq]
    exact ⟨rfl, h.setSeq _⟩
  | rep x =>
    rw [Machine.rleStep, Machine.rleStep, h.seq]
    cases s.seq.getLast? with
    | none => exact h.raise ..
    | some v => exact run ..
  | z3 x => exact run ..
  | z11 x => exact run ..

theorem SeqAlike.clSymbol (h : SeqAlike s₀ r₀ s r) (c : Nat) :
    (clSymbol c s).Agree (SeqAlike s₀ r₀) (clSymbol c r) := by
  have step {s r : State} (h : SeqAlike s₀ r₀ s r) (p : ClPair) :
      (Machine.rleStep s.total p s).Agree (SeqAlike s₀ r₀) (Machine.rleStep r.total p r) := by
    rw [h.total]
    exact h.rleStep ..
  have extra (n : Nat) (p : Nat → ClPair) := (SeqAlike.readsTogether.readBits h n).bind fun x _ _ h => step h (p x)
  rw [Machine.clSymbol, Machine.clSymbol, h.seq]
  split
  · exact step h _
  split
  · split
    · exact h.raise ..
    · exact extra 2 .rep
  split
  · exact extra 3 .z3
  · exact extra 7 .z11

theorem SeqAlike.readSeq (h : SeqAlike s₀ r₀ s r) (fuel : Nat) :
    (readSeq fuel s).Agree (SeqAlike s₀ r₀) (readSeq fuel r) := by
  induction fuel generalizing s r with
  | zero => exact ⟨rfl, h⟩
  | succ fuel ih =>
    rw [Machine.readSeq, Machine.readSeq, h.seq, h.total]
    split
    · exact (SeqAlike.readsTogether.symDec (a := .cl) h h.clCode).bind fun c s r h =>
        (h.clSymbol c).bind fun _ s r h => ih h
    · exact ⟨rfl, h⟩

theorem SeqAlike.splitSeq (h : SeqAlike s₀ r₀ s r) : SplitAlike s₀ r₀ (splitSeq s) (splitSeq r) :=
  { h with
    litLen  := by change r.seq.take (r.hlit + 257) = _; rw [h.seq, h.hlit]; rfl
    distLen := by change (r.seq.take r.total).drop (r.hlit + 257) = _; rw [h.seq, h.hlit, h.total]; rfl }

theorem Alike.hdrRead (h : Alike s₀ r₀ s r) : (hdrRead s).Agree (SplitAlike s₀ r₀) (hdrRead r) := by
  have hlitRead := Alike.readsTogether (s₀ := s₀) (r₀ := r₀).and (f := fun s => s.hlit) fun _ _ _ _ => rfl
  have hdistRead := hlitRead.and (f := fun s => s.hdist) fun _ _ _ _ => rfl
  refine (Alike.readsTogether.readBits h 5).bind fun v s r h => ?_
  refine (hlitRead.readBits (s := setHlit v s) (r := setHlit v r) ⟨{ h with }, rfl⟩ 5).bind fun v s r ⟨h, hlit⟩ => ?_
  refine (hdistRead.readBits (s := setHdist v s) (r := setHdist v r) ⟨⟨{ h with }, hlit⟩, rfl⟩ 4).bind
    fun v s r ⟨⟨h, hlit⟩, hdist⟩ => ?_
  refine ((h.setHclen hlit hdist v).readClLens 0 (v + 4)).bind fun _ s r h => ?_
  rw [h.total]
  exact (h.beginSeq.readSeq s.total).bind fun _ s r h => ⟨rfl, h.splitSeq⟩

/-! ## The data part -/

theorem SplitAlike.beginData (h : SplitAlike s₀ r₀ s r) : DataAlike s₀ r₀ (beginData s) (beginData r) :=
  { h with
    litCode  := congrArg canonCodes h.litLen
    distCode := congrArg canonCodes h.distLen
    recs     := rfl
    out      := rfl }

theorem DataAlike.pushLiteral (h : DataAlike s₀ r₀ s r) (b : Byte) :
    DataAlike s₀ r₀ (pushLiteral b s) (pushLiteral b r) :=
  { h with recs := congrArg (· ++ [MatchRecord.literal b]) h.recs, out := congrArg (· ++ [b]) h.out }

theorem DataAlike.pushMatch (h : DataAlike s₀ r₀ s r) (dist len : Nat) (lit : Option Byte) :
    DataAlike s₀ r₀ (pushMatch dist len lit s) (pushMatch dist len lit r) :=
  { h with
    recs := congrArg (· ++ [MatchRecord.ofMatch dist len lit]) h.recs
    out  := congrArg (· ++ lit.toList) h.out }

theorem DataAlike.copyMatch (h : DataAlike s₀ r₀ s r) (dist len : Nat) :
    DataAlike s₀ r₀ (copyMatch dist len s) (copyMatch dist len r) :=
  { h with out := congrArg (fun out : List Byte => copyFrom (out.length - dist) len out) h.out }

theorem DataAlike.symbolLoop (h : DataAlike s₀ r₀ s r) (fuel : Nat) :
    (symbolLoop fuel s).Agree (DataAlike s₀ r₀) (symbolLoop fuel r) := by
  have reads := DataAlike.readsTogether (s₀ := s₀) (r₀ := r₀)
  induction fuel generalizing s r with
  | zero => exact h.raise ..
  | succ fuel ih =>
    refine (reads.symDec (a := .litlen) h h.litCode).bind fun sym s r h => ?_
    rw [h.cfg]
    split
    · exact ih (h.pushLiteral _)
    split
    · exact ⟨rfl, h⟩
    split
    · exact h.raise ..
    refine (reads.readExtra h _ sym).bind fun len s r h => ?_
    refine (reads.symDec (a := .dist) h h.distCode).bind fun d s r h => ?_
    rw [h.cfg]
    split
    · exact h.raise ..
    refine (reads.readExtra h _ d).bind fun dist s r h => ?_
    rw [h.out]
    split
    · exact h.raise ..
    have hcopy := h.copyMatch dist len
    refine (reads.symDec (a := .litlen) hcopy hcopy.litCode).bind fun t s r h => ?_
    rw [h.cfg]
    split
    · exact ih (h.pushMatch ..)
    split
    · exact ⟨rfl, h.pushMatch ..⟩
    · exact h.raise ..

end

/-! ## Whole blocks -/

/-- What the two runs leave when they complete (R279): after a dynamic block all that it made is the same, and its
output has joined the stream's. -/
structure EndsAlike (s₀ r₀ s r : State) : Prop where
  bitPos  : r.bitPos = s.bitPos
  control : r.dstate = s.dstate ∧ r.bfinal = s.bfinal ∧ r.btype = s.btype
  err     : s.err = none ∧ r.err = none
  data    : s.btype = 2 → DataAlike s₀ r₀ { s with decoded := s₀.decoded } { r with decoded := r₀.decoded } ∧
    s.decoded = s₀.decoded ++ s.out ∧ r.decoded = r₀.decoded ++ s.out

section
variable {s₀ r₀ s r : State}

theorem DataAlike.endBlock (h : DataAlike s₀ r₀ s r) : EndsAlike s₀ r₀ (endBlock s) (endBlock r) := by
  obtain ⟨_, hkind⟩ := h.control
  obtain ⟨hs, hr⟩ := h.decoded
  have hcontrol : (Machine.endBlock r).dstate = (Machine.endBlock s).dstate ∧ r.bfinal = s.bfinal ∧ r.btype = s.btype :=
    ⟨congrArg (fun f : Bool => if f then DState.done else .expectHeader) hkind.1, hkind⟩
  refine ⟨h.bitPos, hcontrol, h.err, fun _ => ⟨{ h with decoded := ⟨rfl, rfl⟩, control := hcontrol }, ?_, ?_⟩⟩
  · exact congrArg (· ++ s.out) hs
  · exact congrArg₂ (· ++ ·) hr h.out

theorem dynamicBlock_agree (h : ∀ b, Alike s₀ r₀ { s with btype := b } { r with btype := b }) :
    (dynamicBlock s).Agree (EndsAlike s₀ r₀) (dynamicBlock r) := by
  have hin : Alike s₀ r₀ { s with btype := 2, dstate := .dynamicHuffman }
      { r with btype := 2, dstate := .dynamicHuffman } := { h 2 with control := ⟨rfl, (h 2).control.2⟩ }
  refine hin.hdrRead.bind fun _ s r h => ?_
  have hdata := h.beginData
  rw [bitsLeft_eq, bitsLeft_eq, hdata.unread]
  exact (hdata.symbolLoop _).bind fun _ s r h => ⟨rfl, h.endBlock⟩

end

/-- A block when BFINAL and BTYPE have been read (R273 to R276). -/
def blockOfType (t : Nat) (s : State) : Act Unit :=
  if t = 0 then .ok () { s with btype := 0, dstate := .stored }
  else if t = 1 then raise .fixedHuffman 1 { s with btype := 1, dstate := .fixedHuffman }
  else if t = 3 then raise .reservedType 3 { s with btype := 3 }
  else dynamicBlock s

/-- Every kind of block writes BTYPE, so what stood there before does not count. -/
theorem blockOfType_agree {s₀ r₀ s r : State} (h : ∀ b, Alike s₀ r₀ { s with btype := b } { r with btype := b })
    (t : Nat) : (blockOfType t s).Agree (EndsAlike s₀ r₀) (blockOfType t r) := by
  have entered (d : DState) (b : Nat) :
      Alike s₀ r₀ { s with btype := b, dstate := d } { r with btype := b, dstate := d } :=
    { h b with control := ⟨rfl, (h b).control.2⟩ }
  unfold blockOfType
  split
  · have hstored := entered .stored 0
    exact ⟨rfl, hstored.bitPos, hstored.control, hstored.err, nofun⟩
  split
  · exact (entered .fixedHuffman 1).raise ..
  split
  · exact (h 3).raise ..
  · exact dynamicBlock_agree h

/-- BLK.DEC where the source has the three bits of the block's kind (R273). -/
theorem blkDec_typed {s : State} (h : 3 ≤ s.unread.length) :
    blkDec s = blockOfType (fieldValue ((s.unread.drop 1).take 2))
      (typeRead (decide (fieldValue (s.unread.take 1) = 1)) s) := by
  have hnext : ({ s with bitPos := s.bitPos + 1, bfinal := fieldValue (s.unread.take 1) = 1 } : State).unread =
      s.unread.drop 1 := unread_advance s 1
  rw [blkDec_eq, readBits_ok 1 s (by omega), Act.bind_ok, blockBody,
    readBits_ok 2 _ (by rw [hnext, List.length_drop]; omega), Act.bind_ok, hnext]
  rfl

/-- The source ends within the three bits of the block's kind (R311). -/
theorem blkDec_short {s : State} (h : s.unread.length < 3) :
    ∃ f, blkDec s = raise .endOfSource 0 { s with bitPos := s.bitPos + s.unread.length, bfinal := f } := by
  cases hu : s.unread with
  | nil => exact ⟨s.bfinal, blkDec_noBits hu⟩
  | cons b bs =>
    rw [hu, List.length_cons] at h
    have hnext (f : Bool) : ({ s with bitPos := s.bitPos + 1, bfinal := f } : State).unread = bs := by
      refine (unread_advance s 1).trans ?_
      rw [hu]
      rfl
    rw [blkDec_eq, readBits_ok 1 s (by simp [hu]), Act.bind_ok, blockBody,
      readBits_raised 2 _ (by rw [hnext]; omega), hnext]
    refine ⟨decide (fieldValue (s.unread.take 1) = 1), ?_⟩
    rw [List.length_cons, Nat.add_comm bs.length, ← Nat.add_assoc]
    rfl

/-- BLK.DEC answers in both states, with completions or faults that are alike. -/
theorem Act.Agree.outcome {α : Type} {R : State → State → Prop} {x y : Act α} {f : α → Result} {t : State}
    (h : x.Agree R y) (hx : x.outcome f = .next t) :
    ∃ q, y.outcome f = .next q ∧
      ((∃ w u v, R u v ∧ t = { u with result := w } ∧ q = { v with result := w }) ∨ SameFault t q) := by
  cases x <;> cases y
  case ok.ok a u b v =>
    obtain ⟨rfl, h⟩ := h
    exact ⟨_, rfl, .inl ⟨f b, u, v, h, (Host.Outcome.next.inj hx).symm, rfl⟩⟩
  case raised.raised u v => exact ⟨v, rfl, .inr (Host.Outcome.next.inj hx ▸ h)⟩
  case fault.fault => cases hx
  all_goals exact h.elim

/-- Settles O47: where the source ends within the three bits of the block's kind both runs raise there; else they are
alike from these bits on. -/
theorem blockIndependence : Obligations.BlockIndependence := by
  intro s r t hse hsd hsp hre hrd hrp hsource hpos hcfg hexec
  rw [execBlkDec_ready hse hsd hsp] at hexec
  rw [execBlkDec_ready hre hrd hrp]
  have hlen : s.unread.length = 8 * s.source.length - s.bitPos := unread_length s
  have hunread : r.unread = s.unread := unread_congr hsource hcfg hpos
  by_cases h3 : 3 ≤ s.unread.length
  · rw [blkDec_typed h3] at hexec
    rw [blkDec_typed (hunread ▸ h3), hunread]
    have hagree (f : Bool) (n : Nat) :
        (blockOfType n (typeRead f s)).Agree (EndsAlike s r) (blockOfType n (typeRead f r)) :=
      blockOfType_agree (s₀ := s) (r₀ := r) (s := typeRead f s) (r := typeRead f r) (fun _ =>
        ⟨hsource, hcfg, congrArg (· + 1 + 2) hpos, ⟨hrd.trans hsd.symm, rfl, rfl⟩, ⟨hse, hre⟩, ⟨rfl, rfl⟩, id⟩) n
    obtain ⟨q, hq, ⟨w, u, v, h, rfl, rfl⟩ | h⟩ := (hagree _ _).outcome hexec
    · obtain ⟨hdstate, hkind⟩ := h.control
      obtain ⟨hue, hve⟩ := h.err
      refine ⟨_, hq, h.bitPos, hdstate, hve.trans hue.symm, fun _ => hkind, fun he => by simp [hue] at he,
        fun _ hbtype => ?_⟩
      obtain ⟨hdata, hu, hv⟩ := h.data hbtype
      exact ⟨hdata.recs, hdata.out, hdata.litCode, hdata.distCode, hdata.clCode, hdata.seq, hdata.clLen, hdata.litLen,
        hdata.distLen, hu, hv,
        List.forall_mem_cons.2 ⟨hdata.freqs.1, List.forall_mem_singleton.2 hdata.freqs.2⟩, hdata.rle⟩
    · obtain ⟨hdstate, hkind⟩ := h.control
      refine ⟨q, hq, h.bitPos, hdstate, h.err, fun _ => hkind, fun _ => h.info, fun he => ?_⟩
      exact absurd h.pending (by simp [he])
  · obtain ⟨f, hf⟩ := blkDec_short (not_le.1 h3)
    obtain ⟨g, hg⟩ := blkDec_short (s := r) (hunread ▸ not_le.1 h3)
    rw [hf] at hexec
    obtain rfl := Host.Outcome.next.inj hexec
    rw [hg, hunread, hpos]
    exact ⟨_, rfl, rfl, by simp [takeFault, hrd, hsd], rfl, fun h => by omega, fun _ => ⟨rfl, rfl⟩, nofun⟩

end Sys2Proof.Machine
end

section
/-! SUPPORT. What holds of every instruction: all but two look for a pending error first (R314), and those of R302 that
do not read raise nothing. -/

namespace Sys2Proof.Machine

/-! ## A pending error -/

/-- Every meaning but those of CORE.RESET and CORE.STATUS begins with the check of R314. -/
theorem exec_guarded {i : Instr} (hreset : i ≠ .coreReset) (hstatus : i ≠ .coreStatus) (s : State) :
    ∃ k, exec i s = unlessPending s k := by
  cases i with
  | coreReset => exact absurd rfl hreset
  | coreStatus => exact absurd rfl hstatus
  | _ => exact ⟨_, rfl⟩

/-- Settles O10: the check comes first, whatever the instruction would go on to do. -/
theorem pendingErrorRefusesEverything : Obligations.PendingErrorRefusesEverything := by
  intro i s he hreset hstatus
  obtain ⟨k, hk⟩ := exec_guarded hreset hstatus s
  rw [hk, unlessPending_pending (errClass_ne_zero.1 he)]

/-! ## Operations that raise, and operations that do not -/

/-- Of the operations of R302 all but CORE.RESET leave the decoder alone. -/
theorem faultFree_cases {i : Instr} (h : i.faultFree = true) : i = .coreReset ∨ i.leavesDecoder = true := by
  cases i with
  | coreReset => exact .inl rfl
  | _ => exact .inr h

theorem exec_faultFree {i : Instr} {s t : State} (hi : i.faultFree = true) (he : s.err = none)
    (h : exec i s = .next t) : t.err = none := by
  rcases faultFree_cases hi with rfl | hi
  · obtain rfl : coreReset s = t := Host.Outcome.next.inj h
    rfl
  · obtain ⟨_, _, _, _, _, herr, _⟩ := (exec_encodes hi h).decoder
    exact herr.trans he

/-- Literal codes that count as filled, and no bit to read one from. -/
def noBits : State := { State.reset with filled := { litCode := true } }

/-- A symbol 16 with nothing before it to repeat (R306). -/
def repeatFirst : State := { State.reset with rle := [.rep 0], filled := { rle := true } }

/-- A match with nothing before it to copy (R310). -/
def matchFirst : State := { State.reset with recs := [⟨1, 3, 0#8, false⟩], filled := { recs := true } }

/-- Settles O13: an operation without faults leaves the decoder alone; at the end of the source the readers raise,
RLE.DEC and LZ.DECODE where there is nothing to repeat or to copy. -/
theorem onlyReadingOperationsFault : Obligations.OnlyReadingOperationsFault := by
  refine ⟨fun i s t hi he h => exec_faultFree hi he h, fun i hi => ?_⟩
  simp only [List.mem_cons, List.not_mem_nil, or_false] at hi
  rcases hi with rfl | rfl | rfl | rfl | rfl | rfl | rfl | rfl
  · exact ⟨noBits, _, rfl, rfl, rfl⟩
  · exact ⟨noBits, _, rfl, rfl, rfl⟩
  · exact ⟨noBits, _, rfl, rfl, rfl⟩
  · exact ⟨repeatFirst, _, rfl, rfl, rfl⟩
  · exact ⟨noBits, _, rfl, rfl, rfl⟩
  · exact ⟨matchFirst, _, rfl, rfl, rfl⟩
  · exact ⟨noBits, _, rfl, rfl, rfl⟩
  · exact ⟨noBits, _, rfl, rfl, rfl⟩

end Sys2Proof.Machine
end

section
/-! SUPPORT. The block types that end a decode operation at its third bit (R274, R275). -/

namespace Sys2Proof.Machine

/-- Where BLK.DEC does not come back to `ExpectHeader`, STRM.DEC is BLK.DEC (R282). -/
theorem exec_decode_single {i : Instr} {s : State} (hi : i ∈ [Instr.blkDec, .strmDec]) (he : s.err = none)
    (hd : s.dstate = .expectHeader) (hp : s.place = .bfinal)
    (hone : ∀ t, blkDec s = .ok () t → t.dstate ≠ .expectHeader) :
    exec i s = (blkDec s).outcome fun _ => .none := by
  rcases List.mem_pair.1 hi with rfl | rfl
  · exact execBlkDec_ready he hd hp
  · rw [execStrmDec_ready he hd hp, strmDec_eq]
    cases hx : blkDec s with
    | ok a t => rw [Act.bind_ok, if_neg (hone t hx)]
    | raised t => rfl
    | fault e => rfl

/-- The first three bits of a block name its kind (R92, R273). -/
theorem blkDec_threeBits {s : State} {f a b : Bool} {rest : List Bool} (h : s.unread = f :: a :: b :: rest) :
    blkDec s = blockOfType (fieldValue [a, b]) (typeRead f s) := by
  have hfinal : decide (fieldValue [f] = 1) = f := by cases f <;> rfl
  rw [blkDec_typed (by simp [h]), h]
  exact congrArg (fun f => blockOfType _ (typeRead f s)) hfinal

theorem blockOfType_stored (s : State) : blockOfType 0 s = .ok () { s with btype := 0, dstate := .stored } := rfl

theorem blockOfType_fixed (s : State) :
    blockOfType 1 s = raise .fixedHuffman 1 { s with btype := 1, dstate := .fixedHuffman } := rfl

theorem blockOfType_reserved (s : State) : blockOfType 3 s = raise .reservedType 3 { s with btype := 3 } := rfl

/-- Settles O44: BTYPE 0 completes and 1 and 3 raise, all of them outside `ExpectHeader`. -/
theorem otherBlockTypes : Obligations.OtherBlockTypes := by
  intro i s f rest hi he hd hp
  refine ⟨fun hbits => ?_, fun hbits => ?_, fun hbits => ?_⟩
  · have hblock := (blkDec_threeBits hbits).trans (blockOfType_stored _)
    rw [exec_decode_single hi he hd hp (fun t ht => by cases hblock.symm.trans ht; nofun), hblock]
    rfl
  · have hblock := (blkDec_threeBits hbits).trans (blockOfType_fixed _)
    have hexec := exec_decode_single hi he hd hp fun t ht => by cases hblock.symm.trans ht
    rw [hblock] at hexec
    exact ⟨_, hexec, (raised_takeFault ..).of_dstate (d := .fixedHuffman) nofun (by simp [hd])⟩
  · have hblock := (blkDec_threeBits hbits).trans (blockOfType_reserved _)
    have hexec := exec_decode_single hi he hd hp fun t ht => by cases hblock.symm.trans ht
    rw [hblock] at hexec
    exact ⟨_, hexec, raised_takeFault ..⟩

end Sys2Proof.Machine
end

section
/-! SUPPORT. The values of the faults (R300, R303 to R311). What a step raises has a value in the range its cause allows:
first for the steps inside an operation, then for a block, which is a run of its elements, then for every instruction. -/

namespace Sys2Proof.Machine

/-! ## Values and causes -/

/-- The value recorded with a fault of this cause is one its rule gives (R303 to R311). -/
def State.ErrValueFits (t : State) : Cause → Prop
  | .noCodeMatch => t.errValue < 2 ^ t.cfg.decodeMaxbits
  | .symbolOutOfRange => t.errValue ∈ [286, 287, 30, 31]
  | .repeatNoPrevious => t.errValue = 16
  | .repeatOverrun => t.errValue ∈ [16, 17, 18]
  | .trailingNotLiteral => 257 ≤ t.errValue ∧ t.errValue ≤ 287
  | .distanceTooFar => 1 ≤ t.errValue ∧ t.errValue ≤ t.cfg.wsize
  | .fixedHuffman => t.errValue = 1 ∧ t.btype = 1
  | .reservedType => t.errValue = 3 ∧ t.btype = 3
  | .endOfSource => t.errValue = 0 ∧ 8 * t.source.length ≤ t.errBitPos

/-- A fault in which the step ends has a fitting value; the result word tells that it is one (R312). -/
structure Act.RaisesFit {α : Type} (x : Act α) : Prop where
  fits : ∀ t c, x = .raised t → t.result = .failed c → t.ErrValueFits c

/-- A fault that is the answer of an operation has a fitting value. -/
structure AnswerFits (o : Out) : Prop where
  fits : ∀ t c, o = .next t → t.result = .failed c → t.ErrValueFits c

section
variable {α β : Type}

theorem ok_raisesFit (a : α) (s : State) : (Act.ok a s).RaisesFit := ⟨fun _ _ h => nomatch h⟩

theorem fault_raisesFit (e : Fault) : (Act.fault e : Act α).RaisesFit := ⟨fun _ _ h => nomatch h⟩

theorem raise_raisesFit {c : Cause} {v : Nat} {s : State} (h : (takeFault c v s).ErrValueFits c) :
    (raise c v s : Act α).RaisesFit := by
  refine ⟨fun t c' ht hc => ?_⟩
  cases ht
  cases hc
  exact h

theorem symbolOutOfRange_raisesFit {v : Nat} (h : v = 286 ∨ v = 287 ∨ v = 30 ∨ v = 31) (s : State) :
    (raise .symbolOutOfRange v s : Act α).RaisesFit := by
  refine raise_raisesFit ?_
  change v ∈ [286, 287, 30, 31]
  simpa using h

theorem trailingNotLiteral_raisesFit {v : Nat} (h : 257 ≤ v ∧ v ≤ 287) (s : State) :
    (raise .trailingNotLiteral v s : Act α).RaisesFit := raise_raisesFit h

theorem distanceTooFar_raisesFit {v : Nat} {s : State} (h : 1 ≤ v ∧ v ≤ s.cfg.wsize) :
    (raise .distanceTooFar v s : Act α).RaisesFit := raise_raisesFit h

theorem Act.RaisesFit.bind {x : Act α} {f : α → State → Act β} (hx : x.RaisesFit)
    (hf : ∀ a t, x = .ok a t → (f a t).RaisesFit) : (x.bind f).RaisesFit := by
  refine ⟨fun t c ht hc => ?_⟩
  rcases Act.bind_eq_raised ht with h | ⟨a, u, hu, h⟩
  · exact hx.fits t c h hc
  · exact (hf a u hu).fits t c h hc

/-- An operation made of such a step; the result word of its completion is no fault's. -/
theorem Act.RaisesFit.answer {x : Act α} {r : α → Result} (hx : x.RaisesFit) (hr : ∀ a c, r a ≠ .failed c) :
    AnswerFits (x.outcome r) := by
  refine ⟨fun t c h hc => ?_⟩
  rcases Act.outcome_eq_next h with ⟨a, u, _, rfl⟩ | h
  · exact absurd hc (hr a c)
  · exact hx.fits t c h hc

theorem Act.RaisesFit.element {x : Act Unit} (hx : x.RaisesFit) : AnswerFits (element x) := hx.answer nofun

end

theorem refused_answerFits (r : Refusal) : AnswerFits (.refused r) := ⟨fun _ _ h => nomatch h⟩

theorem outOfPlace_answerFits : AnswerFits outOfPlace := refused_answerFits _

theorem complete_answerFits (s : State) : AnswerFits (complete .none s) := (ok_raisesFit () s).element

theorem unlessPending_answerFits {s : State} {k : Out} (h : s.err = none → AnswerFits k) :
    AnswerFits (unlessPending s k) where
  fits t c ht := have ⟨he, hk⟩ := unlessPending_eq ht nofun; (h he).fits t c hk

theorem needs_answerFits {bs : List Buffer} {s : State} {k : Out} (h : AnswerFits k) : AnswerFits (needs bs s k) where
  fits t c ht := h.fits t c (needs_eq ht nofun)

theorem onAlphabet_answerFits {a : Nat} {k : Alphabet → Out} (h : ∀ x, AnswerFits (k x)) :
    AnswerFits (onAlphabet a k) where
  fits t c ht := have ⟨x, _, hk⟩ := onAlphabet_eq ht nofun; (h x).fits t c hk

theorem atBlockStart_answerFits {s : State} {k : Out} (h : s.dstate = .expectHeader → AnswerFits k) :
    AnswerFits (atBlockStart s k) where
  fits t c ht := have ⟨hd, _, hk⟩ := atBlockStart_eq ht nofun; (h hd).fits t c hk

/-! ## Reading -/

/-- Past the bits not yet read the source has ended. -/
theorem source_le_bitPos (s : State) : 8 * s.source.length ≤ s.bitPos + s.unread.length := by
  rw [unread_length]
  omega

theorem readBits_raisesFit (n : Nat) (s : State) : (readBits n s).RaisesFit := by
  rcases readBits_cases n s with ⟨_, h⟩ | ⟨_, h⟩ <;> rw [h]
  · exact ok_raisesFit ..
  · exact raise_raisesFit ⟨rfl, source_le_bitPos s⟩

theorem readBit_raisesFit (s : State) : (readBit s).RaisesFit := by
  cases hu : s.unread with
  | nil =>
    have hend := source_le_bitPos s
    rw [hu] at hend
    rw [readBit_nil s hu]
    exact raise_raisesFit ⟨rfl, hend⟩
  | cons b bs =>
    rw [readBit_cons s b bs hu]
    exact ok_raisesFit ..

theorem codeValue_lt (bits : List Bool) : codeValue bits < 2 ^ bits.length := by
  induction bits using List.reverseRecOn with
  | nil => decide
  | append_singleton bits b ih =>
    have hstep : codeValue (bits ++ [b]) = 2 * codeValue bits + b.toNat := by simp [codeValue]
    have hbit := b.toNat_lt
    rw [hstep, List.length_append, List.length_singleton, Nat.pow_succ]
    omega

/-- The bits of no code are at most `DECODE_MAXBITS` (R304). -/
theorem symDec_raisesFit (a : Alphabet) (s : State) : (symDec a s).RaisesFit := by
  rcases symDec_cases a s with ⟨sym, l, _, _, _, _, h⟩ | ⟨_, ⟨hlen, h⟩ | ⟨_, v, k, h⟩⟩ <;> rw [h]
  · exact ok_raisesFit ..
  · have hlt := codeValue_lt (s.unread.take s.cfg.decodeMaxbits)
    rw [List.length_take, Nat.min_eq_left hlen] at hlt
    exact raise_raisesFit hlt
  · exact raise_raisesFit ⟨rfl, source_le_bitPos s⟩

/-! ## Run-length pairs and the header -/

theorem rleStep_raisesFit (total : Nat) (p : ClPair) (s : State) : (rleStep total p s).RaisesFit := by
  rcases rleStep_cases total p s with ⟨ls, _, _, h⟩ | ⟨_, h⟩ | ⟨ls, _, _, hrepeat, h⟩ <;> rw [h]
  · exact ok_raisesFit ..
  · exact raise_raisesFit rfl
  · refine raise_raisesFit ?_
    change p.sym ∈ [16, 17, 18]
    cases p with
    | len v => exact absurd rfl (hrepeat v)
    | rep x | z3 x | z11 x => simp [ClPair.sym]

theorem clSymbol_raisesFit (c : Nat) (s : State) : (clSymbol c s).RaisesFit := by
  unfold clSymbol
  split
  · exact rleStep_raisesFit ..
  split
  · split
    · exact raise_raisesFit rfl
    · exact (readBits_raisesFit ..).bind fun _ _ _ => rleStep_raisesFit ..
  split <;> exact (readBits_raisesFit ..).bind fun _ _ _ => rleStep_raisesFit ..

theorem setClLen_raisesFit (k v : Nat) (s : State) : (setClLen k v s).RaisesFit := by
  rcases setClLen_cases k v s with ⟨c, _, _, h⟩ | ⟨e, h⟩ <;> rw [h]
  · exact ok_raisesFit ..
  · exact fault_raisesFit _

theorem readClLens_raisesFit (k count : Nat) (s : State) : (readClLens k count s).RaisesFit := by
  induction count generalizing k s with
  | zero => exact ok_raisesFit ..
  | succ count ih =>
    exact (readBits_raisesFit 3 s).bind fun v t _ => (setClLen_raisesFit k v t).bind fun _ u _ => ih (k + 1) u

theorem readSeq_raisesFit (fuel : Nat) (s : State) : (readSeq fuel s).RaisesFit := by
  induction fuel generalizing s with
  | zero => exact ok_raisesFit ..
  | succ fuel ih =>
    unfold readSeq
    split
    · exact (symDec_raisesFit ..).bind fun c t _ => (clSymbol_raisesFit c t).bind fun _ u _ => ih u
    · exact ok_raisesFit ..

theorem hdrRead_raisesFit (s : State) : (hdrRead s).RaisesFit :=
  (readBits_raisesFit ..).bind fun _ _ _ => (readBits_raisesFit ..).bind fun _ _ _ =>
    (readBits_raisesFit ..).bind fun _ _ _ => (readClLens_raisesFit ..).bind fun _ _ _ =>
    (readSeq_raisesFit ..).bind fun _ _ _ => ok_raisesFit ..

theorem rleDecLoop_answerFits (total : Nat) (ps : List ClPair) (s : State) : AnswerFits (rleDecLoop total ps s) := by
  induction ps generalizing s with
  | nil =>
    unfold rleDecLoop
    split
    · exact refused_answerFits _
    · exact complete_answerFits s
  | cons p ps ih =>
    unfold rleDecLoop
    split
    · exact refused_answerFits _
    have hstep := rleStep_raisesFit total p s
    cases hx : rleStep total p s with
    | ok a t => exact ih t
    | raised t => exact (hx ▸ hstep).element
    | fault e => exact (fault_raisesFit (α := Unit) e).element

/-! ## Matches -/

theorem readExtra_raisesFit (table : List Config.CodeRow) (sym : Nat) (s : State) :
    (readExtra table sym s).RaisesFit := by
  unfold readExtra
  split
  · exact fault_raisesFit _
  · exact (readBits_raisesFit ..).bind fun _ _ _ => ok_raisesFit ..

/-- A distance read from the stream is one of the window's (R152, R310). -/
theorem readExtra_distance {d dist : Nat} {s t : State} (hc : s.cfg.Ok)
    (h : readExtra s.cfg.distTable d s = .ok dist t) : 1 ≤ dist ∧ dist ≤ t.cfg.wsize := by
  have hcfg : t.cfg = s.cfg := by rw [readExtra_ok h]
  unfold readExtra at h
  split at h
  · cases h
  · rename_i r hr
    obtain ⟨e, u, hu, h⟩ := Act.bind_eq_ok h
    cases h
    have hmem : r ∈ s.cfg.distTable := (rowOf_eq_some hr).1
    have hpos : 1 ≤ r.base := distTable_base_pos hc hmem
    have hextra : e < 2 ^ r.extra := readBits_lt hu
    obtain ⟨_, _, _, _, hwindow⟩ := hc.distTable
    have hmax : r.base + 2 ^ r.extra ≤ s.cfg.wsize + 1 := hwindow r hmem
    rw [hcfg]
    omega

/-- The distance of a well-formed match is one of the window's (R34). -/
theorem offset_of_wellFormed {c : Config.Params} {r : MatchRecord} (h : r.wellFormed c = true) (h0 : 0 < r.length) :
    1 ≤ r.offset ∧ r.offset ≤ c.wsize := by
  simp only [MatchRecord.wellFormed, Bool.or_eq_true, Bool.and_eq_true, decide_eq_true_eq] at h
  omega

theorem lzSteps_raisesFit {rs : List MatchRecord} {s : State} (h : ∀ r ∈ rs, r.wellFormed s.cfg = true) :
    (lzSteps rs s).RaisesFit := by
  induction rs generalizing s with
  | nil => exact ok_raisesFit ..
  | cons r rs ih =>
    obtain ⟨hr, hrs⟩ := List.forall_mem_cons.1 h
    unfold lzSteps
    rcases lzStep_cases r s with ⟨_, copy, _, _, hx⟩ | ⟨h0, _, hx⟩ <;> rw [hx]
    · exact ih hrs
    · exact distanceTooFar_raisesFit (offset_of_wellFormed hr h0)

/-! ## Blocks -/

theorem elementHead_raisesFit (p : Place) (s : State) : (elementHead p s).RaisesFit := by
  cases p with
  | bfinal | btype | hlit | hdist | hclen | cllen => exact readBits_raisesFit ..
  | clsym | record | dist | trailing => exact symDec_raisesFit ..

/-- A block's code sets have 288 and 32 symbols at most, so no symbol beyond those can be met (R100, R101). -/
theorem elementTail_raisesFit {p : Place} {v : Nat} {s t : State} (hs : StandsAt p s)
    (hv : elementHead p s = .ok v t) : (elementTail p v t).RaisesFit := by
  obtain ⟨hcfg, _, _⟩ := hs.read hv
  obtain ⟨hnlit, hndist, _, heob⟩ := hcfg.symbols
  cases p with
  | bfinal | hlit | hdist | hclen => exact ok_raisesFit ..
  | btype =>
    rw [elementTail]
    split
    · exact ok_raisesFit ..
    split
    · exact raise_raisesFit ⟨rfl, rfl⟩
    split
    · exact raise_raisesFit ⟨rfl, rfl⟩
    · exact ok_raisesFit ..
  | cllen k =>
    refine (setClLen_raisesFit k v t).bind fun _ u _ => ?_
    split <;> exact ok_raisesFit ..
  | clsym =>
    refine (clSymbol_raisesFit v t).bind fun _ u _ => ?_
    split <;> exact ok_raisesFit ..
  | record =>
    obtain ⟨_, _, _, hlen, _⟩ := hs.prepared
    have hlt : v < 288 := (symDec_ok hv).1.trans_le hlen
    rw [elementTail]
    split
    · exact ok_raisesFit ..
    split
    · exact ok_raisesFit ..
    split
    · exact symbolOutOfRange_raisesFit (by omega) _
    · exact (readExtra_raisesFit ..).bind fun _ _ _ => ok_raisesFit ..
  | dist len =>
    obtain ⟨_, _, _, _, hlen⟩ := hs.prepared
    have hlt : v < 32 := (symDec_ok hv).1.trans_le hlen
    rw [elementTail]
    split
    · exact symbolOutOfRange_raisesFit (by omega) _
    refine (readExtra_raisesFit ..).bind fun dist u hu => ?_
    split
    · exact distanceTooFar_raisesFit (readExtra_distance hcfg hu)
    · exact ok_raisesFit ..
  | trailing len dist =>
    obtain ⟨_, _, _, hlen, _⟩ := hs.prepared
    have hlt : v < 288 := (symDec_ok hv).1.trans_le hlen
    rw [elementTail]
    split
    · exact ok_raisesFit ..
    split
    · exact ok_raisesFit ..
    · exact trailingNotLiteral_raisesFit (by omega) t

/-- From every place of a block on: the fault is that of an element (R313). -/
theorem elements_raiseFit {p : Place} {s : State} (hs : StandsAt p s) :
    ((elementAct p s).bind blockRest).RaisesFit := by
  induction hn : s.bitsLeft using Nat.strong_induction_on generalizing p s with
  | _ n ih =>
    have hact : (elementAct p s).RaisesFit :=
      (elementHead_raisesFit p s).bind fun v t hv => elementTail_raisesFit hs hv
    refine hact.bind fun p' u hu => ?_
    by_cases hp : p' = .bfinal
    · subst hp
      exact ok_raisesFit ..
    · have hstands := elementAct_stands hs hu hp
      rw [blockRest_elements hstands hp]
      exact ih _ (hn ▸ elementAct_bitsLeft hu) hstands rfl

theorem blkDec_raisesFit {s : State} (hs : StandsAt .bfinal s) : (blkDec s).RaisesFit := by
  rw [blkDec_elements]
  exact elements_raiseFit hs

theorem strmDec_raisesFit {s : State} (hs : StandsAt .bfinal s) : (strmDec s.bitsLeft s).RaisesFit := by
  induction hn : s.bitsLeft using Nat.strong_induction_on generalizing s with
  | _ n ih =>
    rw [← hn, strmDec_eq]
    refine (blkDec_raisesFit hs).bind fun _ t ht => ?_
    split
    · rename_i hd
      obtain ⟨⟨_, _, _, hcfg⟩, _, _, herr, _⟩ := ((blkDec_reads s).advances ht).frame
      exact ih _ (hn ▸ blkDec_bitsLeft ht) ⟨hcfg ▸ hs.cfg, herr.trans hs.err, hd⟩ rfl
    · exact ok_raisesFit ..

/-! ## Instructions -/

theorem btypeElement_answerFits (v : Nat) (s : State) : AnswerFits (btypeElement v s) := by
  refine unlessPending_answerFits fun _ => ?_
  split
  · refine Act.RaisesFit.element ?_
    split
    · exact ok_raisesFit ..
    split
    · exact raise_raisesFit ⟨rfl, rfl⟩
    split
    · exact raise_raisesFit ⟨rfl, rfl⟩
    · exact ok_raisesFit ..
  · exact outOfPlace_answerFits

theorem execCllen_answerFits (l : Nat) (s : State) : AnswerFits (execCllen l s) := by
  refine unlessPending_answerFits fun _ => ?_
  split
  · refine ((setClLen_raisesFit ..).bind fun _ t _ => ?_).element
    unfold afterClLen
    split <;> exact ok_raisesFit ..
  · exact outOfPlace_answerFits

theorem clElement_answerFits (c : Nat) (s : State) : AnswerFits (clElement c s) := by
  refine unlessPending_answerFits fun _ => ?_
  split
  · refine ((clSymbol_raisesFit c s).bind fun _ t _ => ?_).element
    unfold afterClSymbol
    split <;> exact ok_raisesFit ..
  · exact outOfPlace_answerFits

/-- An element that only goes on to another place raises nothing. -/
theorem headerField_answerFits (p q : Place) (s u : State) :
    AnswerFits (unlessPending s (if s.place = p then element (goTo q u) else outOfPlace)) := by
  refine unlessPending_answerFits fun _ => ?_
  split
  · exact (ok_raisesFit ..).element
  · exact outOfPlace_answerFits

theorem litElement_answerFits (b : Byte) (s : State) : AnswerFits (litElement b s) := by
  refine unlessPending_answerFits fun _ => ?_
  split
  · exact (ok_raisesFit ..).element
  · exact (ok_raisesFit ..).element
  · exact outOfPlace_answerFits

theorem eobElement_answerFits (s : State) : AnswerFits (eobElement s) := by
  refine unlessPending_answerFits fun _ => ?_
  split
  · exact (ok_raisesFit ..).element
  · exact (ok_raisesFit ..).element
  · exact outOfPlace_answerFits

theorem lenElement_answerFits {sym : Nat} (h : 257 ≤ sym ∧ sym ≤ 287) (s : State) :
    AnswerFits (lenElement sym s) := by
  refine unlessPending_answerFits fun _ => ?_
  split
  · exact ((readExtra_raisesFit ..).bind fun _ _ _ => ok_raisesFit ..).element
  · exact (trailingNotLiteral_raisesFit h s).element
  · exact outOfPlace_answerFits

theorem litlenIllegalElement_answerFits {sym : Nat} (h : sym = 286 ∨ sym = 287) (s : State) :
    AnswerFits (litlenIllegalElement sym s) := by
  refine unlessPending_answerFits fun _ => ?_
  split
  · exact (symbolOutOfRange_raisesFit (by omega) s).element
  · exact (trailingNotLiteral_raisesFit (by omega) s).element
  · exact outOfPlace_answerFits

theorem distElement_answerFits (sym : Nat) {s : State} (hc : s.cfg.Ok) : AnswerFits (distElement sym s) := by
  refine unlessPending_answerFits fun _ => ?_
  split
  · refine ((readExtra_raisesFit ..).bind fun dist t ht => ?_).element
    split
    · exact distanceTooFar_raisesFit (readExtra_distance hc ht)
    · exact ok_raisesFit ..
  · exact outOfPlace_answerFits

theorem distIllegalElement_answerFits {sym : Nat} (h : sym = 30 ∨ sym = 31) (s : State) :
    AnswerFits (distIllegalElement sym s) := by
  refine unlessPending_answerFits fun _ => ?_
  split
  · exact (symbolOutOfRange_raisesFit (by omega) s).element
  · exact outOfPlace_answerFits

/-- Every instruction that can raise gives the fault a fitting value. -/
theorem exec_answerFits {i : Instr} {s : State} (hc : s.cfg.Ok) (hi : i.faultFree = false) :
    AnswerFits (exec i s) := by
  cases i with
  | bsRbit => exact unlessPending_answerFits fun _ => (readBit_raisesFit s).answer nofun
  | bsRbits n =>
    refine unlessPending_answerFits fun _ => ?_
    split
    · exact refused_answerFits _
    · exact (readBits_raisesFit n s).answer nofun
  | lzDecode =>
    refine unlessPending_answerFits fun _ => needs_answerFits ?_
    split
    · rename_i hwf
      exact (lzSteps_raisesFit (s := { s with out := [] }) (List.all_eq_true.1 hwf)).answer nofun
    · exact refused_answerFits _
  | symDec a =>
    exact unlessPending_answerFits fun _ => onAlphabet_answerFits fun x => needs_answerFits
      ((symDec_raisesFit x s).answer nofun)
  | rleDec total => exact unlessPending_answerFits fun _ => needs_answerFits (rleDecLoop_answerFits ..)
  | hdrRead => exact unlessPending_answerFits fun _ => (hdrRead_raisesFit s).answer nofun
  | blkDec =>
    exact unlessPending_answerFits fun he => atBlockStart_answerFits fun hd =>
      (blkDec_raisesFit ⟨hc, he, hd⟩).answer nofun
  | strmDec =>
    exact unlessPending_answerFits fun he => atBlockStart_answerFits fun hd =>
      (strmDec_raisesFit ⟨hc, he, hd⟩).answer nofun
  | bfinal f =>
    exact unlessPending_answerFits fun _ => atBlockStart_answerFits fun _ => (ok_raisesFit ..).element
  | btypeStored | btypeFixed | btypeDynamic | btypeReserved => exact btypeElement_answerFits _ s
  | hlit | hdist | hclen => exact headerField_answerFits ..
  | cllen l => exact execCllen_answerFits l s
  | clLen | clRep | clZ3 | clZ11 => exact clElement_answerFits _ s
  | lit b => exact litElement_answerFits b s
  | eob => exact eobElement_answerFits s
  | len257 | len258 | len259 | len260 | len261 | len262 | len263 | len264 | len265 | len266 | len267 | len268 | len269
  | len270 | len271 | len272 | len273 | len274 | len275 | len276 | len277 | len278 | len279 | len280 | len281 | len282
  | len283 | len284 | len285 => exact lenElement_answerFits (by decide) s
  | litlenIllegal286 | litlenIllegal287 => exact litlenIllegalElement_answerFits (by decide) s
  | dist0 | dist1 | dist2 | dist3 | dist4 | dist5 | dist6 | dist7 | dist8 | dist9 | dist10 | dist11 | dist12 | dist13
  | dist14 | dist15 | dist16 | dist17 | dist18 | dist19 | dist20 | dist21 | dist22 | dist23 | dist24 | dist25 | dist26
  | dist27 | dist28 | dist29 => exact distElement_answerFits _ hc
  | distIllegal30 | distIllegal31 => exact distIllegalElement_answerFits (by decide) s
  | pad =>
    refine unlessPending_answerFits fun _ => ?_
    split
    · exact complete_answerFits s
    · exact outOfPlace_answerFits
  | _ => cases hi

/-- Settles O12: the fault is its instruction's answer, so its value fits the cause. -/
theorem faultValues : Obligations.FaultValues := by
  intro i s t c hc he h herr
  have hcfg : t.cfg = s.cfg := (unitsAreSeparate i s t h).2.2.2.1
  have hi : i.faultFree = false := Bool.eq_false_iff.2 fun hfree => by
    cases herr.symm.trans (exec_faultFree hfree he h)
  have hresult : t.result = .failed c := by
    obtain ⟨v, u, _, rfl⟩ := exec_raised he h herr
    rfl
  have hfits : t.ErrValueFits c := (exec_answerFits hc hi).fits t c h hresult
  rw [← hcfg]
  refine ⟨?_, ?_, ?_, ?_, ?_, ?_, ?_, ?_, ?_⟩ <;> rintro rfl <;> exact hfits

end Sys2Proof.Machine
end
